-- ==== Sys2Proof/Word.lean ====
section
/-! DEFINITION. The widths the spec names: bytes, register addresses, lengths, operation codes, the 32-byte buffers. -/

namespace Sys2Proof

/-- R7: a byte, bits 7 down to 0, unsigned. -/
abbrev Byte := BitVec 8

/-- R61: a chip register address, `REG_ADDR_BITS` = 5 bits. -/
abbrev RegAddr := BitVec 5

/-- R6, R21: `LINE_ID_W`, the width of a line identifier. -/
abbrev lineIdW : Nat := 8

/-- R21: a line identifier. -/
abbrev LineId := BitVec lineIdW

/-- R31: a length port, 6 bits. -/
abbrev Len := BitVec 6

/-- R31: an operation code, 6 bits. -/
abbrev OpCode := BitVec 6

/-- R63: an operand or response buffer, 32 bytes. -/
abbrev Buf := Vector Byte 32

end Sys2Proof
end

