-- ==== Sys2Proof/Config.lean ====
section
/-! DEFINITION. The parameters of 00_scope.md R6: the document's own literals as constants, the replaceable ones as the record
`Config` that State carries, and the open values. -/

namespace Sys2Proof

/-- The register map of 10_state.md R42 to R50: addresses `A_*`, bit positions `B_*`, lowest bits of fields `F_*`, and the two
constants built from them (`RegMap.constantsAgree`). Its values are general knowledge (D8 to D12), so every claim is about every map. -/
structure RegMap where
  aConfig : RegAddr
  aEnAa : RegAddr
  aEnRxaddr : RegAddr
  aSetupAw : RegAddr
  aSetupRetr : RegAddr
  aRfCh : RegAddr
  aRfSetup : RegAddr
  aStatus : RegAddr
  aObserveTx : RegAddr
  aCd : RegAddr
  aRxAddrP0 : RegAddr
  aTxAddr : RegAddr
  aRxPwP0 : RegAddr
  aFifoStatus : RegAddr
  aDynpd : RegAddr
  aFeature : RegAddr
  bPrimRx : Nat
  bPwrUp : Nat
  bCrco : Nat
  bEnCrc : Nat
  bStTxFull : Nat
  fRxPNo : Nat
  bMaxRt : Nat
  bTxDs : Nat
  bRxDr : Nat
  bRxEmpty : Nat
  bRxFull : Nat
  bTxEmpty : Nat
  bTxFull : Nat
  bLna : Nat
  fRfPwr : Nat
  bRfDr : Nat
  fArc : Nat
  fArd : Nat
  fRfCh : Nat
  configInit : Byte
  statusClear : Byte
deriving DecidableEq, Repr

/-- The values R6 gives the map. -/
def RegMap.standard : RegMap where
  aConfig := 0x00
  aEnAa := 0x01
  aEnRxaddr := 0x02
  aSetupAw := 0x03
  aSetupRetr := 0x04
  aRfCh := 0x05
  aRfSetup := 0x06
  aStatus := 0x07
  aObserveTx := 0x08
  aCd := 0x09
  aRxAddrP0 := 0x0A
  aTxAddr := 0x10
  aRxPwP0 := 0x11
  aFifoStatus := 0x17
  aDynpd := 0x1C
  aFeature := 0x1D
  bPrimRx := 0
  bPwrUp := 1
  bCrco := 2
  bEnCrc := 3
  bStTxFull := 0
  fRxPNo := 1
  bMaxRt := 4
  bTxDs := 5
  bRxDr := 6
  bRxEmpty := 0
  bRxFull := 1
  bTxEmpty := 4
  bTxFull := 5
  bLna := 0
  fRfPwr := 1
  bRfDr := 3
  fArc := 0
  fArd := 4
  fRfCh := 0
  configInit := 0x0C
  statusClear := 0x70

/-- The parameters a model takes as arguments (R6 `OPEN`, and the replaceable register map). Fixed while the machine runs. -/
structure Config where
  regMap : RegMap
  dummy : Byte
  pollLimit : Nat
  fClkHz : Nat
  sckDiv : Nat
deriving DecidableEq, Repr

namespace Config

/-- The defaults of R6. `fClkHz` and `sckDiv` have none there: DESIGN CHOICE (log 9), timing only. -/
def standard : Config where
  regMap := RegMap.standard
  dummy := 0xFF
  pollLimit := 0
  fClkHz := 16000000
  sckDiv := 1

/-- R16: a byte the block does not determine and no input list gives. No body: no proof can see its value. -/
opaque freeByte : Nat → Byte

/-- R281, U4: the level the board gives the CE and the CSN pin at a moment at which the block does not drive them. No body. The
three numbers tell moments apart. -/
opaque floatingCe : Nat → Nat → Nat → Bool
opaque floatingCsn : Nat → Nat → Nat → Bool

/-- R87: the six command bytes; the register commands are or-ed with an address. -/
def cmdRRegister : Byte := 0x00
def cmdWRegister : Byte := 0x20
def cmdRRxPayload : Byte := 0x61
def cmdWTxPayload : Byte := 0xA0
def cmdFlushTx : Byte := 0xE1
def cmdFlushRx : Byte := 0xE2

/-- R6: `MAX_PAYLOAD`, the size of the buffers. -/
def maxPayload : Nat := 32
/-- R48: the width of `F_RF_CH`, bits 6:0. -/
def rfChMask : Byte := 0x7F
/-- R6: `N_PIPES`. -/
def nPipes : Nat := 6
/-- R6: `AW_MIN`, `AW_MAX`. -/
def awMin : Nat := 3
def awMax : Nat := 5
/-- R6: `FIFO_DEPTH`. -/
def fifoDepth : Nat := 3

/-- R6: the delays, in microseconds and milliseconds. -/
def tPwrupUs : Nat := 1500
def tRxSettleUs : Nat := 130
def tTxSettleUs : Nat := 150
def tPollMs : Nat := 100

/-- R6: the settings of the link layer. -/
def linkChannel : Byte := 42
def linkPayload : Byte := 32
def linkArc : Byte := 10
def linkArd : Byte := 5
def linkRate : Byte := 0
def linkPwr : Byte := 0
def linkLna : Byte := 1

end Config

end Sys2Proof
end

