-- ==== Sys2Proof/Syntax.lean ====
section
/-! DEFINITION. The instructions: one constructor for each row of spec/opcode_table.json, its fields the row's operands
(30_encoding.md R95, R106); and the two forms a command takes, the host tuple (R92) and the wire frame (R85). -/

namespace Sys2Proof

/-- R92: a host command, the tuple on the command port; every operand port is there whether the operation uses it or not. -/
structure HostCmd where
  op : OpCode
  a0 : Byte
  a1 : Byte
  a2 : Byte
  len : Len
  buf : Buf
deriving DecidableEq, Repr

/-- What is given to a decoder: a host command (R92) or the bytes of one wire frame, the command byte first (R85). -/
inductive Command where
  | host (c : HostCmd)
  | wire (bytes : List Byte)
deriving DecidableEq, Repr

/-- R106: the six wire commands, as the first byte of a frame names them. -/
inductive WireOp where
  | readReg (a : RegAddr)
  | writeReg (a : RegAddr)
  | readPayload
  | writePayload
  | flushTx
  | flushRx
deriving DecidableEq, Repr

/-- One constructor per row of the opcode table. A wire row carries the data bytes the master sends after the command byte. -/
inductive Instr where
  -- wire commands, the chip's side
  | rRegister (a : RegAddr) (data : List Byte)
  | wRegister (a : RegAddr) (data : List Byte)
  | rRxPayload (data : List Byte)
  | wTxPayload (data : List Byte)
  | flushTx (data : List Byte)
  | flushRx (data : List Byte)
  -- SPI master
  | spiInitm
  | spiTx (byte : Byte)
  | spiRx
  | spiWrbuf (n : Len) (buf : Buf)
  | spiRdbuf (n : Len)
  -- register codec
  | nrfRdreg (reg : Byte) (n : Len)
  | nrfWrreg (reg : Byte) (n : Len) (buf : Buf)
  | nrfStatus
  | nrfClrstatus
  | nrfSetrf (rate power lna : Byte)
  | nrfSetch (frequency : Byte)
  | nrfSetretr (count delay : Byte)
  | nrfSetpw (pipe size : Byte)
  | nrfDispipe (pipe : Byte)
  | nrfSetrxaddr (pipe : Byte) (address : Buf)
  | nrfSettxaddr (address : Buf)
  -- mode control
  | nrfInit (ce csn : Byte)
  | nrfPwrup
  | nrfPwrdn
  | nrfModerx
  | nrfModetx
  | nrfStandby
  -- FIFO controller
  | nrfFlushtx
  | nrfFlushrx
  | nrfRxempty
  | nrfRxfull
  | nrfTxempty
  | nrfTxfull
  | nrfRdpl (n : Len)
  | nrfWrpl (n : Len) (buf : Buf)
  -- link sequencer
  | radioInit (ce csn : Byte)
  | radioWrite (n : Len) (payload : Buf)
  | radioRead (n : Len)
  | radioHaspl
deriving DecidableEq, Repr

end Sys2Proof
end

