-- ==== Sys2Proof/WellFormed.lean ====
section
/-! DEFINITION. Well-formed instructions: operands inside the ranges of 30_encoding.md R88, R94 and R100. An instruction that is
not well-formed still runs: a host operation then ends with InvalidArgument (60_exceptions.md R252). -/

namespace Sys2Proof

/-- Operands in range: R100 for host operations, R88 for the number of data bytes of a wire frame. -/
def Instr.wellFormed : Instr → Bool
  | .rRegister _ data => decide (data.length ≤ Config.maxPayload)
  | .wRegister _ data => decide (data.length ≤ Config.maxPayload)
  | .rRxPayload data => decide (data.length ≤ Config.maxPayload)
  | .wTxPayload data => decide (data.length ≤ Config.maxPayload)
  | .flushTx data => data.isEmpty
  | .flushRx data => data.isEmpty
  | .spiInitm => true
  | .spiTx _ => true
  | .spiRx => true
  | .spiWrbuf n _ => decide (n.toNat ≤ 32)
  | .spiRdbuf n => decide (n.toNat ≤ 32)
  | .nrfRdreg reg n => decide (reg.toNat ≤ 0x1F) && decide (n.toNat ≤ 32)
  | .nrfWrreg reg n _ => decide (reg.toNat ≤ 0x1F) && decide (n.toNat ≤ 32)
  | .nrfStatus => true
  | .nrfClrstatus => true
  | .nrfSetrf rate power lna => decide (rate.toNat ≤ 1) && decide (power.toNat ≤ 3) && decide (lna.toNat ≤ 1)
  | .nrfSetch _ => true
  | .nrfSetretr _ _ => true
  | .nrfSetpw pipe size => decide (pipe.toNat ≤ 5) && decide (size.toNat ≤ 32)
  | .nrfDispipe pipe => decide (pipe.toNat ≤ 5)
  | .nrfSetrxaddr pipe _ => decide (pipe.toNat ≤ 5)
  | .nrfSettxaddr _ => true
  | .nrfInit _ _ => true
  | .nrfPwrup => true
  | .nrfPwrdn => true
  | .nrfModerx => true
  | .nrfModetx => true
  | .nrfStandby => true
  | .nrfFlushtx => true
  | .nrfFlushrx => true
  | .nrfRxempty => true
  | .nrfRxfull => true
  | .nrfTxempty => true
  | .nrfTxfull => true
  | .nrfRdpl n => decide (n.toNat ≤ 32)
  | .nrfWrpl n _ => decide (n.toNat ≤ 32)
  | .radioInit _ _ => true
  | .radioWrite n _ => decide (n.toNat ≤ 32)
  | .radioRead n => decide (n.toNat ≤ 32)
  | .radioHaspl => true

/-- R167, R143: a register map whose two constants are made of its own bit positions. -/
def RegMap.constantsAgree (m : RegMap) : Bool :=
  decide (m.configInit = ((1 : Byte) <<< m.bEnCrc) ||| ((1 : Byte) <<< m.bCrco)) &&
    decide (m.statusClear = ((1 : Byte) <<< m.bRxDr) ||| ((1 : Byte) <<< m.bTxDs) ||| ((1 : Byte) <<< m.bMaxRt))

end Sys2Proof
end

