-- ==== Sys2Proof/Decode.lean ====
section
/-! DEFINITION. The decoder of 30_encoding.md: host operation codes (R95, R99) and wire command bytes (R86, R87, R90), total on
every command and every byte; the encoder written from the same tables; and `decodeTableWord`. -/

namespace Sys2Proof

/-- What the decoder answers: an instruction, or a rejection by name. -/
inductive Decoded where
  /-- the command is this instruction -/
  | instr (i : Instr)
  /-- R99: a reserved host operation code -/
  | illegalOp (code : OpCode)
  /-- R90, R229: a command byte that is none of the 68 known ones -/
  | unknownCommand (byte : Byte)
  /-- R11: a frame has at least its command byte -/
  | emptyFrame
deriving DecidableEq, Repr

/-- R86, R87, R90: 68 byte values are commands, 188 are unknown. -/
def decodeWire (b : Byte) : Option WireOp :=
  if b &&& 0xE0 = Config.cmdRRegister then some (.readReg (b.setWidth 5))
  else if b &&& 0xE0 = Config.cmdWRegister then some (.writeReg (b.setWidth 5))
  else if b = Config.cmdRRxPayload then some .readPayload
  else if b = Config.cmdWTxPayload then some .writePayload
  else if b = Config.cmdFlushTx then some .flushTx
  else if b = Config.cmdFlushRx then some .flushRx
  else none

/-- R86, R87: the command byte of a wire command. -/
def encodeWire : WireOp → Byte
  | .readReg a => Config.cmdRRegister ||| a.setWidth 8
  | .writeReg a => Config.cmdWRegister ||| a.setWidth 8
  | .readPayload => Config.cmdRRxPayload
  | .writePayload => Config.cmdWTxPayload
  | .flushTx => Config.cmdFlushTx
  | .flushRx => Config.cmdFlushRx

/-- R85: a frame is its command byte and its data bytes. -/
def decodeFrame : List Byte → Decoded
  | [] => .emptyFrame
  | b :: data =>
    match decodeWire b with
    | some (.readReg a) => .instr (.rRegister a data)
    | some (.writeReg a) => .instr (.wRegister a data)
    | some .readPayload => .instr (.rRxPayload data)
    | some .writePayload => .instr (.wTxPayload data)
    | some .flushTx => .instr (.flushTx data)
    | some .flushRx => .instr (.flushRx data)
    | none => .unknownCommand b

/-- R95: the operation code selects the operation, which takes the operand ports of its row and ignores the others (R92). -/
def decodeHost (c : HostCmd) : Decoded :=
  match c.op.toNat with
  | 0x00 => .instr .spiInitm
  | 0x01 => .instr (.spiTx c.a0)
  | 0x02 => .instr .spiRx
  | 0x03 => .instr (.spiWrbuf c.len c.buf)
  | 0x04 => .instr (.spiRdbuf c.len)
  | 0x10 => .instr (.nrfRdreg c.a0 c.len)
  | 0x11 => .instr (.nrfWrreg c.a0 c.len c.buf)
  | 0x12 => .instr .nrfStatus
  | 0x13 => .instr .nrfClrstatus
  | 0x14 => .instr (.nrfSetrf c.a0 c.a1 c.a2)
  | 0x15 => .instr (.nrfSetch c.a0)
  | 0x16 => .instr (.nrfSetretr c.a0 c.a1)
  | 0x17 => .instr (.nrfSetpw c.a0 c.a1)
  | 0x18 => .instr (.nrfDispipe c.a0)
  | 0x19 => .instr (.nrfSetrxaddr c.a0 c.buf)
  | 0x1A => .instr (.nrfSettxaddr c.buf)
  | 0x20 => .instr (.nrfInit c.a0 c.a1)
  | 0x21 => .instr .nrfPwrup
  | 0x22 => .instr .nrfPwrdn
  | 0x23 => .instr .nrfModerx
  | 0x24 => .instr .nrfModetx
  | 0x25 => .instr .nrfStandby
  | 0x28 => .instr .nrfFlushtx
  | 0x29 => .instr .nrfFlushrx
  | 0x2A => .instr .nrfRxempty
  | 0x2B => .instr .nrfRxfull
  | 0x2C => .instr .nrfTxempty
  | 0x2D => .instr .nrfTxfull
  | 0x2E => .instr (.nrfRdpl c.len)
  | 0x2F => .instr (.nrfWrpl c.len c.buf)
  | 0x30 => .instr (.radioInit c.a0 c.a1)
  | 0x31 => .instr (.radioWrite c.len c.buf)
  | 0x32 => .instr (.radioRead c.len)
  | 0x33 => .instr .radioHaspl
  | _ => .illegalOp c.op

/-- The decoder: total on every command. -/
def decode : Command → Decoded
  | .host c => decodeHost c
  | .wire bytes => decodeFrame bytes

/-- A host command with every operand port 0. -/
def HostCmd.ofOp (op : OpCode) : HostCmd where
  op := op
  a0 := 0
  a1 := 0
  a2 := 0
  len := 0
  buf := Vector.replicate 32 0

/-- R95 and R86, R87 from the operand side: the command of an instruction; a port the operation ignores is 0. -/
def encode : Instr → Command
  | .rRegister a data => .wire (encodeWire (.readReg a) :: data)
  | .wRegister a data => .wire (encodeWire (.writeReg a) :: data)
  | .rRxPayload data => .wire (encodeWire .readPayload :: data)
  | .wTxPayload data => .wire (encodeWire .writePayload :: data)
  | .flushTx data => .wire (encodeWire .flushTx :: data)
  | .flushRx data => .wire (encodeWire .flushRx :: data)
  | .spiInitm => .host (HostCmd.ofOp 0x00)
  | .spiTx a0 => .host { HostCmd.ofOp 0x01 with a0 := a0 }
  | .spiRx => .host (HostCmd.ofOp 0x02)
  | .spiWrbuf n buf => .host { HostCmd.ofOp 0x03 with len := n, buf := buf }
  | .spiRdbuf n => .host { HostCmd.ofOp 0x04 with len := n }
  | .nrfRdreg a0 n => .host { HostCmd.ofOp 0x10 with a0 := a0, len := n }
  | .nrfWrreg a0 n buf => .host { HostCmd.ofOp 0x11 with a0 := a0, len := n, buf := buf }
  | .nrfStatus => .host (HostCmd.ofOp 0x12)
  | .nrfClrstatus => .host (HostCmd.ofOp 0x13)
  | .nrfSetrf a0 a1 a2 => .host { HostCmd.ofOp 0x14 with a0 := a0, a1 := a1, a2 := a2 }
  | .nrfSetch a0 => .host { HostCmd.ofOp 0x15 with a0 := a0 }
  | .nrfSetretr a0 a1 => .host { HostCmd.ofOp 0x16 with a0 := a0, a1 := a1 }
  | .nrfSetpw a0 a1 => .host { HostCmd.ofOp 0x17 with a0 := a0, a1 := a1 }
  | .nrfDispipe a0 => .host { HostCmd.ofOp 0x18 with a0 := a0 }
  | .nrfSetrxaddr a0 buf => .host { HostCmd.ofOp 0x19 with a0 := a0, buf := buf }
  | .nrfSettxaddr buf => .host { HostCmd.ofOp 0x1A with buf := buf }
  | .nrfInit a0 a1 => .host { HostCmd.ofOp 0x20 with a0 := a0, a1 := a1 }
  | .nrfPwrup => .host (HostCmd.ofOp 0x21)
  | .nrfPwrdn => .host (HostCmd.ofOp 0x22)
  | .nrfModerx => .host (HostCmd.ofOp 0x23)
  | .nrfModetx => .host (HostCmd.ofOp 0x24)
  | .nrfStandby => .host (HostCmd.ofOp 0x25)
  | .nrfFlushtx => .host (HostCmd.ofOp 0x28)
  | .nrfFlushrx => .host (HostCmd.ofOp 0x29)
  | .nrfRxempty => .host (HostCmd.ofOp 0x2A)
  | .nrfRxfull => .host (HostCmd.ofOp 0x2B)
  | .nrfTxempty => .host (HostCmd.ofOp 0x2C)
  | .nrfTxfull => .host (HostCmd.ofOp 0x2D)
  | .nrfRdpl n => .host { HostCmd.ofOp 0x2E with len := n }
  | .nrfWrpl n buf => .host { HostCmd.ofOp 0x2F with len := n, buf := buf }
  | .radioInit a0 a1 => .host { HostCmd.ofOp 0x30 with a0 := a0, a1 := a1 }
  | .radioWrite n buf => .host { HostCmd.ofOp 0x31 with len := n, buf := buf }
  | .radioRead n => .host { HostCmd.ofOp 0x32 with len := n }
  | .radioHaspl => .host (HostCmd.ofOp 0x33)

/-- A frame from a table word: the command byte, and one data byte 0 where the command takes data (its operand bits are 0). -/
def tableFrame (b : Byte) : List Byte :=
  if b = Config.cmdFlushTx ∨ b = Config.cmdFlushRx then [b] else [b, 0]

/-- The command a word of the opcode table stands for. The table has two code spaces, 6-bit host codes and 8-bit wire bytes,
whose numbers overlap below 0x40: an assigned host code is read as the host command, every other word of at least 8 bits as a
wire frame (DESIGN CHOICE, log 4). -/
def tableCommand (nbits w : Nat) : Command :=
  let c := HostCmd.ofOp (BitVec.ofNat 6 w)
  if nbits < 8 then .host c
  else if w < 64 then
    match decodeHost c with
    | .instr _ => .host c
    | _ => .wire (tableFrame (BitVec.ofNat 8 w))
  else .wire (tableFrame (BitVec.ofNat 8 w))

/-- The instruction the decoder reads from a word numbered as spec/opcode_table.json numbers it. -/
def decodeTableWord (nbits w : Nat) : Option Instr :=
  match decode (tableCommand nbits w) with
  | .instr i => some i
  | _ => none

end Sys2Proof
end

