-- ==== Sys2Proof/Machine/State.lean ====
section
/-! DEFINITION. The machine's state as plain data: every element of 10_state.md (R20 to R41), the reference chip of
46_chip_environment.md (R216), the observable trace (00_scope.md R10, R15) and what the outside will do next; the two types of
stops; the state after reset (R53). -/

namespace Sys2Proof.Machine

open Sys2Proof

/-- R130: the two control lines. -/
inductive Line where
  | ce
  | csn
deriving DecidableEq, Repr

/-- R26, R29: what a pin carries: high impedance, a level, or a level the spec calls unspecified. -/
inductive Pin where
  | z
  | level (v : Bool)
  | unspecified
deriving DecidableEq, Repr

/-- R10: the alphabet of the trace. `xfer t r` is `X(t>r)`: byte t sent, byte r received. -/
inductive Event where
  | dir (l : Line)
  | lvl (l : Line) (v : Bool)
  | spiInit
  | xfer (t r : Byte)
  | delayUs (n : Nat)
  | delayMs (n : Nat)
deriving DecidableEq, Repr

/-- Where the byte an exchange sends comes from: a byte fixed when the sequence was formed, `DUMMY` (R89), `config_cache` as it
is at that moment (R168 to R171), or the scratch byte `t` or-ed with a mask (R153). -/
inductive Src where
  | lit (b : Byte)
  | dummy
  | cache
  | tOr (mask : Byte)
deriving DecidableEq, Repr

/-- R10: the micro-operations of the sequencer. `xfer src keep` is one byte exchange; with `keep` the received byte is one the
operation reads, without it the byte is dropped (R89). -/
inductive MicroOp where
  | dir (l : Line)
  | lvl (l : Line) (v : Bool)
  | spiInit
  | xfer (src : Src) (keep : Bool)
  | delayUs (n : Nat)
  | delayMs (n : Nat)
deriving DecidableEq, Repr

/-- The assignments of the pseudocode that are no micro-operation: they have no trace event and take no step (log 12). -/
inductive Transfer where
  /-- R167: `ce_id <- a; csn_id <- b` -/
  | lineIds (a b : Byte)
  /-- R167: `init_done <- 1` -/
  | initDone
  /-- `config_cache <- b` (R141, R167) -/
  | cacheSet (b : Byte)
  /-- `config_cache <- config_cache | mask` (R168, R170) -/
  | cacheOr (mask : Byte)
  /-- `config_cache <- config_cache & ~mask` (R169, R171) -/
  | cacheClear (mask : Byte)
  /-- `config_cache <- ` the first byte read (R140, R167) -/
  | cacheRead
  /-- `addr_width <- (` first byte read ` + 2) mod 256` (R167) -/
  | widthRead
  /-- `t <- ` the first byte read (R153, R202) -/
  | tRead
  /-- the start of a read: no byte read yet -/
  | rdClear
  /-- R154: `tx_addr_cache[i] <- bytes[i]` -/
  | txCache (bytes : List Byte)
  /-- R135, R136: the wait ends with `dly_cnt` = 0 -/
  | delayDone
  /-- R202: `failed <- 0; timed_out <- 0; poll_cnt <- 0` -/
  | pollStart
  /-- R202: `poll_cnt <- poll_cnt + 1` -/
  | pollCount
  /-- R202: `failed <- 1` -/
  | setFailed
  /-- R202: `timed_out <- 1` -/
  | setTimedOut
deriving DecidableEq, Repr

/-- One element of a sequence the sequencer performs. -/
inductive Item where
  | op (m : MicroOp)
  | set (t : Transfer)
deriving DecidableEq, Repr

/-- R250: the kinds an operation can end with. -/
inductive Kind where
  | none
  | maxRetransmit
  | invalidArgument
  | hardwareTimeout
  | notInitialized
  | illegalOp
  | badAddrWidth
deriving DecidableEq, Repr

/-- R98: what the completion of an operation writes into the response registers. -/
inductive Finish where
  /-- no result: `rsp_ok` <- 1 -/
  | plain
  /-- `rsp_byte` <- the byte read (R121, R142) -/
  | byteRead
  /-- `rsp_buf[0..n-1]` <- the n bytes read (R123, R192, R203 with data) -/
  | bufRead
  /-- both, and `rsp_byte` only if a byte was read (R140) -/
  | regRead
  /-- `rsp_ok` <- bit `pos` of the byte read, `rsp_byte` <- that byte (R187) -/
  | bitSet (pos : Nat)
  /-- `rsp_ok` <- 1 - bit `pos` of the byte read, `rsp_byte` <- that byte (R204) -/
  | bitClear (pos : Nat)
  /-- `rsp_ok` <- 0 and no fault (R203 without data) -/
  | noData
  /-- R202: by `failed`, `timed_out` and `t` -/
  | link
  /-- R259: a fault of this kind -/
  | fault (k : Kind)
deriving DecidableEq, Repr

/-- What follows the sequence being performed. -/
inductive Tail where
  | finish (f : Finish)
  /-- R203: the branch on the FIFO-status byte just read; n bytes to read if there is a payload -/
  | readBranch (n : Nat)
  /-- R202: the branches on the status byte just polled -/
  | pollBranch
deriving DecidableEq, Repr

/-- R20 to R25: the handle. -/
structure Handle where
  ceId : LineId
  csnId : LineId
  configCache : Byte
  addrWidth : Byte
  txAddrCache : Vector Byte 5
  initDone : Bool
deriving DecidableEq, Repr

/-- R26: direction (true is output) and level of the two lines. -/
structure Lines where
  ceDir : Bool
  csnDir : Bool
  ceLvl : Bool
  csnLvl : Bool
deriving DecidableEq, Repr

/-- R28: the SPI master; `sck` is the level of its clock output (R29, R118). -/
structure Spi where
  en : Bool
  sr : Byte
  rxd : Byte
  cnt : BitVec 4
  busy : Bool
  sck : Bool
deriving DecidableEq, Repr

/-- R33: the response registers; `sticky` is `err_sticky`. -/
structure Response where
  ok : Bool
  byte : Byte
  err : BitVec 3
  buf : Buf
  sticky : Byte
deriving DecidableEq, Repr

/-- R34, R40, R41: the sequencer. `todo`, `tail` and `rd` are the model's own form of the position inside the running operation
(R40) and of the bytes it has read so far, which reach the response registers only at completion (R33). -/
structure Control where
  busy : Bool
  done : Bool
  seq : Nat
  failed : Bool
  timedOut : Bool
  pollCnt : Nat
  t : Byte
  todo : List Item
  tail : Tail
  rd : List Byte
deriving DecidableEq, Repr

/-- R31: the levels of the input pins at a clock edge; `frame` is a frame a bench clocks into the chip's own pins (log 3). While `valid` is false nothing reads `cmd`
(log 14). -/
structure Inputs where
  rst : Bool
  valid : Bool
  cmd : HostCmd
  frame : Option (List Byte)
deriving DecidableEq, Repr

/-- R233, R234: what the air does. -/
inductive AirEvent where
  | sent
  | gaveUp
  | arrived (pipe : Fin 6) (payload : List Byte)
deriving DecidableEq, Repr

/-- R14, R15: what the outside does at one step: the level of `rst`, a command the host presents out of turn, what the air does
before the step, and how many steps the sequencer makes before the outside moves again (none: until it pauses by itself). -/
structure Turn where
  rst : Bool
  cmd : Option HostCmd
  air : List AirEvent
  budget : Option Nat
deriving DecidableEq, Repr

/-- The chip's register space (R61): byte i of the register at address A has key 8 * A + i. Canonical form: `Memory.wf`. -/
abbrev Memory := List Host.Cell

/-- R229, U8, U9: how a run leaves what the spec says of the reference chip. -/
inductive ChipGap where
  | unknownCommand (b : Byte)
  | txFifoFull
  | badPayloadLength (n : Nat)
deriving DecidableEq, Repr

/-- R216: the reference chip. `selStatus` is the STATUS byte as it was at CSN falling (R219). -/
structure Chip where
  regs : Memory
  txFifo : List (List Byte)
  rxFifo : List (Fin 6 × List Byte)
  rxDr : Bool
  txDs : Bool
  maxRt : Bool
  armed : Bool
  sel : Bool
  cmd : Option WireOp
  idx : Nat
  wbuf : List Byte
  selStatus : Byte
  gap : Option ChipGap
deriving DecidableEq, Repr, Inhabited

end Sys2Proof.Machine

namespace Sys2Proof.Config

/-- R282, U10: the chip after a frame cut short by `rst`; no body, so nothing is known of it. -/
opaque freeChip : Nat → Machine.Chip

end Sys2Proof.Config

namespace Sys2Proof.Machine

open Sys2Proof

/-- R16, R215: what answers the block's exchanges: the free oracle (a list of bytes, then open values) or the reference chip. -/
inductive FarSide where
  | free
  | refChip
deriving DecidableEq, Repr

/-- The state: the block (first seven fields), its parameters, and the outside as plain data. -/
structure State where
  handle : Handle
  lines : Lines
  spi : Spi
  dlyCnt : Nat
  operands : HostCmd
  rsp : Response
  ctl : Control
  cfg : Config
  inp : Inputs
  far : FarSide
  miso : List Byte
  draws : Nat
  chip : Chip
  wireOut : List Byte
  trace : List Event
  program : List Command
  turns : List Turn
  budget : Option Nat
deriving DecidableEq, Repr

/-- No fault of this hardware stops the machine: every fault kind of R250 is a completion, hence a next state (R260, R263). The
type is empty, so nobody raises one; safe. -/
inductive Fault where
deriving DecidableEq, Repr

/-- Why a step has no meaning. -/
inductive Refusal where
  /-- An instruction whose arm of `exec` is not written yet; raised by such an arm only. Safe: the machine stops. -/
  | notModelled (mnemonic : String)
  /-- R229, U19: a bench frame whose command byte is none of the 68 known ones; raised by `step`. Safe: the machine stops. -/
  | unknownWireCommand (b : Byte)
  /-- R11: a bench frame without a command byte; raised by `step`. Safe: the machine stops. -/
  | emptyWireFrame
  /-- R225, R229, U8, U9, U19: the reference chip was given what the spec leaves unspecified and asks a model to refuse; raised
  by every operation that reaches the reference chip so, and by the payload-write frame. Safe: the machine stops. -/
  | chipUnspecified (g : ChipGap)
deriving DecidableEq, Repr

namespace State

/-- R53. -/
def resetHandle : Handle where
  ceId := 0
  csnId := 0
  configCache := 0x00
  addrWidth := 0
  txAddrCache := Vector.replicate 5 0
  initDone := false

/-- R53: `csn_lvl` = 1, everything else 0. -/
def resetLines : Lines where
  ceDir := false
  csnDir := false
  ceLvl := false
  csnLvl := true

/-- R53, R283. -/
def resetSpi : Spi where
  en := false
  sr := 0x00
  rxd := 0x00
  cnt := 0
  busy := false
  sck := false

/-- R53. -/
def resetResponse : Response where
  ok := false
  byte := 0
  err := 0
  buf := Vector.replicate 32 0
  sticky := 0

/-- R53; `seq` has no meaning while `busy` = 0, and `todo`, `tail`, `rd` are the model's own: DESIGN CHOICE (log 14). -/
def resetControl : Control where
  busy := false
  done := false
  seq := 0
  failed := false
  timedOut := false
  pollCnt := 0
  t := 0
  todo := []
  tail := .finish .plain
  rd := []

/-- R218: the reference chip at power-on; an empty register memory reads as the power-on values. The frame decoder's values are
a DESIGN CHOICE (log 15). -/
def powerOnChip : Chip where
  regs := []
  txFifo := []
  rxFifo := []
  rxDr := false
  txDs := false
  maxRt := false
  armed := false
  sel := false
  cmd := none
  idx := 0
  wbuf := []
  selStatus := 0x0E
  gap := none

/-- The machine right after reset (R53): the block at its reset values, parameters at their defaults, the chip at power-on
(R218), nothing driven on the inputs, the free oracle with no byte listed (DESIGN CHOICE, log 2 and log 14). -/
def reset : State where
  handle := resetHandle
  lines := resetLines
  spi := resetSpi
  dlyCnt := 0
  operands := HostCmd.ofOp 0
  rsp := resetResponse
  ctl := resetControl
  cfg := Config.standard
  inp := { rst := false, valid := false, cmd := HostCmd.ofOp 0, frame := none }
  far := .free
  miso := []
  draws := 0
  chip := powerOnChip
  wireOut := []
  trace := []
  program := []
  turns := []
  budget := none

end State

end Sys2Proof.Machine
end

