-- ==== Sys2Proof/Machine/Flags.lean ====
section
/-! DEFINITION. Single bits and flag computations: bits of a byte (R147), the flags of STATUS and FIFO_STATUS as the block extracts
them (R35, R44, R45) and as the reference chip composes them (R223, R224), the fault codes and sticky bits (R250), the mode (R165). -/

namespace Sys2Proof.Machine

open Sys2Proof

/-- R147: `1 << b` in 8 bits. -/
def bit (b : Nat) : Byte := (1 : Byte) <<< b

/-- R7: `v[b]`. -/
def testBit (v : Byte) (b : Nat) : Bool := v.getLsbD b

/-- `1 << b` if the flag is 1, else 0. -/
def bitIf (f : Bool) (b : Nat) : Byte := if f then bit b else 0

/-- R44: `MAX_RT` of a status byte. -/
def statusMaxRt (m : RegMap) (v : Byte) : Bool := testBit v m.bMaxRt

/-- R44: `TX_DS` of a status byte. -/
def statusTxDs (m : RegMap) (v : Byte) : Bool := testBit v m.bTxDs

/-- R45: `RX_EMPTY` of a FIFO-status byte. -/
def fifoRxEmpty (m : RegMap) (v : Byte) : Bool := testBit v m.bRxEmpty

/-- R250: the code of a kind in `rsp_err`. -/
def Kind.code : Kind → BitVec 3
  | .none => 0
  | .maxRetransmit => 1
  | .invalidArgument => 2
  | .hardwareTimeout => 3
  | .notInitialized => 4
  | .illegalOp => 5
  | .badAddrWidth => 6

/-- R250: a fault kind has the sticky bit of its code; `None` and `MaxRetransmit` have none. -/
def Kind.sticky : Kind → Byte
  | .none => 0
  | .maxRetransmit => 0
  | .invalidArgument => bit 2
  | .hardwareTimeout => bit 3
  | .notInitialized => bit 4
  | .illegalOp => bit 5
  | .badAddrWidth => bit 6

/-- R166: the four modes. -/
inductive Mode where
  | powerDown
  | standby
  | rx
  | tx
deriving DecidableEq, Repr

/-- R165: the mode as a function of `config_cache` and `ce_lvl`. -/
def modeOf (m : RegMap) (cache : Byte) (ce : Bool) : Mode :=
  if testBit cache m.bPwrUp = false then .powerDown
  else if ce = false then .standby
  else if testBit cache m.bPrimRx then .rx
  else .tx

/-- R165: the mode the block has asked of the chip. -/
def State.mode (s : State) : Mode := modeOf s.cfg.regMap s.handle.configCache s.lines.ceLvl

/-- R26, R27: `pin(l) = l_lvl if l_dir == 1 else Z`. -/
def pinOf (dir lvl : Bool) : Pin := if dir then .level lvl else .z

/-- R27: the CE pin. -/
def State.cePin (s : State) : Pin := pinOf s.lines.ceDir s.lines.ceLvl

/-- R27: the CSN pin. -/
def State.csnPin (s : State) : Pin := pinOf s.lines.csnDir s.lines.csnLvl

/-- R29, R118: the `sck` pin: not driven while the master is disabled, else the level of the clock output. -/
def Spi.sckPin (x : Spi) : Pin := pinOf x.en x.sck

/-- R29: the `sck` pin of the block. -/
def State.sckPin (s : State) : Pin := s.spi.sckPin

/-- R118, R283: the level of the `mosi` output, the top bit of the shift register; 0 after reset. -/
def Spi.mosiOut (x : Spi) : Bool := testBit x.sr 7

/-- R29, R118: the `mosi` pin: not driven while the master is disabled, the output's level while a byte is in flight, and an
unspecified level between bytes. -/
def Spi.mosiPin (x : Spi) : Pin :=
  if x.en = false then .z else if x.busy then .level x.mosiOut else .unspecified

/-- R224: the pipe field of STATUS: the pipe of the oldest received payload, 7 if there is none. -/
def Chip.pipeField (c : Chip) : Byte :=
  match c.rxFifo with
  | [] => 7
  | (p, _) :: _ => BitVec.ofNat 8 p.val

/-- R224: STATUS as the reference chip reads it. -/
def Chip.statusByte (m : RegMap) (c : Chip) : Byte :=
  bitIf c.rxDr m.bRxDr ||| bitIf c.txDs m.bTxDs ||| bitIf c.maxRt m.bMaxRt ||| (c.pipeField <<< m.fRxPNo)
    ||| bitIf (decide (Config.fifoDepth ≤ c.txFifo.length)) m.bStTxFull

/-- R223: FIFO_STATUS as the reference chip reads it. -/
def Chip.fifoByte (m : RegMap) (c : Chip) : Byte :=
  bitIf c.rxFifo.isEmpty m.bRxEmpty ||| bitIf (decide (Config.fifoDepth ≤ c.rxFifo.length)) m.bRxFull
    ||| bitIf c.txFifo.isEmpty m.bTxEmpty ||| bitIf (decide (Config.fifoDepth ≤ c.txFifo.length)) m.bTxFull

/-- R230: the reference chip's own mode, from its CONFIG byte, the CE pin and `armed`; a pin that is not driven counts as low. -/
def Chip.modeFrom (m : RegMap) (config : Byte) (ce : Pin) (armed : Bool) : Mode :=
  if testBit config m.bPwrUp = false then .powerDown
  else if ce ≠ .level true ∧ armed = false then .standby
  else if testBit config m.bPrimRx then .rx
  else .tx

end Sys2Proof.Machine
end

