-- ==== Sys2Proof/Machine/Memory.lean ====
section
/-! DEFINITION. The chip's register space as a memory (20_memory.md R61, R72): one canonical list of the bytes that differ from
their power-on value, keyed by 8 * address + byte index. -/

namespace Sys2Proof.Machine

open Sys2Proof

/-- R218, R42: width in bytes and power-on byte of the stored register at an address; none where there is no stored register
(0x18 to 0x1B, 0x1E, 0x1F; STATUS and FIFO_STATUS are computed, R223, R224). Address registers are five bytes wide (R216). -/
def storedReg (a : Nat) : Option (Nat × Byte) :=
  match a with
  | 0x00 => some (1, 0x08)
  | 0x01 => some (1, 0x3F)
  | 0x02 => some (1, 0x03)
  | 0x03 => some (1, 0x03)
  | 0x04 => some (1, 0x03)
  | 0x05 => some (1, 0x02)
  | 0x06 => some (1, 0x0F)
  | 0x08 => some (1, 0x00)
  | 0x09 => some (1, 0x00)
  | 0x0A => some (5, 0xE7)
  | 0x0B => some (5, 0xC2)
  | 0x0C => some (1, 0xC3)
  | 0x0D => some (1, 0xC4)
  | 0x0E => some (1, 0xC5)
  | 0x0F => some (1, 0xC6)
  | 0x10 => some (5, 0xE7)
  | 0x11 => some (1, 0x00)
  | 0x12 => some (1, 0x00)
  | 0x13 => some (1, 0x00)
  | 0x14 => some (1, 0x00)
  | 0x15 => some (1, 0x00)
  | 0x16 => some (1, 0x00)
  | 0x1C => some (1, 0x00)
  | 0x1D => some (1, 0x00)
  | _ => none

namespace Memory

/-- The key of byte i of the register at an address. -/
def key (a i : Nat) : Nat := 8 * a + i

/-- R218: what a byte that is not listed reads as; none where there is no such byte. -/
def unlisted (k : Nat) : Option Byte :=
  match storedReg (k / 8) with
  | some (w, v) => if k % 8 < w then some v else none
  | none => none

/-- The listed byte at a key. -/
def listed : Memory → Nat → Option Byte
  | [], _ => none
  | (k', v) :: m, k => if k = k' then some v else listed m k

/-- Reading one byte: the listed one, else the power-on one; none where the register space has no such byte. -/
def read (m : Memory) (k : Nat) : Option Byte :=
  match unlisted k with
  | none => none
  | some d => some ((listed m k).getD d)

/-- Remove the entry at a key. -/
def erase : Memory → Nat → Memory
  | [], _ => []
  | (k', v) :: m, k => if k = k' then m else (k', v) :: erase m k

/-- Put an entry at its place in the rising order. -/
def insert : Memory → Nat → Byte → Memory
  | [], k, v => [(k, v)]
  | (k', v') :: m, k, v =>
    if k < k' then (k, v) :: (k', v') :: m
    else if k = k' then (k, v) :: m
    else (k', v') :: insert m k v

/-- Writing one byte keeps the canonical form: writing the power-on value removes the entry; a byte that does not exist is not
written (R221: non-registers ignore the write). -/
def write (m : Memory) (k : Nat) (v : Byte) : Memory :=
  match unlisted k with
  | none => m
  | some d => if v = d then erase m k else insert m k v

/-- Keys rise strictly from `lo` on, each names an existing byte, and no entry equals what an unlisted byte reads as. -/
def wfFrom (lo : Nat) : Memory → Bool
  | [] => true
  | (k, v) :: m =>
    decide (lo ≤ k) && decide (unlisted k ≠ none) && decide (unlisted k ≠ some v) && wfFrom (k + 1) m

/-- The canonical form. -/
def wf (m : Memory) : Bool := wfFrom 0 m

/-- A list of cells brought to the canonical form, later cells winning. -/
def ofCells (cells : List Host.Cell) : Memory := cells.foldl (fun m c => write m c.1 c.2) []

end Memory

end Sys2Proof.Machine
end

