-- ==== Sys2Proof/Machine/Operands.lean ====
section
/-! DEFINITION. Operands: the ranges of R100, the bytes the wire encoder assembles from them (R91), the use of the two buffers
(R63), address widths (R23, R146, R254), and the acceptance checks in their order (R97). -/

namespace Sys2Proof.Machine

open Sys2Proof

/-- R94: lengths 0 to 32. -/
def lenOk (n : Len) : Bool := decide (n.toNat ≤ Config.maxPayload)

/-- R100: register addresses up to 0x1F. -/
def regOk (reg : Byte) : Bool := decide (reg.toNat ≤ 0x1F)

/-- R100: pipes 0 to 5. -/
def pipeOk (pipe : Byte) : Bool := decide (pipe.toNat < Config.nPipes)

/-- R100: payload sizes 0 to 32. -/
def sizeOk (size : Byte) : Bool := decide (size.toNat ≤ Config.maxPayload)

/-- R100: data rate 0 or 1, power level 0 to 3, LNA 0 or 1. -/
def rfOk (rate power lna : Byte) : Bool := decide (rate.toNat ≤ 1) && decide (power.toNat ≤ 3) && decide (lna.toNat ≤ 1)

/-- R23, R254: the legal address widths 3, 4 and 5. -/
def widthOk (w : Byte) : Bool := decide (Config.awMin ≤ w.toNat) && decide (w.toNat ≤ Config.awMax)

/-- R153: pipes 0 and 1 take a full-width address. -/
def fullWidthPipe (pipe : Byte) : Bool := decide (pipe.toNat ≤ 1)

/-- R86: the register address of a command, `a0[4:0]`. -/
def regAddr (reg : Byte) : RegAddr := reg.setWidth 5

/-- R151: `A_RX_PW_P0 + pipe`. -/
def pwAddr (m : RegMap) (pipe : Byte) : RegAddr := m.aRxPwP0 + pipe.setWidth 5

/-- R153: `A_RX_ADDR_P0 + pipe`. -/
def rxAddrAddr (m : RegMap) (pipe : Byte) : RegAddr := m.aRxAddrP0 + pipe.setWidth 5

/-- R91, R148: `(rate << 3) | (power << 1) | lna`, with the positions of the map. -/
def rfByte (m : RegMap) (rate power lna : Byte) : Byte := (rate <<< m.bRfDr) ||| (power <<< m.fRfPwr) ||| (lna <<< m.bLna)

/-- R91, R149, R48: `frequency & 0x7F`, with the position of the map. -/
def channelByte (m : RegMap) (frequency : Byte) : Byte := (frequency &&& Config.rfChMask) <<< m.fRfCh

/-- R91, R150: `((delay & 0x0F) << 4) | (count & 0x0F)`, with the positions of the map. -/
def retrByte (m : RegMap) (count delay : Byte) : Byte := ((delay &&& 0x0F) <<< m.fArd) ||| ((count &&& 0x0F) <<< m.fArc)

/-- R91, R153: the enable bit of a pipe. -/
def pipeBit (pipe : Byte) : Byte := bit pipe.toNat

/-- R63: `buf[0..n-1]`. -/
def bufBytes (buf : Buf) (n : Nat) : List Byte := buf.toList.take n

/-- R98: `rsp_buf[0..n-1]` as read, the rest unchanged (R33). -/
def fillBuf (buf : Buf) (bytes : List Byte) : Buf := Vector.ofFn fun i => bytes.getD i.val buf[i]

/-- R154: `tx_addr_cache[0..w-1]` <- the bytes, the rest unchanged. -/
def fillAddr (old : Vector Byte 5) (bytes : List Byte) : Vector Byte 5 := Vector.ofFn fun i => bytes.getD i.val old[i]

/-- R97: the checks (2), (3), (4) in their order; the first that fails gives the kind. Check (1) is the decoder's. -/
def acceptanceFault (ready argsOk addrOk : Bool) : Option Kind :=
  if ready = false then some .notInitialized
  else if argsOk = false then some .invalidArgument
  else if addrOk = false then some .badAddrWidth
  else none

end Sys2Proof.Machine
end

