-- ==== Sys2Proof/Machine/Chip.lean ====
section
/-! DEFINITION. The reference chip of 46_chip_environment.md (non-normative, R215): its registers (R42, R218), the frame decoder
(R219 to R229), the radio side (R230 to R236). The block's register map names the chip's addresses and bits (log 21). -/

namespace Sys2Proof.Machine

open Sys2Proof

/-- R42: the chip's registers by name. -/
inductive ChipReg where
  | config
  | enAa
  | enRxaddr
  | setupAw
  | setupRetr
  | rfCh
  | rfSetup
  | status
  | observeTx
  | cd
  | rxAddr (p : Fin 6)
  | txAddr
  | rxPw (p : Fin 6)
  | fifoStatus
  | dynpd
  | feature
deriving DecidableEq, Repr

/-- R42: the number under which a register's bytes are kept. -/
def ChipReg.home : ChipReg → Nat
  | .config => 0x00
  | .enAa => 0x01
  | .enRxaddr => 0x02
  | .setupAw => 0x03
  | .setupRetr => 0x04
  | .rfCh => 0x05
  | .rfSetup => 0x06
  | .status => 0x07
  | .observeTx => 0x08
  | .cd => 0x09
  | .rxAddr p => 0x0A + p.val
  | .txAddr => 0x10
  | .rxPw p => 0x11 + p.val
  | .fifoStatus => 0x17
  | .dynpd => 0x1C
  | .feature => 0x1D

/-- R221: the bits a register stores; none for a register that ignores the write. The bits of EN_AA, DYNPD and FEATURE are
PRESUMED (the family's, log 18); STATUS is R222's. -/
def ChipReg.stores : ChipReg → Option Byte
  | .config => some 0x7F
  | .enAa => some 0x3F
  | .enRxaddr => some 0x3F
  | .setupAw => some 0x03
  | .setupRetr => some 0xFF
  | .rfCh => some 0x7F
  | .rfSetup => some 0x0F
  | .status => none
  | .observeTx => none
  | .cd => none
  | .rxAddr _ => some 0xFF
  | .txAddr => some 0xFF
  | .rxPw _ => some 0x3F
  | .fifoStatus => none
  | .dynpd => some 0x3F
  | .feature => some 0x07

/-- R42: which register an address names, by the register map; none for the reserved addresses. The rows stand in the order of
R42's table; that the first of them counts where an odd map gives two registers one address is a DESIGN CHOICE (log 31). -/
def chipReg (m : RegMap) (a : RegAddr) : Option ChipReg :=
  ([(m.aConfig, .config), (m.aEnAa, .enAa), (m.aEnRxaddr, .enRxaddr), (m.aSetupAw, .setupAw), (m.aSetupRetr, .setupRetr),
    (m.aRfCh, .rfCh), (m.aRfSetup, .rfSetup), (m.aStatus, .status), (m.aObserveTx, .observeTx), (m.aCd, .cd)]
    ++ (List.finRange 6).map (fun p => (m.aRxAddrP0 + BitVec.ofNat 5 p.val, ChipReg.rxAddr p))
    ++ [(m.aTxAddr, .txAddr)]
    ++ (List.finRange 6).map (fun p => (m.aRxPwP0 + BitVec.ofNat 5 p.val, ChipReg.rxPw p))
    ++ [(m.aFifoStatus, .fifoStatus), (m.aDynpd, .dynpd), (m.aFeature, .feature)] : List (RegAddr × ChipReg)).lookup a

namespace Chip

/-- R220: byte i of a register as the chip shifts it out; none beyond its width. -/
def readReg (m : RegMap) (c : Chip) (r : ChipReg) (i : Nat) : Option Byte :=
  match r with
  | .status => if i = 0 then some (c.statusByte m) else none
  | .fifoStatus => if i = 0 then some (c.fifoByte m) else none
  | r => if i < 8 then c.regs.read (Memory.key r.home i) else none

/-- The value of a one-byte stored register. -/
def reg (c : Chip) (r : ChipReg) : Byte := (c.regs.read (Memory.key r.home 0)).getD 0

/-- R222: writing STATUS clears the flags written as 1. -/
def clearFlags (m : RegMap) (v : Byte) (c : Chip) : Chip :=
  { c with
    rxDr := c.rxDr && !(testBit v m.bRxDr)
    txDs := c.txDs && !(testBit v m.bTxDs)
    maxRt := c.maxRt && !(testBit v m.bMaxRt) }

/-- R221: data byte number i written to a register. -/
def writeReg (m : RegMap) (r : ChipReg) (i : Nat) (v : Byte) (c : Chip) : Chip :=
  match r.stores with
  | some mask => if i < 8 then { c with regs := c.regs.write (Memory.key r.home i) (v &&& mask) } else c
  | none => if r = .status ∧ i = 0 then c.clearFlags m v else c

/-- R232: the chip arms a transmission whenever the condition holds. -/
def rearm (m : RegMap) (ce : Bool) (c : Chip) : Chip :=
  if ce && testBit (c.reg .config) m.bPwrUp && !(testBit (c.reg .config) m.bPrimRx) && !c.txFifo.isEmpty && !c.maxRt then
    { c with armed := true }
  else c

/-- R219: CSN falling. -/
def select (m : RegMap) (c : Chip) : Chip :=
  { c with sel := true, cmd := none, idx := 0, wbuf := [], selStatus := c.statusByte m }

/-- R219, R227, R228: a known command byte; the flushes act at once. -/
def command (op : WireOp) (c : Chip) : Chip :=
  let c := { c with cmd := some op }
  match op with
  | .flushTx => { c with txFifo := [], armed := false }
  | .flushRx => { c with rxFifo := [] }
  | .readReg _ => c
  | .writeReg _ => c
  | .readPayload => c
  | .writePayload => c

/-- R220, R221, R225, R226, R237: what the chip shifts out during a data byte; `free` where that is unspecified. -/
def dataOut (m : RegMap) (op : WireOp) (free : Byte) (c : Chip) : Byte :=
  match op with
  | .readReg a =>
    match chipReg m a with
    | some r => (c.readReg m r c.idx).getD free
    | none => free
  | .readPayload =>
    match c.rxFifo with
    | (_, p) :: _ => p.getD c.idx free
    | [] => free
  | .writeReg _ => free
  | .writePayload => free
  | .flushTx => free
  | .flushRx => free

/-- R221, R225, R227: what a data byte changes. -/
def dataIn (m : RegMap) (op : WireOp) (t : Byte) (c : Chip) : Chip :=
  match op with
  | .writeReg a =>
    match chipReg m a with
    | some r => { c.writeReg m r c.idx t with idx := c.idx + 1 }
    | none => { c with idx := c.idx + 1 }
  | .writePayload => { c with wbuf := c.wbuf ++ [t], idx := c.idx + 1 }
  | .readReg _ => { c with idx := c.idx + 1 }
  | .readPayload => { c with idx := c.idx + 1 }
  | .flushTx => { c with idx := c.idx + 1 }
  | .flushRx => { c with idx := c.idx + 1 }

/-- R225: a payload-write frame ends; a full FIFO or a length outside 1..32 is unspecified (U8, U9: refuse). -/
def commitPayload (c : Chip) : Chip :=
  if Config.fifoDepth ≤ c.txFifo.length then { c with gap := some .txFifoFull }
  else if c.wbuf.length = 0 ∨ Config.maxPayload < c.wbuf.length then { c with gap := some (.badPayloadLength c.wbuf.length) }
  else { c with txFifo := c.txFifo ++ [c.wbuf] }

/-- R219, R225, R226: CSN rising performs the command's end action. -/
def deselect (c : Chip) : Chip :=
  let c' := match c.cmd with
    | some .writePayload => c.commitPayload
    | some .readPayload => { c with rxFifo := c.rxFifo.tail }
    | some (.readReg _) => c
    | some (.writeReg _) => c
    | some .flushTx => c
    | some .flushRx => c
    | none => c
  { c' with sel := false, cmd := none }

/-- R219: one byte clocked: the byte shifted out and the chip after it. A byte with CSN high is ignored. -/
def exchange (m : RegMap) (t free : Byte) (c : Chip) : Byte × Chip :=
  if c.sel = false then (free, c)
  else
    match c.cmd with
    | none =>
      match decodeWire t with
      | some op => (c.selStatus, c.command op)
      | none => (c.selStatus, { c with gap := some (.unknownCommand t) })
    | some op => (c.dataOut m op free, c.dataIn m op t)

/-- R219, R232: the chip follows the levels of its two pins (an undriven pin: log 16). -/
def followPins (m : RegMap) (csn ce : Bool) (c : Chip) : Chip :=
  let c := if csn then (if c.sel then c.deselect else c) else (if c.sel then c else c.select m)
  c.rearm m ce

/-- R234: a packet arrives, if the chip listens, has room, and the pipe is enabled and has this payload size; an entry is at most
32 bytes (R62). -/
def arrive (m : RegMap) (ce : Bool) (p : Fin 6) (payload : List Byte) (c : Chip) : Chip :=
  if testBit (c.reg .config) m.bPwrUp && testBit (c.reg .config) m.bPrimRx && ce && decide (c.rxFifo.length < Config.fifoDepth)
      && testBit (c.reg .enRxaddr) p.val && decide (c.reg (.rxPw p) ≠ 0) && decide (payload.length = (c.reg (.rxPw p)).toNat)
      && decide (payload.length ≤ Config.maxPayload) then
    { c with rxFifo := c.rxFifo ++ [(p, payload)], rxDr := true }
  else c

/-- R233, R234: one air event; one that is not enabled does not happen (log 20). -/
def air (m : RegMap) (ce : Bool) (e : AirEvent) (c : Chip) : Chip :=
  let c := match e with
    | .sent => if c.armed then { c with txFifo := c.txFifo.tail, txDs := true, armed := false } else c
    | .gaveUp => if c.armed then { c with maxRt := true, armed := false } else c
    | .arrived p payload => c.arrive m ce p payload
  c.rearm m ce

/-- R230: the chip's own mode. -/
def mode (m : RegMap) (ce : Pin) (c : Chip) : Mode := modeFrom m (c.reg .config) ce c.armed

/-- R49, R236: the chip's address width. -/
def width (c : Chip) : Nat := (c.reg .setupAw &&& 0x03).toNat + 2

/-- R236: the address the chip listens to on a pipe: pipes 2 to 5 share bytes 1 and up of pipe 1's address. -/
def pipeAddress (c : Chip) (p : Fin 6) : List Byte :=
  (List.range c.width).map fun i =>
    if p.val ≤ 1 ∨ i = 0 then (c.regs.read (Memory.key (ChipReg.home (.rxAddr p)) i)).getD 0
    else (c.regs.read (Memory.key (ChipReg.home (.rxAddr 1)) i)).getD 0

/-- The data bytes of a frame one after the other: the bytes shifted out and the chip after them. `n` numbers the open bytes. -/
def dataBytes (m : RegMap) (ce : Bool) (op : WireOp) : List Byte → Nat → Chip → List Byte × Chip
  | [], _, c => ([], c)
  | t :: ts, n, c =>
    let out := c.dataOut m op (Config.freeByte n)
    let rest := dataBytes m ce op ts (n + 1) ((c.dataIn m op t).rearm m ce)
    (out :: rest.1, rest.2)

/-- R219: a whole frame clocked into the chip: CSN falling, the command byte, the data bytes, CSN rising. A frame that finds
another one still open restarts the decoder, and the open command's end action does not happen: DESIGN CHOICE (log 3), the spec
does not speak of it. -/
def frame (m : RegMap) (ce : Bool) (op : WireOp) (data : List Byte) (n : Nat) (c : Chip) : List Byte × Chip :=
  let c0 := (({ c with gap := none }).select m)
  let r := dataBytes m ce op data n ((c0.command op).rearm m ce)
  (c0.selStatus :: r.1, r.2.deselect.rearm m ce)

/-- U10: an arbitrary chip within the limits the spec gives every chip: at most 3 payloads of 1 to 32 bytes in each FIFO (R216). -/
def withinLimits (c : Chip) : Chip :=
  { c with
    regs := Memory.ofCells c.regs
    txFifo := ((c.txFifo.map (·.take Config.maxPayload)).filter (fun p => !p.isEmpty)).take Config.fifoDepth
    rxFifo := ((c.rxFifo.map (fun e => (e.1, e.2.take Config.maxPayload))).filter (fun e => !e.2.isEmpty)).take Config.fifoDepth
    gap := none }

end Chip

end Sys2Proof.Machine
end

