-- ==== Sys2Proof/Machine/Ops.lean ====
section
/-! DEFINITION. The shared operations of the block: the exchange of a byte (R117, R118), the line drivers (R131, R132), the delay
timer (R135, R136), the register transfers of the pseudocode, completion and the ONE way an operation ends with a fault (R98, R259),
the sequencer (R15, R40, R175), acceptance (R96), reset (R53, R280 to R283), and what the outside does before a step (R14, R15). -/

namespace Sys2Proof.Machine

open Sys2Proof

/-! ### The SPI master -/

namespace Spi

/-- R116: `spi_en` <- 1, `spi_cnt` <- 0, `spi_busy` <- 0 and `sck` = 0; when the master is enabled already, nothing changes. -/
def enable (x : Spi) : Spi := if x.en then x else { x with en := true, cnt := 0, busy := false, sck := false }

/-- R118: the first line of the bit-level exchange; the first bit is set up while `sck` = 0. -/
def load (t : Byte) (x : Spi) : Spi := { x with sr := t, cnt := 0, busy := true, sck := false }

/-- R118: the rising edge of `sck`, at which `miso` is sampled. -/
def rise : Spi → Spi
  | ⟨en, sr, rxd, cnt, busy, _⟩ => ⟨en, sr, rxd, cnt, busy, true⟩

/-- R118: the falling edge: the shift register takes the sampled bit m at its low end. -/
def fall (m : Bool) : Spi → Spi
  | ⟨en, sr, rxd, cnt, busy, _⟩ => ⟨en, (sr <<< 1) ||| (if m then 1 else 0), rxd, cnt + 1, busy, false⟩

/-- R118: one cycle of `sck`; m is the level of `miso` at the rising edge. -/
def clock (x : Spi) (m : Bool) : Spi := fall m (rise x)

/-- R118: the last line. -/
def store (x : Spi) : Spi := { x with rxd := x.sr, busy := false }

/-- R66: the bits of a byte in the order they go on the wire, bit 7 first. -/
def wireBits (r : Byte) : List Bool := [7, 6, 5, 4, 3, 2, 1, 0].map (testBit r)

/-- R118: the exchange of one byte at bit level; the slave presents the bits of r. -/
def exchange (t r : Byte) (x : Spi) : Spi := store ((wireBits r).foldl clock (load t x))

end Spi

/-! ### The far side of the bus -/

/-- The CE level the reference chip sees: the block's while the chip is the far side, where an undriven pin has the board's level
(R281). A chip that is not the far side has no line from the block, and CE then counts as low: DESIGN CHOICE (log 3). -/
def State.chipCe (s : State) : Bool :=
  match s.far with
  | .free => false
  | .refChip => if s.lines.ceDir then s.lines.ceLvl else Config.floatingCe s.draws s.trace.length s.turns.length

/-- The CSN level the reference chip sees. -/
def State.chipCsn (s : State) : Bool :=
  if s.lines.csnDir then s.lines.csnLvl else Config.floatingCsn s.draws s.trace.length s.turns.length

/-- The reference chip when a byte is clocked: an undriven CSN may have moved since it was last looked at (R281). -/
def State.chipNow (s : State) : Chip :=
  if s.lines.csnDir then s.chip else s.chip.followPins s.cfg.regMap s.chipCsn s.chipCe

/-- R16: the byte the next exchange receives when the block sends t. -/
def State.incoming (s : State) (t : Byte) : Byte :=
  match s.far with
  | .free => s.miso.headD (Config.freeByte s.draws)
  | .refChip => (s.chipNow.exchange s.cfg.regMap t (Config.freeByte s.draws)).1

/-- The chip after it has taken part in an exchange. -/
def State.chipAfter (s : State) (t : Byte) : Chip :=
  match s.far with
  | .free => s.chip
  | .refChip => ((s.chipNow.exchange s.cfg.regMap t (Config.freeByte s.draws)).2).rearm s.cfg.regMap s.chipCe

/-- R117: `r <- XFER(t)`; with `keep` the byte is one the operation reads. -/
def State.xfer (t : Byte) (keep : Bool) (s : State) : State :=
  let r := s.incoming t
  { s with
    spi := s.spi.exchange t r
    chip := s.chipAfter t
    miso := s.miso.tail
    draws := s.draws + 1
    ctl.rd := if keep then s.ctl.rd ++ [r] else s.ctl.rd
    trace := s.trace ++ [Event.xfer t r] }

/-- The CE pin the reference chip is connected to: the block's while the chip is the far side, else one nothing drives (log 3). -/
def State.chipCePin (s : State) : Pin :=
  match s.far with
  | .free => .z
  | .refChip => s.cePin

/-- R230: the mode of the reference chip. -/
def State.chipMode (s : State) : Mode := s.chip.mode s.cfg.regMap s.chipCePin

/-- R219: the reference chip, if connected, follows the two line pins. -/
def State.followPins (s : State) : State :=
  match s.far with
  | .free => s
  | .refChip => { s with chip := s.chip.followPins s.cfg.regMap s.chipCsn s.chipCe }

/-! ### The line drivers and the delay timer -/

/-- R131: `l_dir <- 1`. -/
def Lines.setOut (l : Line) (x : Lines) : Lines :=
  match l with
  | .ce => { x with ceDir := true }
  | .csn => { x with csnDir := true }

/-- R132: `l_lvl <- v`. -/
def Lines.setLvl (l : Line) (v : Bool) (x : Lines) : Lines :=
  match l with
  | .ce => { x with ceLvl := v }
  | .csn => { x with csnLvl := v }

/-- R131: `DIR(l, out)`. -/
def State.dir (l : Line) (s : State) : State :=
  State.followPins { s with lines := s.lines.setOut l, trace := s.trace ++ [Event.dir l] }

/-- R132: `LVL(l, v)`. -/
def State.lvl (l : Line) (v : Bool) (s : State) : State :=
  State.followPins { s with lines := s.lines.setLvl l v, trace := s.trace ++ [Event.lvl l v] }

/-- R116: `SPI_INIT()`. -/
def State.spiInit (s : State) : State := { s with spi := s.spi.enable, trace := s.trace ++ [Event.spiInit] }

/-- The quotient rounded up. -/
def ceilDiv (c d : Nat) : Nat := if c % d = 0 then c / d else c / d + 1

/-- R135, R268: `ceil(n * F_CLK_HZ / 10^6)` cycles. -/
def usCycles (cfg : Config) (n : Nat) : Nat := ceilDiv (n * cfg.fClkHz) 1000000

/-- R136, R268: `ceil(n * F_CLK_HZ / 10^3)` cycles. -/
def msCycles (cfg : Config) (n : Nat) : Nat := ceilDiv (n * cfg.fClkHz) 1000

/-- R135: `DELAY_US(n)` loads the counter; the wait ends in `Transfer.delayDone`. -/
def State.delayUs (n : Nat) (s : State) : State := { s with dlyCnt := usCycles s.cfg n, trace := s.trace ++ [Event.delayUs n] }

/-- R136: `DELAY_MS(n)`. -/
def State.delayMs (n : Nat) (s : State) : State := { s with dlyCnt := msCycles s.cfg n, trace := s.trace ++ [Event.delayMs n] }

/-! ### Micro-operations and register transfers -/

/-- The byte an exchange sends. -/
def State.srcByte (s : State) : Src → Byte
  | .lit b => b
  | .dummy => s.cfg.dummy
  | .cache => s.handle.configCache
  | .tOr mask => s.ctl.t ||| mask

/-- R10: one micro-operation; `seq` counts it (R40). -/
def State.micro (m : MicroOp) (s : State) : State :=
  let s := { s with ctl.seq := s.ctl.seq + 1 }
  match m with
  | .dir l => s.dir l
  | .lvl l v => s.lvl l v
  | .spiInit => s.spiInit
  | .xfer src keep => s.xfer (s.srcByte src) keep
  | .delayUs n => s.delayUs n
  | .delayMs n => s.delayMs n

/-- The first byte of the read just made (R12: `MemRead(a, 1)[0]`). -/
def State.firstRead (s : State) : Byte := s.ctl.rd.headD 0

/-- One assignment of the pseudocode. -/
def State.transfer (t : Transfer) (s : State) : State :=
  match t with
  | .lineIds a b => { s with handle.ceId := a, handle.csnId := b }
  | .initDone => { s with handle.initDone := true }
  | .cacheSet b => { s with handle.configCache := b }
  | .cacheOr mask => { s with handle.configCache := s.handle.configCache ||| mask }
  | .cacheClear mask => { s with handle.configCache := s.handle.configCache &&& ~~~mask }
  | .cacheRead => { s with handle.configCache := s.firstRead }
  | .widthRead => { s with handle.addrWidth := s.firstRead + 2 }
  | .tRead => { s with ctl.t := s.firstRead }
  | .rdClear => { s with ctl.rd := [] }
  | .txCache bytes => { s with handle.txAddrCache := fillAddr s.handle.txAddrCache bytes }
  | .delayDone => { s with dlyCnt := 0 }
  | .pollStart => { s with ctl.failed := false, ctl.timedOut := false, ctl.pollCnt := 0 }
  | .pollCount => { s with ctl.pollCnt := s.ctl.pollCnt + 1 }
  | .setFailed => { s with ctl.failed := true }
  | .setTimedOut => { s with ctl.timedOut := true }

/-! ### Completion and faults -/

/-- R98, R250: the response registers of an operation that ended with kind K; the one place where a fault is recorded. -/
def Response.raise (k : Kind) (r : Response) : Response :=
  { r with ok := false, err := k.code, sticky := r.sticky ||| k.sticky }

/-- R98: the response registers of an operation that ended without a fault, with its boolean result. -/
def Response.succeed (ok : Bool) (r : Response) : Response := { r with ok := ok, err := 0 }

/-- R98, R202, R255, R256: the response registers at the completion of a link write. -/
def Response.linkResult (c : Control) (r : Response) : Response :=
  if c.timedOut then { r.raise .hardwareTimeout with byte := c.t }
  else { r with ok := !c.failed, err := if c.failed then Kind.maxRetransmit.code else 0, byte := c.t }

/-- R98: what each completion writes. -/
def Response.finish (f : Finish) (c : Control) (r : Response) : Response :=
  match f with
  | .plain => r.succeed true
  | .byteRead => { r.succeed true with byte := c.rd.headD 0 }
  | .bufRead => { r.succeed true with buf := fillBuf r.buf c.rd }
  | .regRead => { r.succeed true with buf := fillBuf r.buf c.rd, byte := c.rd.headD r.byte }
  | .bitSet pos => { r.succeed (testBit (c.rd.headD 0) pos) with byte := c.rd.headD 0 }
  | .bitClear pos => { r.succeed (!(testBit (c.rd.headD 0) pos)) with byte := c.rd.headD 0 }
  | .noData => r.succeed false
  | .link => r.linkResult c
  | .fault k => r.raise k

/-- R98: completion: `busy` <- 0, `done` pulses, the response registers are written. -/
def State.complete (f : Finish) (s : State) : State :=
  { s with
    rsp := s.rsp.finish f s.ctl
    ctl := { s.ctl with busy := false, done := true, todo := [], tail := .finish .plain, rd := [] } }

/-! ### The sequencer -/

/-- The items of a sequence in order; one micro-operation takes one of the steps the outside has left the sequencer (none: no
limit). What is left when they are used up stays in `todo`. -/
def State.runItems : List Item → State → State
  | [], s => { s with ctl.todo := [] }
  | .set t :: is, s => runItems is (s.transfer t)
  | .op m :: is, s =>
    match s.budget with
    | none => runItems is (s.micro m)
    | some 0 => { s with ctl.todo := .op m :: is }
    | some (k + 1) => runItems is ({ s with budget := some k }.micro m)

/-- R15: completion is a step of its own. -/
def State.tryComplete (f : Finish) (s : State) : State :=
  match s.budget with
  | none => s.complete f
  | some 0 => s
  | some (k + 1) => { s with budget := some k }.complete f

/-- A straight-line rest of an operation and its completion. -/
def State.runToEnd (items : List Item) (f : Finish) (s : State) : State :=
  let s := { s with ctl.tail := .finish f }.runItems items
  if s.ctl.todo.isEmpty then s.tryComplete f else s

/-! ### Frames (R11, R12), as sequences -/

/-- Send one byte, drop the answer (R89). -/
def send (b : Byte) : Item := .op (.xfer (.lit b) false)

/-- Send `DUMMY`, keep the answer (R89). -/
def receive : Item := .op (.xfer .dummy true)

/-- R11: `FRAME { body }`. -/
def frame (body : List Item) : List Item := .op (.lvl .csn false) :: (body ++ [.op (.lvl .csn true)])

/-- R12: `MemRead(a, n)`. -/
def memRead (a : RegAddr) (n : Nat) : List Item :=
  .set .rdClear :: frame (send (encodeWire (.readReg a)) :: List.replicate n receive)

/-- R12: `MemWrite(a, |v|, v)`. -/
def memWrite (a : RegAddr) (v : List Byte) : List Item := frame (send (encodeWire (.writeReg a)) :: v.map send)

/-- R168 to R171: `MemWrite(A_CONFIG, 1, [config_cache])`. -/
def memWriteCache (m : RegMap) : List Item :=
  frame [send (encodeWire (.writeReg m.aConfig)), .op (.xfer .cache false)]

/-- R135: a delay in microseconds and the end of its wait. -/
def waitUs (n : Nat) : List Item := [.op (.delayUs n), .set .delayDone]

/-! ### The operations that others perform in place (R102) -/

/-- R143. -/
def clrStatusItems (m : RegMap) : List Item := memWrite m.aStatus [m.statusClear]

/-- R185. -/
def flushTxItems : List Item := frame [send (encodeWire .flushTx)]

/-- R186. -/
def flushRxItems : List Item := frame [send (encodeWire .flushRx)]

/-- R148. -/
def setRfItems (m : RegMap) (rate power lna : Byte) : List Item := memWrite m.aRfSetup [rfByte m rate power lna]

/-- R149. -/
def setChItems (m : RegMap) (frequency : Byte) : List Item := memWrite m.aRfCh [channelByte m frequency]

/-- R150. -/
def setRetrItems (m : RegMap) (count delay : Byte) : List Item := memWrite m.aSetupRetr [retrByte m count delay]

/-- R151. -/
def setPwItems (m : RegMap) (pipe size : Byte) : List Item := memWrite (pwAddr m pipe) [size]

/-- R167. -/
def initItems (m : RegMap) (ce csn : Byte) : List Item :=
  [.set (.lineIds ce csn), .op (.dir .ce), .op (.dir .csn), .op (.lvl .ce false), .op (.lvl .csn true), .op .spiInit]
    ++ waitUs Config.tPwrupUs
    ++ memWrite m.aConfig [m.configInit] ++ [.set (.cacheSet m.configInit)]
    ++ memRead m.aConfig 1 ++ [.set .cacheRead]
    ++ memRead m.aSetupAw 1 ++ [.set .widthRead, .set .initDone]

/-- R168. -/
def pwrUpItems (m : RegMap) : List Item :=
  .set (.cacheOr (bit m.bPwrUp)) :: memWriteCache m ++ waitUs Config.tPwrupUs

/-- R169. -/
def pwrDnItems (m : RegMap) : List Item :=
  .set (.cacheClear (bit m.bPwrUp)) :: memWriteCache m ++ [.op (.lvl .ce false)]

/-- R170. -/
def modeRxItems (m : RegMap) : List Item :=
  .set (.cacheOr (bit m.bPrimRx)) :: memWriteCache m ++ [.op (.lvl .ce true)] ++ waitUs Config.tRxSettleUs

/-- R171. -/
def modeTxItems (m : RegMap) : List Item :=
  .set (.cacheClear (bit m.bPrimRx)) :: memWriteCache m ++ [.op (.lvl .ce true)] ++ waitUs Config.tTxSettleUs

/-- R172. -/
def standbyItems (m : RegMap) : List Item :=
  clrStatusItems m ++ [.op (.lvl .ce false)] ++ flushTxItems ++ flushRxItems

/-- R192. -/
def rdPlItems (n : Nat) : List Item := .set .rdClear :: frame (send (encodeWire .readPayload) :: List.replicate n receive)

/-- R193. -/
def wrPlItems (bytes : List Byte) : List Item := frame (send (encodeWire .writePayload) :: bytes.map send)

/-- R202: one poll: the status read into `t`, and the count. -/
def pollItems (m : RegMap) : List Item := memRead m.aStatus 1 ++ [.set .tRead, .set .pollCount]

/-! ### Branches (R103) -/

/-- R202: the tests on the polled status byte in their order; none when the loop goes on. -/
def State.pollExit (s : State) : Option (List Item) :=
  let m := s.cfg.regMap
  if statusMaxRt m s.ctl.t then some (.set .setFailed :: flushTxItems ++ standbyItems m)
  else if statusTxDs m s.ctl.t then some (standbyItems m)
  else if s.cfg.pollLimit ≠ 0 ∧ s.ctl.pollCnt = s.cfg.pollLimit then some (.set .setTimedOut :: standbyItems m)
  else none

/-- R202: the loop goes on: the delay starts, and the step ends inside it (log 5); the next poll follows. -/
def State.pollAgain (s : State) : State :=
  let s := { s with ctl.tail := .pollBranch }.runItems [.op (.delayMs Config.tPollMs)]
  { s with ctl.todo := s.ctl.todo ++ .set .delayDone :: pollItems s.cfg.regMap }

/-- What follows a sequence that has been performed whole. -/
def State.runTail (s : State) : State :=
  match s.ctl.tail with
  | .finish f => s.tryComplete f
  | .readBranch n =>
    if fifoRxEmpty s.cfg.regMap s.ctl.t then s.runToEnd [] .noData else s.runToEnd (rdPlItems n) .bufRead
  | .pollBranch =>
    match s.pollExit with
    | some items => s.runToEnd items .link
    | none => s.pollAgain

/-- The sequencer goes on with the running operation. -/
def State.advance (s : State) : State :=
  let s := s.runItems s.ctl.todo
  if s.ctl.todo.isEmpty then s.runTail else s

/-- R40: the sequence of an operation is taken up; `seq` <- 0. -/
def State.load (items : List Item) (tail : Tail) (s : State) : State :=
  { s with ctl := { s.ctl with busy := true, seq := 0, todo := items, tail := tail, rd := [] } }

/-- A run that has led the reference chip out of what the spec says of it is refused (R229, U8, U9). -/
def State.outcome (s : State) : Host.Outcome State Fault Refusal :=
  match s.far with
  | .free => .next s
  | .refChip =>
    match s.chip.gap with
    | some g => .refused (.chipUnspecified g)
    | none => .next s

/-- R97, R258: an accepted operation: if a check fails it ends with that kind and an empty trace, else its sequence runs. -/
def State.operate (check : Option Kind) (items : List Item) (tail : Tail) (s : State) : Host.Outcome State Fault Refusal :=
  match check with
  | some k => (s.load [] (.finish (.fault k))).advance.outcome
  | none => (s.load items tail).advance.outcome

/-- R99, R251: a reserved operation code. -/
def State.illegalOp (s : State) : Host.Outcome State Fault Refusal := s.operate (some .illegalOp) [] (.finish .plain)

/-- R219 to R228: a wire frame clocked into the reference chip. -/
def State.wireFrame (op : WireOp) (data : List Byte) (s : State) : Host.Outcome State Fault Refusal :=
  let r := s.chip.frame s.cfg.regMap s.chipCe op data s.draws
  match r.2.gap with
  | some g => .refused (.chipUnspecified g)
  | none => .next { s with chip := r.2, wireOut := r.1, draws := s.draws + (data.length + 1) }

/-! ### Acceptance, reset, the outside -/

/-- R96: acceptance copies the command ports into the operand registers. A bench frame has no acceptance (log 3). -/
def State.accept (c : Command) (s : State) : State :=
  match c with
  | .host h => { s with operands := h, ctl.busy := true, ctl.seq := 0 }
  | .wire _ => s

/-- R53, R280 to R283: `rst` at a clock edge: every element of the block takes its reset value, whatever the block was doing.
The chip is not reset; after a frame cut short nothing is known of it (R282, U10). -/
def State.resetBlock (s : State) : State :=
  let cut := match s.far with
    | .free => false
    | .refChip => s.chip.sel
  { s with
    handle := State.resetHandle
    lines := State.resetLines
    spi := State.resetSpi
    dlyCnt := 0
    operands := HostCmd.ofOp 0
    rsp := State.resetResponse
    ctl := State.resetControl
    chip := if cut then (Config.freeChip s.draws).withinLimits else s.chip
    draws := if cut then s.draws + 1 else s.draws }

/-- R104: the host's next line, if it may issue one: the block is idle and no reset is given. That the host goes on with the rest
of its program after an `rst` that abandoned a line without `done` (R282) is a DESIGN CHOICE (log 2). -/
def nextLine (idle : Bool) (program : List Command) : Option Command × List Command :=
  match idle, program with
  | true, c :: rest => (some c, rest)
  | true, [] => (none, [])
  | false, p => (none, p)

/-- What the outside does when its schedule lists nothing: no reset, no air event, no interruption. -/
def quietTurn : Turn where
  rst := false
  cmd := none
  air := []
  budget := none

/-- R14, R15, R96, R104: the outside moves before a step. It sets the input pins (`rst`; a command out of turn, or else the host's
next line when the block is idle), the air acts, and `done` falls (R34). Two DESIGN CHOICES: the command pins keep the last command
presented while `cmd_valid` is 0 (log 14), and an `rst` leaves the host's remaining lines as they are (log 2). -/
def State.takeTurn (s : State) : State :=
  let turn := s.turns.headD quietTurn
  let line := nextLine (!s.ctl.busy && !turn.rst && turn.cmd.isNone) s.program
  let host : Option HostCmd := match turn.cmd, line.1 with
    | some c, _ => some c
    | none, some (.host c) => some c
    | none, _ => none
  { s with
    turns := s.turns.tail
    program := line.2
    inp := {
      rst := turn.rst
      valid := host.isSome
      cmd := host.getD s.inp.cmd
      frame := match line.1 with
        | some (.wire bytes) => some bytes
        | _ => none }
    chip := turn.air.foldl (fun c e => c.air s.cfg.regMap s.chipCe e) s.chip
    budget := turn.budget
    ctl.done := false }

/-- What the input pins present to an idle block: a host command (R96), else a bench frame. -/
def State.presented (s : State) : Option Command :=
  if s.inp.valid then some (.host s.inp.cmd) else s.inp.frame.map .wire

end Sys2Proof.Machine
end

