-- ==== Sys2Proof/Machine/Codec.lean ====
section
/-! DEFINITION. The register codec (42_register_codec.md R140 to R154). -/

namespace Sys2Proof.Machine

open Sys2Proof

/-- R97 (2) to (4), R253: an NRF or RADIO operation needs `init_done` = 1. -/
def nrfCheck (argsOk addrOk : Bool) (s : State) : Option Kind := acceptanceFault s.handle.initDone argsOk addrOk

/-- R140: a read of `A_CONFIG` of at least one byte re-synchronises the cache. -/
def rdRegItems (m : RegMap) (reg : Byte) (n : Nat) : List Item :=
  memRead (regAddr reg) n ++ (if 1 ≤ n ∧ regAddr reg = m.aConfig then [.set .cacheRead] else [])

/-- R141: a write of `A_CONFIG` of at least one byte updates the cache with the first. -/
def cacheWritten (m : RegMap) (a : RegAddr) (bytes : List Byte) : List Item :=
  match bytes with
  | b :: _ => if a = m.aConfig then [.set (.cacheSet b)] else []
  | [] => []

/-- R141. -/
def wrRegItems (m : RegMap) (reg : Byte) (bytes : List Byte) : List Item :=
  memWrite (regAddr reg) bytes ++ cacheWritten m (regAddr reg) bytes

/-- R153: the address, then the read-modify-write of the enabled-pipes register. -/
def setRxAddrItems (m : RegMap) (pipe : Byte) (bytes : List Byte) : List Item :=
  memWrite (rxAddrAddr m pipe) bytes
    ++ memRead m.aEnRxaddr 1 ++ [.set .tRead]
    ++ frame [send (encodeWire (.writeReg m.aEnRxaddr)), .op (.xfer (.tOr (pipeBit pipe)) false)]

/-- R154: the transmit address, pipe 0, then the cache. -/
def setTxAddrItems (m : RegMap) (bytes : List Byte) : List Item :=
  memWrite m.aTxAddr bytes ++ memWrite m.aRxAddrP0 bytes ++ [.set (.txCache bytes)]

/-- NRF.RDREG: R140. -/
def execNrfRdreg (reg : Byte) (n : Len) (s : State) : Host.Outcome State Fault Refusal :=
  s.operate (nrfCheck (regOk reg && lenOk n) true s) (rdRegItems s.cfg.regMap reg n.toNat) (.finish .regRead)

/-- NRF.WRREG: R141. -/
def execNrfWrreg (reg : Byte) (n : Len) (buf : Buf) (s : State) : Host.Outcome State Fault Refusal :=
  s.operate (nrfCheck (regOk reg && lenOk n) true s) (wrRegItems s.cfg.regMap reg (bufBytes buf n.toNat)) (.finish .plain)

/-- NRF.STATUS: R142. -/
def execNrfStatus (s : State) : Host.Outcome State Fault Refusal :=
  s.operate (nrfCheck true true s) (memRead s.cfg.regMap.aStatus 1) (.finish .byteRead)

/-- NRF.CLRSTATUS: R143. -/
def execNrfClrstatus (s : State) : Host.Outcome State Fault Refusal :=
  s.operate (nrfCheck true true s) (clrStatusItems s.cfg.regMap) (.finish .plain)

/-- NRF.SETRF: R148. -/
def execNrfSetrf (rate power lna : Byte) (s : State) : Host.Outcome State Fault Refusal :=
  s.operate (nrfCheck (rfOk rate power lna) true s) (setRfItems s.cfg.regMap rate power lna) (.finish .plain)

/-- NRF.SETCH: R149, masked and never refused (R100). -/
def execNrfSetch (frequency : Byte) (s : State) : Host.Outcome State Fault Refusal :=
  s.operate (nrfCheck true true s) (setChItems s.cfg.regMap frequency) (.finish .plain)

/-- NRF.SETRETR: R150, masked and never refused (R100). -/
def execNrfSetretr (count delay : Byte) (s : State) : Host.Outcome State Fault Refusal :=
  s.operate (nrfCheck true true s) (setRetrItems s.cfg.regMap count delay) (.finish .plain)

/-- NRF.SETPW: R151. -/
def execNrfSetpw (pipe size : Byte) (s : State) : Host.Outcome State Fault Refusal :=
  s.operate (nrfCheck (pipeOk pipe && sizeOk size) true s) (setPwItems s.cfg.regMap pipe size) (.finish .plain)

/-- NRF.DISPIPE: R152, R105: the size 0. -/
def execNrfDispipe (pipe : Byte) (s : State) : Host.Outcome State Fault Refusal :=
  s.operate (nrfCheck (pipeOk pipe) true s) (setPwItems s.cfg.regMap pipe 0) (.finish .plain)

/-- NRF.SETRXADDR: R153; the width is looked at for pipes 0 and 1 only. -/
def execNrfSetrxaddr (pipe : Byte) (address : Buf) (s : State) : Host.Outcome State Fault Refusal :=
  s.operate (nrfCheck (pipeOk pipe) (!(fullWidthPipe pipe) || widthOk s.handle.addrWidth) s)
    (setRxAddrItems s.cfg.regMap pipe (bufBytes address (if fullWidthPipe pipe then s.handle.addrWidth.toNat else 1)))
    (.finish .plain)

/-- NRF.SETTXADDR: R154. -/
def execNrfSettxaddr (address : Buf) (s : State) : Host.Outcome State Fault Refusal :=
  s.operate (nrfCheck true (widthOk s.handle.addrWidth) s)
    (setTxAddrItems s.cfg.regMap (bufBytes address s.handle.addrWidth.toNat)) (.finish .plain)

end Sys2Proof.Machine
end

