-- ==== Sys2Proof/Machine/Fifo.lean ====
section
/-! DEFINITION. The FIFO controller (44_fifo_controller.md R185 to R193). -/

namespace Sys2Proof.Machine

open Sys2Proof

/-- NRF.FLUSHTX: R185. -/
def execNrfFlushtx (s : State) : Host.Outcome State Fault Refusal :=
  s.operate (nrfCheck true true s) flushTxItems (.finish .plain)

/-- NRF.FLUSHRX: R186. -/
def execNrfFlushrx (s : State) : Host.Outcome State Fault Refusal :=
  s.operate (nrfCheck true true s) flushRxItems (.finish .plain)

/-- NRF.RXEMPTY: R187, R188. -/
def execNrfRxempty (s : State) : Host.Outcome State Fault Refusal :=
  s.operate (nrfCheck true true s) (memRead s.cfg.regMap.aFifoStatus 1) (.finish (.bitSet s.cfg.regMap.bRxEmpty))

/-- NRF.RXFULL: R187, R189. -/
def execNrfRxfull (s : State) : Host.Outcome State Fault Refusal :=
  s.operate (nrfCheck true true s) (memRead s.cfg.regMap.aFifoStatus 1) (.finish (.bitSet s.cfg.regMap.bRxFull))

/-- NRF.TXEMPTY: R187, R190. -/
def execNrfTxempty (s : State) : Host.Outcome State Fault Refusal :=
  s.operate (nrfCheck true true s) (memRead s.cfg.regMap.aFifoStatus 1) (.finish (.bitSet s.cfg.regMap.bTxEmpty))

/-- NRF.TXFULL: R187, R191. -/
def execNrfTxfull (s : State) : Host.Outcome State Fault Refusal :=
  s.operate (nrfCheck true true s) (memRead s.cfg.regMap.aFifoStatus 1) (.finish (.bitSet s.cfg.regMap.bTxFull))

/-- NRF.RDPL: R192. -/
def execNrfRdpl (n : Len) (s : State) : Host.Outcome State Fault Refusal :=
  s.operate (nrfCheck (lenOk n) true s) (rdPlItems n.toNat) (.finish .bufRead)

/-- NRF.WRPL: R193. -/
def execNrfWrpl (n : Len) (buf : Buf) (s : State) : Host.Outcome State Fault Refusal :=
  s.operate (nrfCheck (lenOk n) true s) (wrPlItems (bufBytes buf n.toNat)) (.finish .plain)

end Sys2Proof.Machine
end

