-- ==== Sys2Proof/Machine/Link.lean ====
section
/-! DEFINITION. The half-duplex link sequencer (45_link_layer.md R201 to R204). -/

namespace Sys2Proof.Machine

open Sys2Proof

/-- R201, in the order of its pseudocode. -/
def radioInitItems (m : RegMap) (ce csn : Byte) : List Item :=
  initItems m ce csn
    ++ setRfItems m Config.linkRate Config.linkPwr Config.linkLna
    ++ setChItems m Config.linkChannel
    ++ clrStatusItems m ++ flushTxItems ++ flushRxItems
    ++ setPwItems m 0 Config.linkPayload ++ setPwItems m 1 Config.linkPayload
    ++ setRetrItems m Config.linkArc Config.linkArd
    ++ pwrUpItems m

/-- R202 up to and including the first poll. -/
def radioWriteItems (m : RegMap) (bytes : List Byte) : List Item :=
  wrPlItems bytes ++ modeTxItems m ++ [.op (.lvl .ce false), .set .pollStart] ++ pollItems m

/-- R203 up to the occupancy test; the byte the branch needs goes to `t` (R41). -/
def radioReadItems (m : RegMap) : List Item := modeRxItems m ++ memRead m.aFifoStatus 1 ++ [.set .tRead]

/-- RADIO.INIT: R201; legal at any time. -/
def execRadioInit (ce csn : Byte) (s : State) : Host.Outcome State Fault Refusal :=
  s.operate none (radioInitItems s.cfg.regMap ce csn) (.finish .plain)

/-- RADIO.WRITE: R202. -/
def execRadioWrite (n : Len) (payload : Buf) (s : State) : Host.Outcome State Fault Refusal :=
  s.operate (nrfCheck (lenOk n) true s) (radioWriteItems s.cfg.regMap (bufBytes payload n.toNat)) .pollBranch

/-- RADIO.READ: R203. -/
def execRadioRead (n : Len) (s : State) : Host.Outcome State Fault Refusal :=
  s.operate (nrfCheck (lenOk n) true s) (radioReadItems s.cfg.regMap) (.readBranch n.toNat)

/-- RADIO.HASPL: R204. -/
def execRadioHaspl (s : State) : Host.Outcome State Fault Refusal :=
  s.operate (nrfCheck true true s) (memRead s.cfg.regMap.aFifoStatus 1) (.finish (.bitClear s.cfg.regMap.bRxEmpty))

end Sys2Proof.Machine
end

