-- ==== Sys2Proof/Machine/Mode.lean ====
section
/-! DEFINITION. The mode control (43_mode_control.md R167 to R172). -/

namespace Sys2Proof.Machine

open Sys2Proof

/-- NRF.INIT: R167; legal at any time. -/
def execNrfInit (ce csn : Byte) (s : State) : Host.Outcome State Fault Refusal :=
  s.operate none (initItems s.cfg.regMap ce csn) (.finish .plain)

/-- NRF.PWRUP: R168. -/
def execNrfPwrup (s : State) : Host.Outcome State Fault Refusal :=
  s.operate (nrfCheck true true s) (pwrUpItems s.cfg.regMap) (.finish .plain)

/-- NRF.PWRDN: R169. -/
def execNrfPwrdn (s : State) : Host.Outcome State Fault Refusal :=
  s.operate (nrfCheck true true s) (pwrDnItems s.cfg.regMap) (.finish .plain)

/-- NRF.MODERX: R170. -/
def execNrfModerx (s : State) : Host.Outcome State Fault Refusal :=
  s.operate (nrfCheck true true s) (modeRxItems s.cfg.regMap) (.finish .plain)

/-- NRF.MODETX: R171. -/
def execNrfModetx (s : State) : Host.Outcome State Fault Refusal :=
  s.operate (nrfCheck true true s) (modeTxItems s.cfg.regMap) (.finish .plain)

/-- NRF.STANDBY: R172. -/
def execNrfStandby (s : State) : Host.Outcome State Fault Refusal :=
  s.operate (nrfCheck true true s) (standbyItems s.cfg.regMap) (.finish .plain)

end Sys2Proof.Machine
end

