-- ==== Sys2Proof/Machine/SpiMaster.lean ====
section
/-! DEFINITION. The operations of the SPI master (40_spi_master.md R119 to R123). They move no line, so their bytes lie outside
every frame (R288). -/

namespace Sys2Proof.Machine

open Sys2Proof

/-- R97 (2), R253: a bus transfer needs `spi_en` = 1. -/
def spiCheck (argsOk : Bool) (s : State) : Option Kind := acceptanceFault s.spi.en argsOk true

/-- SPI.INITM: R119. -/
def execSpiInitm (s : State) : Host.Outcome State Fault Refusal :=
  s.operate none [.op .spiInit] (.finish .plain)

/-- SPI.TX: R120. -/
def execSpiTx (byte : Byte) (s : State) : Host.Outcome State Fault Refusal :=
  s.operate (spiCheck true s) [send byte] (.finish .plain)

/-- SPI.RX: R121. -/
def execSpiRx (s : State) : Host.Outcome State Fault Refusal :=
  s.operate (spiCheck true s) [receive] (.finish .byteRead)

/-- SPI.WRBUF: R122. -/
def execSpiWrbuf (n : Len) (buf : Buf) (s : State) : Host.Outcome State Fault Refusal :=
  s.operate (spiCheck (lenOk n) s) ((bufBytes buf n.toNat).map send) (.finish .plain)

/-- SPI.RDBUF: R123. -/
def execSpiRdbuf (n : Len) (s : State) : Host.Outcome State Fault Refusal :=
  s.operate (spiCheck (lenOk n) s) (List.replicate n.toNat receive) (.finish .bufRead)

end Sys2Proof.Machine
end

