-- ==== Sys2Proof/Machine/Wire.lean ====
section
/-! DEFINITION. The six wire commands, the reference chip's side (46_chip_environment.md R219 to R229): a frame clocked into the
chip, its command byte and its data bytes. -/

namespace Sys2Proof.Machine

open Sys2Proof

/-- R_REGISTER: R220. -/
def execRRegister (a : RegAddr) (data : List Byte) (s : State) : Host.Outcome State Fault Refusal :=
  s.wireFrame (.readReg a) data

/-- W_REGISTER: R221, R222. -/
def execWRegister (a : RegAddr) (data : List Byte) (s : State) : Host.Outcome State Fault Refusal :=
  s.wireFrame (.writeReg a) data

/-- R_RX_PAYLOAD: R226. -/
def execRRxPayload (data : List Byte) (s : State) : Host.Outcome State Fault Refusal :=
  s.wireFrame .readPayload data

/-- W_TX_PAYLOAD: R225. -/
def execWTxPayload (data : List Byte) (s : State) : Host.Outcome State Fault Refusal :=
  s.wireFrame .writePayload data

/-- FLUSH_TX: R227. -/
def execFlushTx (data : List Byte) (s : State) : Host.Outcome State Fault Refusal :=
  s.wireFrame .flushTx data

/-- FLUSH_RX: R228. -/
def execFlushRx (data : List Byte) (s : State) : Host.Outcome State Fault Refusal :=
  s.wireFrame .flushRx data

end Sys2Proof.Machine
end

