-- ==== Sys2Proof/Machine/Dispatch.lean ====
section
/-! DEFINITION. One arm per instruction. -/

namespace Sys2Proof.Machine

open Sys2Proof

def exec (i : Instr) (s : State) : Host.Outcome State Fault Refusal :=
  match i with
  | .rRegister a data => Sys2Proof.Machine.execRRegister a data s
  | .wRegister a data => Sys2Proof.Machine.execWRegister a data s
  | .rRxPayload data => Sys2Proof.Machine.execRRxPayload data s
  | .wTxPayload data => Sys2Proof.Machine.execWTxPayload data s
  | .flushTx data => Sys2Proof.Machine.execFlushTx data s
  | .flushRx data => Sys2Proof.Machine.execFlushRx data s
  | .spiInitm => Sys2Proof.Machine.execSpiInitm s
  | .spiTx byte => Sys2Proof.Machine.execSpiTx byte s
  | .spiRx => Sys2Proof.Machine.execSpiRx s
  | .spiWrbuf n buf => Sys2Proof.Machine.execSpiWrbuf n buf s
  | .spiRdbuf n => Sys2Proof.Machine.execSpiRdbuf n s
  | .nrfRdreg reg n => Sys2Proof.Machine.execNrfRdreg reg n s
  | .nrfWrreg reg n buf => Sys2Proof.Machine.execNrfWrreg reg n buf s
  | .nrfStatus => Sys2Proof.Machine.execNrfStatus s
  | .nrfClrstatus => Sys2Proof.Machine.execNrfClrstatus s
  | .nrfSetrf rate power lna => Sys2Proof.Machine.execNrfSetrf rate power lna s
  | .nrfSetch frequency => Sys2Proof.Machine.execNrfSetch frequency s
  | .nrfSetretr count delay => Sys2Proof.Machine.execNrfSetretr count delay s
  | .nrfSetpw pipe size => Sys2Proof.Machine.execNrfSetpw pipe size s
  | .nrfDispipe pipe => Sys2Proof.Machine.execNrfDispipe pipe s
  | .nrfSetrxaddr pipe address => Sys2Proof.Machine.execNrfSetrxaddr pipe address s
  | .nrfSettxaddr address => Sys2Proof.Machine.execNrfSettxaddr address s
  | .nrfInit ce csn => Sys2Proof.Machine.execNrfInit ce csn s
  | .nrfPwrup => Sys2Proof.Machine.execNrfPwrup s
  | .nrfPwrdn => Sys2Proof.Machine.execNrfPwrdn s
  | .nrfModerx => Sys2Proof.Machine.execNrfModerx s
  | .nrfModetx => Sys2Proof.Machine.execNrfModetx s
  | .nrfStandby => Sys2Proof.Machine.execNrfStandby s
  | .nrfFlushtx => Sys2Proof.Machine.execNrfFlushtx s
  | .nrfFlushrx => Sys2Proof.Machine.execNrfFlushrx s
  | .nrfRxempty => Sys2Proof.Machine.execNrfRxempty s
  | .nrfRxfull => Sys2Proof.Machine.execNrfRxfull s
  | .nrfTxempty => Sys2Proof.Machine.execNrfTxempty s
  | .nrfTxfull => Sys2Proof.Machine.execNrfTxfull s
  | .nrfRdpl n => Sys2Proof.Machine.execNrfRdpl n s
  | .nrfWrpl n buf => Sys2Proof.Machine.execNrfWrpl n buf s
  | .radioInit ce csn => Sys2Proof.Machine.execRadioInit ce csn s
  | .radioWrite n payload => Sys2Proof.Machine.execRadioWrite n payload s
  | .radioRead n => Sys2Proof.Machine.execRadioRead n s
  | .radioHaspl => Sys2Proof.Machine.execRadioHaspl s

end Sys2Proof.Machine
end

