-- ==== Sys2Proof/Machine/Step.lean ====
section
/-! DEFINITION. One step: the outside moves, then the block is reset, goes on with its operation, takes up the command presented to
it, or waits (R15, R96, R175, R280). And where an instruction is put so that the next step runs it. -/

namespace Sys2Proof.Machine

open Sys2Proof

/-- The command presented to an idle block: acceptance, decoding, the operation (R96, R97, R106). -/
def dispatch (c : Command) (s : State) : Host.Outcome State Fault Refusal :=
  match decode c with
  | .instr i => exec i (s.accept c)
  | .illegalOp _ => (s.accept c).illegalOp
  | .unknownCommand b => .refused (.unknownWireCommand b)
  | .emptyFrame => .refused .emptyWireFrame

/-- What the block does at a step once the outside has moved. -/
def clockEdge (s : State) : Host.Outcome State Fault Refusal :=
  if s.inp.rst then .next s.resetBlock
  else if s.ctl.busy then s.advance.outcome
  else
    match s.presented with
    | some c => dispatch c s
    | none => .next s

/-- One step of the machine. -/
def step (s : State) : Host.Outcome State Fault Refusal := clockEdge s.takeTurn

/-- The instruction of an opcode-table word becomes the host's next line, given to an idle block with a quiet outside: the next
step runs it (log 2, log 4). -/
def State.withFetchWord (s : State) (nbits w : Nat) : State :=
  { s with program := tableCommand nbits w :: s.program, turns := [], ctl.busy := false }

end Sys2Proof.Machine
end

