-- ==== Sys2Proof/Safety.lean ====
section
/-! DEFINITION. The terms in which claims speak: what the free oracle presents and what a frame then looks like in the trace; the
state an operation ends in; which check an operation needs; and the properties that hold of every state a run can reach. -/

namespace Sys2Proof.Machine

open Sys2Proof

/-! ### Runs against the free oracle (R16, R215) -/

/-- The outside does not interrupt the operation, and the far side is the free oracle, against which a claim about the block is to
be stated (R215). -/
def State.Uninterrupted (s : State) : Prop := s.budget = none ∧ s.far = .free

/-- The byte a list of input bytes and the numbering of open bytes give at the k-th exchange from now. -/
def oracleByte (miso : List Byte) (draws k : Nat) : Byte := miso.getD k (Config.freeByte (draws + k))

/-- R16: the byte the free oracle presents at the k-th exchange from now. -/
def State.rx (s : State) (k : Nat) : Byte := oracleByte s.miso s.draws k

/-- The bytes of n exchanges from the k-th on. -/
def State.rxBytes (s : State) (k n : Nat) : List Byte := (List.range n).map fun i => s.rx (k + i)

/-- The events of exchanges that send `ts`, the first of them the k-th from now. -/
def oracleEvents (miso : List Byte) (draws : Nat) : Nat → List Byte → List Event
  | _, [] => []
  | k, t :: ts => .xfer t (oracleByte miso draws k) :: oracleEvents miso draws (k + 1) ts

/-- R10: `X(t>r)` for each byte sent, with what the free oracle answers. -/
def State.xEvents (s : State) (k : Nat) (ts : List Byte) : List Event := oracleEvents s.miso s.draws k ts

/-- R11: the events of a frame that sends `ts`. -/
def State.frameEvents (s : State) (k : Nat) (ts : List Byte) : List Event :=
  .lvl .csn false :: (s.xEvents k ts ++ [.lvl .csn true])

/-- The bus and the trace after n exchanges in which `events` were recorded (R52: `spi_rxd` keeps the last byte received). -/
def State.bus (s : State) (n : Nat) (events : List Event) : State :=
  { s with
    spi := if n = 0 then s.spi else { s.spi with sr := s.rx (n - 1), rxd := s.rx (n - 1), cnt := 8, busy := false, sck := false }
    miso := s.miso.drop n
    draws := s.draws + n
    trace := s.trace ++ events }

/-- R98: the operation has completed with these response registers after n exchanges and these events; everything not named here
is as before. -/
def State.ends (s : State) (n : Nat) (events : List Event) (rsp : Response) : State :=
  { s.bus n events with
    rsp := rsp
    ctl := { s.ctl with
      busy := false
      done := true
      seq := events.length
      todo := []
      tail := .finish .plain
      rd := [] } }

/-- R251 to R254: the state after an operation that failed a check: only the response registers and the handshake change. -/
def State.faulted (s : State) (k : Kind) : State := s.ends 0 [] (s.rsp.raise k)

/-- R98: the response registers of an operation without a boolean result and without a fault. -/
def Response.good (r : Response) : Response := { r with ok := true, err := 0 }

/-- The lines after frames have been performed: CSN is high (R11). -/
def Lines.idleCsn (x : Lines) : Lines := { x with csnLvl := true }

/-- R33, R98: the response buffer once n bytes have been read, the first at the k-th exchange; the other bytes keep their value. -/
def State.received (s : State) (k n : Nat) : Buf := Vector.ofFn fun i => if i.val < n then s.rx (k + i.val) else s.rsp.buf[i]

/-- R12: the state an operation ends in whose whole effect is one register write of the bytes `vs`. -/
def State.wrote (s : State) (a : RegAddr) (vs : List Byte) : State :=
  { s.ends (vs.length + 1) (s.frameEvents 0 (encodeWire (.writeReg a) :: vs)) s.rsp.good with lines := s.lines.idleCsn }

/-- R12: the state an operation ends in whose whole effect is one read of one byte of a register, with these response registers. -/
def State.readByte (s : State) (a : RegAddr) (rsp : Response) : State :=
  { s.ends 2 (s.frameEvents 0 [encodeWire (.readReg a), s.cfg.dummy]) rsp with lines := s.lines.idleCsn }

/-- R172: the eleven events of a return to standby, the first exchange the k-th from now. -/
def State.standbyEvents (s : State) (k : Nat) : List Event :=
  s.frameEvents k [encodeWire (.writeReg s.cfg.regMap.aStatus), s.cfg.regMap.statusClear] ++ [.lvl .ce false]
    ++ s.frameEvents (k + 2) [0xE1] ++ s.frameEvents (k + 3) [0xE2]

/-- R167: the eighteen events of an initialisation. -/
def State.initEvents (s : State) : List Event :=
  [.dir .ce, .dir .csn, .lvl .ce false, .lvl .csn true, .spiInit, .delayUs 1500]
    ++ s.frameEvents 0 [encodeWire (.writeReg s.cfg.regMap.aConfig), s.cfg.regMap.configInit]
    ++ s.frameEvents 2 [encodeWire (.readReg s.cfg.regMap.aConfig), s.cfg.dummy]
    ++ s.frameEvents 4 [encodeWire (.readReg s.cfg.regMap.aSetupAw), s.cfg.dummy]

/-- R202: the events of a link write of the bytes `vs` up to and including the first poll. -/
def State.linkWriteEvents (s : State) (vs : List Byte) (config : Byte) : List Event :=
  s.frameEvents 0 (0xA0 :: vs)
    ++ s.frameEvents (vs.length + 1) [encodeWire (.writeReg s.cfg.regMap.aConfig), config]
    ++ [.lvl .ce true, .delayUs 150, .lvl .ce false]
    ++ s.frameEvents (vs.length + 3) [encodeWire (.readReg s.cfg.regMap.aStatus), s.cfg.dummy]

/-- R15: how many micro-operations a sequence has. -/
def microOps : List Item → Nat
  | [] => 0
  | .set _ :: is => microOps is
  | .op _ :: is => microOps is + 1

/-- R202, V97: the block is inside the delay of its poll loop, after k polls. -/
def State.Polling (s : State) (k : Nat) : Prop :=
  s.ctl.busy = true ∧ s.ctl.tail = .pollBranch ∧ s.ctl.todo = .set .delayDone :: pollItems s.cfg.regMap ∧
    s.ctl.failed = false ∧ s.ctl.timedOut = false ∧ s.ctl.pollCnt = k

/-- R202, V97: the state in the delay after k polls, t the status byte of the last of them, n exchanges and these events after
`s`. -/
def State.polls (s : State) (n : Nat) (events : List Event) (seq k : Nat) (t : Byte) : State :=
  { s.bus n events with
    dlyCnt := msCycles s.cfg Config.tPollMs
    ctl := { s.ctl with
      busy := true
      seq := seq
      failed := false
      timedOut := false
      pollCnt := k
      t := t
      todo := .set .delayDone :: pollItems s.cfg.regMap
      tail := .pollBranch
      rd := [t] } }

/-- R202, R98: the registers `RADIO.WRITE` leaves when it completes, n exchanges and these events after `s`: CE and CSN idle, no
delay running, the scratch registers as the last poll left them. -/
def State.linkEnds (s : State) (n : Nat) (events : List Event) (rsp : Response) (failed timedOut : Bool) (k : Nat) (t : Byte) :
    State :=
  { s.ends n events rsp with
    lines := { s.lines.idleCsn with ceLvl := false }
    dlyCnt := 0
    ctl := { (s.ends n events rsp).ctl with failed := failed, timedOut := timedOut, pollCnt := k, t := t } }

/-- R95: the operation code and the operands taken from the ports. -/
def Encoded (code : Nat) (f : HostCmd → Instr) : Prop :=
  ∀ c : HostCmd, c.op.toNat = code → decode (.host c) = .instr (f c)

/-- R97: nothing stands in the way of an NRF or RADIO operation with good operands. -/
def State.Ready (s : State) : Prop := s.Uninterrupted ∧ s.handle.initDone = true

/-- R98, R259: the operation ends with fault kind k, and nothing but the response registers and the handshake changes. -/
def FaultsWith (i : Instr) (s : State) (k : Kind) : Prop := exec i s = .next (s.faulted k)

/-- R97 (2), R253: against the free oracle and without what it needs, an operation ends with `NotInitialized`. -/
def FaultsUninitialised (i : Instr) (s : State) : Prop := s.handle.initDone = false → FaultsWith i s .notInitialized

/-! ### Which check an operation needs (R97) -/

/-- R97 (2): what must have been initialised. -/
inductive Need where
  | nothing
  | spiEnabled
  | initDone
deriving DecidableEq, Repr


/-- R97 (2), R253: what the spec asks to have been initialised; a wire frame asks nothing of the block. -/
def needOf : Instr → Need
  | .rRegister _ _ => .nothing
  | .wRegister _ _ => .nothing
  | .rRxPayload _ => .nothing
  | .wTxPayload _ => .nothing
  | .flushTx _ => .nothing
  | .flushRx _ => .nothing
  | .spiInitm => .nothing
  | .spiTx _ => .spiEnabled
  | .spiRx => .spiEnabled
  | .spiWrbuf _ _ => .spiEnabled
  | .spiRdbuf _ => .spiEnabled
  | .nrfRdreg _ _ => .initDone
  | .nrfWrreg _ _ _ => .initDone
  | .nrfStatus => .initDone
  | .nrfClrstatus => .initDone
  | .nrfSetrf _ _ _ => .initDone
  | .nrfSetch _ => .initDone
  | .nrfSetretr _ _ => .initDone
  | .nrfSetpw _ _ => .initDone
  | .nrfDispipe _ => .initDone
  | .nrfSetrxaddr _ _ => .initDone
  | .nrfSettxaddr _ => .initDone
  | .nrfInit _ _ => .nothing
  | .nrfPwrup => .initDone
  | .nrfPwrdn => .initDone
  | .nrfModerx => .initDone
  | .nrfModetx => .initDone
  | .nrfStandby => .initDone
  | .nrfFlushtx => .initDone
  | .nrfFlushrx => .initDone
  | .nrfRxempty => .initDone
  | .nrfRxfull => .initDone
  | .nrfTxempty => .initDone
  | .nrfTxfull => .initDone
  | .nrfRdpl _ => .initDone
  | .nrfWrpl _ _ => .initDone
  | .radioInit _ _ => .nothing
  | .radioWrite _ _ => .initDone
  | .radioRead _ => .initDone
  | .radioHaspl => .initDone

/-- Whether what an operation needs is there. -/
def State.has (s : State) : Need → Bool
  | .nothing => true
  | .spiEnabled => s.spi.en
  | .initDone => s.handle.initDone

/-- A host operation, as against a wire frame. -/
def isHostOp : Instr → Bool
  | .rRegister _ _ => false
  | .wRegister _ _ => false
  | .rRxPayload _ => false
  | .wTxPayload _ => false
  | .flushTx _ => false
  | .flushRx _ => false
  | .spiInitm => true
  | .spiTx _ => true
  | .spiRx => true
  | .spiWrbuf _ _ => true
  | .spiRdbuf _ => true
  | .nrfRdreg _ _ => true
  | .nrfWrreg _ _ _ => true
  | .nrfStatus => true
  | .nrfClrstatus => true
  | .nrfSetrf _ _ _ => true
  | .nrfSetch _ => true
  | .nrfSetretr _ _ => true
  | .nrfSetpw _ _ => true
  | .nrfDispipe _ => true
  | .nrfSetrxaddr _ _ => true
  | .nrfSettxaddr _ => true
  | .nrfInit _ _ => true
  | .nrfPwrup => true
  | .nrfPwrdn => true
  | .nrfModerx => true
  | .nrfModetx => true
  | .nrfStandby => true
  | .nrfFlushtx => true
  | .nrfFlushrx => true
  | .nrfRxempty => true
  | .nrfRxfull => true
  | .nrfTxempty => true
  | .nrfTxfull => true
  | .nrfRdpl _ => true
  | .nrfWrpl _ _ => true
  | .radioInit _ _ => true
  | .radioWrite _ _ => true
  | .radioRead _ => true
  | .radioHaspl => true

/-- R97 (4), R254: the operation frames a full-width address. -/
def usesAddrWidth : Instr → Bool
  | .rRegister _ _ => false
  | .wRegister _ _ => false
  | .rRxPayload _ => false
  | .wTxPayload _ => false
  | .flushTx _ => false
  | .flushRx _ => false
  | .spiInitm => false
  | .spiTx _ => false
  | .spiRx => false
  | .spiWrbuf _ _ => false
  | .spiRdbuf _ => false
  | .nrfRdreg _ _ => false
  | .nrfWrreg _ _ _ => false
  | .nrfStatus => false
  | .nrfClrstatus => false
  | .nrfSetrf _ _ _ => false
  | .nrfSetch _ => false
  | .nrfSetretr _ _ => false
  | .nrfSetpw _ _ => false
  | .nrfDispipe _ => false
  | .nrfSetrxaddr pipe _ => decide (pipe.toNat ≤ 1)
  | .nrfSettxaddr _ => true
  | .nrfInit _ _ => false
  | .nrfPwrup => false
  | .nrfPwrdn => false
  | .nrfModerx => false
  | .nrfModetx => false
  | .nrfStandby => false
  | .nrfFlushtx => false
  | .nrfFlushrx => false
  | .nrfRxempty => false
  | .nrfRxfull => false
  | .nrfTxempty => false
  | .nrfTxfull => false
  | .nrfRdpl _ => false
  | .nrfWrpl _ _ => false
  | .radioInit _ _ => false
  | .radioWrite _ _ => false
  | .radioRead _ => false
  | .radioHaspl => false

/-- R173: the operations that change `config_cache` or `ce_lvl`; every other one leaves both. -/
def changesMode : Instr → Bool
  | .rRegister _ _ => false
  | .wRegister _ _ => false
  | .rRxPayload _ => false
  | .wTxPayload _ => false
  | .flushTx _ => false
  | .flushRx _ => false
  | .spiInitm => false
  | .spiTx _ => false
  | .spiRx => false
  | .spiWrbuf _ _ => false
  | .spiRdbuf _ => false
  | .nrfRdreg _ _ => true
  | .nrfWrreg _ _ _ => true
  | .nrfStatus => false
  | .nrfClrstatus => false
  | .nrfSetrf _ _ _ => false
  | .nrfSetch _ => false
  | .nrfSetretr _ _ => false
  | .nrfSetpw _ _ => false
  | .nrfDispipe _ => false
  | .nrfSetrxaddr _ _ => false
  | .nrfSettxaddr _ => false
  | .nrfInit _ _ => true
  | .nrfPwrup => true
  | .nrfPwrdn => true
  | .nrfModerx => true
  | .nrfModetx => true
  | .nrfStandby => true
  | .nrfFlushtx => false
  | .nrfFlushrx => false
  | .nrfRxempty => false
  | .nrfRxfull => false
  | .nrfTxempty => false
  | .nrfTxfull => false
  | .nrfRdpl _ => false
  | .nrfWrpl _ _ => false
  | .radioInit _ _ => true
  | .radioWrite _ _ => true
  | .radioRead _ => true
  | .radioHaspl => false

/-! ### The frame discipline (R11, R303 I1 to I3, I5) -/

/-- Where a trace stands: no CSN event yet, outside every frame, a frame just opened, inside a frame after its command byte. -/
inductive Phase where
  | fresh
  | outside
  | opened
  | inside
deriving DecidableEq, Repr

namespace Phase

/-- No frame is open. -/
def closed : Phase → Bool
  | .fresh => true
  | .outside => true
  | .opened => false
  | .inside => false

/-- The discipline, event by event; none where an event breaks it: `CSN=0` before the first `CSN=1` or inside a frame, `CSN=1`
before the command byte, a first byte that is none of the 68 commands, anything but an exchange inside a frame. -/
def event : Phase → Event → Option Phase
  | .fresh, .lvl .csn v => if v then some .outside else none
  | .outside, .lvl .csn v => if v then some .outside else some .opened
  | .opened, .xfer t _ => if (decodeWire t).isSome then some .inside else none
  | .inside, .xfer _ _ => some .inside
  | .inside, .lvl .csn v => if v then some .outside else none
  | .opened, _ => none
  | .inside, _ => none
  | .fresh, _ => some .fresh
  | .outside, _ => some .outside

/-- The phase after a trace. -/
def scan (p : Phase) (events : List Event) : Option Phase := events.foldlM event p

/-- The phase after one item still to be performed, whatever bytes are received. -/
def item : Phase → Item → Option Phase
  | .fresh, .set .initDone => none
  | p, .set _ => some p
  | p, .op (.dir l) => event p (.dir l)
  | p, .op (.lvl l v) => event p (.lvl l v)
  | p, .op .spiInit => event p .spiInit
  | p, .op (.delayUs n) => event p (.delayUs n)
  | p, .op (.delayMs n) => event p (.delayMs n)
  | p, .op (.xfer (.lit b) _) => event p (.xfer b 0)
  | .opened, .op (.xfer _ _) => none
  | p, .op (.xfer _ _) => some p

/-- The phase after the items still to be performed. -/
def items (p : Phase) (is : List Item) : Option Phase := is.foldlM item p

end Phase

/-- What may follow a sequence: a branch that opens a frame follows only where CSN has been driven. -/
def tailFits (p : Phase) : Tail → Bool
  | .finish _ => p.closed
  | .readBranch _ => decide (p = .outside)
  | .pollBranch => decide (p = .outside)

/-- The trace obeys the frame discipline, the CSN level says whether a frame is open, a running operation will close what it has
opened, an idle block has no frame open, and after an initialisation CSN has been driven. -/
def State.Framed (s : State) : Prop :=
  ∃ p, Phase.scan .fresh s.trace = some p ∧ s.lines.csnLvl = p.closed ∧ (s.handle.initDone = true → p ≠ .fresh) ∧
    if s.ctl.busy then ∃ q, p.items s.ctl.todo = some q ∧ tailFits q s.ctl.tail = true
    else p.closed = true

/-! ### Other properties of every reachable state -/

/-- R250, U13: `rsp_err` 7 is never produced; `err_sticky` bits 0, 1 and 7 are never set. -/
def Response.Sound (r : Response) : Prop := r.err ≠ 7 ∧ r.sticky &&& 0x83 = 0

/-- R216, R218: the chip's register space is in canonical form; each FIFO holds at most 3 payloads of 1 to 32 bytes. -/
def Chip.Sound (c : Chip) : Prop :=
  c.regs.wf = true ∧ c.txFifo.length ≤ Config.fifoDepth ∧ c.rxFifo.length ≤ Config.fifoDepth ∧
    (∀ p ∈ c.txFifo, 1 ≤ p.length ∧ p.length ≤ Config.maxPayload) ∧
    (∀ e ∈ c.rxFifo, 1 ≤ e.2.length ∧ e.2.length ≤ Config.maxPayload)

/-- R303 I1, I7: once initialised, both lines are outputs and the master is enabled. -/
def State.Driven (s : State) : Prop :=
  s.handle.initDone = true → s.lines.ceDir = true ∧ s.lines.csnDir = true ∧ s.spi.en = true

/-- The items still to be performed keep `Driven`: `init_done` is set only where directions and master are set first. -/
def initReady : Bool → Bool → Bool → List Item → Bool
  | _, _, _, [] => true
  | ce, csn, en, .set .initDone :: is => ce && csn && en && initReady ce csn en is
  | ce, csn, en, .set _ :: is => initReady ce csn en is
  | _, csn, en, .op (.dir .ce) :: is => initReady true csn en is
  | ce, _, en, .op (.dir .csn) :: is => initReady ce true en is
  | ce, csn, _, .op .spiInit :: is => initReady ce csn true is
  | ce, csn, en, .op _ :: is => initReady ce csn en is

/-- `Driven`, now and after what is still to be performed. -/
def State.StaysDriven (s : State) : Prop :=
  s.Driven ∧ (s.ctl.busy = true → initReady s.lines.ceDir s.lines.csnDir s.spi.en s.ctl.todo = true)

/-! ### The cached configuration register (R22, R303 I4) -/

/-- Where a trace stands with respect to frames that access `A_CONFIG`. -/
inductive ConfigPos where
  | outside
  | opened
  | firstData (isWrite : Bool)
  | rest
deriving DecidableEq, Repr

/-- One event: the first data byte of a frame that writes (the byte sent) or reads (the byte received) `A_CONFIG` is the value. -/
def configEvent (m : RegMap) (st : ConfigPos × Byte) (e : Event) : ConfigPos × Byte :=
  match e with
  | .lvl .csn v => (if v then .outside else .opened, st.2)
  | .xfer t r =>
    match st.1 with
    | .outside => st
    | .rest => st
    | .opened =>
      if t = encodeWire (.readReg m.aConfig) then (.firstData false, st.2)
      else if t = encodeWire (.writeReg m.aConfig) then (.firstData true, st.2)
      else (.rest, st.2)
    | .firstData isWrite => (.rest, if isWrite then t else r)
  | .lvl .ce _ => st
  | .dir _ => st
  | .spiInit => st
  | .delayUs _ => st
  | .delayMs _ => st

/-- R303 I4: the first data byte of the last frame that wrote or read `A_CONFIG` with at least one data byte; 0x00 before the
first such frame. -/
def lastConfig (m : RegMap) (trace : List Event) : ConfigPos × Byte := trace.foldl (configEvent m) (.outside, 0x00)

/-- R303 I4. -/
def State.CacheAgrees (s : State) : Prop := lastConfig s.cfg.regMap s.trace = (.outside, s.handle.configCache)

end Sys2Proof.Machine
end

