-- ==== Sys2Proof/Certificates/Slice0/Obligations.lean ====
section
/-! DEFINITION. The statements about this model, for the provers. A statement about the block is against the free oracle (R215) and
an uninterrupted step unless it says otherwise; an equation with a next state names every field that changes. -/

open Sys2Proof Sys2Proof.Machine

/-! ### Encoding -/

/-- R86, R87, R92, R95: for every instruction, with every operand at every value, decoding its command gives it back. -/
def Obligations.DecodeOfEncodeIsIdentity : Prop := ∀ i : Instr, decode (encode i) = .instr i

/-- R86, R87: a command byte means one wire command: encoding what a byte decodes to gives that byte; and a host command that
decodes to an instruction carries that instruction's operation code (R95). -/
def Obligations.EveryCodeHasOneMeaning : Prop :=
  (∀ (b : Byte) (op : WireOp), decodeWire b = some op → encodeWire op = b) ∧
  ∀ (c : HostCmd) (i : Instr), decodeHost c = .instr i → ∃ c' : HostCmd, encode i = .host c' ∧ c'.op = c.op

/-- R90: of the 256 values exactly these 68 are command bytes; a frame with another one has no meaning. -/
def Obligations.SixtyEightCommandBytes : Prop :=
  ((List.range 256).countP fun n => (decodeWire (BitVec.ofNat 8 n)).isSome) = 68 ∧
  (∀ b : Byte, (decodeWire b).isSome ↔ b.toNat ≤ 0x3F ∨ b = 0x61 ∨ b = 0xA0 ∨ b = 0xE1 ∨ b = 0xE2) ∧
  ∀ (b : Byte) (data : List Byte) (s : State), decodeWire b = none →
    decode (.wire (b :: data)) = .unknownCommand b ∧ dispatch (.wire (b :: data)) s = .refused (.unknownWireCommand b)

/-- Sanity: words written out from R86, R87 and R95 decode to what they stand for (V-table 2.8, P1, P2). -/
def Obligations.WrittenOutWordsDecode : Prop :=
  decodeTableWord 8 0b11100001 = some (.flushTx []) ∧ decodeTableWord 8 0b11100010 = some (.flushRx []) ∧
  decodeTableWord 8 0b01100001 = some (.rRxPayload [0]) ∧ decodeTableWord 8 0b10100000 = some (.wTxPayload [0]) ∧
  decode (.wire [0b00000111, 0xFF]) = .instr (.rRegister 0x07 [0xFF]) ∧
  decode (.wire [0b00100101, 0x2A]) = .instr (.wRegister 0x05 [0x2A]) ∧
  decode (.host { HostCmd.ofOp 0b110000 with a0 := 0x09, a1 := 0x0A }) = .instr (.radioInit 0x09 0x0A) ∧
  decode (.host { HostCmd.ofOp 0b010111 with a0 := 3, a1 := 32 }) = .instr (.nrfSetpw 3 32)

/-- R99, R251: the 30 reserved codes, and no other, end with `IllegalOp` whatever the state of the block: nothing but the
response registers, the handshake and the operand registers changes. -/
def Obligations.ReservedCodesEndWithIllegalOp : Prop :=
  ∀ c : HostCmd,
    (0x05 ≤ c.op.toNat ∧ c.op.toNat ≤ 0x0F ∨ 0x1B ≤ c.op.toNat ∧ c.op.toNat ≤ 0x1F ∨ c.op.toNat = 0x26 ∨ c.op.toNat = 0x27 ∨
        0x34 ≤ c.op.toNat →
      decode (.host c) = .illegalOp c.op ∧
      ∀ s : State, s.Uninterrupted →
        dispatch (.host c) s = .next ({ s with operands := c }.ends 0 []
          { s.rsp with ok := false, err := 5, sticky := s.rsp.sticky ||| 0x20 })) ∧
    (¬(0x05 ≤ c.op.toNat ∧ c.op.toNat ≤ 0x0F ∨ 0x1B ≤ c.op.toNat ∧ c.op.toNat ≤ 0x1F ∨ c.op.toNat = 0x26 ∨
        c.op.toNat = 0x27 ∨ 0x34 ≤ c.op.toNat) →
      ∃ i, decode (.host c) = .instr i ∧ isHostOp i = true)

/-! ### Parameters, reset, the step -/

/-- R6, D7 to D12, D18: the defaults of the parameters the spec gives one for: `DUMMY`, `POLL_LIMIT`, every address `A_*`, every
bit position `B_*` and field `F_*` (its lowest bit), `CONFIG_INIT` and `STATUS_CLEAR`; and that the two constants are made of
those bits (R143, R167). -/
def Obligations.DefaultParameters : Prop :=
  Config.standard.dummy = 0xFF ∧ Config.standard.pollLimit = 0 ∧ Config.standard.regMap = RegMap.standard ∧
  RegMap.standard.aConfig = 0x00 ∧ RegMap.standard.aEnAa = 0x01 ∧ RegMap.standard.aEnRxaddr = 0x02 ∧ RegMap.standard.aSetupAw = 0x03 ∧
  RegMap.standard.aSetupRetr = 0x04 ∧ RegMap.standard.aRfCh = 0x05 ∧ RegMap.standard.aRfSetup = 0x06 ∧
  RegMap.standard.aStatus = 0x07 ∧ RegMap.standard.aObserveTx = 0x08 ∧ RegMap.standard.aCd = 0x09 ∧
  RegMap.standard.aRxAddrP0 = 0x0A ∧ RegMap.standard.aTxAddr = 0x10 ∧
  RegMap.standard.aRxPwP0 = 0x11 ∧ RegMap.standard.aFifoStatus = 0x17 ∧
  RegMap.standard.aDynpd = 0x1C ∧ RegMap.standard.aFeature = 0x1D ∧
  RegMap.standard.bPrimRx = 0 ∧ RegMap.standard.bPwrUp = 1 ∧ RegMap.standard.bCrco = 2 ∧ RegMap.standard.bEnCrc = 3 ∧
  RegMap.standard.bStTxFull = 0 ∧ RegMap.standard.fRxPNo = 1 ∧ RegMap.standard.bMaxRt = 4 ∧ RegMap.standard.bTxDs = 5 ∧
  RegMap.standard.bRxDr = 6 ∧ RegMap.standard.bRxEmpty = 0 ∧ RegMap.standard.bRxFull = 1 ∧ RegMap.standard.bTxEmpty = 4 ∧
  RegMap.standard.bTxFull = 5 ∧ RegMap.standard.bLna = 0 ∧ RegMap.standard.fRfPwr = 1 ∧ RegMap.standard.bRfDr = 3 ∧
  RegMap.standard.fArc = 0 ∧ RegMap.standard.fArd = 4 ∧ RegMap.standard.fRfCh = 0 ∧
  RegMap.standard.configInit = 0x0C ∧ RegMap.standard.statusClear = 0x70 ∧ RegMap.standard.constantsAgree = true

/-- R53: `rst` at a clock edge, whatever the block is doing: every element takes its reset value, no completion is recorded, the
trace and the chip stay as they were; the outputs `sck` and `mosi` have level 0 (R283), and their pins are not driven (R29; the
two rules are read together, log 26); only a frame that the reset cuts short leaves the chip open (R282, U10), and even then
within the limits of R216. That the host keeps its remaining lines is the model's choice (log 2). -/
def Obligations.ResetGivesEveryElementItsValue : Prop :=
  ∀ (s : State) (turn : Turn) (rest : List Turn), s.turns = turn :: rest → turn.rst = true →
    ∃ t, step s = .next t ∧
      t.handle = { ceId := 0, csnId := 0, configCache := 0x00, addrWidth := 0, txAddrCache := Vector.replicate 5 0,
                   initDone := false } ∧
      t.lines = { ceDir := false, csnDir := false, ceLvl := false, csnLvl := true } ∧
      t.spi = { en := false, sr := 0x00, rxd := 0x00, cnt := 0, busy := false, sck := false } ∧
      t.spi.mosiOut = false ∧ t.sckPin = .z ∧ t.spi.mosiPin = .z ∧
      t.dlyCnt = 0 ∧
      t.operands = { op := 0, a0 := 0, a1 := 0, a2 := 0, len := 0, buf := Vector.replicate 32 0 } ∧
      t.rsp = { ok := false, byte := 0, err := 0, buf := Vector.replicate 32 0, sticky := 0 } ∧
      t.ctl.busy = false ∧ t.ctl.done = false ∧ t.ctl.failed = false ∧ t.ctl.timedOut = false ∧ t.ctl.pollCnt = 0 ∧
      t.ctl.t = 0 ∧ t.mode = .powerDown ∧ t.cePin = .z ∧ t.csnPin = .z ∧
      t.trace = s.trace ∧ t.cfg = s.cfg ∧ t.far = s.far ∧ t.miso = s.miso ∧ t.program = s.program ∧ t.turns = rest ∧
      (s.far = .free ∨ s.takeTurn.chip.sel = false → t.chip = s.takeTurn.chip)

/-- R53 and the invariants of this file at reset: the machine right after reset meets each of them. -/
def Obligations.ResetMeetsTheInvariants : Prop :=
  State.reset.Framed ∧ State.reset.chip.Sound ∧ State.reset.rsp.Sound ∧ State.reset.StaysDriven ∧ State.reset.CacheAgrees ∧
  State.reset.mode = .powerDown ∧ State.reset.ctl.busy = false ∧ State.reset.chip.statusByte RegMap.standard = 0x0E ∧
  State.reset.chip.fifoByte RegMap.standard = 0x11

/-- R96, R104: a step runs what is presented. An idle block whose host has a line to issue and whose outside is quiet: the next
step is the meaning of the instruction the line decodes to, on the state with the line taken, the pins set, `done` low (R34)
and, for a host command, the operand registers loaded. A wire frame as the next line is the model's choice: a bench clocks it into the
chip while the block is idle (log 3); one step for acceptance and run is log 5 and log 6, and the level of the command pins for a wire frame is log 14. -/
def Obligations.StepRunsTheDecodedInstruction : Prop :=
  ∀ (s : State) (rest : List Command) (i : Instr), s.ctl.busy = false → s.turns = [] →
    (∀ c : HostCmd, s.program = .host c :: rest → decode (.host c) = .instr i →
      step s = exec i
        { s with
          program := rest
          inp := { rst := false, valid := true, cmd := c, frame := none }
          budget := none
          operands := c
          ctl := { s.ctl with done := false, busy := true, seq := 0 } }) ∧
    (∀ bytes : List Byte, s.program = .wire bytes :: rest → decode (.wire bytes) = .instr i →
      step s = exec i
        { s with
          program := rest
          inp := { rst := false, valid := false, cmd := s.inp.cmd, frame := some bytes }
          budget := none
          ctl := { s.ctl with done := false } })

/-- R96: acceptance. The step in which an idle block takes a host command, cut before the first micro-operation: the ports are
copied, `busy` rises, `seq` is 0, and the response registers, the lines, the bus and the trace are as before. -/
def Obligations.AcceptanceCopiesThePorts : Prop :=
  ∀ (s : State) (c : HostCmd) (rest : List Command), s.far = .free → s.ctl.busy = false → s.program = .host c :: rest →
    s.turns = [{ rst := false, cmd := none, air := [], budget := some 0 }] →
    ∃ t, step s = .next t ∧ t.operands = c ∧ t.ctl.busy = true ∧ t.ctl.done = false ∧ t.ctl.seq = 0 ∧ t.rsp = s.rsp ∧
      t.lines = s.lines ∧ t.spi = s.spi ∧ t.dlyCnt = s.dlyCnt ∧ t.trace = s.trace ∧ t.miso = s.miso ∧ t.program = rest

/-- R96, U20, V97: while `busy` = 1 a command on the port is lost: the step is the step without it but for the levels of the
input pins themselves, and without `rst` the operand registers keep their values (R32). -/
def Obligations.BusyBlockIgnoresCommands : Prop :=
  ∀ (s : State) (turn : Turn) (rest : List Turn) (c : HostCmd), s.ctl.busy = true → s.turns = turn :: rest → turn.cmd = some c →
    (∀ t, step s = .next t →
      ∃ t', step { s with turns := { turn with cmd := none } :: rest } = .next t' ∧ t = { t' with inp := t.inp }) ∧
    (∀ r, step s = .refused r → step { s with turns := { turn with cmd := none } :: rest } = .refused r) ∧
    (turn.rst = false → ∀ t, step s = .next t → t.operands = s.operands)

/-- R175, R272, R34: an idle block to which nothing is presented waits: the step changes nothing of the block, but `done` falls. -/
def Obligations.IdleBlockWaits : Prop :=
  ∀ s : State, s.ctl.busy = false → s.program = [] →
    (∀ turn ∈ s.turns.head?, turn.rst = false ∧ turn.cmd = none) →
    ∃ t, step s = .next t ∧
      { t with inp := s.inp, turns := s.turns, budget := s.budget, chip := s.chip } = { s with ctl := { s.ctl with done := false } }

/-- R15: where the outside interrupts an operation makes no difference to it. A step that is cut after k of its micro-operations
and then goes on uninterrupted ends as the uncut step does, but for the levels of the input pins: for every operation that is not
in the poll loop of `RADIO.WRITE` where it is cut, and for `RADIO.WRITE` wherever it is cut before its next branch. The loop has
pauses of its own (log 5), so a cut at or after a branch that goes on polling ends as the uncut operation does one step, that is
one poll, later. m is the number of micro-operations before the next branch: n + 14 from acceptance, and what is left of `todo`
in an operation already cut or pausing. -/
def Obligations.CutOperationEndsTheSame : Prop :=
  ∀ (s : State) (k : Nat) (t : State), s.far = .free → s.turns = [] →
    step { s with turns := [{ rst := false, cmd := none, air := [], budget := some k }] } = .next t → t.ctl.busy = true →
    (t.ctl.tail ≠ .pollBranch → ∃ u v, step t = .next u ∧ step s = .next v ∧ u = { v with inp := u.inp }) ∧
    ∀ m : Nat,
      (s.ctl.busy = true ∧ s.ctl.tail = .pollBranch ∧ m = microOps s.ctl.todo) ∨
        (s.ctl.busy = false ∧ ∃ (c : HostCmd) (rest : List Command) (n : Len) (payload : Buf),
          s.program = .host c :: rest ∧ decode (.host c) = .instr (.radioWrite n payload) ∧ m = n.toNat + 14) →
      (k < m → ∃ u v, step t = .next u ∧ step s = .next v ∧ u = { v with inp := u.inp }) ∧
      (m ≤ k → t.ctl.tail = .pollBranch →
        ∃ u v w, step t = .next u ∧ step s = .next v ∧ step v = .next w ∧ u = { w with inp := u.inp })

/-- R97, R252, R253, R254, R257: the checks at acceptance in their order; the first that fails gives the one kind reported, and
an operation that passes them all ends with none of the four kinds. -/
def Obligations.FirstFailingCheckGivesTheKind : Prop :=
  ∀ (i : Instr) (s : State), isHostOp i = true → s.Uninterrupted →
    (s.has (needOf i) = false → FaultsWith i s .notInitialized) ∧
    (s.has (needOf i) = true → i.wellFormed = false → FaultsWith i s .invalidArgument) ∧
    (s.has (needOf i) = true → i.wellFormed = true → usesAddrWidth i = true →
      s.handle.addrWidth ≠ 3 ∧ s.handle.addrWidth ≠ 4 ∧ s.handle.addrWidth ≠ 5 → FaultsWith i s .badAddrWidth) ∧
    (s.has (needOf i) = true → i.wellFormed = true →
      (usesAddrWidth i = true → s.handle.addrWidth = 3 ∨ s.handle.addrWidth = 4 ∨ s.handle.addrWidth = 5) →
      ∃ t, exec i s = .next t ∧
        (t.ctl.busy = false → t.rsp.err ≠ 2 ∧ t.rsp.err ≠ 4 ∧ t.rsp.err ≠ 5 ∧ t.rsp.err ≠ 6))

/-! ### The SPI master -/

/-- R119, R116: `SPI_INIT()` enables the master; performed again when `spi_en` = 1 it changes nothing. -/
def Obligations.SpiInitmEnablesTheMaster : Prop :=
  Encoded 0x00 (fun _ => .spiInitm) ∧
  ∀ s : State, s.Uninterrupted →
    exec .spiInitm s =
      .next { s.ends 0 [.spiInit] s.rsp.good with
        spi := if s.spi.en then s.spi else { s.spi with en := true, cnt := 0, busy := false, sck := false } }

/-- R120. -/
def Obligations.SpiTxSendsOneByte : Prop :=
  Encoded 0x01 (fun c => .spiTx c.a0) ∧
  ∀ (b : Byte) (s : State), s.Uninterrupted →
    (s.spi.en = false → FaultsWith (.spiTx b) s .notInitialized) ∧
    (s.spi.en = true → exec (.spiTx b) s = .next (s.ends 1 (s.xEvents 0 [b]) s.rsp.good))

/-- R121. -/
def Obligations.SpiRxReturnsTheByteReceived : Prop :=
  Encoded 0x02 (fun _ => .spiRx) ∧
  ∀ s : State, s.Uninterrupted →
    (s.spi.en = false → FaultsWith .spiRx s .notInitialized) ∧
    (s.spi.en = true → exec .spiRx s = .next (s.ends 1 (s.xEvents 0 [s.cfg.dummy]) { s.rsp.good with byte := s.rx 0 }))

/-- R122. -/
def Obligations.SpiWrbufSendsTheBuffer : Prop :=
  Encoded 0x03 (fun c => .spiWrbuf c.len c.buf) ∧
  ∀ (n : Len) (buf : Buf) (s : State), s.Uninterrupted →
    (s.spi.en = false → FaultsWith (.spiWrbuf n buf) s .notInitialized) ∧
    (s.spi.en = true → 32 < n.toNat → FaultsWith (.spiWrbuf n buf) s .invalidArgument) ∧
    (s.spi.en = true → n.toNat ≤ 32 →
      exec (.spiWrbuf n buf) s = .next (s.ends n.toNat (s.xEvents 0 (buf.toList.take n.toNat)) s.rsp.good))

/-- R123. -/
def Obligations.SpiRdbufFillsTheResponse : Prop :=
  Encoded 0x04 (fun c => .spiRdbuf c.len) ∧
  ∀ (n : Len) (s : State), s.Uninterrupted →
    (s.spi.en = false → FaultsWith (.spiRdbuf n) s .notInitialized) ∧
    (s.spi.en = true → 32 < n.toNat → FaultsWith (.spiRdbuf n) s .invalidArgument) ∧
    (s.spi.en = true → n.toNat ≤ 32 →
      exec (.spiRdbuf n) s =
        .next (s.ends n.toNat (s.xEvents 0 (List.replicate n.toNat s.cfg.dummy))
          { s.rsp.good with buf := s.received 0 n.toNat }))

/-- R66, R118: the exchange at bit level: before the k-th rising edge `sck` is low and `mosi` carries bit 7 - k of the byte sent,
which it still does while `sck` is high; after the eight cycles the shift register and `spi_rxd` hold the byte received and `sck`
is low. -/
def Obligations.ByteGoesBitSevenFirst : Prop :=
  ∀ (t r : Byte) (x : Spi), x.en = true →
    (∀ k : Nat, k < 8 →
      let y := ((Spi.wireBits r).take k).foldl Spi.clock (Spi.load t x)
      y.sckPin = .level false ∧ y.mosiPin = .level (t.getLsbD (7 - k)) ∧
        y.rise.sckPin = .level true ∧ y.rise.mosiPin = .level (t.getLsbD (7 - k)) ∧
        ((Spi.wireBits r).take (k + 1)).foldl Spi.clock (Spi.load t x) = Spi.fall (r.getLsbD (7 - k)) y.rise) ∧
    x.exchange t r = { x with sr := r, rxd := r, cnt := 8, busy := false, sck := false }

/-- R135, R136, R268: a delay loads the smallest count of cycles that is not shorter than the nominal time, and is an event; when
the wait is over the counter is 0 (that the wait is part of the same step is the model's, log 8). -/
def Obligations.DelayIsNeverShorterThanNominal : Prop :=
  (∀ (cfg : Config) (n : Nat), n * cfg.fClkHz ≤ usCycles cfg n * 1000000 ∧ usCycles cfg n * 1000000 < n * cfg.fClkHz + 1000000) ∧
  (∀ (cfg : Config) (n : Nat), n * cfg.fClkHz ≤ msCycles cfg n * 1000 ∧ msCycles cfg n * 1000 < n * cfg.fClkHz + 1000) ∧
  (∀ (s : State) (n : Nat),
    s.delayUs n = { s with dlyCnt := usCycles s.cfg n, trace := s.trace ++ [.delayUs n] } ∧
    s.delayMs n = { s with dlyCnt := msCycles s.cfg n, trace := s.trace ++ [.delayMs n] } ∧
    (s.delayUs n).transfer .delayDone = { s with dlyCnt := 0, trace := s.trace ++ [.delayUs n] } ∧
    (s.delayMs n).transfer .delayDone = { s with dlyCnt := 0, trace := s.trace ++ [.delayMs n] }) ∧
  usCycles { Config.standard with fClkHz := 16000000 } 130 = 2080 ∧
  usCycles { Config.standard with fClkHz := 7372800 } 130 = 959 ∧
  msCycles { Config.standard with fClkHz := 16000000 } 100 = 1600000

/-! ### The register codec -/

/-- R140. -/
def Obligations.RdregReadsTheRegister : Prop :=
  Encoded 0x10 (fun c => .nrfRdreg c.a0 c.len) ∧
  ∀ (reg : Byte) (n : Len) (s : State), s.Uninterrupted →
    FaultsUninitialised (.nrfRdreg reg n) s ∧
    (s.handle.initDone = true → 0x1F < reg.toNat ∨ 32 < n.toNat → FaultsWith (.nrfRdreg reg n) s .invalidArgument) ∧
    (s.handle.initDone = true → reg.toNat ≤ 0x1F → n.toNat ≤ 32 →
      exec (.nrfRdreg reg n) s = .next
        { s.ends (n.toNat + 1) (s.frameEvents 0 (reg :: List.replicate n.toNat s.cfg.dummy))
            { s.rsp.good with
              buf := s.received 1 n.toNat
              byte := if 1 ≤ n.toNat then s.rx 1 else s.rsp.byte } with
          lines := s.lines.idleCsn
          handle := if 1 ≤ n.toNat ∧ reg.setWidth 5 = s.cfg.regMap.aConfig then { s.handle with configCache := s.rx 1 }
                    else s.handle })

/-- R141, the block's side. -/
def Obligations.WrregWritesTheRegister : Prop :=
  Encoded 0x11 (fun c => .nrfWrreg c.a0 c.len c.buf) ∧
  ∀ (reg : Byte) (n : Len) (buf : Buf) (s : State), s.Uninterrupted →
    FaultsUninitialised (.nrfWrreg reg n buf) s ∧
    (s.handle.initDone = true → 0x1F < reg.toNat ∨ 32 < n.toNat → FaultsWith (.nrfWrreg reg n buf) s .invalidArgument) ∧
    (s.handle.initDone = true → reg.toNat ≤ 0x1F → n.toNat ≤ 32 →
      exec (.nrfWrreg reg n buf) s = .next
        { s.ends (n.toNat + 1) (s.frameEvents 0 ((0x20 ||| reg) :: buf.toList.take n.toNat)) s.rsp.good with
          lines := s.lines.idleCsn
          handle := if 1 ≤ n.toNat ∧ reg.setWidth 5 = s.cfg.regMap.aConfig then { s.handle with configCache := buf[0] }
                    else s.handle })

/-- R142, R143. -/
def Obligations.StatusIsReadAndItsFlagsCleared : Prop :=
  Encoded 0x12 (fun _ => .nrfStatus) ∧ Encoded 0x13 (fun _ => .nrfClrstatus) ∧ RegMap.standard.statusClear = 0x70 ∧
  ∀ s : State, s.Uninterrupted →
    FaultsUninitialised .nrfStatus s ∧ FaultsUninitialised .nrfClrstatus s ∧
    (s.handle.initDone = true →
      exec .nrfStatus s = .next (s.readByte s.cfg.regMap.aStatus { s.rsp.good with byte := s.rx 1 }) ∧
      exec .nrfClrstatus s = .next (s.wrote s.cfg.regMap.aStatus [s.cfg.regMap.statusClear]))

/-- R148, R91, R46. -/
def Obligations.SetrfWritesTheCombinedByte : Prop :=
  Encoded 0x14 (fun c => .nrfSetrf c.a0 c.a1 c.a2) ∧
  ∀ (rate power lna : Byte) (s : State), s.Uninterrupted →
    FaultsUninitialised (.nrfSetrf rate power lna) s ∧
    (s.handle.initDone = true → 1 < rate.toNat ∨ 3 < power.toNat ∨ 1 < lna.toNat →
      FaultsWith (.nrfSetrf rate power lna) s .invalidArgument) ∧
    (s.handle.initDone = true → rate.toNat ≤ 1 → power.toNat ≤ 3 → lna.toNat ≤ 1 →
      exec (.nrfSetrf rate power lna) s = .next (s.wrote s.cfg.regMap.aRfSetup
        [(rate <<< s.cfg.regMap.bRfDr) ||| (power <<< s.cfg.regMap.fRfPwr) ||| (lna <<< s.cfg.regMap.bLna)]) ∧
      (s.cfg.regMap = RegMap.standard →
        exec (.nrfSetrf rate power lna) s = .next (s.wrote 0x06 [(rate <<< 3) ||| (power <<< 1) ||| lna])))

/-- R149, R100. -/
def Obligations.SetchMasksTheChannel : Prop :=
  Encoded 0x15 (fun c => .nrfSetch c.a0) ∧
  ∀ (frequency : Byte) (s : State), s.Uninterrupted →
    FaultsUninitialised (.nrfSetch frequency) s ∧
    (s.handle.initDone = true →
      exec (.nrfSetch frequency) s = .next (s.wrote s.cfg.regMap.aRfCh [(frequency &&& 0x7F) <<< s.cfg.regMap.fRfCh]) ∧
      (s.cfg.regMap = RegMap.standard →
        exec (.nrfSetch frequency) s = .next (s.wrote 0x05 [frequency &&& 0x7F])))

/-- R150, R100, R47, S9. -/
def Obligations.SetretrMasksBothFields : Prop :=
  Encoded 0x16 (fun c => .nrfSetretr c.a0 c.a1) ∧
  ∀ (count delay : Byte) (s : State), s.Uninterrupted →
    FaultsUninitialised (.nrfSetretr count delay) s ∧
    (s.handle.initDone = true →
      exec (.nrfSetretr count delay) s = .next (s.wrote s.cfg.regMap.aSetupRetr
        [((delay &&& 0x0F) <<< s.cfg.regMap.fArd) ||| ((count &&& 0x0F) <<< s.cfg.regMap.fArc)]) ∧
      (s.cfg.regMap = RegMap.standard →
        exec (.nrfSetretr count delay) s = .next (s.wrote 0x04 [((delay &&& 0x0F) <<< 4) ||| (count &&& 0x0F)])))

/-- R151, R152, R105. -/
def Obligations.SetpwAndDispipeWriteTheSize : Prop :=
  Encoded 0x17 (fun c => .nrfSetpw c.a0 c.a1) ∧ Encoded 0x18 (fun c => .nrfDispipe c.a0) ∧
  ∀ (pipe size : Byte) (s : State), s.Uninterrupted →
    FaultsUninitialised (.nrfSetpw pipe size) s ∧
    (s.handle.initDone = true → 5 < pipe.toNat ∨ 32 < size.toNat → FaultsWith (.nrfSetpw pipe size) s .invalidArgument) ∧
    (s.handle.initDone = true → pipe.toNat ≤ 5 → size.toNat ≤ 32 →
      exec (.nrfSetpw pipe size) s = .next (s.wrote (s.cfg.regMap.aRxPwP0 + pipe.setWidth 5) [size])) ∧
    exec (.nrfDispipe pipe) s = exec (.nrfSetpw pipe 0) s ∧
    (s.handle.initDone = true → pipe.toNat ≤ 5 →
      exec (.nrfDispipe pipe) s = .next (s.wrote (s.cfg.regMap.aRxPwP0 + pipe.setWidth 5) [0]))

/-- R153: the address of pipes 0 and 1 in full width, of pipes 2 to 5 its first byte only; then the enable bit, the other bits
written back as read. -/
def Obligations.SetrxaddrWritesAddressThenEnableBit : Prop :=
  Encoded 0x19 (fun c => .nrfSetrxaddr c.a0 c.buf) ∧
  ∀ (pipe : Byte) (address : Buf) (s : State), s.Uninterrupted →
    let L := if pipe.toNat ≤ 1 then s.handle.addrWidth.toNat else 1
    FaultsUninitialised (.nrfSetrxaddr pipe address) s ∧
    (s.handle.initDone = true → 5 < pipe.toNat → FaultsWith (.nrfSetrxaddr pipe address) s .invalidArgument) ∧
    (s.handle.initDone = true → pipe.toNat ≤ 1 → s.handle.addrWidth.toNat < 3 ∨ 5 < s.handle.addrWidth.toNat →
      FaultsWith (.nrfSetrxaddr pipe address) s .badAddrWidth) ∧
    (s.handle.initDone = true → pipe.toNat ≤ 5 →
      (pipe.toNat ≤ 1 → 3 ≤ s.handle.addrWidth.toNat ∧ s.handle.addrWidth.toNat ≤ 5) →
      exec (.nrfSetrxaddr pipe address) s = .next
        { s.ends (L + 5)
            (s.frameEvents 0 (encodeWire (.writeReg (s.cfg.regMap.aRxAddrP0 + pipe.setWidth 5)) :: address.toList.take L)
              ++ s.frameEvents (L + 1) [encodeWire (.readReg s.cfg.regMap.aEnRxaddr), s.cfg.dummy]
              ++ s.frameEvents (L + 3)
                  [encodeWire (.writeReg s.cfg.regMap.aEnRxaddr), s.rx (L + 2) ||| ((1 : Byte) <<< pipe.toNat)])
            s.rsp.good with
          lines := s.lines.idleCsn
          ctl.t := s.rx (L + 2) })

/-- R154. -/
def Obligations.SettxaddrWritesBothAddressesAndCaches : Prop :=
  Encoded 0x1A (fun c => .nrfSettxaddr c.buf) ∧
  ∀ (address : Buf) (s : State), s.Uninterrupted →
    let w := s.handle.addrWidth.toNat
    FaultsUninitialised (.nrfSettxaddr address) s ∧
    (s.handle.initDone = true → w < 3 ∨ 5 < w → FaultsWith (.nrfSettxaddr address) s .badAddrWidth) ∧
    (s.handle.initDone = true → 3 ≤ w → w ≤ 5 →
      exec (.nrfSettxaddr address) s = .next
        { s.ends (2 * w + 2)
            (s.frameEvents 0 (encodeWire (.writeReg s.cfg.regMap.aTxAddr) :: address.toList.take w)
              ++ s.frameEvents (w + 1) (encodeWire (.writeReg s.cfg.regMap.aRxAddrP0) :: address.toList.take w))
            s.rsp.good with
          lines := s.lines.idleCsn
          handle.txAddrCache := Vector.ofFn fun i : Fin 5 => if i.val < w then address[i.val] else s.handle.txAddrCache[i] })

/-! ### The mode control -/

/-- R167. -/
def Obligations.InitRunsTheWholeSequence : Prop :=
  Encoded 0x20 (fun c => .nrfInit c.a0 c.a1) ∧ RegMap.standard.configInit = 0x0C ∧
  ∀ (ce csn : Byte) (s : State), s.Uninterrupted →
    exec (.nrfInit ce csn) s = .next
      { s.ends 6 s.initEvents s.rsp.good with
        handle := { s.handle with
          ceId := ce
          csnId := csn
          configCache := s.rx 3
          addrWidth := s.rx 5 + 2
          initDone := true }
        lines := { ceDir := true, csnDir := true, ceLvl := false, csnLvl := true }
        spi := { en := true, sr := s.rx 5, rxd := s.rx 5, cnt := 8, busy := false, sck := false }
        dlyCnt := 0 }

/-- R168. -/
def Obligations.PwrupSetsThePowerBit : Prop :=
  Encoded 0x21 (fun _ => .nrfPwrup) ∧
  ∀ s : State, s.Uninterrupted →
    let c := s.handle.configCache ||| ((1 : Byte) <<< s.cfg.regMap.bPwrUp)
    FaultsUninitialised .nrfPwrup s ∧
    (s.handle.initDone = true →
      exec .nrfPwrup s = .next
        { s.ends 2 (s.frameEvents 0 [encodeWire (.writeReg s.cfg.regMap.aConfig), c] ++ [.delayUs 1500]) s.rsp.good with
          lines := s.lines.idleCsn
          dlyCnt := 0
          handle.configCache := c })

/-- R169. -/
def Obligations.PwrdnClearsThePowerBitAndCe : Prop :=
  Encoded 0x22 (fun _ => .nrfPwrdn) ∧
  ∀ s : State, s.Uninterrupted →
    let c := s.handle.configCache &&& ~~~((1 : Byte) <<< s.cfg.regMap.bPwrUp)
    FaultsUninitialised .nrfPwrdn s ∧
    (s.handle.initDone = true →
      exec .nrfPwrdn s = .next
        { s.ends 2 (s.frameEvents 0 [encodeWire (.writeReg s.cfg.regMap.aConfig), c] ++ [.lvl .ce false]) s.rsp.good with
          lines := { s.lines.idleCsn with ceLvl := false }
          handle.configCache := c })

/-- R170, R171. -/
def Obligations.ModeSwitchWritesConfigThenRaisesCe : Prop :=
  Encoded 0x23 (fun _ => .nrfModerx) ∧ Encoded 0x24 (fun _ => .nrfModetx) ∧
  ∀ s : State, s.Uninterrupted →
    let rx := s.handle.configCache ||| ((1 : Byte) <<< s.cfg.regMap.bPrimRx)
    let tx := s.handle.configCache &&& ~~~((1 : Byte) <<< s.cfg.regMap.bPrimRx)
    FaultsUninitialised .nrfModerx s ∧ FaultsUninitialised .nrfModetx s ∧
    (s.handle.initDone = true →
      exec .nrfModerx s = .next
        { s.ends 2
            (s.frameEvents 0 [encodeWire (.writeReg s.cfg.regMap.aConfig), rx] ++ [.lvl .ce true, .delayUs 130]) s.rsp.good with
          lines := { s.lines.idleCsn with ceLvl := true }
          dlyCnt := 0
          handle.configCache := rx } ∧
      exec .nrfModetx s = .next
        { s.ends 2
            (s.frameEvents 0 [encodeWire (.writeReg s.cfg.regMap.aConfig), tx] ++ [.lvl .ce true, .delayUs 150]) s.rsp.good with
          lines := { s.lines.idleCsn with ceLvl := true }
          dlyCnt := 0
          handle.configCache := tx })

/-- R172. -/
def Obligations.StandbyClearsLowersAndFlushes : Prop :=
  Encoded 0x25 (fun _ => .nrfStandby) ∧
  ∀ s : State, s.Uninterrupted →
    FaultsUninitialised .nrfStandby s ∧
    (s.handle.initDone = true →
      exec .nrfStandby s = .next
        { s.ends 4 (s.standbyEvents 0) s.rsp.good with lines := { s.lines.idleCsn with ceLvl := false } })

/-- R174: the mode after each operation by the mode before it, for the register map of R6 and a handle whose CE is low whenever
`PWR_UP` = 0. `RADIO.READ` goes by R173 to `PRIM_RX` = 1 and CE high. `RADIO.WRITE` has its mode where its first step ends, which is
its completion or the delay after its first poll (log 5), with CE low; and every later step of the poll loop, up to and including
the one that completes, leaves that mode and that CE as they are. -/
def Obligations.ModeGoesAsTheTableSays : Prop :=
  (∀ (s : State) (k : Nat), s.far = .free → s.turns = [] → s.cfg.regMap = RegMap.standard → s.Polling k →
    s.lines.ceLvl = false → ∃ t, step s = .next t ∧ t.mode = s.mode ∧ t.lines.ceLvl = false) ∧
  ∀ s : State, s.Ready → s.cfg.regMap = RegMap.standard → (s.mode = .powerDown → s.lines.ceLvl = false) →
    (∃ t, exec .nrfPwrup s = .next t ∧ t.mode = if s.mode = .powerDown then .standby else s.mode) ∧
    (∃ t, exec .nrfPwrdn s = .next t ∧ t.mode = .powerDown) ∧
    (∃ t, exec .nrfModerx s = .next t ∧ t.mode = if s.mode = .powerDown then .powerDown else .rx) ∧
    (∃ t, exec .nrfModetx s = .next t ∧ t.mode = if s.mode = .powerDown then .powerDown else .tx) ∧
    (∃ t, exec .nrfStandby s = .next t ∧ t.mode = if s.mode = .powerDown then .powerDown else .standby) ∧
    (∀ (n : Len) (payload : Buf), n.toNat ≤ 32 →
      ∃ t, exec (.radioWrite n payload) s = .next t ∧ t.lines.ceLvl = false ∧
        t.mode = if s.mode = .powerDown then .powerDown else .standby) ∧
    (∀ n : Len, n.toNat ≤ 32 →
      ∃ t, exec (.radioRead n) s = .next t ∧ t.mode = if s.mode = .powerDown then .powerDown else .rx)

/-! ### The FIFO controller -/

/-- R185, R186. -/
def Obligations.FlushIsOneByteInAFrame : Prop :=
  Encoded 0x28 (fun _ => .nrfFlushtx) ∧ Encoded 0x29 (fun _ => .nrfFlushrx) ∧
  ∀ s : State, s.Uninterrupted →
    FaultsUninitialised .nrfFlushtx s ∧ FaultsUninitialised .nrfFlushrx s ∧
    (s.handle.initDone = true →
      exec .nrfFlushtx s = .next { s.ends 1 (s.frameEvents 0 [0xE1]) s.rsp.good with lines := s.lines.idleCsn } ∧
      exec .nrfFlushrx s = .next { s.ends 1 (s.frameEvents 0 [0xE2]) s.rsp.good with lines := s.lines.idleCsn })

/-- R187 to R191, R204: each test returns its bit of the FIFO-status byte read, `RADIO.HASPL` the inverse of `RX_EMPTY`, and all
of them the byte. -/
def Obligations.OccupancyTestsReturnTheirBit : Prop :=
  Encoded 0x2A (fun _ => .nrfRxempty) ∧ Encoded 0x2B (fun _ => .nrfRxfull) ∧ Encoded 0x2C (fun _ => .nrfTxempty) ∧
  Encoded 0x2D (fun _ => .nrfTxfull) ∧ Encoded 0x33 (fun _ => .radioHaspl) ∧
  ∀ s : State, s.Uninterrupted →
    let m := s.cfg.regMap
    (∀ i ∈ [Instr.nrfRxempty, .nrfRxfull, .nrfTxempty, .nrfTxfull, .radioHaspl], FaultsUninitialised i s) ∧
    (s.handle.initDone = true →
      (∀ p ∈ [(Instr.nrfRxempty, m.bRxEmpty), (.nrfRxfull, m.bRxFull), (.nrfTxempty, m.bTxEmpty), (.nrfTxfull, m.bTxFull)],
        exec p.1 s = .next (s.readByte m.aFifoStatus { s.rsp.good with ok := (s.rx 1).getLsbD p.2, byte := s.rx 1 })) ∧
      exec .radioHaspl s =
        .next (s.readByte m.aFifoStatus { s.rsp.good with ok := !(s.rx 1).getLsbD m.bRxEmpty, byte := s.rx 1 }))

/-- R192. -/
def Obligations.RdplReadsThePayload : Prop :=
  Encoded 0x2E (fun c => .nrfRdpl c.len) ∧
  ∀ (n : Len) (s : State), s.Uninterrupted →
    FaultsUninitialised (.nrfRdpl n) s ∧
    (s.handle.initDone = true → 32 < n.toNat → FaultsWith (.nrfRdpl n) s .invalidArgument) ∧
    (s.handle.initDone = true → n.toNat ≤ 32 →
      exec (.nrfRdpl n) s = .next
        { s.ends (n.toNat + 1) (s.frameEvents 0 (0x61 :: List.replicate n.toNat s.cfg.dummy))
            { s.rsp.good with buf := s.received 1 n.toNat } with
          lines := s.lines.idleCsn })

/-- R193. -/
def Obligations.WrplWritesThePayload : Prop :=
  Encoded 0x2F (fun c => .nrfWrpl c.len c.buf) ∧
  ∀ (n : Len) (buf : Buf) (s : State), s.Uninterrupted →
    FaultsUninitialised (.nrfWrpl n buf) s ∧
    (s.handle.initDone = true → 32 < n.toNat → FaultsWith (.nrfWrpl n buf) s .invalidArgument) ∧
    (s.handle.initDone = true → n.toNat ≤ 32 →
      exec (.nrfWrpl n buf) s = .next
        { s.ends (n.toNat + 1) (s.frameEvents 0 (0xA0 :: buf.toList.take n.toNat)) s.rsp.good with lines := s.lines.idleCsn })

/-! ### The link sequencer -/

/-- R201. -/
def Obligations.RadioInitConfiguresAndPowersUp : Prop :=
  Encoded 0x30 (fun c => .radioInit c.a0 c.a1) ∧
  ∀ (ce csn : Byte) (s : State), s.Uninterrupted →
    let m := s.cfg.regMap
    let c := s.rx 3 ||| ((1 : Byte) <<< m.bPwrUp)
    let w (a : RegAddr) : Byte := encodeWire (.writeReg a)
    let events := s.initEvents
      ++ s.frameEvents 6 [w m.aRfSetup, ((0 : Byte) <<< m.bRfDr) ||| ((0 : Byte) <<< m.fRfPwr) ||| ((1 : Byte) <<< m.bLna)]
      ++ s.frameEvents 8 [w m.aRfCh, (42 : Byte) <<< m.fRfCh] ++ s.frameEvents 10 [w m.aStatus, m.statusClear]
      ++ s.frameEvents 12 [0xE1] ++ s.frameEvents 13 [0xE2]
      ++ s.frameEvents 14 [w m.aRxPwP0, 32] ++ s.frameEvents 16 [w (m.aRxPwP0 + 1), 32]
      ++ s.frameEvents 18 [w m.aSetupRetr, ((5 : Byte) <<< m.fArd) ||| ((10 : Byte) <<< m.fArc)]
      ++ s.frameEvents 20 [w m.aConfig, c] ++ [.delayUs 1500]
    events.length = 53 ∧
    exec (.radioInit ce csn) s = .next
      { s.ends 22 events s.rsp.good with
        handle := { s.handle with ceId := ce, csnId := csn, configCache := c, addrWidth := s.rx 5 + 2, initDone := true }
        lines := { ceDir := true, csnDir := true, ceLvl := false, csnLvl := true }
        spi := { en := true, sr := s.rx 21, rxd := s.rx 21, cnt := 8, busy := false, sck := false }
        dlyCnt := 0 }

/-- R202 up to what follows the first poll: failure, success, time limit, or the delay before the second poll. -/
def Obligations.RadioWriteSendsAndPolls : Prop :=
  Encoded 0x31 (fun c => .radioWrite c.len c.buf) ∧
  ∀ (len : Len) (payload : Buf) (s : State), s.Uninterrupted →
    let m := s.cfg.regMap
    let n := len.toNat
    let c := s.handle.configCache &&& ~~~((1 : Byte) <<< m.bPrimRx)
    let t := s.rx (n + 4)
    let sent := s.linkWriteEvents (payload.toList.take n) c
    FaultsUninitialised (.radioWrite len payload) s ∧
    (s.handle.initDone = true → 32 < n → FaultsWith (.radioWrite len payload) s .invalidArgument) ∧
    (s.handle.initDone = true → n ≤ 32 →
      (t.getLsbD m.bMaxRt = true →
        exec (.radioWrite len payload) s = .next
          { s.linkEnds (n + 10) (sent ++ s.frameEvents (n + 5) [0xE1] ++ s.standbyEvents (n + 6))
              { s.rsp with ok := false, err := 1, byte := t } true false 1 t with
            handle.configCache := c }) ∧
      (t.getLsbD m.bMaxRt = false → t.getLsbD m.bTxDs = true →
        exec (.radioWrite len payload) s = .next
          { s.linkEnds (n + 9) (sent ++ s.standbyEvents (n + 5)) { s.rsp with ok := true, err := 0, byte := t } false false 1 t with
            handle.configCache := c }) ∧
      (t.getLsbD m.bMaxRt = false → t.getLsbD m.bTxDs = false → s.cfg.pollLimit = 1 →
        exec (.radioWrite len payload) s = .next
          { s.linkEnds (n + 9) (sent ++ s.standbyEvents (n + 5))
              { s.rsp with ok := false, err := 3, sticky := s.rsp.sticky ||| 0x08, byte := t } false true 1 t with
            handle.configCache := c }) ∧
      (t.getLsbD m.bMaxRt = false → t.getLsbD m.bTxDs = false → s.cfg.pollLimit ≠ 1 →
        exec (.radioWrite len payload) s = .next
          { s.polls (n + 5) (sent ++ [.delayMs 100]) (n + 15) 1 t with
            lines := { s.lines.idleCsn with ceLvl := false }
            handle.configCache := c }))

/-- R202, R255, R256: from inside the delay after k polls, the next step of an undisturbed block polls once more and then fails,
succeeds, times out, or waits again; `MAX_RT` is tested first, then `TX_DS`, then the limit. -/
def Obligations.NextPollDecides : Prop :=
  ∀ (s : State) (k : Nat), s.far = .free → s.turns = [] → s.Polling k →
    let m := s.cfg.regMap
    let t := s.rx 1
    let poll := s.frameEvents 0 [encodeWire (.readReg m.aStatus), s.cfg.dummy]
    let s0 := s.takeTurn
    (t.getLsbD m.bMaxRt = true →
      step s = .next { s0.linkEnds 7 (poll ++ s.frameEvents 2 [0xE1] ++ s.standbyEvents 3)
        { s.rsp with ok := false, err := 1, byte := t } true false (k + 1) t with ctl.seq := s.ctl.seq + 18 }) ∧
    (t.getLsbD m.bMaxRt = false → t.getLsbD m.bTxDs = true →
      step s = .next { s0.linkEnds 6 (poll ++ s.standbyEvents 2)
        { s.rsp with ok := true, err := 0, byte := t } false false (k + 1) t with ctl.seq := s.ctl.seq + 15 }) ∧
    (t.getLsbD m.bMaxRt = false → t.getLsbD m.bTxDs = false → s.cfg.pollLimit = k + 1 →
      step s = .next { s0.linkEnds 6 (poll ++ s.standbyEvents 2)
        { s.rsp with ok := false, err := 3, sticky := s.rsp.sticky ||| 0x08, byte := t } false true (k + 1) t with
          ctl.seq := s.ctl.seq + 15 }) ∧
    (t.getLsbD m.bMaxRt = false → t.getLsbD m.bTxDs = false → s.cfg.pollLimit ≠ k + 1 →
      step s = .next { s0.polls 2 (poll ++ [.delayMs 100]) (s.ctl.seq + 5) (k + 1) t with lines := s.lines.idleCsn })

/-- R208, R207, R294, U11: how `RADIO.WRITE` ends, as a run of the machine. If the k-th status byte polled is the first with a
flag and no limit is met before, the run of k steps completes after n + 5k + 20 events (success) or n + 5k + 23 (failure); if
none of the first `POLL_LIMIT` ≠ 0 bytes has a flag, it ends after `POLL_LIMIT` polls with `HardwareTimeout`; and as long as no
flag has come and no limit is met it is still polling, for ever with `POLL_LIMIT` = 0. A completion leaves CE low (R303 I8). -/
def Obligations.RadioWriteEndsAsThePollsSay : Prop :=
  ∀ (s : State) (c : HostCmd) (rest : List Command), s.far = .free → s.ctl.busy = false → s.turns = [] →
    s.handle.initDone = true → s.program = .host c :: rest → c.op = 0x31 → c.len.toNat ≤ 32 →
    let n := c.len.toNat
    let polled (j : Nat) : Byte := s.rx (n + 4 + 2 * j)
    let flagged (j : Nat) : Bool := (polled j).getLsbD s.cfg.regMap.bMaxRt || (polled j).getLsbD s.cfg.regMap.bTxDs
    (∀ k : Nat, (∀ j < k, flagged j = false) → flagged k = true → s.cfg.pollLimit = 0 ∨ k < s.cfg.pollLimit →
      ∃ t, Sys2Proof.core.run (k + 1) s = .next t ∧ t.ctl.busy = false ∧ t.ctl.done = true ∧ t.lines.ceLvl = false ∧
        t.rsp.byte = polled k ∧ t.rsp.sticky = s.rsp.sticky ∧
        if (polled k).getLsbD s.cfg.regMap.bMaxRt then
          t.rsp.ok = false ∧ t.rsp.err = 1 ∧ t.trace.length = s.trace.length + (n + 5 * (k + 1) + 23)
        else t.rsp.ok = true ∧ t.rsp.err = 0 ∧ t.trace.length = s.trace.length + (n + 5 * (k + 1) + 20)) ∧
    (s.cfg.pollLimit ≠ 0 → (∀ j < s.cfg.pollLimit, flagged j = false) →
      ∃ t, Sys2Proof.core.run s.cfg.pollLimit s = .next t ∧ t.ctl.busy = false ∧ t.ctl.done = true ∧ t.lines.ceLvl = false ∧
        t.rsp.ok = false ∧ t.rsp.err = 3 ∧ t.rsp.sticky = s.rsp.sticky ||| 0x08 ∧
        t.rsp.byte = polled (s.cfg.pollLimit - 1) ∧
        t.trace.length = s.trace.length + (n + 5 * s.cfg.pollLimit + 20)) ∧
    (∀ k : Nat, (∀ j < k + 1, flagged j = false) → s.cfg.pollLimit = 0 ∨ k + 1 < s.cfg.pollLimit →
      ∃ t, Sys2Proof.core.run (k + 1) s = .next t ∧ t.Polling (k + 1) ∧
        t.trace.length = s.trace.length + (n + 5 * (k + 1) + 10))

/-- R203; the byte the branch needs goes to the scratch register `t` (R41). -/
def Obligations.RadioReadListensAndFetches : Prop :=
  Encoded 0x32 (fun c => .radioRead c.len) ∧
  ∀ (n : Len) (s : State), s.Uninterrupted →
    let m := s.cfg.regMap
    let c := s.handle.configCache ||| ((1 : Byte) <<< m.bPrimRx)
    let looked := s.frameEvents 0 [encodeWire (.writeReg m.aConfig), c] ++ [.lvl .ce true, .delayUs 130]
      ++ s.frameEvents 2 [encodeWire (.readReg m.aFifoStatus), s.cfg.dummy]
    FaultsUninitialised (.radioRead n) s ∧
    (s.handle.initDone = true → 32 < n.toNat → FaultsWith (.radioRead n) s .invalidArgument) ∧
    (s.handle.initDone = true → n.toNat ≤ 32 → (s.rx 3).getLsbD m.bRxEmpty = true →
      exec (.radioRead n) s = .next
        { s.ends 4 looked { s.rsp with ok := false, err := 0 } with
          lines := { s.lines.idleCsn with ceLvl := true }
          dlyCnt := 0
          handle.configCache := c
          ctl.t := s.rx 3 }) ∧
    (s.handle.initDone = true → n.toNat ≤ 32 → (s.rx 3).getLsbD m.bRxEmpty = false →
      exec (.radioRead n) s = .next
        { s.ends (n.toNat + 5) (looked ++ s.frameEvents 4 (0x61 :: List.replicate n.toNat s.cfg.dummy))
            { s.rsp.good with buf := s.received 5 n.toNat } with
          lines := { s.lines.idleCsn with ceLvl := true }
          dlyCnt := 0
          handle.configCache := c
          ctl.t := s.rx 3 })

/-! ### The reference chip (46_chip_environment.md, non-normative: R215)

The four statements about frames hold in every state. Three things in them are the model's choice (log 3) and no rule of the spec:
that a bench clocks the frame into the chip; that in a chip whose frame is still open (`sel`) the bench frame restarts the decoder
and the open command gets no end action; and that the CE by which the chip arms counts as low when the chip is not the far side. -/

/-- R219, R220, R237: a register read shifts out STATUS, then the register's bytes, lowest first; what the master sends does not
matter, and registers, FIFOs and flags stay; the chip arms as R232 says. In a chip with a frame still open (`sel`) the open command
gets no end action, and the CE of a chip that is not the far side counts as low: both are the model's choice (log 3). -/
def Obligations.ReadRegisterFrameShiftsOutTheRegister : Prop :=
  ∀ (a : RegAddr) (data : List Byte) (s : State),
    ∃ t, exec (.rRegister a data) s = .next t ∧
      t = { s with chip := t.chip, wireOut := t.wireOut, draws := s.draws + (data.length + 1) } ∧
      t.chip.regs = s.chip.regs ∧ t.chip.txFifo = s.chip.txFifo ∧ t.chip.rxFifo = s.chip.rxFifo ∧
      t.chip.rxDr = s.chip.rxDr ∧ t.chip.txDs = s.chip.txDs ∧ t.chip.maxRt = s.chip.maxRt ∧
      t.chip.armed = (s.chip.rearm s.cfg.regMap s.chipCe).armed ∧ t.chip.sel = false ∧
      t.wireOut.length = data.length + 1 ∧ t.wireOut[0]? = some (s.chip.statusByte s.cfg.regMap) ∧
      (∀ (r : ChipReg) (i : Nat) (b : Byte), chipReg s.cfg.regMap a = some r → i < data.length →
        s.chip.readReg s.cfg.regMap r i = some b → t.wireOut[i + 1]? = some b) ∧
      ∀ data' : List Byte, data'.length = data.length → exec (.rRegister a data') s = .next t

/-- R221, R222: a register write stores data byte i into byte i of a writable register, its defined bits only, where the register
has such a byte; STATUS clears the flags written as 1, none if no data byte follows; a read-only register or an address that names
none ignores the write. The defined bits are R221's where it lists them (those of EN_AA, DYNPD and FEATURE are PRESUMED, log 18). In a chip with a frame still open (`sel`) the open
command gets no end action, and the CE of a chip that is not the far side counts as low: both are the model's choice (log 3). -/
def Obligations.WriteRegisterFrameStoresDefinedBits : Prop :=
  ChipReg.rfCh.stores = some 0x7F ∧ (∀ p, (ChipReg.rxPw p).stores = some 0x3F) ∧ ChipReg.setupAw.stores = some 0x03 ∧
  ChipReg.enRxaddr.stores = some 0x3F ∧ ChipReg.config.stores = some 0x7F ∧
  ∀ (a : RegAddr) (data : List Byte) (s : State), s.chip.regs.wf = true →
    ∃ t, exec (.wRegister a data) s = .next t ∧
      t = { s with chip := t.chip, wireOut := t.wireOut, draws := s.draws + (data.length + 1) } ∧
      t.chip.txFifo = s.chip.txFifo ∧ t.chip.rxFifo = s.chip.rxFifo ∧ t.chip.sel = false ∧ t.chip.regs.wf = true ∧
      t.chip.armed = (({ t.chip with armed := (s.chip.rearm s.cfg.regMap s.chipCe).armed } : Chip).rearm s.cfg.regMap s.chipCe).armed ∧
      t.wireOut.length = data.length + 1 ∧ t.wireOut[0]? = some (s.chip.statusByte s.cfg.regMap) ∧
      (∀ (r : ChipReg) (mask : Byte), chipReg s.cfg.regMap a = some r → r.stores = some mask →
        t.chip.rxDr = s.chip.rxDr ∧ t.chip.txDs = s.chip.txDs ∧ t.chip.maxRt = s.chip.maxRt ∧
        ∀ k, t.chip.regs.read k =
          if k / 8 = r.home ∧ k % 8 < data.length then (s.chip.regs.read k).map fun _ => data.getD (k % 8) 0 &&& mask
          else s.chip.regs.read k) ∧
      (∀ v vs, chipReg s.cfg.regMap a = some .status → data = v :: vs →
        t.chip.regs = s.chip.regs ∧ t.chip.rxDr = (s.chip.rxDr && !(v.getLsbD s.cfg.regMap.bRxDr)) ∧
        t.chip.txDs = (s.chip.txDs && !(v.getLsbD s.cfg.regMap.bTxDs)) ∧
        t.chip.maxRt = (s.chip.maxRt && !(v.getLsbD s.cfg.regMap.bMaxRt))) ∧
      (chipReg s.cfg.regMap a = some .status → data = [] →
        t.chip.regs = s.chip.regs ∧ t.chip.rxDr = s.chip.rxDr ∧ t.chip.txDs = s.chip.txDs ∧ t.chip.maxRt = s.chip.maxRt) ∧
      (chipReg s.cfg.regMap a = none ∨ chipReg s.cfg.regMap a = some .observeTx ∨ chipReg s.cfg.regMap a = some .cd ∨
          chipReg s.cfg.regMap a = some .fifoStatus →
        t.chip.regs = s.chip.regs ∧ t.chip.rxDr = s.chip.rxDr ∧ t.chip.txDs = s.chip.txDs ∧ t.chip.maxRt = s.chip.maxRt)

/-- R225, R226, U8, U9: a payload of 1 to 32 bytes is appended to the TX FIFO if there is room, else the run is refused; a payload
read shifts out the oldest received payload and removes it whole. Flags and registers stay. The refusal is log 19. In a chip with a
frame still open (`sel`) the open command gets no end action, so it neither appends nor removes a payload of its own, and the CE of
a chip that is not the far side counts as low: both are the model's choice (log 3). -/
def Obligations.PayloadFramesUseTheFifos : Prop :=
  (∀ (data : List Byte) (s : State), s.chip.txFifo.length < 3 → 1 ≤ data.length → data.length ≤ 32 →
    ∃ t, exec (.wTxPayload data) s = .next t ∧
      t = { s with chip := t.chip, wireOut := t.wireOut, draws := s.draws + (data.length + 1) } ∧
      t.chip.txFifo = s.chip.txFifo ++ [data] ∧ t.chip.rxFifo = s.chip.rxFifo ∧ t.chip.regs = s.chip.regs ∧
      t.chip.rxDr = s.chip.rxDr ∧ t.chip.txDs = s.chip.txDs ∧ t.chip.maxRt = s.chip.maxRt ∧ t.chip.sel = false ∧
      t.chip.armed = (({ t.chip with armed := s.chip.armed } : Chip).rearm s.cfg.regMap s.chipCe).armed ∧
      t.wireOut.length = data.length + 1 ∧ t.wireOut[0]? = some (s.chip.statusByte s.cfg.regMap)) ∧
  (∀ (data : List Byte) (s : State), 3 ≤ s.chip.txFifo.length →
    exec (.wTxPayload data) s = .refused (.chipUnspecified .txFifoFull)) ∧
  (∀ (data : List Byte) (s : State), s.chip.txFifo.length < 3 → data.length = 0 ∨ 32 < data.length →
    exec (.wTxPayload data) s = .refused (.chipUnspecified (.badPayloadLength data.length))) ∧
  ∀ (data : List Byte) (s : State),
    ∃ t, exec (.rRxPayload data) s = .next t ∧
      t = { s with chip := t.chip, wireOut := t.wireOut, draws := s.draws + (data.length + 1) } ∧
      t.chip.rxFifo = s.chip.rxFifo.tail ∧ t.chip.txFifo = s.chip.txFifo ∧ t.chip.regs = s.chip.regs ∧
      t.chip.armed = (s.chip.rearm s.cfg.regMap s.chipCe).armed ∧
      t.chip.rxDr = s.chip.rxDr ∧ t.chip.txDs = s.chip.txDs ∧ t.chip.maxRt = s.chip.maxRt ∧ t.chip.sel = false ∧
      t.wireOut.length = data.length + 1 ∧ t.wireOut[0]? = some (s.chip.statusByte s.cfg.regMap) ∧
      ∀ (p : Fin 6) (payload : List Byte) (i : Nat), s.chip.rxFifo.head? = some (p, payload) → i < data.length →
        i < payload.length → t.wireOut[i + 1]? = payload[i]?

/-- R227, R228: a flush frame empties its FIFO, whatever data bytes follow, and changes no flag; FLUSH_TX also disarms.
In a chip with a frame still open (`sel`) the open command gets no end action, so the other FIFO stays as it was, and the CE of a
chip that is not the far side counts as low: both are the model's choice (log 3). -/
def Obligations.FlushFramesEmptyTheirFifo : Prop :=
  ∀ (data : List Byte) (s : State),
    (∃ t, exec (.flushTx data) s = .next t ∧
      t = { s with chip := t.chip, wireOut := t.wireOut, draws := s.draws + (data.length + 1) } ∧
      t.chip.txFifo = [] ∧ t.chip.armed = false ∧ t.chip.rxFifo = s.chip.rxFifo ∧ t.chip.regs = s.chip.regs ∧
      t.chip.rxDr = s.chip.rxDr ∧ t.chip.txDs = s.chip.txDs ∧ t.chip.maxRt = s.chip.maxRt ∧ t.chip.sel = false ∧
      t.wireOut.length = data.length + 1 ∧ t.wireOut[0]? = some (s.chip.statusByte s.cfg.regMap)) ∧
    ∃ t, exec (.flushRx data) s = .next t ∧
      t = { s with chip := t.chip, wireOut := t.wireOut, draws := s.draws + (data.length + 1) } ∧
      t.chip.rxFifo = [] ∧ t.chip.txFifo = s.chip.txFifo ∧ t.chip.regs = s.chip.regs ∧
      t.chip.armed = (s.chip.rearm s.cfg.regMap s.chipCe).armed ∧
      t.chip.rxDr = s.chip.rxDr ∧ t.chip.txDs = s.chip.txDs ∧ t.chip.maxRt = s.chip.maxRt ∧ t.chip.sel = false ∧
      t.wireOut.length = data.length + 1 ∧ t.wireOut[0]? = some (s.chip.statusByte s.cfg.regMap)

/-- R223, R224, with the register map of R6: the bits of the two computed registers. -/
def Obligations.StatusBytesShowFlagsAndFifos : Prop :=
  ∀ c : Chip, c.txFifo.length ≤ 3 → c.rxFifo.length ≤ 3 →
    let st := c.statusByte RegMap.standard
    let fs := c.fifoByte RegMap.standard
    (st.getLsbD 7 = false ∧ st.getLsbD 6 = c.rxDr ∧ st.getLsbD 5 = c.txDs ∧ st.getLsbD 4 = c.maxRt ∧
      (st >>> 1 &&& 7).toNat = (match c.rxFifo.head? with | some (p, _) => p.val | none => 7) ∧
      st.getLsbD 0 = decide (c.txFifo.length = 3)) ∧
    (fs.getLsbD 0 = decide (c.rxFifo = []) ∧ fs.getLsbD 1 = decide (c.rxFifo.length = 3) ∧
      fs.getLsbD 4 = decide (c.txFifo = []) ∧ fs.getLsbD 5 = decide (c.txFifo.length = 3) ∧
      fs.getLsbD 2 = false ∧ fs.getLsbD 3 = false ∧ fs.getLsbD 6 = false ∧ fs.getLsbD 7 = false)

/-- R232 to R234: what the air may do to the chip. Only an armed chip sends or gives up; a packet is taken only by a powered-up
receiver with CE high, room, an enabled pipe and a payload of the pipe's size; the chip arms when powered up as a transmitter with
CE high, a payload, and `MAX_RT` clear. An equation names every field of the chip that changes. The bound of 32 bytes on an arrival is R62's;
that an event which is not enabled does nothing but let the chip arm is the model's choice (log 20). -/
def Obligations.AirActsOnlyWhenEnabled : Prop :=
  ∀ (m : RegMap) (ce : Bool) (c : Chip),
    (c.armed = false → ∀ e, e = .sent ∨ e = .gaveUp → c.air m ce e = c.rearm m ce) ∧
    (c.armed = true →
      c.air m ce .sent = ({ c with txFifo := c.txFifo.tail, txDs := true, armed := false } : Chip).rearm m ce ∧
      c.air m ce .gaveUp = ({ c with maxRt := true, armed := false } : Chip)) ∧
    (∀ (p : Fin 6) (payload : List Byte),
      ((c.reg .config).getLsbD m.bPwrUp = true ∧ (c.reg .config).getLsbD m.bPrimRx = true ∧ ce = true ∧ c.rxFifo.length < 3 ∧
          (c.reg .enRxaddr).getLsbD p.val = true ∧ c.reg (.rxPw p) ≠ 0 ∧ payload.length = (c.reg (.rxPw p)).toNat ∧
          payload.length ≤ 32 →
        c.air m ce (.arrived p payload) = { c with rxFifo := c.rxFifo ++ [(p, payload)], rxDr := true }) ∧
      (¬((c.reg .config).getLsbD m.bPwrUp = true ∧ (c.reg .config).getLsbD m.bPrimRx = true ∧ ce = true ∧
          c.rxFifo.length < 3 ∧ (c.reg .enRxaddr).getLsbD p.val = true ∧ c.reg (.rxPw p) ≠ 0 ∧
          payload.length = (c.reg (.rxPw p)).toNat ∧ payload.length ≤ 32) →
        c.air m ce (.arrived p payload) = c.rearm m ce)) ∧
    ((c.rearm m ce).armed = true ↔ c.armed = true ∨
      (ce = true ∧ (c.reg .config).getLsbD m.bPwrUp = true ∧ (c.reg .config).getLsbD m.bPrimRx = false ∧ c.txFifo ≠ [] ∧
        c.maxRt = false)) ∧
    c.rearm m ce = { c with armed := (c.rearm m ce).armed }

/-- R61, R72: the chip's register space as a memory. A write of an existing byte is what a read of it then gives, every other
byte keeps its value, the canonical form is kept; a byte that does not exist is neither written nor read, which is the model's
reading (log 23; the key is log 17); and two memories in canonical form
that read the same are the same. -/
def Obligations.RegisterSpaceIsAMemory : Prop :=
  (∀ (m : Memory) (k : Nat) (v : Byte), m.wf = true → Memory.unlisted k ≠ none →
    (m.write k v).wf = true ∧ (m.write k v).read k = some v ∧ ∀ j, j ≠ k → (m.write k v).read j = m.read j) ∧
  (∀ (m : Memory) (k : Nat) (v : Byte), Memory.unlisted k = none → m.write k v = m ∧ m.read k = none) ∧
  (∀ k : Nat, Memory.read [] k = Memory.unlisted k) ∧
  ∀ m m' : Memory, m.wf = true → m'.wf = true → (∀ k, m.read k = m'.read k) → m = m'

/-! ### The whole machine -/

/-- R20, R21, R23, R24, R25, R173, R178: which operation may write what. An uninterrupted operation other than the two
initialisations leaves the identifiers, `addr_width` and `init_done`; any but `NRF.SETTXADDR` leaves `tx_addr_cache`; any that
R173 does not list leaves `config_cache` and `ce_lvl`. -/
def Obligations.HandleFieldsHaveOwners : Prop :=
  ∀ (i : Instr) (s t : State), s.Uninterrupted → exec i s = .next t →
    ((∀ ce csn, i ≠ .nrfInit ce csn ∧ i ≠ .radioInit ce csn) →
      t.handle.ceId = s.handle.ceId ∧ t.handle.csnId = s.handle.csnId ∧ t.handle.addrWidth = s.handle.addrWidth ∧
        t.handle.initDone = s.handle.initDone) ∧
    ((∀ address, i ≠ .nrfSettxaddr address) → t.handle.txAddrCache = s.handle.txAddrCache) ∧
    (changesMode i = false → t.handle.configCache = s.handle.configCache ∧ t.lines.ceLvl = s.lines.ceLvl) ∧
    t.operands = s.operands ∧ t.cfg = s.cfg

/-- R11, R262, R303 I2, I3, I5 and the CSN part of I1: the frame discipline of the trace. Every step without `rst`, interrupted or
not, against either far side, keeps it. -/
def Obligations.EveryStepKeepsTheFrameDiscipline : Prop :=
  ∀ s t : State, s.Framed → s.takeTurn.inp.rst = false → step s = .next t → t.Framed

/-- R216, R62: every step, also one with `rst`, keeps the chip's register space canonical and its FIFOs within their limits. -/
def Obligations.EveryStepKeepsTheChipWithinItsLimits : Prop :=
  ∀ s t : State, s.chip.Sound → step s = .next t → t.chip.Sound

/-- R250, U13, R303 I1, I7: every step keeps `rsp_err` ≠ 7 and bits 0, 1, 7 of `err_sticky` clear; and every step without `rst`
keeps the lines driven and the master enabled once initialised, and no such bit returns to 0. -/
def Obligations.EveryStepKeepsResponsesAndDrivers : Prop :=
  ∀ s t : State, step s = .next t →
    (s.rsp.Sound → t.rsp.Sound) ∧
    (s.takeTurn.inp.rst = false →
      (s.StaysDriven → t.StaysDriven) ∧
      (s.handle.initDone = true → t.handle.initDone = true) ∧ (s.spi.en = true → t.spi.en = true) ∧
      (s.lines.ceDir = true → t.lines.ceDir = true) ∧ (s.lines.csnDir = true → t.lines.csnDir = true))

/-- R303 I4, R22, R177, with the register map of R6: after every operation against the free oracle `config_cache` is the first
data byte of the last frame that wrote or read `A_CONFIG`; also in the delays of a poll loop. -/
def Obligations.CacheIsTheLastConfigurationByte : Prop :=
  ∀ s t : State, s.far = .free → s.cfg.regMap = RegMap.standard → (s.turns.headD quietTurn).rst = false →
    (s.turns.headD quietTurn).budget = none → (s.ctl.busy = true → ∃ k, s.Polling k) → s.CacheAgrees → step s = .next t →
    t.CacheAgrees ∧ (t.ctl.busy = true → ∃ k, t.Polling k)

/-- S7, R172, R71 against the reference chip: after a return to standby both FIFOs are empty and the flags clear; doing it a
second time changes neither the chip's registers, FIFOs and flags nor the block's handle, lines and response. -/
def Obligations.StandbyTwiceIsStandbyOnce : Prop :=
  ∀ s t u : State, s.budget = none → s.far = .refChip → s.cfg.regMap = RegMap.standard → s.handle.initDone = true →
    s.lines.ceDir = true → s.lines.csnDir = true → s.lines.csnLvl = true → s.chip.sel = false → s.chip.gap = none →
    exec .nrfStandby s = .next t → exec .nrfStandby t = .next u →
    t.chip.txFifo = [] ∧ t.chip.rxFifo = [] ∧ t.chip.rxDr = false ∧ t.chip.txDs = false ∧ t.chip.maxRt = false ∧
    t.chip.armed = false ∧ t.chip.regs = s.chip.regs ∧
    u.chip.regs = t.chip.regs ∧ u.chip.txFifo = t.chip.txFifo ∧ u.chip.rxFifo = t.chip.rxFifo ∧
    u.chip.rxDr = t.chip.rxDr ∧ u.chip.txDs = t.chip.txDs ∧ u.chip.maxRt = t.chip.maxRt ∧ u.chip.armed = t.chip.armed ∧
    u.handle = t.handle ∧ u.lines = t.lines ∧ u.rsp = t.rsp

/-- S1, R154, R140 against the reference chip: for every legal width, the transmit address written is what a read of the
TX-address register returns. -/
def Obligations.TxAddressReadsBackAsWritten : Prop :=
  ∀ (address : Buf) (s t u : State), s.budget = none → s.far = .refChip → s.cfg.regMap = RegMap.standard →
    s.handle.initDone = true → s.lines.ceDir = true → s.lines.csnDir = true → s.lines.csnLvl = true → s.chip.sel = false →
    s.chip.gap = none → s.chip.regs.wf = true → 3 ≤ s.handle.addrWidth.toNat → s.handle.addrWidth.toNat ≤ 5 →
    exec (.nrfSettxaddr address) s = .next t → exec (.nrfRdreg 0x10 (s.handle.addrWidth.setWidth 6)) t = .next u →
    ∀ i, (h : i < s.handle.addrWidth.toNat) → (hi : i < 32) → u.rsp.buf[i] = address[i]

/-- S4, S5, R202, R255 against the reference chip: whenever `RADIO.WRITE` ends, at its first poll or a later one, with success,
failure or the time limit, the block is in standby with CE low, the FIFOs are empty and the flags clear; whatever the air does
before that poll (R15, P2, P3). A step is a whole poll: the outside neither resets the block nor cuts the step (log 5). -/
def Obligations.LinkWriteLeavesTheChipInStandby : Prop :=
  ∀ s t : State, s.far = .refChip → s.cfg.regMap = RegMap.standard → s.handle.initDone = true → s.lines.ceDir = true →
    s.lines.csnDir = true → s.lines.csnLvl = true → s.chip.sel = false → s.chip.gap = none →
    ((∃ (n : Len) (payload : Buf), n.toNat ≤ 32 ∧ s.budget = none ∧ exec (.radioWrite n payload) s = .next t) ∨
      (∃ k, s.Polling k ∧ (s.turns.headD quietTurn).rst = false ∧ (s.turns.headD quietTurn).budget = none ∧ step s = .next t)) →
    t.ctl.busy = false →
    t.chip.txFifo = [] ∧ t.chip.rxFifo = [] ∧ t.chip.maxRt = false ∧ t.chip.txDs = false ∧ t.chip.rxDr = false ∧
      t.chip.armed = false ∧ t.lines.ceLvl = false ∧ (t.rsp.err = 0 ∨ t.rsp.err = 1 ∨ t.rsp.err = 3) ∧
      (t.rsp.ok = true ↔ t.rsp.err = 0)
end

