-- ==== Sys2Proof/Laws/State.lean ====
section
/-! SUPPORT. What each named update of State leaves alone and, where it is one line, what it sets: one lemma per field. -/

namespace Sys2Proof.Machine

open Sys2Proof

variable (s : State)

@[simp] theorem State.followPins_handle : s.followPins.handle = s.handle := by
  unfold State.followPins; split <;> rfl
@[simp] theorem State.followPins_lines : s.followPins.lines = s.lines := by
  unfold State.followPins; split <;> rfl
@[simp] theorem State.followPins_spi : s.followPins.spi = s.spi := by
  unfold State.followPins; split <;> rfl
@[simp] theorem State.followPins_dlyCnt : s.followPins.dlyCnt = s.dlyCnt := by
  unfold State.followPins; split <;> rfl
@[simp] theorem State.followPins_operands : s.followPins.operands = s.operands := by
  unfold State.followPins; split <;> rfl
@[simp] theorem State.followPins_rsp : s.followPins.rsp = s.rsp := by
  unfold State.followPins; split <;> rfl
@[simp] theorem State.followPins_ctl : s.followPins.ctl = s.ctl := by
  unfold State.followPins; split <;> rfl
@[simp] theorem State.followPins_cfg : s.followPins.cfg = s.cfg := by
  unfold State.followPins; split <;> rfl
@[simp] theorem State.followPins_inp : s.followPins.inp = s.inp := by
  unfold State.followPins; split <;> rfl
@[simp] theorem State.followPins_far : s.followPins.far = s.far := by
  unfold State.followPins; split <;> rfl
@[simp] theorem State.followPins_miso : s.followPins.miso = s.miso := by
  unfold State.followPins; split <;> rfl
@[simp] theorem State.followPins_draws : s.followPins.draws = s.draws := by
  unfold State.followPins; split <;> rfl
@[simp] theorem State.followPins_wireOut : s.followPins.wireOut = s.wireOut := by
  unfold State.followPins; split <;> rfl
@[simp] theorem State.followPins_trace : s.followPins.trace = s.trace := by
  unfold State.followPins; split <;> rfl
@[simp] theorem State.followPins_program : s.followPins.program = s.program := by
  unfold State.followPins; split <;> rfl
@[simp] theorem State.followPins_turns : s.followPins.turns = s.turns := by
  unfold State.followPins; split <;> rfl
@[simp] theorem State.followPins_budget : s.followPins.budget = s.budget := by
  unfold State.followPins; split <;> rfl

@[simp] theorem State.dir_handle (l : Line) : (s.dir l).handle = s.handle := State.followPins_handle _
@[simp] theorem State.dir_spi (l : Line) : (s.dir l).spi = s.spi := State.followPins_spi _
@[simp] theorem State.dir_dlyCnt (l : Line) : (s.dir l).dlyCnt = s.dlyCnt := State.followPins_dlyCnt _
@[simp] theorem State.dir_operands (l : Line) : (s.dir l).operands = s.operands := State.followPins_operands _
@[simp] theorem State.dir_rsp (l : Line) : (s.dir l).rsp = s.rsp := State.followPins_rsp _
@[simp] theorem State.dir_ctl (l : Line) : (s.dir l).ctl = s.ctl := State.followPins_ctl _
@[simp] theorem State.dir_cfg (l : Line) : (s.dir l).cfg = s.cfg := State.followPins_cfg _
@[simp] theorem State.dir_inp (l : Line) : (s.dir l).inp = s.inp := State.followPins_inp _
@[simp] theorem State.dir_far (l : Line) : (s.dir l).far = s.far := State.followPins_far _
@[simp] theorem State.dir_miso (l : Line) : (s.dir l).miso = s.miso := State.followPins_miso _
@[simp] theorem State.dir_draws (l : Line) : (s.dir l).draws = s.draws := State.followPins_draws _
@[simp] theorem State.dir_wireOut (l : Line) : (s.dir l).wireOut = s.wireOut := State.followPins_wireOut _
@[simp] theorem State.dir_program (l : Line) : (s.dir l).program = s.program := State.followPins_program _
@[simp] theorem State.dir_turns (l : Line) : (s.dir l).turns = s.turns := State.followPins_turns _
@[simp] theorem State.dir_budget (l : Line) : (s.dir l).budget = s.budget := State.followPins_budget _

@[simp] theorem State.lvl_handle (l : Line) (v : Bool) : (s.lvl l v).handle = s.handle := State.followPins_handle _
@[simp] theorem State.lvl_spi (l : Line) (v : Bool) : (s.lvl l v).spi = s.spi := State.followPins_spi _
@[simp] theorem State.lvl_dlyCnt (l : Line) (v : Bool) : (s.lvl l v).dlyCnt = s.dlyCnt := State.followPins_dlyCnt _
@[simp] theorem State.lvl_operands (l : Line) (v : Bool) : (s.lvl l v).operands = s.operands := State.followPins_operands _
@[simp] theorem State.lvl_rsp (l : Line) (v : Bool) : (s.lvl l v).rsp = s.rsp := State.followPins_rsp _
@[simp] theorem State.lvl_ctl (l : Line) (v : Bool) : (s.lvl l v).ctl = s.ctl := State.followPins_ctl _
@[simp] theorem State.lvl_cfg (l : Line) (v : Bool) : (s.lvl l v).cfg = s.cfg := State.followPins_cfg _
@[simp] theorem State.lvl_inp (l : Line) (v : Bool) : (s.lvl l v).inp = s.inp := State.followPins_inp _
@[simp] theorem State.lvl_far (l : Line) (v : Bool) : (s.lvl l v).far = s.far := State.followPins_far _
@[simp] theorem State.lvl_miso (l : Line) (v : Bool) : (s.lvl l v).miso = s.miso := State.followPins_miso _
@[simp] theorem State.lvl_draws (l : Line) (v : Bool) : (s.lvl l v).draws = s.draws := State.followPins_draws _
@[simp] theorem State.lvl_wireOut (l : Line) (v : Bool) : (s.lvl l v).wireOut = s.wireOut := State.followPins_wireOut _
@[simp] theorem State.lvl_program (l : Line) (v : Bool) : (s.lvl l v).program = s.program := State.followPins_program _
@[simp] theorem State.lvl_turns (l : Line) (v : Bool) : (s.lvl l v).turns = s.turns := State.followPins_turns _
@[simp] theorem State.lvl_budget (l : Line) (v : Bool) : (s.lvl l v).budget = s.budget := State.followPins_budget _

@[simp] theorem State.spiInit_handle : s.spiInit.handle = s.handle := rfl
@[simp] theorem State.spiInit_lines : s.spiInit.lines = s.lines := rfl
@[simp] theorem State.spiInit_dlyCnt : s.spiInit.dlyCnt = s.dlyCnt := rfl
@[simp] theorem State.spiInit_operands : s.spiInit.operands = s.operands := rfl
@[simp] theorem State.spiInit_rsp : s.spiInit.rsp = s.rsp := rfl
@[simp] theorem State.spiInit_ctl : s.spiInit.ctl = s.ctl := rfl
@[simp] theorem State.spiInit_cfg : s.spiInit.cfg = s.cfg := rfl
@[simp] theorem State.spiInit_inp : s.spiInit.inp = s.inp := rfl
@[simp] theorem State.spiInit_far : s.spiInit.far = s.far := rfl
@[simp] theorem State.spiInit_miso : s.spiInit.miso = s.miso := rfl
@[simp] theorem State.spiInit_draws : s.spiInit.draws = s.draws := rfl
@[simp] theorem State.spiInit_chip : s.spiInit.chip = s.chip := rfl
@[simp] theorem State.spiInit_wireOut : s.spiInit.wireOut = s.wireOut := rfl
@[simp] theorem State.spiInit_program : s.spiInit.program = s.program := rfl
@[simp] theorem State.spiInit_turns : s.spiInit.turns = s.turns := rfl
@[simp] theorem State.spiInit_budget : s.spiInit.budget = s.budget := rfl

@[simp] theorem State.delayUs_handle (n : Nat) : (s.delayUs n).handle = s.handle := rfl
@[simp] theorem State.delayUs_lines (n : Nat) : (s.delayUs n).lines = s.lines := rfl
@[simp] theorem State.delayUs_spi (n : Nat) : (s.delayUs n).spi = s.spi := rfl
@[simp] theorem State.delayUs_operands (n : Nat) : (s.delayUs n).operands = s.operands := rfl
@[simp] theorem State.delayUs_rsp (n : Nat) : (s.delayUs n).rsp = s.rsp := rfl
@[simp] theorem State.delayUs_ctl (n : Nat) : (s.delayUs n).ctl = s.ctl := rfl
@[simp] theorem State.delayUs_cfg (n : Nat) : (s.delayUs n).cfg = s.cfg := rfl
@[simp] theorem State.delayUs_inp (n : Nat) : (s.delayUs n).inp = s.inp := rfl
@[simp] theorem State.delayUs_far (n : Nat) : (s.delayUs n).far = s.far := rfl
@[simp] theorem State.delayUs_miso (n : Nat) : (s.delayUs n).miso = s.miso := rfl
@[simp] theorem State.delayUs_draws (n : Nat) : (s.delayUs n).draws = s.draws := rfl
@[simp] theorem State.delayUs_chip (n : Nat) : (s.delayUs n).chip = s.chip := rfl
@[simp] theorem State.delayUs_wireOut (n : Nat) : (s.delayUs n).wireOut = s.wireOut := rfl
@[simp] theorem State.delayUs_program (n : Nat) : (s.delayUs n).program = s.program := rfl
@[simp] theorem State.delayUs_turns (n : Nat) : (s.delayUs n).turns = s.turns := rfl
@[simp] theorem State.delayUs_budget (n : Nat) : (s.delayUs n).budget = s.budget := rfl

@[simp] theorem State.delayMs_handle (n : Nat) : (s.delayMs n).handle = s.handle := rfl
@[simp] theorem State.delayMs_lines (n : Nat) : (s.delayMs n).lines = s.lines := rfl
@[simp] theorem State.delayMs_spi (n : Nat) : (s.delayMs n).spi = s.spi := rfl
@[simp] theorem State.delayMs_operands (n : Nat) : (s.delayMs n).operands = s.operands := rfl
@[simp] theorem State.delayMs_rsp (n : Nat) : (s.delayMs n).rsp = s.rsp := rfl
@[simp] theorem State.delayMs_ctl (n : Nat) : (s.delayMs n).ctl = s.ctl := rfl
@[simp] theorem State.delayMs_cfg (n : Nat) : (s.delayMs n).cfg = s.cfg := rfl
@[simp] theorem State.delayMs_inp (n : Nat) : (s.delayMs n).inp = s.inp := rfl
@[simp] theorem State.delayMs_far (n : Nat) : (s.delayMs n).far = s.far := rfl
@[simp] theorem State.delayMs_miso (n : Nat) : (s.delayMs n).miso = s.miso := rfl
@[simp] theorem State.delayMs_draws (n : Nat) : (s.delayMs n).draws = s.draws := rfl
@[simp] theorem State.delayMs_chip (n : Nat) : (s.delayMs n).chip = s.chip := rfl
@[simp] theorem State.delayMs_wireOut (n : Nat) : (s.delayMs n).wireOut = s.wireOut := rfl
@[simp] theorem State.delayMs_program (n : Nat) : (s.delayMs n).program = s.program := rfl
@[simp] theorem State.delayMs_turns (n : Nat) : (s.delayMs n).turns = s.turns := rfl
@[simp] theorem State.delayMs_budget (n : Nat) : (s.delayMs n).budget = s.budget := rfl

@[simp] theorem State.xfer_handle (t : Byte) (keep : Bool) : (s.xfer t keep).handle = s.handle := rfl
@[simp] theorem State.xfer_lines (t : Byte) (keep : Bool) : (s.xfer t keep).lines = s.lines := rfl
@[simp] theorem State.xfer_dlyCnt (t : Byte) (keep : Bool) : (s.xfer t keep).dlyCnt = s.dlyCnt := rfl
@[simp] theorem State.xfer_operands (t : Byte) (keep : Bool) : (s.xfer t keep).operands = s.operands := rfl
@[simp] theorem State.xfer_rsp (t : Byte) (keep : Bool) : (s.xfer t keep).rsp = s.rsp := rfl
@[simp] theorem State.xfer_cfg (t : Byte) (keep : Bool) : (s.xfer t keep).cfg = s.cfg := rfl
@[simp] theorem State.xfer_inp (t : Byte) (keep : Bool) : (s.xfer t keep).inp = s.inp := rfl
@[simp] theorem State.xfer_far (t : Byte) (keep : Bool) : (s.xfer t keep).far = s.far := rfl
@[simp] theorem State.xfer_wireOut (t : Byte) (keep : Bool) : (s.xfer t keep).wireOut = s.wireOut := rfl
@[simp] theorem State.xfer_program (t : Byte) (keep : Bool) : (s.xfer t keep).program = s.program := rfl
@[simp] theorem State.xfer_turns (t : Byte) (keep : Bool) : (s.xfer t keep).turns = s.turns := rfl
@[simp] theorem State.xfer_budget (t : Byte) (keep : Bool) : (s.xfer t keep).budget = s.budget := rfl

@[simp] theorem State.micro_handle (m : MicroOp) : (s.micro m).handle = s.handle := by
  cases m <;> simp [State.micro]
@[simp] theorem State.micro_operands (m : MicroOp) : (s.micro m).operands = s.operands := by
  cases m <;> simp [State.micro]
@[simp] theorem State.micro_rsp (m : MicroOp) : (s.micro m).rsp = s.rsp := by
  cases m <;> simp [State.micro]
@[simp] theorem State.micro_cfg (m : MicroOp) : (s.micro m).cfg = s.cfg := by
  cases m <;> simp [State.micro]
@[simp] theorem State.micro_inp (m : MicroOp) : (s.micro m).inp = s.inp := by
  cases m <;> simp [State.micro]
@[simp] theorem State.micro_far (m : MicroOp) : (s.micro m).far = s.far := by
  cases m <;> simp [State.micro]
@[simp] theorem State.micro_wireOut (m : MicroOp) : (s.micro m).wireOut = s.wireOut := by
  cases m <;> simp [State.micro]
@[simp] theorem State.micro_program (m : MicroOp) : (s.micro m).program = s.program := by
  cases m <;> simp [State.micro]
@[simp] theorem State.micro_turns (m : MicroOp) : (s.micro m).turns = s.turns := by
  cases m <;> simp [State.micro]
@[simp] theorem State.micro_budget (m : MicroOp) : (s.micro m).budget = s.budget := by
  cases m <;> simp [State.micro]

@[simp] theorem State.transfer_lines (t : Transfer) : (s.transfer t).lines = s.lines := by
  cases t <;> rfl
@[simp] theorem State.transfer_spi (t : Transfer) : (s.transfer t).spi = s.spi := by
  cases t <;> rfl
@[simp] theorem State.transfer_operands (t : Transfer) : (s.transfer t).operands = s.operands := by
  cases t <;> rfl
@[simp] theorem State.transfer_rsp (t : Transfer) : (s.transfer t).rsp = s.rsp := by
  cases t <;> rfl
@[simp] theorem State.transfer_cfg (t : Transfer) : (s.transfer t).cfg = s.cfg := by
  cases t <;> rfl
@[simp] theorem State.transfer_inp (t : Transfer) : (s.transfer t).inp = s.inp := by
  cases t <;> rfl
@[simp] theorem State.transfer_far (t : Transfer) : (s.transfer t).far = s.far := by
  cases t <;> rfl
@[simp] theorem State.transfer_miso (t : Transfer) : (s.transfer t).miso = s.miso := by
  cases t <;> rfl
@[simp] theorem State.transfer_draws (t : Transfer) : (s.transfer t).draws = s.draws := by
  cases t <;> rfl
@[simp] theorem State.transfer_chip (t : Transfer) : (s.transfer t).chip = s.chip := by
  cases t <;> rfl
@[simp] theorem State.transfer_wireOut (t : Transfer) : (s.transfer t).wireOut = s.wireOut := by
  cases t <;> rfl
@[simp] theorem State.transfer_trace (t : Transfer) : (s.transfer t).trace = s.trace := by
  cases t <;> rfl
@[simp] theorem State.transfer_program (t : Transfer) : (s.transfer t).program = s.program := by
  cases t <;> rfl
@[simp] theorem State.transfer_turns (t : Transfer) : (s.transfer t).turns = s.turns := by
  cases t <;> rfl
@[simp] theorem State.transfer_budget (t : Transfer) : (s.transfer t).budget = s.budget := by
  cases t <;> rfl

@[simp] theorem State.complete_handle (f : Finish) : (s.complete f).handle = s.handle := rfl
@[simp] theorem State.complete_lines (f : Finish) : (s.complete f).lines = s.lines := rfl
@[simp] theorem State.complete_spi (f : Finish) : (s.complete f).spi = s.spi := rfl
@[simp] theorem State.complete_dlyCnt (f : Finish) : (s.complete f).dlyCnt = s.dlyCnt := rfl
@[simp] theorem State.complete_operands (f : Finish) : (s.complete f).operands = s.operands := rfl
@[simp] theorem State.complete_cfg (f : Finish) : (s.complete f).cfg = s.cfg := rfl
@[simp] theorem State.complete_inp (f : Finish) : (s.complete f).inp = s.inp := rfl
@[simp] theorem State.complete_far (f : Finish) : (s.complete f).far = s.far := rfl
@[simp] theorem State.complete_miso (f : Finish) : (s.complete f).miso = s.miso := rfl
@[simp] theorem State.complete_draws (f : Finish) : (s.complete f).draws = s.draws := rfl
@[simp] theorem State.complete_chip (f : Finish) : (s.complete f).chip = s.chip := rfl
@[simp] theorem State.complete_wireOut (f : Finish) : (s.complete f).wireOut = s.wireOut := rfl
@[simp] theorem State.complete_trace (f : Finish) : (s.complete f).trace = s.trace := rfl
@[simp] theorem State.complete_program (f : Finish) : (s.complete f).program = s.program := rfl
@[simp] theorem State.complete_turns (f : Finish) : (s.complete f).turns = s.turns := rfl
@[simp] theorem State.complete_budget (f : Finish) : (s.complete f).budget = s.budget := rfl

@[simp] theorem State.load_handle (is : List Item) (tail : Tail) : (s.load is tail).handle = s.handle := rfl
@[simp] theorem State.load_lines (is : List Item) (tail : Tail) : (s.load is tail).lines = s.lines := rfl
@[simp] theorem State.load_spi (is : List Item) (tail : Tail) : (s.load is tail).spi = s.spi := rfl
@[simp] theorem State.load_dlyCnt (is : List Item) (tail : Tail) : (s.load is tail).dlyCnt = s.dlyCnt := rfl
@[simp] theorem State.load_operands (is : List Item) (tail : Tail) : (s.load is tail).operands = s.operands := rfl
@[simp] theorem State.load_rsp (is : List Item) (tail : Tail) : (s.load is tail).rsp = s.rsp := rfl
@[simp] theorem State.load_cfg (is : List Item) (tail : Tail) : (s.load is tail).cfg = s.cfg := rfl
@[simp] theorem State.load_inp (is : List Item) (tail : Tail) : (s.load is tail).inp = s.inp := rfl
@[simp] theorem State.load_far (is : List Item) (tail : Tail) : (s.load is tail).far = s.far := rfl
@[simp] theorem State.load_miso (is : List Item) (tail : Tail) : (s.load is tail).miso = s.miso := rfl
@[simp] theorem State.load_draws (is : List Item) (tail : Tail) : (s.load is tail).draws = s.draws := rfl
@[simp] theorem State.load_chip (is : List Item) (tail : Tail) : (s.load is tail).chip = s.chip := rfl
@[simp] theorem State.load_wireOut (is : List Item) (tail : Tail) : (s.load is tail).wireOut = s.wireOut := rfl
@[simp] theorem State.load_trace (is : List Item) (tail : Tail) : (s.load is tail).trace = s.trace := rfl
@[simp] theorem State.load_program (is : List Item) (tail : Tail) : (s.load is tail).program = s.program := rfl
@[simp] theorem State.load_turns (is : List Item) (tail : Tail) : (s.load is tail).turns = s.turns := rfl
@[simp] theorem State.load_budget (is : List Item) (tail : Tail) : (s.load is tail).budget = s.budget := rfl

@[simp] theorem State.bus_handle (n : Nat) (es : List Event) : (s.bus n es).handle = s.handle := rfl
@[simp] theorem State.bus_lines (n : Nat) (es : List Event) : (s.bus n es).lines = s.lines := rfl
@[simp] theorem State.bus_dlyCnt (n : Nat) (es : List Event) : (s.bus n es).dlyCnt = s.dlyCnt := rfl
@[simp] theorem State.bus_operands (n : Nat) (es : List Event) : (s.bus n es).operands = s.operands := rfl
@[simp] theorem State.bus_rsp (n : Nat) (es : List Event) : (s.bus n es).rsp = s.rsp := rfl
@[simp] theorem State.bus_ctl (n : Nat) (es : List Event) : (s.bus n es).ctl = s.ctl := rfl
@[simp] theorem State.bus_cfg (n : Nat) (es : List Event) : (s.bus n es).cfg = s.cfg := rfl
@[simp] theorem State.bus_inp (n : Nat) (es : List Event) : (s.bus n es).inp = s.inp := rfl
@[simp] theorem State.bus_far (n : Nat) (es : List Event) : (s.bus n es).far = s.far := rfl
@[simp] theorem State.bus_chip (n : Nat) (es : List Event) : (s.bus n es).chip = s.chip := rfl
@[simp] theorem State.bus_wireOut (n : Nat) (es : List Event) : (s.bus n es).wireOut = s.wireOut := rfl
@[simp] theorem State.bus_program (n : Nat) (es : List Event) : (s.bus n es).program = s.program := rfl
@[simp] theorem State.bus_turns (n : Nat) (es : List Event) : (s.bus n es).turns = s.turns := rfl
@[simp] theorem State.bus_budget (n : Nat) (es : List Event) : (s.bus n es).budget = s.budget := rfl

@[simp] theorem State.ends_handle (n : Nat) (es : List Event) (r : Response) : (s.ends n es r).handle = s.handle := rfl
@[simp] theorem State.ends_lines (n : Nat) (es : List Event) (r : Response) : (s.ends n es r).lines = s.lines := rfl
@[simp] theorem State.ends_dlyCnt (n : Nat) (es : List Event) (r : Response) : (s.ends n es r).dlyCnt = s.dlyCnt := rfl
@[simp] theorem State.ends_operands (n : Nat) (es : List Event) (r : Response) : (s.ends n es r).operands = s.operands := rfl
@[simp] theorem State.ends_cfg (n : Nat) (es : List Event) (r : Response) : (s.ends n es r).cfg = s.cfg := rfl
@[simp] theorem State.ends_inp (n : Nat) (es : List Event) (r : Response) : (s.ends n es r).inp = s.inp := rfl
@[simp] theorem State.ends_far (n : Nat) (es : List Event) (r : Response) : (s.ends n es r).far = s.far := rfl
@[simp] theorem State.ends_chip (n : Nat) (es : List Event) (r : Response) : (s.ends n es r).chip = s.chip := rfl
@[simp] theorem State.ends_wireOut (n : Nat) (es : List Event) (r : Response) : (s.ends n es r).wireOut = s.wireOut := rfl
@[simp] theorem State.ends_program (n : Nat) (es : List Event) (r : Response) : (s.ends n es r).program = s.program := rfl
@[simp] theorem State.ends_turns (n : Nat) (es : List Event) (r : Response) : (s.ends n es r).turns = s.turns := rfl
@[simp] theorem State.ends_budget (n : Nat) (es : List Event) (r : Response) : (s.ends n es r).budget = s.budget := rfl

@[simp] theorem State.resetBlock_cfg : s.resetBlock.cfg = s.cfg := rfl
@[simp] theorem State.resetBlock_inp : s.resetBlock.inp = s.inp := rfl
@[simp] theorem State.resetBlock_far : s.resetBlock.far = s.far := rfl
@[simp] theorem State.resetBlock_miso : s.resetBlock.miso = s.miso := rfl
@[simp] theorem State.resetBlock_wireOut : s.resetBlock.wireOut = s.wireOut := rfl
@[simp] theorem State.resetBlock_trace : s.resetBlock.trace = s.trace := rfl
@[simp] theorem State.resetBlock_program : s.resetBlock.program = s.program := rfl
@[simp] theorem State.resetBlock_turns : s.resetBlock.turns = s.turns := rfl
@[simp] theorem State.resetBlock_budget : s.resetBlock.budget = s.budget := rfl

@[simp] theorem State.takeTurn_handle : s.takeTurn.handle = s.handle := rfl
@[simp] theorem State.takeTurn_lines : s.takeTurn.lines = s.lines := rfl
@[simp] theorem State.takeTurn_spi : s.takeTurn.spi = s.spi := rfl
@[simp] theorem State.takeTurn_dlyCnt : s.takeTurn.dlyCnt = s.dlyCnt := rfl
@[simp] theorem State.takeTurn_operands : s.takeTurn.operands = s.operands := rfl
@[simp] theorem State.takeTurn_rsp : s.takeTurn.rsp = s.rsp := rfl
@[simp] theorem State.takeTurn_cfg : s.takeTurn.cfg = s.cfg := rfl
@[simp] theorem State.takeTurn_far : s.takeTurn.far = s.far := rfl
@[simp] theorem State.takeTurn_miso : s.takeTurn.miso = s.miso := rfl
@[simp] theorem State.takeTurn_draws : s.takeTurn.draws = s.draws := rfl
@[simp] theorem State.takeTurn_wireOut : s.takeTurn.wireOut = s.wireOut := rfl
@[simp] theorem State.takeTurn_trace : s.takeTurn.trace = s.trace := rfl

@[simp] theorem State.dir_lines (l : Line) : (s.dir l).lines = s.lines.setOut l := State.followPins_lines _
@[simp] theorem State.dir_trace (l : Line) : (s.dir l).trace = s.trace ++ [Event.dir l] := State.followPins_trace _
@[simp] theorem State.lvl_lines (l : Line) (v : Bool) : (s.lvl l v).lines = s.lines.setLvl l v := State.followPins_lines _
@[simp] theorem State.lvl_trace (l : Line) (v : Bool) : (s.lvl l v).trace = s.trace ++ [Event.lvl l v] := State.followPins_trace _
@[simp] theorem State.xfer_trace (t : Byte) (keep : Bool) :
    (s.xfer t keep).trace = s.trace ++ [Event.xfer t (s.incoming t)] := rfl
@[simp] theorem State.xfer_miso (t : Byte) (keep : Bool) : (s.xfer t keep).miso = s.miso.tail := rfl
@[simp] theorem State.xfer_draws (t : Byte) (keep : Bool) : (s.xfer t keep).draws = s.draws + 1 := rfl
@[simp] theorem State.complete_ctl_busy (f : Finish) : (s.complete f).ctl.busy = false := rfl
@[simp] theorem State.complete_ctl_done (f : Finish) : (s.complete f).ctl.done = true := rfl
@[simp] theorem State.complete_rsp (f : Finish) : (s.complete f).rsp = s.rsp.finish f s.ctl := rfl
@[simp] theorem State.load_ctl_todo (is : List Item) (tail : Tail) : (s.load is tail).ctl.todo = is := rfl
@[simp] theorem State.load_ctl_tail (is : List Item) (tail : Tail) : (s.load is tail).ctl.tail = tail := rfl
@[simp] theorem State.load_ctl_busy (is : List Item) (tail : Tail) : (s.load is tail).ctl.busy = true := rfl
@[simp] theorem State.bus_miso (n : Nat) (es : List Event) : (s.bus n es).miso = s.miso.drop n := rfl
@[simp] theorem State.bus_draws (n : Nat) (es : List Event) : (s.bus n es).draws = s.draws + n := rfl
@[simp] theorem State.bus_trace (n : Nat) (es : List Event) : (s.bus n es).trace = s.trace ++ es := rfl
@[simp] theorem State.ends_trace (n : Nat) (es : List Event) (r : Response) : (s.ends n es r).trace = s.trace ++ es := rfl
@[simp] theorem State.ends_rsp (n : Nat) (es : List Event) (r : Response) : (s.ends n es r).rsp = r := rfl
@[simp] theorem State.ends_ctl_busy (n : Nat) (es : List Event) (r : Response) : (s.ends n es r).ctl.busy = false := rfl

/-! ### The fields of the sequencer -/

@[simp] theorem State.followPins_ctl_busy : s.followPins.ctl.busy = s.ctl.busy := by rw [State.followPins_ctl]
@[simp] theorem State.micro_ctl_busy (m : MicroOp) : (s.micro m).ctl.busy = s.ctl.busy := by
  cases m <;> (simp [State.micro]; try rfl)
@[simp] theorem State.followPins_ctl_done : s.followPins.ctl.done = s.ctl.done := by rw [State.followPins_ctl]
@[simp] theorem State.micro_ctl_done (m : MicroOp) : (s.micro m).ctl.done = s.ctl.done := by
  cases m <;> (simp [State.micro]; try rfl)
@[simp] theorem State.followPins_ctl_failed : s.followPins.ctl.failed = s.ctl.failed := by rw [State.followPins_ctl]
@[simp] theorem State.micro_ctl_failed (m : MicroOp) : (s.micro m).ctl.failed = s.ctl.failed := by
  cases m <;> (simp [State.micro]; try rfl)
@[simp] theorem State.followPins_ctl_timedOut : s.followPins.ctl.timedOut = s.ctl.timedOut := by rw [State.followPins_ctl]
@[simp] theorem State.micro_ctl_timedOut (m : MicroOp) : (s.micro m).ctl.timedOut = s.ctl.timedOut := by
  cases m <;> (simp [State.micro]; try rfl)
@[simp] theorem State.followPins_ctl_pollCnt : s.followPins.ctl.pollCnt = s.ctl.pollCnt := by rw [State.followPins_ctl]
@[simp] theorem State.micro_ctl_pollCnt (m : MicroOp) : (s.micro m).ctl.pollCnt = s.ctl.pollCnt := by
  cases m <;> (simp [State.micro]; try rfl)
@[simp] theorem State.followPins_ctl_t : s.followPins.ctl.t = s.ctl.t := by rw [State.followPins_ctl]
@[simp] theorem State.micro_ctl_t (m : MicroOp) : (s.micro m).ctl.t = s.ctl.t := by
  cases m <;> (simp [State.micro]; try rfl)
@[simp] theorem State.followPins_ctl_todo : s.followPins.ctl.todo = s.ctl.todo := by rw [State.followPins_ctl]
@[simp] theorem State.micro_ctl_todo (m : MicroOp) : (s.micro m).ctl.todo = s.ctl.todo := by
  cases m <;> (simp [State.micro]; try rfl)
@[simp] theorem State.followPins_ctl_tail : s.followPins.ctl.tail = s.ctl.tail := by rw [State.followPins_ctl]
@[simp] theorem State.micro_ctl_tail (m : MicroOp) : (s.micro m).ctl.tail = s.ctl.tail := by
  cases m <;> (simp [State.micro]; try rfl)
@[simp] theorem State.transfer_ctl_busy (t : Transfer) : (s.transfer t).ctl.busy = s.ctl.busy := by
  cases t <;> rfl
@[simp] theorem State.transfer_ctl_done (t : Transfer) : (s.transfer t).ctl.done = s.ctl.done := by
  cases t <;> rfl
@[simp] theorem State.transfer_ctl_seq (t : Transfer) : (s.transfer t).ctl.seq = s.ctl.seq := by
  cases t <;> rfl
@[simp] theorem State.transfer_ctl_todo (t : Transfer) : (s.transfer t).ctl.todo = s.ctl.todo := by
  cases t <;> rfl
@[simp] theorem State.transfer_ctl_tail (t : Transfer) : (s.transfer t).ctl.tail = s.ctl.tail := by
  cases t <;> rfl
@[simp] theorem State.micro_ctl_seq (m : MicroOp) : (s.micro m).ctl.seq = s.ctl.seq + 1 := by
  cases m <;> (simp [State.micro]; try rfl)

end Sys2Proof.Machine
end

