-- ==== Sys2Proof/Laws/Bus.lean ====
section
/-! SUPPORT. The sequencer without interruption, and what exchanges do against the free oracle: one lemma per shared operation. -/

namespace Sys2Proof.Machine

open Sys2Proof

theorem Spi.rise_eq (x : Spi) : x.rise = { x with sck := true } := rfl

theorem Spi.fall_eq (m : Bool) (x : Spi) :
    Spi.fall m x = { x with sck := false, sr := (x.sr <<< 1) ||| (if m then 1 else 0), cnt := x.cnt + 1 } := rfl

/-- R116: performed again, `SPI_INIT()` changes nothing of the master. -/
theorem Spi.enable_again {x : Spi} (h : x.en = true) : x.enable = x := by simp [Spi.enable, h]

theorem Spi.enable_first {x : Spi} (h : x.en = false) :
    x.enable = { x with en := true, cnt := 0, busy := false, sck := false } := by simp [Spi.enable, h]

@[simp] theorem Spi.enable_en (x : Spi) : x.enable.en = true := by
  unfold Spi.enable
  split <;> simp [*]

/-- The result of the eight shifts of R118: the shift register holds the received byte, the count stands at 8. -/
theorem Spi.exchange_eq (t r : Byte) (x : Spi) :
    x.exchange t r = { x with sr := r, rxd := r, cnt := 8, busy := false, sck := false } := by
  have low (b : Bool) (i : Nat) (hi : i < 8) : (if b then 1#8 else 0#8)[i] = (decide (i = 0) && b) := by
    cases b <;> simp [BitVec.getElem_one]
  have h : ((Spi.wireBits r).foldl Spi.clock (Spi.load t x)) = { x with sr := r, cnt := 8, busy := true, sck := false } := by
    simp only [Spi.wireBits, List.map_cons, List.map_nil, List.foldl_cons, List.foldl_nil, Spi.clock, Spi.rise, Spi.fall, Spi.load]
    congr 1
    apply BitVec.eq_of_getLsbD_eq
    intro i hi
    simp only [BitVec.getLsbD_or, BitVec.getLsbD_shiftLeft, testBit]
    interval_cases i <;> simp [low]
  simp [Spi.exchange, Spi.store, h]

theorem oracleByte_zero (miso : List Byte) (draws : Nat) :
    miso.headD (Config.freeByte draws) = oracleByte miso draws 0 := by
  cases miso <;> rfl

theorem oracleByte_drop (miso : List Byte) (draws n k : Nat) :
    oracleByte (miso.drop n) (draws + n) k = oracleByte miso draws (n + k) := by
  simp [oracleByte, List.getD_eq_getElem?_getD, Nat.add_assoc]

theorem oracleEvents_drop (miso : List Byte) (draws n : Nat) (ts : List Byte) (k : Nat) :
    oracleEvents (miso.drop n) (draws + n) k ts = oracleEvents miso draws (n + k) ts := by
  induction ts generalizing k with
  | nil => rfl
  | cons t ts ih => simp only [oracleEvents, oracleByte_drop, ih, Nat.add_assoc]

theorem oracleEvents_append (miso : List Byte) (draws k : Nat) (ts us : List Byte) :
    oracleEvents miso draws k (ts ++ us) = oracleEvents miso draws k ts ++ oracleEvents miso draws (k + ts.length) us := by
  induction ts generalizing k with
  | nil => rfl
  | cons t ts ih => simp [oracleEvents, ih, Nat.add_assoc, Nat.add_comm 1]

@[simp] theorem oracleEvents_length (miso : List Byte) (draws k : Nat) (ts : List Byte) :
    (oracleEvents miso draws k ts).length = ts.length := by
  induction ts generalizing k with
  | nil => rfl
  | cons t ts ih => simp [oracleEvents, ih]

@[simp] theorem State.xEvents_nil (s : State) (k : Nat) : s.xEvents k [] = [] := rfl

@[simp] theorem State.xEvents_cons (s : State) (k : Nat) (t : Byte) (ts : List Byte) :
    s.xEvents k (t :: ts) = .xfer t (s.rx k) :: s.xEvents (k + 1) ts := rfl

@[simp] theorem State.xEvents_length (s : State) (k : Nat) (ts : List Byte) : (s.xEvents k ts).length = ts.length :=
  oracleEvents_length _ _ _ _

theorem State.xEvents_append (s : State) (k : Nat) (ts us : List Byte) :
    s.xEvents k (ts ++ us) = s.xEvents k ts ++ s.xEvents (k + ts.length) us := oracleEvents_append _ _ _ _ _

@[simp] theorem State.frameEvents_length (s : State) (k : Nat) (ts : List Byte) :
    (s.frameEvents k ts).length = ts.length + 2 := by
  simp [State.frameEvents]

@[simp] theorem State.rx_bus (s : State) (n : Nat) (es : List Event) (k : Nat) : (s.bus n es).rx k = s.rx (n + k) :=
  oracleByte_drop _ _ _ _

@[simp] theorem State.xEvents_bus (s : State) (n : Nat) (es : List Event) (k : Nat) (ts : List Byte) :
    (s.bus n es).xEvents k ts = s.xEvents (n + k) ts := oracleEvents_drop _ _ _ _ _

/-- What comes from the oracle depends on its list and its numbering only. -/
theorem State.rx_congr {s t : State} (hm : t.miso = s.miso) (hd : t.draws = s.draws) (k : Nat) : t.rx k = s.rx k := by
  simp only [State.rx, hm, hd]

/-! ### The sequencer when nobody interrupts it -/

/-- One item. -/
def State.item (s : State) : Item → State
  | .op m => s.micro m
  | .set t => s.transfer t

/-- The items one after the other. -/
def State.perform (is : List Item) (s : State) : State := is.foldl State.item s

@[simp] theorem State.perform_nil (s : State) : s.perform [] = s := rfl

@[simp] theorem State.perform_op (m : MicroOp) (is : List Item) (s : State) :
    s.perform (.op m :: is) = (s.micro m).perform is := rfl

@[simp] theorem State.perform_set (t : Transfer) (is : List Item) (s : State) :
    s.perform (.set t :: is) = (s.transfer t).perform is := rfl

@[simp] theorem State.perform_append (a b : List Item) (s : State) : s.perform (a ++ b) = (s.perform a).perform b :=
  List.foldl_append

@[simp] theorem State.perform_budget (is : List Item) (s : State) : (s.perform is).budget = s.budget := by
  induction is generalizing s with
  | nil => rfl
  | cons i is ih => cases i <;> simp [ih]

@[simp] theorem State.perform_far (is : List Item) (s : State) : (s.perform is).far = s.far := by
  induction is generalizing s with
  | nil => rfl
  | cons i is ih => cases i <;> simp [ih]

@[simp] theorem State.perform_cfg (is : List Item) (s : State) : (s.perform is).cfg = s.cfg := by
  induction is generalizing s with
  | nil => rfl
  | cons i is ih => cases i <;> simp [ih]

@[simp] theorem State.perform_ctl_tail (is : List Item) (s : State) : (s.perform is).ctl.tail = s.ctl.tail := by
  induction is generalizing s with
  | nil => rfl
  | cons i is ih => cases i <;> simp [ih]

/-- With no limit on its steps the sequencer performs every item. -/
theorem State.runItems_all {s : State} (h : s.budget = none) (is : List Item) :
    s.runItems is = { s.perform is with ctl.todo := [] } := by
  induction is generalizing s with
  | nil => rfl
  | cons i is ih =>
    cases i with
    | op m => simp only [State.runItems, h, State.perform_op]; exact ih (by simpa using h)
    | set t => simp only [State.runItems, State.perform_set]; exact ih (by simpa using h)

/-- Against the free oracle no run is refused. -/
theorem State.outcome_free {s : State} (h : s.far = .free) : s.outcome = .next s := by
  simp [State.outcome, h]

/-- Completion does not look at what was still to do. -/
theorem State.complete_todo (f : Finish) (s : State) (is : List Item) :
    State.complete f { s with ctl.todo := is } = s.complete f := rfl

theorem State.tryComplete_all {s : State} (h : s.budget = none) (f : Finish) : s.tryComplete f = s.complete f := by
  simp [State.tryComplete, h]

theorem State.runTail_finish {s : State} {f : Finish} (h : s.ctl.tail = .finish f) : s.runTail = s.tryComplete f := by
  simp [State.runTail, h]

/-- A sequence performed whole, then what follows it. -/
theorem State.advance_all {s : State} (h : s.budget = none) :
    s.advance = State.runTail { s.perform s.ctl.todo with ctl.todo := [] } := by
  rw [State.advance, State.runItems_all h]
  rfl

/-- A sequence that ends in a plain completion, uninterrupted. -/
theorem State.advance_finish {s : State} (hb : s.budget = none) (f : Finish) (ht : s.ctl.tail = .finish f) :
    s.advance = (s.perform s.ctl.todo).complete f := by
  rw [State.advance_all hb, State.runTail_finish (f := f) (by simpa using ht), State.tryComplete_all (by simpa using hb)]
  rfl

/-- A straight-line rest of an operation, uninterrupted. -/
theorem State.runToEnd_all {s : State} (hb : s.budget = none) (is : List Item) (f : Finish) :
    s.runToEnd is f = State.complete f (State.perform is { s with ctl.tail := .finish f }) := by
  rw [State.runToEnd, State.runItems_all (by simpa using hb)]
  exact State.tryComplete_all (by simpa using hb) f

/-- An operation that ends in a plain completion, uninterrupted. -/
theorem State.operate_finish {s : State} (h : s.Uninterrupted) (is : List Item) (f : Finish) :
    s.operate none is (.finish f) = .next (((s.load is (.finish f)).perform is).complete f) := by
  obtain ⟨hb, hf⟩ := h
  simp only [State.operate]
  rw [State.advance_finish (by simpa using hb) f rfl, State.outcome_free (by simpa using hf)]
  rfl

/-- R97: an operation that fails a check. -/
theorem State.operate_fault {s : State} (h : s.Uninterrupted) (k : Kind) (is : List Item) (tail : Tail) :
    s.operate (some k) is tail = .next (s.faulted k) := by
  obtain ⟨hb, hf⟩ := h
  simp [State.operate, State.load, State.advance, State.runItems, State.runTail, State.tryComplete, hb, State.outcome, hf,
    State.faulted, State.ends, State.bus, State.complete, Response.finish]

/-! ### Micro-operations against the free oracle -/

theorem State.xfer_free {s : State} (h : s.far = .free) (t : Byte) (keep : Bool) :
    s.xfer t keep = { s.bus 1 [.xfer t (s.rx 0)] with ctl.rd := if keep then s.ctl.rd ++ [s.rx 0] else s.ctl.rd } := by
  simp only [State.xfer, State.incoming, State.chipAfter, h, Spi.exchange_eq, State.bus, State.rx, oracleByte_zero]
  simp

theorem State.followPins_free {s : State} (h : s.far = .free) : s.followPins = s := by
  simp [State.followPins, h]

end Sys2Proof.Machine
end

