-- ==== Sys2Proof/Laws/Exchange.lean ====
section
/-! SUPPORT. What the sequences of the block do when performed whole against the free oracle: one lemma per shape of frame, each a
closed form over the state before. -/

namespace Sys2Proof.Machine

open Sys2Proof

/-- The state after n exchanges and these events, the running operation going on. -/
def State.did (s : State) (n : Nat) (es : List Event) : State :=
  { s.bus n es with ctl := { s.ctl with seq := s.ctl.seq + es.length } }

section fields

variable (s : State) (n : Nat) (es : List Event)

@[simp] theorem State.did_handle : (s.did n es).handle = s.handle := rfl
@[simp] theorem State.did_lines : (s.did n es).lines = s.lines := rfl
@[simp] theorem State.did_dlyCnt : (s.did n es).dlyCnt = s.dlyCnt := rfl
@[simp] theorem State.did_operands : (s.did n es).operands = s.operands := rfl
@[simp] theorem State.did_rsp : (s.did n es).rsp = s.rsp := rfl
@[simp] theorem State.did_cfg : (s.did n es).cfg = s.cfg := rfl
@[simp] theorem State.did_inp : (s.did n es).inp = s.inp := rfl
@[simp] theorem State.did_far : (s.did n es).far = s.far := rfl
@[simp] theorem State.did_miso : (s.did n es).miso = s.miso.drop n := rfl
@[simp] theorem State.did_draws : (s.did n es).draws = s.draws + n := rfl
@[simp] theorem State.did_chip : (s.did n es).chip = s.chip := rfl
@[simp] theorem State.did_wireOut : (s.did n es).wireOut = s.wireOut := rfl
@[simp] theorem State.did_trace : (s.did n es).trace = s.trace ++ es := rfl
@[simp] theorem State.did_program : (s.did n es).program = s.program := rfl
@[simp] theorem State.did_turns : (s.did n es).turns = s.turns := rfl
@[simp] theorem State.did_budget : (s.did n es).budget = s.budget := rfl
@[simp] theorem State.did_ctl_rd : (s.did n es).ctl.rd = s.ctl.rd := rfl
@[simp] theorem State.did_ctl_t : (s.did n es).ctl.t = s.ctl.t := rfl
@[simp] theorem State.did_ctl_seq : (s.did n es).ctl.seq = s.ctl.seq + es.length := rfl

@[simp] theorem State.did_rx (k : Nat) : (s.did n es).rx k = s.rx (n + k) := oracleByte_drop _ _ _ _

@[simp] theorem State.did_xEvents (k : Nat) (ts : List Byte) : (s.did n es).xEvents k ts = s.xEvents (n + k) ts :=
  oracleEvents_drop _ _ _ _ _

@[simp] theorem State.did_srcByte (src : Src) : (s.did n es).srcByte src = s.srcByte src := by
  cases src <;> rfl

end fields

theorem State.bus_bus (s : State) (a b : Nat) (es fs : List Event) : (s.bus a es).bus b fs = s.bus (a + b) (es ++ fs) := by
  rcases b with - | b
  · simp [State.bus]
  · have h : a + (b + 1) - 1 = a + b := by omega
    simp [State.bus, State.rx, oracleByte_drop, h, Nat.add_assoc]
    split <;> rfl

@[simp] theorem State.did_did (s : State) (a b : Nat) (es fs : List Event) :
    (s.did a es).did b fs = s.did (a + b) (es ++ fs) := by
  have h := s.bus_bus a b es fs
  simp only [State.bus, State.mk.injEq, State.did] at h ⊢
  simp_all [Nat.add_assoc, State.rx]

@[simp] theorem State.rxBytes_zero (s : State) (k : Nat) : s.rxBytes k 0 = [] := rfl

theorem State.rxBytes_succ (s : State) (k n : Nat) : s.rxBytes k (n + 1) = s.rx k :: s.rxBytes (k + 1) n := by
  simp [State.rxBytes, List.range_succ_eq_map, Function.comp_def, Nat.add_comm, Nat.add_left_comm]

@[simp] theorem State.rxBytes_length (s : State) (k n : Nat) : (s.rxBytes k n).length = n := by simp [State.rxBytes]

@[simp] theorem State.did_rxBytes (s : State) (a : Nat) (es : List Event) (k n : Nat) :
    (s.did a es).rxBytes k n = s.rxBytes (a + k) n := by
  simp [State.rxBytes, Nat.add_assoc]

theorem State.did_zero_nil (s : State) : s.did 0 [] = s := by simp [State.did, State.bus]

section load

variable (s : State) (is : List Item) (tail : Tail)

@[simp] theorem State.load_rx (k : Nat) : (s.load is tail).rx k = s.rx k := rfl
@[simp] theorem State.load_xEvents (k : Nat) (ts : List Byte) : (s.load is tail).xEvents k ts = s.xEvents k ts := rfl
@[simp] theorem State.load_frameEvents (k : Nat) (ts : List Byte) : (s.load is tail).frameEvents k ts = s.frameEvents k ts := rfl
@[simp] theorem State.load_rxBytes (k n : Nat) : (s.load is tail).rxBytes k n = s.rxBytes k n := rfl
@[simp] theorem State.load_ctl_rd : (s.load is tail).ctl.rd = [] := rfl
@[simp] theorem State.load_ctl_t : (s.load is tail).ctl.t = s.ctl.t := rfl
@[simp] theorem State.load_srcByte (src : Src) : (s.load is tail).srcByte src = s.srcByte src := by
  cases src <;> rfl

end load

/-! ### Setting one field, as a function -/

/-- The state with another `lines`. -/
def State.setLines (v : Lines) (s : State) : State := { s with lines := v }

/-- The state with another `dlyCnt`. -/
def State.setDly (v : Nat) (s : State) : State := { s with dlyCnt := v }

/-- The state with another `handle`. -/
def State.setHandle (v : Handle) (s : State) : State := { s with handle := v }

/-- The state with another `ctl.rd`. -/
def State.setRd (v : List Byte) (s : State) : State := { s with ctl := { s.ctl with rd := v } }

/-- The state with another `ctl.t`. -/
def State.setT (v : Byte) (s : State) : State := { s with ctl := { s.ctl with t := v } }

section setters

variable (s : State)

@[simp] theorem State.setLines_handle (v : Lines) : (s.setLines v).handle = s.handle := rfl
@[simp] theorem State.setLines_lines (v : Lines) : (s.setLines v).lines = v := rfl
@[simp] theorem State.setLines_spi (v : Lines) : (s.setLines v).spi = s.spi := rfl
@[simp] theorem State.setLines_dlyCnt (v : Lines) : (s.setLines v).dlyCnt = s.dlyCnt := rfl
@[simp] theorem State.setLines_operands (v : Lines) : (s.setLines v).operands = s.operands := rfl
@[simp] theorem State.setLines_rsp (v : Lines) : (s.setLines v).rsp = s.rsp := rfl
@[simp] theorem State.setLines_ctl (v : Lines) : (s.setLines v).ctl = s.ctl := rfl
@[simp] theorem State.setLines_cfg (v : Lines) : (s.setLines v).cfg = s.cfg := rfl
@[simp] theorem State.setLines_inp (v : Lines) : (s.setLines v).inp = s.inp := rfl
@[simp] theorem State.setLines_far (v : Lines) : (s.setLines v).far = s.far := rfl
@[simp] theorem State.setLines_miso (v : Lines) : (s.setLines v).miso = s.miso := rfl
@[simp] theorem State.setLines_draws (v : Lines) : (s.setLines v).draws = s.draws := rfl
@[simp] theorem State.setLines_chip (v : Lines) : (s.setLines v).chip = s.chip := rfl
@[simp] theorem State.setLines_wireOut (v : Lines) : (s.setLines v).wireOut = s.wireOut := rfl
@[simp] theorem State.setLines_trace (v : Lines) : (s.setLines v).trace = s.trace := rfl
@[simp] theorem State.setLines_program (v : Lines) : (s.setLines v).program = s.program := rfl
@[simp] theorem State.setLines_turns (v : Lines) : (s.setLines v).turns = s.turns := rfl
@[simp] theorem State.setLines_budget (v : Lines) : (s.setLines v).budget = s.budget := rfl
@[simp] theorem State.setLines_rx (v : Lines) (k : Nat) : (s.setLines v).rx k = s.rx k := rfl
@[simp] theorem State.setLines_xEvents (v : Lines) (k : Nat) (ts : List Byte) : (s.setLines v).xEvents k ts = s.xEvents k ts := rfl
@[simp] theorem State.setLines_rxBytes (v : Lines) (k n : Nat) : (s.setLines v).rxBytes k n = s.rxBytes k n := rfl
@[simp] theorem State.setLines_frameEvents (v : Lines) (k : Nat) (ts : List Byte) : (s.setLines v).frameEvents k ts = s.frameEvents k ts := rfl
@[simp] theorem State.setLines_setLines (v w : Lines) : (s.setLines v).setLines w = s.setLines w := rfl
@[simp] theorem State.setLines_srcByte (v : Lines) (src : Src) : (s.setLines v).srcByte src = s.srcByte src := by
  cases src <;> rfl
@[simp] theorem State.setLines_did (v : Lines) (n : Nat) (es : List Event) : (s.setLines v).did n es = (s.did n es).setLines v := rfl

@[simp] theorem State.setDly_handle (v : Nat) : (s.setDly v).handle = s.handle := rfl
@[simp] theorem State.setDly_lines (v : Nat) : (s.setDly v).lines = s.lines := rfl
@[simp] theorem State.setDly_spi (v : Nat) : (s.setDly v).spi = s.spi := rfl
@[simp] theorem State.setDly_dlyCnt (v : Nat) : (s.setDly v).dlyCnt = v := rfl
@[simp] theorem State.setDly_operands (v : Nat) : (s.setDly v).operands = s.operands := rfl
@[simp] theorem State.setDly_rsp (v : Nat) : (s.setDly v).rsp = s.rsp := rfl
@[simp] theorem State.setDly_ctl (v : Nat) : (s.setDly v).ctl = s.ctl := rfl
@[simp] theorem State.setDly_cfg (v : Nat) : (s.setDly v).cfg = s.cfg := rfl
@[simp] theorem State.setDly_inp (v : Nat) : (s.setDly v).inp = s.inp := rfl
@[simp] theorem State.setDly_far (v : Nat) : (s.setDly v).far = s.far := rfl
@[simp] theorem State.setDly_miso (v : Nat) : (s.setDly v).miso = s.miso := rfl
@[simp] theorem State.setDly_draws (v : Nat) : (s.setDly v).draws = s.draws := rfl
@[simp] theorem State.setDly_chip (v : Nat) : (s.setDly v).chip = s.chip := rfl
@[simp] theorem State.setDly_wireOut (v : Nat) : (s.setDly v).wireOut = s.wireOut := rfl
@[simp] theorem State.setDly_trace (v : Nat) : (s.setDly v).trace = s.trace := rfl
@[simp] theorem State.setDly_program (v : Nat) : (s.setDly v).program = s.program := rfl
@[simp] theorem State.setDly_turns (v : Nat) : (s.setDly v).turns = s.turns := rfl
@[simp] theorem State.setDly_budget (v : Nat) : (s.setDly v).budget = s.budget := rfl
@[simp] theorem State.setDly_rx (v : Nat) (k : Nat) : (s.setDly v).rx k = s.rx k := rfl
@[simp] theorem State.setDly_xEvents (v : Nat) (k : Nat) (ts : List Byte) : (s.setDly v).xEvents k ts = s.xEvents k ts := rfl
@[simp] theorem State.setDly_rxBytes (v : Nat) (k n : Nat) : (s.setDly v).rxBytes k n = s.rxBytes k n := rfl
@[simp] theorem State.setDly_frameEvents (v : Nat) (k : Nat) (ts : List Byte) : (s.setDly v).frameEvents k ts = s.frameEvents k ts := rfl
@[simp] theorem State.setDly_setDly (v w : Nat) : (s.setDly v).setDly w = s.setDly w := rfl
@[simp] theorem State.setDly_srcByte (v : Nat) (src : Src) : (s.setDly v).srcByte src = s.srcByte src := by
  cases src <;> rfl
@[simp] theorem State.setDly_did (v : Nat) (n : Nat) (es : List Event) : (s.setDly v).did n es = (s.did n es).setDly v := rfl

@[simp] theorem State.setHandle_handle (v : Handle) : (s.setHandle v).handle = v := rfl
@[simp] theorem State.setHandle_lines (v : Handle) : (s.setHandle v).lines = s.lines := rfl
@[simp] theorem State.setHandle_spi (v : Handle) : (s.setHandle v).spi = s.spi := rfl
@[simp] theorem State.setHandle_dlyCnt (v : Handle) : (s.setHandle v).dlyCnt = s.dlyCnt := rfl
@[simp] theorem State.setHandle_operands (v : Handle) : (s.setHandle v).operands = s.operands := rfl
@[simp] theorem State.setHandle_rsp (v : Handle) : (s.setHandle v).rsp = s.rsp := rfl
@[simp] theorem State.setHandle_ctl (v : Handle) : (s.setHandle v).ctl = s.ctl := rfl
@[simp] theorem State.setHandle_cfg (v : Handle) : (s.setHandle v).cfg = s.cfg := rfl
@[simp] theorem State.setHandle_inp (v : Handle) : (s.setHandle v).inp = s.inp := rfl
@[simp] theorem State.setHandle_far (v : Handle) : (s.setHandle v).far = s.far := rfl
@[simp] theorem State.setHandle_miso (v : Handle) : (s.setHandle v).miso = s.miso := rfl
@[simp] theorem State.setHandle_draws (v : Handle) : (s.setHandle v).draws = s.draws := rfl
@[simp] theorem State.setHandle_chip (v : Handle) : (s.setHandle v).chip = s.chip := rfl
@[simp] theorem State.setHandle_wireOut (v : Handle) : (s.setHandle v).wireOut = s.wireOut := rfl
@[simp] theorem State.setHandle_trace (v : Handle) : (s.setHandle v).trace = s.trace := rfl
@[simp] theorem State.setHandle_program (v : Handle) : (s.setHandle v).program = s.program := rfl
@[simp] theorem State.setHandle_turns (v : Handle) : (s.setHandle v).turns = s.turns := rfl
@[simp] theorem State.setHandle_budget (v : Handle) : (s.setHandle v).budget = s.budget := rfl
@[simp] theorem State.setHandle_rx (v : Handle) (k : Nat) : (s.setHandle v).rx k = s.rx k := rfl
@[simp] theorem State.setHandle_xEvents (v : Handle) (k : Nat) (ts : List Byte) : (s.setHandle v).xEvents k ts = s.xEvents k ts := rfl
@[simp] theorem State.setHandle_rxBytes (v : Handle) (k n : Nat) : (s.setHandle v).rxBytes k n = s.rxBytes k n := rfl
@[simp] theorem State.setHandle_frameEvents (v : Handle) (k : Nat) (ts : List Byte) : (s.setHandle v).frameEvents k ts = s.frameEvents k ts := rfl
@[simp] theorem State.setHandle_setHandle (v w : Handle) : (s.setHandle v).setHandle w = s.setHandle w := rfl
@[simp] theorem State.setHandle_did (v : Handle) (n : Nat) (es : List Event) : (s.setHandle v).did n es = (s.did n es).setHandle v := rfl

@[simp] theorem State.setRd_handle (v : List Byte) : (s.setRd v).handle = s.handle := rfl
@[simp] theorem State.setRd_lines (v : List Byte) : (s.setRd v).lines = s.lines := rfl
@[simp] theorem State.setRd_spi (v : List Byte) : (s.setRd v).spi = s.spi := rfl
@[simp] theorem State.setRd_dlyCnt (v : List Byte) : (s.setRd v).dlyCnt = s.dlyCnt := rfl
@[simp] theorem State.setRd_operands (v : List Byte) : (s.setRd v).operands = s.operands := rfl
@[simp] theorem State.setRd_rsp (v : List Byte) : (s.setRd v).rsp = s.rsp := rfl
@[simp] theorem State.setRd_cfg (v : List Byte) : (s.setRd v).cfg = s.cfg := rfl
@[simp] theorem State.setRd_inp (v : List Byte) : (s.setRd v).inp = s.inp := rfl
@[simp] theorem State.setRd_far (v : List Byte) : (s.setRd v).far = s.far := rfl
@[simp] theorem State.setRd_miso (v : List Byte) : (s.setRd v).miso = s.miso := rfl
@[simp] theorem State.setRd_draws (v : List Byte) : (s.setRd v).draws = s.draws := rfl
@[simp] theorem State.setRd_chip (v : List Byte) : (s.setRd v).chip = s.chip := rfl
@[simp] theorem State.setRd_wireOut (v : List Byte) : (s.setRd v).wireOut = s.wireOut := rfl
@[simp] theorem State.setRd_trace (v : List Byte) : (s.setRd v).trace = s.trace := rfl
@[simp] theorem State.setRd_program (v : List Byte) : (s.setRd v).program = s.program := rfl
@[simp] theorem State.setRd_turns (v : List Byte) : (s.setRd v).turns = s.turns := rfl
@[simp] theorem State.setRd_budget (v : List Byte) : (s.setRd v).budget = s.budget := rfl
@[simp] theorem State.setRd_ctl_busy (v : List Byte) : (s.setRd v).ctl.busy = s.ctl.busy := rfl
@[simp] theorem State.setRd_ctl_done (v : List Byte) : (s.setRd v).ctl.done = s.ctl.done := rfl
@[simp] theorem State.setRd_ctl_seq (v : List Byte) : (s.setRd v).ctl.seq = s.ctl.seq := rfl
@[simp] theorem State.setRd_ctl_failed (v : List Byte) : (s.setRd v).ctl.failed = s.ctl.failed := rfl
@[simp] theorem State.setRd_ctl_timedOut (v : List Byte) : (s.setRd v).ctl.timedOut = s.ctl.timedOut := rfl
@[simp] theorem State.setRd_ctl_pollCnt (v : List Byte) : (s.setRd v).ctl.pollCnt = s.ctl.pollCnt := rfl
@[simp] theorem State.setRd_ctl_t (v : List Byte) : (s.setRd v).ctl.t = s.ctl.t := rfl
@[simp] theorem State.setRd_ctl_todo (v : List Byte) : (s.setRd v).ctl.todo = s.ctl.todo := rfl
@[simp] theorem State.setRd_ctl_tail (v : List Byte) : (s.setRd v).ctl.tail = s.ctl.tail := rfl
@[simp] theorem State.setRd_ctl_rd (v : List Byte) : (s.setRd v).ctl.rd = v := rfl
@[simp] theorem State.setRd_rx (v : List Byte) (k : Nat) : (s.setRd v).rx k = s.rx k := rfl
@[simp] theorem State.setRd_xEvents (v : List Byte) (k : Nat) (ts : List Byte) : (s.setRd v).xEvents k ts = s.xEvents k ts := rfl
@[simp] theorem State.setRd_rxBytes (v : List Byte) (k n : Nat) : (s.setRd v).rxBytes k n = s.rxBytes k n := rfl
@[simp] theorem State.setRd_frameEvents (v : List Byte) (k : Nat) (ts : List Byte) : (s.setRd v).frameEvents k ts = s.frameEvents k ts := rfl
@[simp] theorem State.setRd_setRd (v w : List Byte) : (s.setRd v).setRd w = s.setRd w := rfl
@[simp] theorem State.setRd_srcByte (v : List Byte) (src : Src) : (s.setRd v).srcByte src = s.srcByte src := by
  cases src <;> rfl
@[simp] theorem State.setRd_did (v : List Byte) (n : Nat) (es : List Event) : (s.setRd v).did n es = (s.did n es).setRd v := rfl

@[simp] theorem State.setT_handle (v : Byte) : (s.setT v).handle = s.handle := rfl
@[simp] theorem State.setT_lines (v : Byte) : (s.setT v).lines = s.lines := rfl
@[simp] theorem State.setT_spi (v : Byte) : (s.setT v).spi = s.spi := rfl
@[simp] theorem State.setT_dlyCnt (v : Byte) : (s.setT v).dlyCnt = s.dlyCnt := rfl
@[simp] theorem State.setT_operands (v : Byte) : (s.setT v).operands = s.operands := rfl
@[simp] theorem State.setT_rsp (v : Byte) : (s.setT v).rsp = s.rsp := rfl
@[simp] theorem State.setT_cfg (v : Byte) : (s.setT v).cfg = s.cfg := rfl
@[simp] theorem State.setT_inp (v : Byte) : (s.setT v).inp = s.inp := rfl
@[simp] theorem State.setT_far (v : Byte) : (s.setT v).far = s.far := rfl
@[simp] theorem State.setT_miso (v : Byte) : (s.setT v).miso = s.miso := rfl
@[simp] theorem State.setT_draws (v : Byte) : (s.setT v).draws = s.draws := rfl
@[simp] theorem State.setT_chip (v : Byte) : (s.setT v).chip = s.chip := rfl
@[simp] theorem State.setT_wireOut (v : Byte) : (s.setT v).wireOut = s.wireOut := rfl
@[simp] theorem State.setT_trace (v : Byte) : (s.setT v).trace = s.trace := rfl
@[simp] theorem State.setT_program (v : Byte) : (s.setT v).program = s.program := rfl
@[simp] theorem State.setT_turns (v : Byte) : (s.setT v).turns = s.turns := rfl
@[simp] theorem State.setT_budget (v : Byte) : (s.setT v).budget = s.budget := rfl
@[simp] theorem State.setT_ctl_busy (v : Byte) : (s.setT v).ctl.busy = s.ctl.busy := rfl
@[simp] theorem State.setT_ctl_done (v : Byte) : (s.setT v).ctl.done = s.ctl.done := rfl
@[simp] theorem State.setT_ctl_seq (v : Byte) : (s.setT v).ctl.seq = s.ctl.seq := rfl
@[simp] theorem State.setT_ctl_failed (v : Byte) : (s.setT v).ctl.failed = s.ctl.failed := rfl
@[simp] theorem State.setT_ctl_timedOut (v : Byte) : (s.setT v).ctl.timedOut = s.ctl.timedOut := rfl
@[simp] theorem State.setT_ctl_pollCnt (v : Byte) : (s.setT v).ctl.pollCnt = s.ctl.pollCnt := rfl
@[simp] theorem State.setT_ctl_t (v : Byte) : (s.setT v).ctl.t = v := rfl
@[simp] theorem State.setT_ctl_todo (v : Byte) : (s.setT v).ctl.todo = s.ctl.todo := rfl
@[simp] theorem State.setT_ctl_tail (v : Byte) : (s.setT v).ctl.tail = s.ctl.tail := rfl
@[simp] theorem State.setT_ctl_rd (v : Byte) : (s.setT v).ctl.rd = s.ctl.rd := rfl
@[simp] theorem State.setT_rx (v : Byte) (k : Nat) : (s.setT v).rx k = s.rx k := rfl
@[simp] theorem State.setT_xEvents (v : Byte) (k : Nat) (ts : List Byte) : (s.setT v).xEvents k ts = s.xEvents k ts := rfl
@[simp] theorem State.setT_rxBytes (v : Byte) (k n : Nat) : (s.setT v).rxBytes k n = s.rxBytes k n := rfl
@[simp] theorem State.setT_frameEvents (v : Byte) (k : Nat) (ts : List Byte) : (s.setT v).frameEvents k ts = s.frameEvents k ts := rfl
@[simp] theorem State.setT_setT (v w : Byte) : (s.setT v).setT w = s.setT w := rfl
@[simp] theorem State.setT_did (v : Byte) (n : Nat) (es : List Event) : (s.setT v).did n es = (s.did n es).setT v := rfl

end setters

@[simp] theorem State.did_frameEvents (s : State) (n : Nat) (es : List Event) (k : Nat) (ts : List Byte) :
    (s.did n es).frameEvents k ts = s.frameEvents (n + k) ts := by
  simp [State.frameEvents]

/-! ### One micro-operation -/

section micro

variable {s : State} (h : s.far = .free)
include h

theorem State.micro_drop (src : Src) : s.micro (.xfer src false) = s.did 1 [.xfer (s.srcByte src) (s.rx 0)] := by
  refine (State.xfer_free (s := { s with ctl := { s.ctl with seq := s.ctl.seq + 1 } }) h _ false).trans ?_
  cases src <;> rfl

theorem State.micro_keep (src : Src) :
    s.micro (.xfer src true) = (s.did 1 [.xfer (s.srcByte src) (s.rx 0)]).setRd (s.ctl.rd ++ [s.rx 0]) := by
  refine (State.xfer_free (s := { s with ctl := { s.ctl with seq := s.ctl.seq + 1 } }) h _ true).trans ?_
  cases src <;> rfl

theorem State.micro_lvl (l : Line) (v : Bool) : s.micro (.lvl l v) = (s.did 0 [.lvl l v]).setLines (s.lines.setLvl l v) := by
  simp [State.micro, State.lvl, State.followPins, h, State.did, State.bus, State.setLines]

theorem State.micro_dir (l : Line) : s.micro (.dir l) = (s.did 0 [.dir l]).setLines (s.lines.setOut l) := by
  simp [State.micro, State.dir, State.followPins, h, State.did, State.bus, State.setLines]

end micro

theorem State.micro_spiInit (s : State) : s.micro .spiInit = { s.did 0 [.spiInit] with spi := s.spi.enable } := by
  simp [State.micro, State.spiInit, State.did, State.bus]

theorem State.micro_delayUs (s : State) (n : Nat) : s.micro (.delayUs n) = (s.did 0 [.delayUs n]).setDly (usCycles s.cfg n) := by
  simp [State.micro, State.delayUs, State.did, State.bus, State.setDly]

theorem State.micro_delayMs (s : State) (n : Nat) : s.micro (.delayMs n) = (s.did 0 [.delayMs n]).setDly (msCycles s.cfg n) := by
  simp [State.micro, State.delayMs, State.did, State.bus, State.setDly]

/-! ### Runs of exchanges -/

theorem State.perform_sends {s : State} (h : s.far = .free) (ts : List Byte) :
    s.perform (ts.map send) = s.did ts.length (s.xEvents 0 ts) := by
  induction ts generalizing s with
  | nil => exact (State.did_zero_nil s).symm
  | cons t ts ih =>
    have step : s.perform ((t :: ts).map send) = (s.micro (.xfer (.lit t) false)).perform (ts.map send) := rfl
    rw [step, State.micro_drop h, ih (by simpa using h)]
    simp [State.srcByte, Nat.add_comm]

/-- Reading: the bytes received are appended to those read so far. -/
theorem State.perform_receives {s : State} (h : s.far = .free) (n : Nat) :
    s.perform (List.replicate n receive) =
      (s.did n (s.xEvents 0 (List.replicate n s.cfg.dummy))).setRd (s.ctl.rd ++ s.rxBytes 0 n) := by
  induction n generalizing s with
  | zero => simp [State.did_zero_nil, State.setRd]
  | succ n ih =>
    have step : s.perform (List.replicate (n + 1) receive) =
        (s.micro (.xfer .dummy true)).perform (List.replicate n receive) := rfl
    rw [step, State.micro_keep h, ih (by simpa using h)]
    simp [State.srcByte, State.rxBytes_succ, List.replicate_succ, Nat.add_comm]

/-! ### Frames (R11) -/

theorem Lines.setLvl_csn_csn (x : Lines) (a b : Bool) : (x.setLvl .csn a).setLvl .csn b = x.setLvl .csn b := rfl

theorem Lines.setLvl_csn_high (x : Lines) : x.setLvl .csn true = x.idleCsn := rfl

/-- A frame that writes: the command byte and the data bytes, CSN high afterwards. -/
theorem State.perform_sendFrame {s : State} (h : s.far = .free) (c : Byte) (ts : List Byte) :
    s.perform (frame (send c :: ts.map send)) =
      (s.did (ts.length + 1) (s.frameEvents 0 (c :: ts))).setLines s.lines.idleCsn := by
  have shape : s.perform (frame (send c :: ts.map send)) =
      ((s.micro (.lvl .csn false)).perform ((c :: ts).map send)).micro (.lvl .csn true) := by
    rw [frame, State.perform_op, State.perform_append]
    rfl
  rw [shape, State.micro_lvl h, State.perform_sends (by simpa using h), State.micro_lvl (by simpa using h)]
  simp [State.frameEvents, Lines.setLvl_csn_csn, Lines.setLvl_csn_high]

/-- A frame that reads n bytes. -/
theorem State.perform_readFrame {s : State} (h : s.far = .free) (c : Byte) (n : Nat) :
    s.perform (frame (send c :: List.replicate n receive)) =
      ((s.did (n + 1) (s.frameEvents 0 (c :: List.replicate n s.cfg.dummy))).setLines s.lines.idleCsn).setRd
        (s.ctl.rd ++ s.rxBytes 1 n) := by
  have shape : s.perform (frame (send c :: List.replicate n receive)) =
      (((s.micro (.lvl .csn false)).perform ([c].map send)).perform (List.replicate n receive)).micro (.lvl .csn true) := by
    simp [frame, send]
  rw [shape, State.micro_lvl h, State.perform_sends (by simpa using h), State.perform_receives (by simpa using h),
    State.micro_lvl (by simpa using h)]
  simp [State.frameEvents, Lines.setLvl_csn_csn, Lines.setLvl_csn_high, Nat.add_comm]
  rfl

/-- A frame that sends a command byte and one byte that is known only when it is sent. -/
theorem State.perform_srcFrame {s : State} (h : s.far = .free) (c : Byte) (src : Src) :
    s.perform (frame [send c, .op (.xfer src false)]) =
      (s.did 2 (s.frameEvents 0 [c, s.srcByte src])).setLines s.lines.idleCsn := by
  have shape : s.perform (frame [send c, .op (.xfer src false)]) =
      (((s.micro (.lvl .csn false)).perform ([c].map send)).micro (.xfer src false)).micro (.lvl .csn true) := by
    simp [frame, send]
  rw [shape, State.micro_lvl h, State.perform_sends (by simpa using h), State.micro_drop (by simpa using h),
    State.micro_lvl (by simpa using h)]
  simp [State.frameEvents, Lines.setLvl_csn_csn, Lines.setLvl_csn_high]

end Sys2Proof.Machine
end

