-- ==== Sys2Proof/Laws/Operate.lean ====
section
/-! SUPPORT. What an operation made of register accesses ends in, uninterrupted, against the free oracle; and the checks at
acceptance. -/

namespace Sys2Proof.Machine

open Sys2Proof

theorem acceptanceFault_pass : acceptanceFault true true true = none := rfl

theorem acceptanceFault_notReady (a b : Bool) : acceptanceFault false a b = some .notInitialized := rfl

theorem acceptanceFault_badArgument (b : Bool) : acceptanceFault true false b = some .invalidArgument := rfl

theorem acceptanceFault_badWidth : acceptanceFault true true false = some .badAddrWidth := rfl

theorem lenOk_true {n : Len} (h : n.toNat ≤ 32) : lenOk n = true := decide_eq_true h

theorem lenOk_false {n : Len} (h : 32 < n.toNat) : lenOk n = false := decide_eq_false (Nat.not_le.mpr h)

theorem regOk_true {reg : Byte} (h : reg.toNat ≤ 0x1F) : regOk reg = true := decide_eq_true h

theorem regOk_false {reg : Byte} (h : 0x1F < reg.toNat) : regOk reg = false := decide_eq_false (Nat.not_le.mpr h)

theorem pipeOk_true {pipe : Byte} (h : pipe.toNat ≤ 5) : pipeOk pipe = true := decide_eq_true (Nat.lt_succ_of_le h)

theorem pipeOk_false {pipe : Byte} (h : 5 < pipe.toNat) : pipeOk pipe = false := decide_eq_false (Nat.not_lt.mpr h)

theorem sizeOk_true {size : Byte} (h : size.toNat ≤ 32) : sizeOk size = true := decide_eq_true h

theorem sizeOk_false {size : Byte} (h : 32 < size.toNat) : sizeOk size = false := decide_eq_false (Nat.not_le.mpr h)

theorem widthOk_eq (w : Byte) : widthOk w = decide (3 ≤ w.toNat ∧ w.toNat ≤ 5) := (Bool.decide_and _ _).symm

theorem widthOk_true {w : Byte} (h : 3 ≤ w.toNat) (h' : w.toNat ≤ 5) : widthOk w = true := by
  rw [widthOk_eq]
  exact decide_eq_true ⟨h, h'⟩

theorem widthOk_false {w : Byte} (h : w.toNat < 3 ∨ 5 < w.toNat) : widthOk w = false := by
  rw [widthOk_eq]
  exact decide_eq_false (by omega)

theorem fullWidthPipe_true {pipe : Byte} (h : pipe.toNat ≤ 1) : fullWidthPipe pipe = true := decide_eq_true h

theorem fullWidthPipe_false {pipe : Byte} (h : 1 < pipe.toNat) : fullWidthPipe pipe = false :=
  decide_eq_false (Nat.not_le.mpr h)

/-- The bytes read from the k-th exchange on, put into the response buffer. -/
theorem fillBuf_rxBytes (s : State) (k n : Nat) : fillBuf s.rsp.buf (s.rxBytes k n) = s.received k n := by
  apply Vector.ext
  intro i hi
  simp [fillBuf, State.received, State.rxBytes, List.getD_eq_getElem?_getD]
  split <;> simp_all

theorem bufBytes_length (buf : Buf) (n : Nat) (h : n ≤ 32) : (bufBytes buf n).length = n := by
  simp [bufBytes, h]

/-- An operation whose sequence leads to `u`. -/
theorem State.operate_eq {s u : State} (h : s.Uninterrupted) {is : List Item} {f : Finish}
    (hu : (s.load is (.finish f)).perform is = u) : s.operate none is (.finish f) = .next (u.complete f) := by
  rw [State.operate_finish h, hu]

section closed

variable (s : State) (is : List Item) (tail : Tail) (n : Nat) (es : List Event)

/-- Completion after n exchanges, with the lines and the bytes read. -/
theorem State.complete_did (f : Finish) (L : Lines) (rd : List Byte) :
    State.complete f ((((s.load is tail).did n es).setLines L).setRd rd) =
      { s.ends n es (s.rsp.finish f { s.ctl with rd := rd }) with lines := L } := by
  cases f <;>
    simp [State.complete, State.ends, State.did, State.bus, State.load, State.setLines, State.setRd, Response.finish,
      Response.linkResult, State.rx]

theorem State.complete_did_plain (L : Lines) :
    State.complete .plain (((s.load is tail).did n es).setLines L) = { s.ends n es s.rsp.good with lines := L } := by
  simp [State.complete, State.ends, State.did, State.bus, State.load, State.setLines, Response.finish, Response.succeed,
    Response.good, State.rx]

end closed

/-- R12: an operation that is one register write. -/
theorem State.operate_memWrite {s : State} (h : s.Uninterrupted) (a : RegAddr) (vs : List Byte) :
    s.operate none (memWrite a vs) (.finish .plain) = .next (s.wrote a vs) := by
  rw [show memWrite a vs = frame (send (encodeWire (.writeReg a)) :: vs.map send) from rfl,
    State.operate_eq h (State.perform_sendFrame (by simpa using h.2) _ _), State.load_frameEvents, State.load_lines,
    State.complete_did_plain]
  rfl

/-- R12: an operation that is one frame that reads n bytes. -/
theorem State.operate_readFrame {s : State} (h : s.Uninterrupted) (c : Byte) (n : Nat) (f : Finish) :
    s.operate none (.set .rdClear :: frame (send c :: List.replicate n receive)) (.finish f) =
      .next { s.ends (n + 1) (s.frameEvents 0 (c :: List.replicate n s.cfg.dummy))
                (s.rsp.finish f { s.ctl with rd := s.rxBytes 1 n }) with
              lines := s.lines.idleCsn } := by
  have hp : ∀ is tail, (s.load is tail).perform (.set .rdClear :: frame (send c :: List.replicate n receive)) =
      (((s.load is tail).did (n + 1) (s.frameEvents 0 (c :: List.replicate n s.cfg.dummy))).setLines s.lines.idleCsn).setRd
        (s.rxBytes 1 n) := by
    intro is tail
    have clear : (s.load is tail).transfer .rdClear = s.load is tail := rfl
    rw [State.perform_set, clear, State.perform_readFrame (by simpa using h.2)]
    simp
  rw [State.operate_eq h (hp _ _), State.complete_did]

/-- R12: an operation that reads one byte of a register. -/
theorem State.operate_memRead_one {s : State} (h : s.Uninterrupted) (a : RegAddr) (f : Finish) :
    s.operate none (memRead a 1) (.finish f) =
      .next (s.readByte a (s.rsp.finish f { s.ctl with rd := [s.rx 1] })) := by
  rw [show memRead a 1 = .set .rdClear :: frame (send (encodeWire (.readReg a)) :: List.replicate 1 receive) from rfl,
    State.operate_readFrame h]
  rfl

end Sys2Proof.Machine
end

