-- ==== Sys2Proof/Laws/Sequences.lean ====
section
/-! SUPPORT. The sequences that operations perform in place (R102), each as a closed form over the state before it, against the free
oracle; and the register transfers as setters. -/

namespace Sys2Proof.Machine

open Sys2Proof

/-! ### Register transfers -/

section transfers

variable (s : State)

theorem State.transfer_lineIds (a b : Byte) :
    s.transfer (.lineIds a b) = s.setHandle { s.handle with ceId := a, csnId := b } := rfl
theorem State.transfer_initDone : s.transfer .initDone = s.setHandle { s.handle with initDone := true } := rfl
theorem State.transfer_cacheSet (b : Byte) :
    s.transfer (.cacheSet b) = s.setHandle { s.handle with configCache := b } := rfl
theorem State.transfer_cacheOr (mask : Byte) :
    s.transfer (.cacheOr mask) = s.setHandle { s.handle with configCache := s.handle.configCache ||| mask } := rfl
theorem State.transfer_cacheClear (mask : Byte) :
    s.transfer (.cacheClear mask) = s.setHandle { s.handle with configCache := s.handle.configCache &&& ~~~mask } := rfl
theorem State.transfer_cacheRead :
    s.transfer .cacheRead = s.setHandle { s.handle with configCache := s.ctl.rd.headD 0 } := rfl
theorem State.transfer_widthRead :
    s.transfer .widthRead = s.setHandle { s.handle with addrWidth := s.ctl.rd.headD 0 + 2 } := rfl
theorem State.transfer_txCache (bytes : List Byte) :
    s.transfer (.txCache bytes) = s.setHandle { s.handle with txAddrCache := fillAddr s.handle.txAddrCache bytes } := rfl
theorem State.transfer_tRead : s.transfer .tRead = s.setT (s.ctl.rd.headD 0) := rfl
theorem State.transfer_rdClear : s.transfer .rdClear = s.setRd [] := rfl
theorem State.transfer_delayDone : s.transfer .delayDone = s.setDly 0 := rfl

end transfers

/-! ### Sequences -/

section sequences

variable {s : State} (h : s.far = .free)
include h

/-- R11: a frame of one byte. -/
theorem State.perform_commandFrame (c : Byte) :
    s.perform (frame [send c]) = (s.did 1 (s.frameEvents 0 [c])).setLines s.lines.idleCsn := by
  simpa using State.perform_sendFrame h c []

/-- R12. -/
theorem State.perform_memWrite (a : RegAddr) (vs : List Byte) :
    s.perform (memWrite a vs) =
      (s.did (vs.length + 1) (s.frameEvents 0 (encodeWire (.writeReg a) :: vs))).setLines s.lines.idleCsn :=
  State.perform_sendFrame h _ _

/-- R12, one byte. -/
theorem State.perform_memRead_one (a : RegAddr) :
    s.perform (memRead a 1) =
      ((s.did 2 (s.frameEvents 0 [encodeWire (.readReg a), s.cfg.dummy])).setLines s.lines.idleCsn).setRd [s.rx 1] := by
  rw [memRead, State.perform_set, State.transfer_rdClear, State.perform_readFrame (by simpa using h)]
  simp [State.rxBytes_succ, List.replicate_succ]
  rfl

/-- R168 to R171: the cache written to `A_CONFIG`. -/
theorem State.perform_memWriteCache (m : RegMap) :
    s.perform (memWriteCache m) =
      (s.did 2 (s.frameEvents 0 [encodeWire (.writeReg m.aConfig), s.handle.configCache])).setLines s.lines.idleCsn :=
  State.perform_srcFrame h _ _

/-- R172. -/
theorem State.perform_standbyItems {m : RegMap} (hm : m = s.cfg.regMap) :
    s.perform (standbyItems m) = (s.did 4 (s.standbyEvents 0)).setLines { s.lines.idleCsn with ceLvl := false } := by
  subst hm
  simp [standbyItems, clrStatusItems, flushTxItems, flushRxItems, State.perform_memWrite, State.perform_commandFrame, h,
    State.micro_lvl, State.standbyEvents, encodeWire, Config.cmdFlushTx, Config.cmdFlushRx]
  rfl

/-- R170. -/
theorem State.perform_modeRxItems {m : RegMap} (hm : m = s.cfg.regMap) :
    s.perform (modeRxItems m) =
      (((s.did 2 (s.frameEvents 0 [encodeWire (.writeReg m.aConfig), s.handle.configCache ||| bit m.bPrimRx]
          ++ [.lvl .ce true, .delayUs 130])).setLines { s.lines.idleCsn with ceLvl := true }).setDly 0).setHandle
        { s.handle with configCache := s.handle.configCache ||| bit m.bPrimRx } := by
  subst hm
  simp [modeRxItems, waitUs, Config.tRxSettleUs, State.transfer_cacheOr, State.transfer_delayDone,
    State.perform_memWriteCache, h, State.micro_lvl, State.micro_delayUs]
  rfl

/-- R171. -/
theorem State.perform_modeTxItems {m : RegMap} (hm : m = s.cfg.regMap) :
    s.perform (modeTxItems m) =
      (((s.did 2 (s.frameEvents 0 [encodeWire (.writeReg m.aConfig), s.handle.configCache &&& ~~~(bit m.bPrimRx)]
          ++ [.lvl .ce true, .delayUs 150])).setLines { s.lines.idleCsn with ceLvl := true }).setDly 0).setHandle
        { s.handle with configCache := s.handle.configCache &&& ~~~(bit m.bPrimRx) } := by
  subst hm
  simp [modeTxItems, waitUs, Config.tTxSettleUs, State.transfer_cacheClear, State.transfer_delayDone,
    State.perform_memWriteCache, h, State.micro_lvl, State.micro_delayUs]
  rfl

/-- R168. -/
theorem State.perform_pwrUpItems {m : RegMap} (hm : m = s.cfg.regMap) :
    s.perform (pwrUpItems m) =
      (((s.did 2 (s.frameEvents 0 [encodeWire (.writeReg m.aConfig), s.handle.configCache ||| bit m.bPwrUp]
          ++ [.delayUs 1500])).setLines s.lines.idleCsn).setDly 0).setHandle
        { s.handle with configCache := s.handle.configCache ||| bit m.bPwrUp } := by
  subst hm
  simp [pwrUpItems, waitUs, Config.tPwrupUs, State.transfer_cacheOr, State.transfer_delayDone,
    State.perform_memWriteCache, h, State.micro_delayUs]
  rfl

/-- R167 from the first frame on. -/
theorem State.perform_initFrames {m : RegMap} (hm : m = s.cfg.regMap) :
    s.perform (memWrite m.aConfig [m.configInit] ++ [.set (.cacheSet m.configInit)]
        ++ memRead m.aConfig 1 ++ [.set .cacheRead] ++ memRead m.aSetupAw 1 ++ [.set .widthRead, .set .initDone]) =
      (((s.did 6 (s.frameEvents 0 [encodeWire (.writeReg m.aConfig), m.configInit]
          ++ s.frameEvents 2 [encodeWire (.readReg m.aConfig), s.cfg.dummy]
          ++ s.frameEvents 4 [encodeWire (.readReg m.aSetupAw), s.cfg.dummy])).setLines s.lines.idleCsn).setRd [s.rx 5]).setHandle
        { s.handle with configCache := s.rx 3, addrWidth := s.rx 5 + 2, initDone := true } := by
  subst hm
  simp [State.transfer_cacheSet, State.transfer_cacheRead, State.transfer_widthRead, State.transfer_initDone,
    State.perform_memWrite, State.perform_memRead_one, h]
  rfl

/-- R167. -/
theorem State.perform_initItems {m : RegMap} (hm : m = s.cfg.regMap) (ce csn : Byte) :
    s.perform (initItems m ce csn) =
      { (((s.did 6 s.initEvents).setLines { ceDir := true, csnDir := true, ceLvl := false, csnLvl := true }).setRd
            [s.rx 5]).setHandle
          { s.handle with ceId := ce, csnId := csn, configCache := s.rx 3, addrWidth := s.rx 5 + 2, initDone := true } with
        spi := { en := true, sr := s.rx 5, rxd := s.rx 5, cnt := 8, busy := false, sck := false }
        dlyCnt := 0 } := by
  have shape : initItems m ce csn =
      ([.set (.lineIds ce csn), .op (.dir .ce), .op (.dir .csn), .op (.lvl .ce false), .op (.lvl .csn true), .op .spiInit]
        ++ waitUs Config.tPwrupUs)
      ++ (memWrite m.aConfig [m.configInit] ++ [.set (.cacheSet m.configInit)]
        ++ memRead m.aConfig 1 ++ [.set .cacheRead] ++ memRead m.aSetupAw 1 ++ [.set .widthRead, .set .initDone]) := by
    simp [initItems]
  subst hm
  rw [shape, State.perform_append, State.perform_initFrames (by simpa using h) (by simp)]
  simp [waitUs, State.transfer_lineIds, State.transfer_delayDone, State.micro_lvl, State.micro_dir, State.micro_delayUs,
    State.micro_spiInit, h, State.initEvents]
  simp [State.did, State.bus, State.setRd, State.setLines, State.setDly, State.setHandle, State.xEvents, State.frameEvents,
    Config.tPwrupUs, State.rx, Lines.setLvl, Lines.setOut, Lines.idleCsn, Spi.enable]
  split <;> simp [*]

end sequences

end Sys2Proof.Machine
end

