-- ==== Sys2Proof/Laws/Advance.lean ====
section
/-! SUPPORT. The sequencer as a whole: what any number of its steps, interrupted or not, leaves alone; and the branches that follow
a sequence. -/

namespace Sys2Proof.Machine

open Sys2Proof

section keeps

/-- A function of the state that no part of the sequencer changes. -/
structure Untouched {α : Type} (f : State → α) : Prop where
  micro : ∀ s m, f (State.micro m s) = f s
  transfer : ∀ s t, f (State.transfer t s) = f s
  complete : ∀ s k, f (State.complete k s) = f s
  todo : ∀ (s : State) is, f { s with ctl.todo := is } = f s
  tail : ∀ (s : State) t, f { s with ctl.tail := t } = f s
  budget : ∀ (s : State) b, f { s with budget := b } = f s

variable {α : Type} {f : State → α} (h : Untouched f)
include h

theorem Untouched.runItems (is : List Item) (s : State) : f (s.runItems is) = f s := by
  induction is generalizing s with
  | nil => exact h.todo s []
  | cons i is ih =>
    cases i with
    | set t => exact (ih _).trans (h.transfer s t)
    | op m =>
      simp only [State.runItems]
      split
      · exact (ih _).trans (h.micro s m)
      · exact h.todo s _
      · exact (ih _).trans ((h.micro _ m).trans (h.budget s _))

theorem Untouched.tryComplete (k : Finish) (s : State) : f (s.tryComplete k) = f s := by
  simp only [State.tryComplete]
  split
  · exact h.complete s k
  · rfl
  · exact (h.complete _ k).trans (h.budget s _)

theorem Untouched.runToEnd (is : List Item) (k : Finish) (s : State) : f (s.runToEnd is k) = f s := by
  simp only [State.runToEnd]
  split
  · rw [h.tryComplete, h.runItems, h.tail]
  · rw [h.runItems, h.tail]

theorem Untouched.runTail (s : State) : f s.runTail = f s := by
  simp only [State.runTail]
  split
  · exact h.tryComplete _ s
  · split <;> exact h.runToEnd _ _ s
  · split
    · exact h.runToEnd _ _ s
    · simp only [State.pollAgain]
      rw [h.todo, h.runItems, h.tail]

theorem Untouched.advance (s : State) : f s.advance = f s := by
  simp only [State.advance]
  split
  · rw [h.runTail, h.runItems]
  · exact h.runItems _ s

end keeps

/-- The sequencer changes none of these: what it runs, its parameters, what the outside has prepared. -/
theorem untouched_context :
    Untouched fun s => (s.operands, s.cfg, s.far, s.inp, s.program, s.turns, s.wireOut) where
  micro s m := by cases m <;> simp
  transfer s t := by cases t <;> rfl
  complete s k := rfl
  todo s is := rfl
  tail s t := rfl
  budget s b := rfl

section context

variable (s : State)

theorem State.advance_context :
    s.advance.operands = s.operands ∧ s.advance.cfg = s.cfg ∧ s.advance.far = s.far ∧ s.advance.inp = s.inp ∧
      s.advance.program = s.program ∧ s.advance.turns = s.turns ∧ s.advance.wireOut = s.wireOut := by
  simpa using untouched_context.advance s

@[simp] theorem State.advance_operands : s.advance.operands = s.operands := s.advance_context.1
@[simp] theorem State.advance_cfg : s.advance.cfg = s.cfg := s.advance_context.2.1
@[simp] theorem State.advance_far : s.advance.far = s.far := s.advance_context.2.2.1
@[simp] theorem State.advance_inp : s.advance.inp = s.inp := s.advance_context.2.2.2.1
@[simp] theorem State.advance_program : s.advance.program = s.program := s.advance_context.2.2.2.2.1
@[simp] theorem State.advance_turns : s.advance.turns = s.turns := s.advance_context.2.2.2.2.2.1
@[simp] theorem State.advance_wireOut : s.advance.wireOut = s.wireOut := s.advance_context.2.2.2.2.2.2

end context

/-! ### Outcomes -/

/-- A step of the sequencer that has an outcome ends in the state it has reached. -/
theorem State.outcome_next {s t : State} (h : s.outcome = .next t) : t = s := by
  simp only [State.outcome] at h
  split at h
  · exact (Host.Outcome.next.inj h).symm
  · split at h
    · cases h
    · exact (Host.Outcome.next.inj h).symm

/-- The loaded state of an operation: its sequence if the checks pass, else the completion with the fault. -/
def State.taken (check : Option Kind) (items : List Item) (tail : Tail) (s : State) : State :=
  match check with
  | some k => s.load [] (.finish (.fault k))
  | none => s.load items tail

theorem State.operate_taken (check : Option Kind) (items : List Item) (tail : Tail) (s : State) :
    s.operate check items tail = (s.taken check items tail).advance.outcome := by
  cases check <;> rfl

/-- An accepted operation, uninterrupted, up to the end of its first sequence. -/
theorem State.operate_tail {s : State} (h : s.Uninterrupted) (is : List Item) (tail : Tail) :
    s.operate none is tail = .next (State.runTail { (s.load is tail).perform is with ctl.todo := [] }) := by
  obtain ⟨hb, hf⟩ := h
  rw [State.operate_taken, State.outcome_free (by simpa [State.taken] using hf)]
  simp only [State.taken]
  rw [State.advance_all (by simpa using hb)]
  rfl

/-! ### Branches -/

/-- R203: no payload. -/
theorem State.runTail_noData {s : State} {n : Nat} (ht : s.ctl.tail = .readBranch n)
    (he : fifoRxEmpty s.cfg.regMap s.ctl.t = true) : s.runTail = s.runToEnd [] .noData := by
  simp [State.runTail, ht, he]

/-- R203: a payload to read. -/
theorem State.runTail_data {s : State} {n : Nat} (ht : s.ctl.tail = .readBranch n)
    (he : fifoRxEmpty s.cfg.regMap s.ctl.t = false) : s.runTail = s.runToEnd (rdPlItems n) .bufRead := by
  simp [State.runTail, ht, he]

/-- R202: the poll loop ends. -/
theorem State.runTail_pollExit {s : State} {is : List Item} (ht : s.ctl.tail = .pollBranch) (he : s.pollExit = some is) :
    s.runTail = s.runToEnd is .link := by
  simp [State.runTail, ht, he]

/-- R202: the poll loop goes on. -/
theorem State.runTail_pollAgain {s : State} (ht : s.ctl.tail = .pollBranch) (he : s.pollExit = none) :
    s.runTail = s.pollAgain := by
  simp [State.runTail, ht, he]

end Sys2Proof.Machine
end

