-- ==== Sys2Proof/Laws/Memory.lean ====
section
/-! SUPPORT. The chip's register space as a memory: every operation keeps the canonical form, a read after a write, and equal reads
mean equal memories. -/

namespace Sys2Proof.Machine

open Sys2Proof

theorem Memory.listed_below {m : Memory} {lo k : Nat} (h : Memory.wfFrom lo m = true) (hk : k < lo) : m.listed k = none := by
  induction m generalizing lo with
  | nil => rfl
  | cons e m ih =>
    obtain ⟨k', v⟩ := e
    simp [Memory.wfFrom] at h
    rw [Memory.listed, if_neg (by omega)]
    exact ih h.2 (by omega)

theorem Memory.wfFrom_mono {m : Memory} {a b : Nat} (h : Memory.wfFrom b m = true) (hab : a ≤ b) :
    Memory.wfFrom a m = true := by
  cases m with
  | nil => rfl
  | cons e m =>
    obtain ⟨k', v⟩ := e
    simp [Memory.wfFrom] at h ⊢
    exact ⟨⟨⟨by omega, h.1.1.2⟩, h.1.2⟩, h.2⟩

/-- A listed entry names an existing byte and differs from what that byte reads as when unlisted. -/
theorem Memory.listed_some {m : Memory} {lo k : Nat} {v : Byte} (h : Memory.wfFrom lo m = true) (hl : m.listed k = some v) :
    Memory.unlisted k ≠ none ∧ Memory.unlisted k ≠ some v ∧ lo ≤ k := by
  induction m generalizing lo with
  | nil => cases hl
  | cons e m ih =>
    obtain ⟨k', v'⟩ := e
    simp [Memory.wfFrom] at h
    rw [Memory.listed] at hl
    split at hl
    · next hk =>
      subst hk
      cases hl
      exact ⟨h.1.1.2, h.1.2, h.1.1.1⟩
    · have rest := ih h.2 hl
      exact ⟨rest.1, rest.2.1, by omega⟩

/-! ### Removing and putting an entry -/

theorem Memory.listed_erase {m : Memory} {lo : Nat} (h : Memory.wfFrom lo m = true) (k j : Nat) :
    (m.erase k).listed j = if j = k then none else m.listed j := by
  induction m generalizing lo with
  | nil => simp [Memory.erase, Memory.listed]
  | cons e m ih =>
    obtain ⟨k', v⟩ := e
    simp [Memory.wfFrom] at h
    rw [Memory.erase]
    split
    · next hk =>
      subst hk
      split
      · next hj => rw [hj]; exact Memory.listed_below h.2 (by omega)
      · next hj => rw [Memory.listed, if_neg hj]
    · next hk =>
      rw [Memory.listed, Memory.listed]
      split
      · next hj => rw [hj, if_neg (fun e => hk e.symm)]
      · exact ih h.2

theorem Memory.wfFrom_erase {m : Memory} {lo : Nat} (h : Memory.wfFrom lo m = true) (k : Nat) :
    Memory.wfFrom lo (m.erase k) = true := by
  induction m generalizing lo with
  | nil => rfl
  | cons e m ih =>
    obtain ⟨k', v⟩ := e
    simp [Memory.wfFrom] at h
    rw [Memory.erase]
    split
    · exact Memory.wfFrom_mono h.2 (by omega)
    · simp only [Memory.wfFrom, ih h.2, Bool.and_true]
      simpa using h.1

theorem Memory.listed_insert (m : Memory) (k j : Nat) (v : Byte) :
    (m.insert k v).listed j = if j = k then some v else m.listed j := by
  induction m with
  | nil => rfl
  | cons e m ih =>
    obtain ⟨k', v'⟩ := e
    rw [Memory.insert]
    split
    · rfl
    · split
      · next hk =>
        subst hk
        simp only [Memory.listed]
        split <;> rfl
      · next hk =>
        simp only [Memory.listed, ih]
        by_cases hj : j = k'
        · rw [if_pos hj, if_neg (fun e => hk (e.symm.trans hj)), if_pos hj]
        · rw [if_neg hj, if_neg hj]

theorem Memory.wfFrom_insert {m : Memory} {lo : Nat} (h : Memory.wfFrom lo m = true) {k : Nat} {v : Byte} (hk : lo ≤ k)
    (h1 : Memory.unlisted k ≠ none) (h2 : Memory.unlisted k ≠ some v) : Memory.wfFrom lo (m.insert k v) = true := by
  induction m generalizing lo with
  | nil => simp [Memory.insert, Memory.wfFrom, hk, h1, h2]
  | cons e m ih =>
    obtain ⟨k', v'⟩ := e
    simp [Memory.wfFrom] at h
    rw [Memory.insert]
    split
    · simp [Memory.wfFrom]
      exact ⟨⟨⟨hk, h1⟩, h2⟩, ⟨⟨by omega, h.1.1.2⟩, h.1.2⟩, h.2⟩
    · split
      · next e =>
        subst e
        simp [Memory.wfFrom]
        exact ⟨⟨⟨hk, h1⟩, h2⟩, h.2⟩
      · simp [Memory.wfFrom]
        exact ⟨h.1, ih h.2 (by omega)⟩

/-! ### Reading and writing -/

/-- Every write keeps the canonical form. -/
theorem Memory.wf_write {m : Memory} (h : m.wf = true) (k : Nat) (v : Byte) : (m.write k v).wf = true := by
  rw [Memory.write]
  split
  · exact h
  · next d hd =>
    split
    · exact Memory.wfFrom_erase h k
    · next hv =>
      exact Memory.wfFrom_insert h (Nat.zero_le k) (by simp [hd]) (by rw [hd]; exact fun e => hv (Option.some.inj e).symm)

theorem Memory.wf_nil : Memory.wf [] = true := rfl

/-- A list of cells brought to the canonical form has it. -/
theorem Memory.wf_ofCells (cells : List Host.Cell) : (Memory.ofCells cells).wf = true := by
  have h : ∀ m : Memory, m.wf = true → (cells.foldl (fun m c => Memory.write m c.1 c.2) m).wf = true := by
    induction cells with
    | nil => exact fun m hm => hm
    | cons c cs ih => exact fun m hm => ih _ (Memory.wf_write hm c.1 c.2)
  exact h [] rfl

/-- What a read gives after a write. -/
theorem Memory.read_write {m : Memory} (h : m.wf = true) (k j : Nat) (v : Byte) :
    (m.write k v).read j = if j = k then (m.read j).map fun _ => v else m.read j := by
  by_cases hj : j = k
  · subst hj
    rw [if_pos rfl]
    cases hd : Memory.unlisted j with
    | none => simp [Memory.read, hd]
    | some d =>
      simp only [Memory.read, hd, Memory.write]
      split
      · next hv => rw [Memory.listed_erase h]; simp [hv]
      · rw [Memory.listed_insert]; simp
  · rw [if_neg hj]
    simp only [Memory.read, Memory.write]
    split
    · rfl
    · split
      · rfl
      · split
        · rw [Memory.listed_erase h, if_neg hj]
        · rw [Memory.listed_insert, if_neg hj]

/-- Memories in canonical form that list the same bytes are the same. -/
theorem Memory.eq_of_listed {m m' : Memory} {lo : Nat} (h : Memory.wfFrom lo m = true) (h' : Memory.wfFrom lo m' = true)
    (e : ∀ k, m.listed k = m'.listed k) : m = m' := by
  induction m generalizing lo m' with
  | nil =>
    cases m' with
    | nil => rfl
    | cons x xs =>
      obtain ⟨k, v⟩ := x
      have := e k
      simp [Memory.listed] at this
  | cons x xs ih =>
    obtain ⟨k, v⟩ := x
    cases m' with
    | nil =>
      have := e k
      simp [Memory.listed] at this
    | cons y ys =>
      obtain ⟨k', v'⟩ := y
      simp [Memory.wfFrom] at h h'
      have e1 := e k
      have e2 := e k'
      simp only [Memory.listed, if_pos] at e1 e2
      have hk : k = k' := by
        by_contra hne
        rw [if_neg hne] at e1
        rw [if_neg (fun e => hne e.symm)] at e2
        have a := Memory.listed_some h'.2 e1.symm
        have b := Memory.listed_some h.2 e2
        omega
      subst hk
      rw [if_pos rfl] at e1
      cases e1
      congr 1
      refine ih h.2 h'.2 fun j => ?_
      have ej := e j
      simp only [Memory.listed] at ej
      split at ej
      · next hj => rw [hj, Memory.listed_below h.2 (by omega), Memory.listed_below h'.2 (by omega)]
      · exact ej

/-- What is listed can be told from what is read. -/
theorem Memory.listed_eq_of_read {m : Memory} (h : m.wf = true) (k : Nat) :
    m.listed k = if m.read k = Memory.unlisted k then none else m.read k := by
  rw [Memory.read]
  cases hd : Memory.unlisted k with
  | none =>
    cases hl : m.listed k with
    | none => rfl
    | some v => exact absurd hd (Memory.listed_some h hl).1
  | some d =>
    cases hl : m.listed k with
    | none => simp
    | some v =>
      have := (Memory.listed_some h hl).2.1
      rw [hd] at this
      simp only [Option.getD_some]
      rw [if_neg (fun e => this e.symm)]

/-- Memories in canonical form that read the same are the same. -/
theorem Memory.eq_of_read {m m' : Memory} (h : m.wf = true) (h' : m'.wf = true) (e : ∀ k, m.read k = m'.read k) : m = m' :=
  Memory.eq_of_listed h h' fun k => by rw [Memory.listed_eq_of_read h, Memory.listed_eq_of_read h', e k]

end Sys2Proof.Machine
end

