-- ==== Sys2Proof/Laws/Chip.lean ====
section
/-! SUPPORT. The reference chip: what arming, the frame decoder and the air change and what they leave alone. -/

namespace Sys2Proof.Machine

open Sys2Proof

variable (m : RegMap) (ce : Bool) (c : Chip)

/-! ### Arming changes `armed` only -/

theorem Chip.rearm_eq : c.rearm m ce = { c with armed := (c.rearm m ce).armed } := by
  unfold Chip.rearm
  split <;> rfl

@[simp] theorem Chip.rearm_regs : (c.rearm m ce).regs = c.regs := by rw [Chip.rearm_eq]
@[simp] theorem Chip.rearm_txFifo : (c.rearm m ce).txFifo = c.txFifo := by rw [Chip.rearm_eq]
@[simp] theorem Chip.rearm_rxFifo : (c.rearm m ce).rxFifo = c.rxFifo := by rw [Chip.rearm_eq]
@[simp] theorem Chip.rearm_rxDr : (c.rearm m ce).rxDr = c.rxDr := by rw [Chip.rearm_eq]
@[simp] theorem Chip.rearm_txDs : (c.rearm m ce).txDs = c.txDs := by rw [Chip.rearm_eq]
@[simp] theorem Chip.rearm_maxRt : (c.rearm m ce).maxRt = c.maxRt := by rw [Chip.rearm_eq]
@[simp] theorem Chip.rearm_sel : (c.rearm m ce).sel = c.sel := by rw [Chip.rearm_eq]
@[simp] theorem Chip.rearm_cmd : (c.rearm m ce).cmd = c.cmd := by rw [Chip.rearm_eq]
@[simp] theorem Chip.rearm_idx : (c.rearm m ce).idx = c.idx := by rw [Chip.rearm_eq]
@[simp] theorem Chip.rearm_wbuf : (c.rearm m ce).wbuf = c.wbuf := by rw [Chip.rearm_eq]
@[simp] theorem Chip.rearm_selStatus : (c.rearm m ce).selStatus = c.selStatus := by rw [Chip.rearm_eq]
@[simp] theorem Chip.rearm_gap : (c.rearm m ce).gap = c.gap := by rw [Chip.rearm_eq]

@[simp] theorem Chip.rearm_reg (r : ChipReg) : (c.rearm m ce).reg r = c.reg r := by simp [Chip.reg]
@[simp] theorem Chip.rearm_fifoByte : (c.rearm m ce).fifoByte m = c.fifoByte m := by simp [Chip.fifoByte]
@[simp] theorem Chip.rearm_statusByte : (c.rearm m ce).statusByte m = c.statusByte m := by
  simp [Chip.statusByte, Chip.pipeField]

/-- The condition of R232. -/
theorem Chip.rearm_armed : (c.rearm m ce).armed = (c.armed ||
    (ce && testBit (c.reg .config) m.bPwrUp && !(testBit (c.reg .config) m.bPrimRx) && !c.txFifo.isEmpty && !c.maxRt)) := by
  unfold Chip.rearm
  split
  · next h => rw [h, Bool.or_true]
  · next h => rw [Bool.eq_false_iff.mpr h, Bool.or_false]

/-- Arming is stable where it adds nothing; that depends on four fields only. -/
theorem Chip.rearm_stable {c d : Chip} (h : c.rearm m ce = c) (hr : d.regs = c.regs) (ht : d.txFifo = c.txFifo)
    (hm : d.maxRt = c.maxRt) (ha : d.armed = c.armed) : d.rearm m ce = d := by
  have e : (d.rearm m ce).armed = d.armed := by
    have hc := congrArg Chip.armed h
    rw [Chip.rearm_armed] at hc ⊢
    simpa only [Chip.reg, hr, ht, hm, ha] using hc
  rw [Chip.rearm_eq, e]

@[simp] theorem Chip.rearm_rearm : (c.rearm m ce).rearm m ce = c.rearm m ce := by
  have e : ((c.rearm m ce).rearm m ce).armed = (c.rearm m ce).armed := by
    rw [Chip.rearm_armed, Chip.rearm_reg, Chip.rearm_txFifo, Chip.rearm_maxRt, Chip.rearm_armed, Bool.or_assoc, Bool.or_self]
  rw [Chip.rearm_eq m ce (c.rearm m ce), e]

/-- Without CE the chip does not arm. -/
@[simp] theorem Chip.rearm_low : c.rearm m false = c := rfl

/-! ### The frame decoder -/

@[simp] theorem Chip.select_regs : (c.select m).regs = c.regs := rfl
@[simp] theorem Chip.select_txFifo : (c.select m).txFifo = c.txFifo := rfl
@[simp] theorem Chip.select_rxFifo : (c.select m).rxFifo = c.rxFifo := rfl
@[simp] theorem Chip.select_rxDr : (c.select m).rxDr = c.rxDr := rfl
@[simp] theorem Chip.select_txDs : (c.select m).txDs = c.txDs := rfl
@[simp] theorem Chip.select_maxRt : (c.select m).maxRt = c.maxRt := rfl
@[simp] theorem Chip.select_armed : (c.select m).armed = c.armed := rfl
@[simp] theorem Chip.select_sel : (c.select m).sel = true := rfl
@[simp] theorem Chip.select_cmd : (c.select m).cmd = none := rfl
@[simp] theorem Chip.select_gap : (c.select m).gap = c.gap := rfl
@[simp] theorem Chip.select_wbuf : (c.select m).wbuf = [] := rfl
@[simp] theorem Chip.select_idx : (c.select m).idx = 0 := rfl
@[simp] theorem Chip.select_selStatus : (c.select m).selStatus = c.statusByte m := rfl

/-- A command byte starts the command; a flush acts at once. -/
theorem Chip.command_eq (op : WireOp) : c.command op =
    { c with
      cmd := some op
      txFifo := if op = .flushTx then [] else c.txFifo
      armed := if op = .flushTx then false else c.armed
      rxFifo := if op = .flushRx then [] else c.rxFifo } := by
  cases op <;> rfl

/-- R221, R222: a data byte of a register write changes registers and flags only. -/
theorem Chip.writeReg_eq (r : ChipReg) (i : Nat) (v : Byte) : c.writeReg m r i v =
    { c with
      regs := (c.writeReg m r i v).regs
      rxDr := (c.writeReg m r i v).rxDr
      txDs := (c.writeReg m r i v).txDs
      maxRt := (c.writeReg m r i v).maxRt } := by
  unfold Chip.writeReg
  split
  · split <;> rfl
  · split <;> rfl

/-- A data byte moves the index, and only a register write does more than collect. -/
theorem Chip.dataIn_eq (op : WireOp) (t : Byte) : c.dataIn m op t =
    { c with
      regs := (c.dataIn m op t).regs
      rxDr := (c.dataIn m op t).rxDr
      txDs := (c.dataIn m op t).txDs
      maxRt := (c.dataIn m op t).maxRt
      wbuf := if op = .writePayload then c.wbuf ++ [t] else c.wbuf
      idx := c.idx + 1 } := by
  cases op with
  | writeReg a =>
    simp only [Chip.dataIn]
    split
    · next r hr =>
      rw [Chip.writeReg_eq]
      rfl
    · rfl
  | readReg a => rfl
  | readPayload => rfl
  | writePayload => rfl
  | flushTx => rfl
  | flushRx => rfl

/-- Only a register write changes registers and flags. -/
theorem Chip.dataIn_keeps {op : WireOp} (h : ∀ a, op ≠ .writeReg a) (t : Byte) :
    (c.dataIn m op t).regs = c.regs ∧ (c.dataIn m op t).rxDr = c.rxDr ∧ (c.dataIn m op t).txDs = c.txDs ∧
      (c.dataIn m op t).maxRt = c.maxRt := by
  cases op with
  | writeReg a => exact absurd rfl (h a)
  | readReg a => exact ⟨rfl, rfl, rfl, rfl⟩
  | readPayload => exact ⟨rfl, rfl, rfl, rfl⟩
  | writePayload => exact ⟨rfl, rfl, rfl, rfl⟩
  | flushTx => exact ⟨rfl, rfl, rfl, rfl⟩
  | flushRx => exact ⟨rfl, rfl, rfl, rfl⟩

/-! ### The data bytes of a frame -/

@[simp] theorem Chip.dataBytes_nil (op : WireOp) (n : Nat) : Chip.dataBytes m ce op [] n c = ([], c) := rfl

theorem Chip.dataBytes_length (op : WireOp) (ts : List Byte) (n : Nat) : (Chip.dataBytes m ce op ts n c).1.length = ts.length := by
  induction ts generalizing n c with
  | nil => rfl
  | cons t ts ih => simp [Chip.dataBytes, ih]

/-- What a run of data bytes leaves alone in every command. -/
theorem Chip.dataBytes_eq (op : WireOp) (ts : List Byte) (n : Nat) :
    (Chip.dataBytes m ce op ts n c).2 =
      { c with
        regs := (Chip.dataBytes m ce op ts n c).2.regs
        rxDr := (Chip.dataBytes m ce op ts n c).2.rxDr
        txDs := (Chip.dataBytes m ce op ts n c).2.txDs
        maxRt := (Chip.dataBytes m ce op ts n c).2.maxRt
        armed := (Chip.dataBytes m ce op ts n c).2.armed
        wbuf := if op = .writePayload then c.wbuf ++ ts else c.wbuf
        idx := c.idx + ts.length } := by
  induction ts generalizing n c with
  | nil => simp
  | cons t ts ih =>
    simp only [Chip.dataBytes]
    rw [ih, Chip.rearm_eq, Chip.dataIn_eq]
    simp [Nat.add_assoc, Nat.add_comm 1]
    split <;> simp

variable {c} in
/-- A data byte of a command that changes no register: the chip after it. -/
theorem Chip.dataIn_rearm {op : WireOp} (h : ∀ a, op ≠ .writeReg a) (hc : c.rearm m ce = c) (t : Byte) :
    let d : Chip := { c with wbuf := if op = .writePayload then c.wbuf ++ [t] else c.wbuf, idx := c.idx + 1 }
    (c.dataIn m op t).rearm m ce = d ∧ d.rearm m ce = d := by
  intro d
  have stable : d.rearm m ce = d := Chip.rearm_stable m ce hc rfl rfl rfl rfl
  obtain ⟨h1, h2, h3, h4⟩ := Chip.dataIn_keeps m c h t
  rw [Chip.dataIn_eq, h1, h2, h3, h4]
  exact ⟨stable, stable⟩

variable {c} in
/-- R220, R225 to R228, R237: only a register write changes registers or flags; so nothing else arms anew. -/
theorem Chip.dataBytes_keeps {op : WireOp} (h : ∀ a, op ≠ .writeReg a) (hc : c.rearm m ce = c) (ts : List Byte) (n : Nat) :
    (Chip.dataBytes m ce op ts n c).2 =
      { c with
        wbuf := if op = .writePayload then c.wbuf ++ ts else c.wbuf
        idx := c.idx + ts.length } := by
  induction ts generalizing n c with
  | nil => simp
  | cons t ts ih =>
    simp only [Chip.dataBytes]
    obtain ⟨after, stable⟩ := Chip.dataIn_rearm m ce h hc t
    rw [after, ih stable]
    simp [Nat.add_assoc, Nat.add_comm 1]
    split <;> simp

/-- What is shifted out does not depend on the payload being collected. -/
theorem Chip.dataOut_wbuf (op : WireOp) (b : Byte) (w : List Byte) : ({ c with wbuf := w } : Chip).dataOut m op b = c.dataOut m op b := by
  cases op <;> rfl

variable {c} in
/-- The byte shifted out with the i-th data byte, for a command that changes no register. -/
theorem Chip.dataBytes_out {op : WireOp} (h : ∀ a, op ≠ .writeReg a) (hc : c.rearm m ce = c) (ts : List Byte) (n i : Nat)
    (hi : i < ts.length) :
    (Chip.dataBytes m ce op ts n c).1[i]? =
      some (({ c with idx := c.idx + i } : Chip).dataOut m op (Config.freeByte (n + i))) := by
  induction ts generalizing n c i with
  | nil => simp at hi
  | cons t ts ih =>
    simp only [Chip.dataBytes]
    cases i with
    | zero => simp
    | succ i =>
      obtain ⟨after, stable⟩ := Chip.dataIn_rearm m ce h hc t
      rw [List.getElem?_cons_succ, after, ih stable _ _ (by simpa using hi)]
      have e := Chip.dataOut_wbuf m { c with idx := c.idx + (i + 1) } op (Config.freeByte (n + (i + 1)))
        (if op = .writePayload then c.wbuf ++ [t] else c.wbuf)
      simp only [Nat.add_assoc, Nat.add_comm 1] at e ⊢
      rw [e]

/-! ### A whole frame -/

/-- The chip when a frame's command byte has been taken. -/
def Chip.started (op : WireOp) : Chip := (({ c with gap := none } : Chip).select m |>.command op).rearm m ce

theorem Chip.frame_eq (op : WireOp) (data : List Byte) (n : Nat) :
    c.frame m ce op data n =
      (c.statusByte m :: (Chip.dataBytes m ce op data n (c.started m ce op)).1,
        (Chip.dataBytes m ce op data n (c.started m ce op)).2.deselect.rearm m ce) := rfl

theorem Chip.frame_out_length (op : WireOp) (data : List Byte) (n : Nat) :
    (c.frame m ce op data n).1.length = data.length + 1 := by
  simp [Chip.frame_eq, Chip.dataBytes_length]

theorem Chip.started_stable (op : WireOp) : (c.started m ce op).rearm m ce = c.started m ce op := Chip.rearm_rearm m ce _

/-- The chip after a frame whose command changes no register, before its end action. -/
theorem Chip.frame_keeps {op : WireOp} (h : ∀ a, op ≠ .writeReg a) (data : List Byte) (n : Nat) :
    (c.frame m ce op data n).2 =
      ({ c.started m ce op with
          wbuf := if op = .writePayload then (c.started m ce op).wbuf ++ data else (c.started m ce op).wbuf
          idx := (c.started m ce op).idx + data.length } : Chip).deselect.rearm m ce := by
  rw [Chip.frame_eq]
  simp only
  rw [Chip.dataBytes_keeps m ce h (Chip.started_stable m ce c op)]

/-- The frame decoder's own fields after a frame (R219). -/
def Chip.idle (n : Nat) (wbuf : List Byte) : Chip :=
  { c with sel := false, cmd := none, idx := n, wbuf := wbuf, selStatus := c.statusByte m, gap := none }

theorem Chip.started_eq (op : WireOp) :
    c.started m ce op =
      ({ c with
          sel := true
          cmd := some op
          idx := 0
          wbuf := []
          selStatus := c.statusByte m
          gap := none
          txFifo := if op = .flushTx then [] else c.txFifo
          armed := if op = .flushTx then false else c.armed
          rxFifo := if op = .flushRx then [] else c.rxFifo } : Chip).rearm m ce := by
  rw [Chip.started, Chip.command_eq]
  rfl

/-- R220. -/
theorem Chip.frame_readReg (a : RegAddr) (data : List Byte) (n : Nat) :
    (c.frame m ce (.readReg a) data n).2 = (c.rearm m ce).idle m data.length [] := by
  rw [Chip.frame_keeps m ce c (by simp), Chip.started_eq]
  simp only [reduceCtorEq, if_false, Chip.deselect, Chip.rearm_cmd, Chip.rearm_wbuf, Chip.rearm_idx, Nat.zero_add]
  rw [Chip.rearm_eq, Chip.rearm_armed]
  simp only [Chip.idle, Chip.reg, Chip.rearm_armed, Chip.rearm_regs, Chip.rearm_txFifo, Chip.rearm_maxRt, Chip.rearm_rxFifo,
    Chip.rearm_rxDr, Chip.rearm_txDs, Chip.rearm_selStatus, Chip.rearm_gap, Chip.rearm_statusByte, Bool.or_assoc,
    Bool.or_self]

/-- R226. -/
theorem Chip.frame_readPayload (data : List Byte) (n : Nat) :
    (c.frame m ce .readPayload data n).2 =
      { (c.rearm m ce).idle m data.length [] with rxFifo := c.rxFifo.tail } := by
  rw [Chip.frame_keeps m ce c (by simp), Chip.started_eq]
  simp only [reduceCtorEq, if_false, Chip.deselect, Chip.rearm_cmd, Chip.rearm_wbuf, Chip.rearm_idx, Nat.zero_add]
  rw [Chip.rearm_eq, Chip.rearm_armed]
  simp only [Chip.idle, Chip.reg, Chip.rearm_armed, Chip.rearm_regs, Chip.rearm_txFifo, Chip.rearm_maxRt, Chip.rearm_rxFifo,
    Chip.rearm_rxDr, Chip.rearm_txDs, Chip.rearm_selStatus, Chip.rearm_gap, Chip.rearm_statusByte, Bool.or_assoc,
    Bool.or_self]

/-- R227: with the FIFO empty nothing arms. -/
theorem Chip.frame_flushTx (data : List Byte) (n : Nat) :
    (c.frame m ce .flushTx data n).2 = { c.idle m data.length [] with txFifo := [], armed := false } := by
  rw [Chip.frame_keeps m ce c (by simp), Chip.started_eq]
  simp only [reduceCtorEq, if_false, if_true, Chip.deselect, Chip.rearm_cmd, Chip.rearm_wbuf, Chip.rearm_idx, Nat.zero_add]
  rw [Chip.rearm_eq, Chip.rearm_armed]
  simp [Chip.idle, Chip.rearm_armed]

/-- R228. -/
theorem Chip.frame_flushRx (data : List Byte) (n : Nat) :
    (c.frame m ce .flushRx data n).2 = { (c.rearm m ce).idle m data.length [] with rxFifo := [] } := by
  rw [Chip.frame_keeps m ce c (by simp), Chip.started_eq]
  simp only [reduceCtorEq, if_false, if_true, Chip.deselect, Chip.rearm_cmd, Chip.rearm_wbuf, Chip.rearm_idx, Nat.zero_add]
  rw [Chip.rearm_eq, Chip.rearm_armed]
  simp only [Chip.idle, Chip.reg, Chip.rearm_armed, Chip.rearm_regs, Chip.rearm_txFifo, Chip.rearm_maxRt, Chip.rearm_rxFifo,
    Chip.rearm_rxDr, Chip.rearm_txDs, Chip.rearm_selStatus, Chip.rearm_gap, Chip.rearm_statusByte, Bool.or_assoc,
    Bool.or_self]

/-- R225. -/
theorem Chip.frame_writePayload (data : List Byte) (n : Nat) :
    (c.frame m ce .writePayload data n).2 =
      if Config.fifoDepth ≤ c.txFifo.length then
        { (c.rearm m ce).idle m data.length data with gap := some .txFifoFull }
      else if data.length = 0 ∨ Config.maxPayload < data.length then
        { (c.rearm m ce).idle m data.length data with gap := some (.badPayloadLength data.length) }
      else ({ c.idle m data.length data with txFifo := c.txFifo ++ [data] } : Chip).rearm m ce := by
  rw [Chip.frame_keeps m ce c (by simp), Chip.started_eq]
  simp only [reduceCtorEq, if_false, if_true, Chip.deselect, Chip.rearm_cmd, Chip.rearm_wbuf, Chip.rearm_idx, Nat.zero_add,
    List.nil_append, Chip.commitPayload, Chip.rearm_txFifo]
  split
  · rw [Chip.rearm_eq, Chip.rearm_armed]
    simp only [Chip.idle, Chip.reg, Chip.rearm_armed, Chip.rearm_regs, Chip.rearm_txFifo, Chip.rearm_maxRt,
      Chip.rearm_rxFifo, Chip.rearm_rxDr, Chip.rearm_txDs, Chip.rearm_selStatus, Chip.rearm_statusByte, Bool.or_assoc,
      Bool.or_self]
  · split
    · rw [Chip.rearm_eq, Chip.rearm_armed]
      simp only [Chip.idle, Chip.reg, Chip.rearm_armed, Chip.rearm_regs, Chip.rearm_txFifo, Chip.rearm_maxRt,
        Chip.rearm_rxFifo, Chip.rearm_rxDr, Chip.rearm_txDs, Chip.rearm_selStatus, Chip.rearm_statusByte, Bool.or_assoc,
        Bool.or_self]
    · rw [Chip.rearm_eq, Chip.rearm_armed, Chip.rearm_eq m ce { c.idle m data.length data with txFifo := _ },
        Chip.rearm_armed]
      have more : ∀ x a b : Bool, (x || (a && !c.txFifo.isEmpty && b) || (a && !(c.txFifo ++ [data]).isEmpty && b)) =
          (x || (a && !(c.txFifo ++ [data]).isEmpty && b)) := by
        intro x a b
        cases x <;> cases a <;> cases b <;> simp
      simp only [Chip.idle, Chip.reg, Chip.rearm_armed, Chip.rearm_regs, Chip.rearm_maxRt,
        Chip.rearm_rxFifo, Chip.rearm_rxDr, Chip.rearm_txDs, Chip.rearm_selStatus, Chip.rearm_gap, more]

/-! ### A register write (R221, R222) -/

/-- A register that stores: its defined bits go to the byte of that index, if it has one. -/
theorem Chip.writeReg_stores {r : ChipReg} {mask : Byte} (h : r.stores = some mask) (i : Nat) (v : Byte) :
    c.writeReg m r i v = if i < 8 then { c with regs := c.regs.write (Memory.key r.home i) (v &&& mask) } else c := by
  simp [Chip.writeReg, h]

/-- STATUS: the first byte clears flags. -/
theorem Chip.writeReg_status (i : Nat) (v : Byte) : c.writeReg m .status i v = if i = 0 then c.clearFlags m v else c := by
  simp [Chip.writeReg, ChipReg.stores]

/-- A register that ignores the write. -/
theorem Chip.writeReg_ignored {r : ChipReg} (h : r.stores = none) (hs : r ≠ .status) (i : Nat) (v : Byte) :
    c.writeReg m r i v = c := by
  simp [Chip.writeReg, h, hs]

/-- Every data byte keeps the register space canonical. -/
theorem Chip.writeReg_wf {c : Chip} (h : c.regs.wf = true) (r : ChipReg) (i : Nat) (v : Byte) : (c.writeReg m r i v).regs.wf = true := by
  unfold Chip.writeReg
  split
  · split
    · exact Memory.wf_write h _ _
    · exact h
  · split <;> exact h

theorem Chip.dataIn_wf {c : Chip} (h : c.regs.wf = true) (op : WireOp) (t : Byte) : (c.dataIn m op t).regs.wf = true := by
  cases op with
  | writeReg a =>
    simp only [Chip.dataIn]
    split
    · exact Chip.writeReg_wf m h _ _ _
    · exact h
  | readReg a => exact h
  | readPayload => exact h
  | writePayload => exact h
  | flushTx => exact h
  | flushRx => exact h

theorem Chip.dataBytes_wf {c : Chip} (h : c.regs.wf = true) (op : WireOp) (ts : List Byte) (n : Nat) :
    (Chip.dataBytes m ce op ts n c).2.regs.wf = true := by
  induction ts generalizing n c with
  | nil => exact h
  | cons t ts ih =>
    refine ih (c := (c.dataIn m op t).rearm m ce) ?_ (n + 1)
    rw [Chip.rearm_regs]
    exact Chip.dataIn_wf m h op t

/-! ### A frame of a bench -/

theorem State.wireFrame_next {s : State} {op : WireOp} {data : List Byte}
    (h : (s.chip.frame s.cfg.regMap s.chipCe op data s.draws).2.gap = none) :
    s.wireFrame op data =
      .next { s with
        chip := (s.chip.frame s.cfg.regMap s.chipCe op data s.draws).2
        wireOut := (s.chip.frame s.cfg.regMap s.chipCe op data s.draws).1
        draws := s.draws + (data.length + 1) } := by
  simp [State.wireFrame, h]

theorem State.wireFrame_refused {s : State} {op : WireOp} {data : List Byte} {g : ChipGap}
    (h : (s.chip.frame s.cfg.regMap s.chipCe op data s.draws).2.gap = some g) :
    s.wireFrame op data = .refused (.chipUnspecified g) := by
  simp [State.wireFrame, h]

/-- While CSN is driven the chip has followed it already. -/
theorem State.chipNow_driven {s : State} (h : s.lines.csnDir = true) : s.chipNow = s.chip := by
  simp [State.chipNow, h]

theorem State.chipCsn_driven {s : State} (h : s.lines.csnDir = true) : s.chipCsn = s.lines.csnLvl := by
  simp [State.chipCsn, h]

theorem State.chipCe_driven {s : State} (hf : s.far = .refChip) (h : s.lines.ceDir = true) : s.chipCe = s.lines.ceLvl := by
  simp [State.chipCe, hf, h]

theorem State.chipCe_free {s : State} (hf : s.far = .free) : s.chipCe = false := by simp [State.chipCe, hf]

end Sys2Proof.Machine
end

