-- ==== Sys2Proof/Laws/Link.lean ====
section
/-! SUPPORT. The poll loop of the link write (R202): one poll, the tests on the polled byte, and what follows each of them, against
the free oracle and uninterrupted. -/

namespace Sys2Proof.Machine

open Sys2Proof

/-- The state after one poll: STATUS read into `t`, the count one higher, CSN high. -/
def State.polledOnce (s : State) : State :=
  { (s.did 2 (s.frameEvents 0 [encodeWire (.readReg s.cfg.regMap.aStatus), s.cfg.dummy])).setLines s.lines.idleCsn with
    ctl := { s.ctl with seq := s.ctl.seq + 4, rd := [s.rx 1], t := s.rx 1, pollCnt := s.ctl.pollCnt + 1 } }

theorem State.perform_pollItems {s : State} (h : s.far = .free) {m : RegMap} (hm : m = s.cfg.regMap) :
    s.perform (pollItems m) = s.polledOnce := by
  subst hm
  rw [pollItems, State.perform_append, State.perform_memRead_one h]
  rfl

/-- R202 up to the first poll. -/
theorem State.perform_radioWriteItems {s : State} (h : s.far = .free) {m : RegMap} (hm : m = s.cfg.regMap) (v : List Byte)
    {c : Byte} (hc : c = s.handle.configCache &&& ~~~(bit m.bPrimRx)) :
    s.perform (radioWriteItems m v) =
      { (((s.did (v.length + 5) (s.linkWriteEvents v c)).setLines { s.lines.idleCsn with ceLvl := false }).setHandle
            { s.handle with configCache := c }).setDly 0 with
        ctl := { s.ctl with
          seq := s.ctl.seq + v.length + 14
          failed := false
          timedOut := false
          pollCnt := 1
          t := s.rx (v.length + 4)
          rd := [s.rx (v.length + 4)] } } := by
  subst hm hc
  have start : ∀ u : State,
      u.transfer .pollStart = { u with ctl.failed := false, ctl.timedOut := false, ctl.pollCnt := 0 } := fun _ => rfl
  simp only [radioWriteItems, State.perform_append, wrPlItems]
  rw [State.perform_sendFrame h, State.perform_modeTxItems (by simpa using h) (by simp), State.perform_op,
    State.micro_lvl (by simpa using h), State.perform_set, State.perform_nil, start,
    State.perform_pollItems (by simpa using h) (by simp)]
  simp [State.polledOnce, State.linkWriteEvents]
  simp [State.did, State.bus, State.xEvents, State.frameEvents]
  simp [State.rx, oracleEvents, Nat.add_assoc, Lines.idleCsn, oracleByte_drop, Lines.setLvl, encodeWire, Config.cmdWTxPayload]

section exits

variable {s : State}

theorem State.pollExit_failed (h : s.ctl.t.getLsbD s.cfg.regMap.bMaxRt = true) :
    s.pollExit = some (.set .setFailed :: flushTxItems ++ standbyItems s.cfg.regMap) := by
  have flag : statusMaxRt s.cfg.regMap s.ctl.t = true := h
  simp [State.pollExit, flag]

variable (hm : s.ctl.t.getLsbD s.cfg.regMap.bMaxRt = false)
include hm

theorem State.pollExit_sent (h : s.ctl.t.getLsbD s.cfg.regMap.bTxDs = true) :
    s.pollExit = some (standbyItems s.cfg.regMap) := by
  have maxRt : statusMaxRt s.cfg.regMap s.ctl.t = false := hm
  have txDs : statusTxDs s.cfg.regMap s.ctl.t = true := h
  simp [State.pollExit, maxRt, txDs]

variable (ht : s.ctl.t.getLsbD s.cfg.regMap.bTxDs = false)
include ht

theorem State.pollExit_limit (h : s.cfg.pollLimit = s.ctl.pollCnt) (h0 : s.ctl.pollCnt ≠ 0) :
    s.pollExit = some (.set .setTimedOut :: standbyItems s.cfg.regMap) := by
  have maxRt : statusMaxRt s.cfg.regMap s.ctl.t = false := hm
  have txDs : statusTxDs s.cfg.regMap s.ctl.t = false := ht
  simp [State.pollExit, maxRt, txDs, h, h0]

theorem State.pollExit_none (h : s.cfg.pollLimit ≠ s.ctl.pollCnt) : s.pollExit = none := by
  have maxRt : statusMaxRt s.cfg.regMap s.ctl.t = false := hm
  have txDs : statusTxDs s.cfg.regMap s.ctl.t = false := ht
  simp [State.pollExit, maxRt, txDs]
  exact fun _ e => h e.symm

end exits

section ends

variable {s : State} (hb : s.budget = none) (hf : s.far = .free) (tail : s.ctl.tail = .pollBranch)
include hb hf tail

/-- R202: `MAX_RT`: the TX FIFO is flushed, then standby. -/
theorem State.runTail_failed (h0 : s.ctl.timedOut = false) (h : s.ctl.t.getLsbD s.cfg.regMap.bMaxRt = true)
    (hd : s.dlyCnt = 0) :
    s.runTail = { s.linkEnds 5 (s.frameEvents 0 [0xE1] ++ s.standbyEvents 1)
        { s.rsp with ok := false, err := 1, byte := s.ctl.t } true false s.ctl.pollCnt s.ctl.t with
      ctl.seq := s.ctl.seq + 14 } := by
  have set : ∀ u : State, u.transfer .setFailed = { u with ctl.failed := true } := fun _ => rfl
  rw [State.runTail_pollExit tail (State.pollExit_failed h), State.runToEnd_all hb]
  simp only [List.cons_append, State.perform_set, set, State.perform_append, flushTxItems]
  rw [State.perform_commandFrame (by simpa using hf), State.perform_standbyItems (by simpa using hf) (by rfl)]
  simp [State.linkEnds]
  simp [State.did, State.bus, State.complete, State.ends, Response.finish, State.setLines, State.xEvents, State.frameEvents,
    Response.linkResult, Kind.code, State.standbyEvents]
  simp [State.rx, h0, hd, encodeWire, Config.cmdFlushTx, Lines.idleCsn, oracleEvents]
  simp [oracleByte, List.getD_eq_getElem?_getD, Nat.add_assoc]

/-- R202: `TX_DS`: standby. -/
theorem State.runTail_sent (h0 : s.ctl.timedOut = false) (h1 : s.ctl.failed = false)
    (hm : s.ctl.t.getLsbD s.cfg.regMap.bMaxRt = false) (ht : s.ctl.t.getLsbD s.cfg.regMap.bTxDs = true) (hd : s.dlyCnt = 0) :
    s.runTail = { s.linkEnds 4 (s.standbyEvents 0) { s.rsp with ok := true, err := 0, byte := s.ctl.t } false false
        s.ctl.pollCnt s.ctl.t with
      ctl.seq := s.ctl.seq + 11 } := by
  rw [State.runTail_pollExit tail (State.pollExit_sent hm ht), State.runToEnd_all hb,
    State.perform_standbyItems (by simpa using hf) (by rfl)]
  simp [State.linkEnds]
  simp [State.did, State.bus, State.complete, State.ends, Response.finish, State.setLines, State.xEvents, State.frameEvents,
    Response.linkResult, State.standbyEvents]
  simp [State.rx, h0, hd, h1]

/-- R202: the limit: standby. -/
theorem State.runTail_timedOut (h1 : s.ctl.failed = false) (hm : s.ctl.t.getLsbD s.cfg.regMap.bMaxRt = false)
    (ht : s.ctl.t.getLsbD s.cfg.regMap.bTxDs = false) (hl : s.cfg.pollLimit = s.ctl.pollCnt) (hk : s.ctl.pollCnt ≠ 0)
    (hd : s.dlyCnt = 0) :
    s.runTail = { s.linkEnds 4 (s.standbyEvents 0)
        { s.rsp with ok := false, err := 3, sticky := s.rsp.sticky ||| 0x08, byte := s.ctl.t } false true s.ctl.pollCnt
        s.ctl.t with
      ctl.seq := s.ctl.seq + 11 } := by
  have set : ∀ u : State, u.transfer .setTimedOut = { u with ctl.timedOut := true } := fun _ => rfl
  rw [State.runTail_pollExit tail (State.pollExit_limit hm ht hl hk), State.runToEnd_all hb]
  simp only [State.perform_set, set]
  rw [State.perform_standbyItems (by simpa using hf) (by rfl)]
  simp [State.linkEnds]
  simp [State.did, State.bus, State.complete, State.ends, Response.finish, State.setLines, State.xEvents, State.frameEvents,
    Response.linkResult, State.standbyEvents, Response.raise, Kind.code, Kind.sticky]
  simp [State.rx, hd, h1, bit]

omit hf

/-- R202: no flag: the delay before the next poll. -/
theorem State.runTail_again (hm : s.ctl.t.getLsbD s.cfg.regMap.bMaxRt = false)
    (ht : s.ctl.t.getLsbD s.cfg.regMap.bTxDs = false) (hl : s.cfg.pollLimit ≠ s.ctl.pollCnt) :
    s.runTail = { s.did 0 [.delayMs 100] with
      dlyCnt := msCycles s.cfg 100
      ctl := { s.ctl with
        seq := s.ctl.seq + 1
        todo := .set .delayDone :: pollItems s.cfg.regMap
        tail := .pollBranch } } := by
  rw [State.runTail_pollAgain tail (State.pollExit_none hm ht hl), State.pollAgain, State.runItems_all (by simpa using hb)]
  simp [State.micro_delayMs, Config.tPollMs]
  simp [State.did, State.bus]

end ends

end Sys2Proof.Machine
end

