-- ==== Sys2Proof/Laws/Cut.lean ====
section
/-! SUPPORT. A step cut after some of its micro-operations (R15): the budget, the pins and what is still to do make no difference to
a micro-operation, and what a cut run leaves is the rest of its sequence. -/

namespace Sys2Proof.Machine

open Sys2Proof

/-- The same state with another budget, other levels on the input pins, and other items still to do. -/
def State.rescheduled (b : Option Nat) (is : List Item) (pins : Inputs) (s : State) : State :=
  { s with budget := b, inp := pins, ctl.todo := is }

section commutes

variable (b : Option Nat) (is : List Item) (pins : Inputs) (s : State)

@[simp] theorem State.rescheduled_twice (b' : Option Nat) (is' : List Item) (pins' : Inputs) :
    (s.rescheduled b' is' pins').rescheduled b is pins = s.rescheduled b is pins := rfl

theorem State.micro_rescheduled (m : MicroOp) :
    (s.rescheduled b is pins).micro m = (s.micro m).rescheduled b is pins := by
  cases m
  case dir l => simp only [State.micro, State.dir, State.followPins, State.rescheduled]; split <;> rfl
  case lvl l v => simp only [State.micro, State.lvl, State.followPins, State.rescheduled]; split <;> rfl
  case xfer src keep => cases src <;> rfl
  all_goals rfl

theorem State.transfer_rescheduled (t : Transfer) :
    (s.rescheduled b is pins).transfer t = (s.transfer t).rescheduled b is pins := by
  cases t <;> rfl

theorem State.perform_rescheduled (items : List Item) :
    (s.rescheduled b is pins).perform items = (s.perform items).rescheduled b is pins := by
  induction items generalizing s with
  | nil => rfl
  | cons x items ih =>
    cases x with
    | op m => rw [State.perform_op, State.micro_rescheduled, ih, State.perform_op]
    | set t => rw [State.perform_set, State.transfer_rescheduled, ih, State.perform_set]

end commutes

/-- A run with k steps left performs a first part of its items: all of them when k is enough, else k micro-operations, and the
rest, which begins with the next one, stays to do. -/
theorem State.runItems_cut (items : List Item) (k : Nat) (is : List Item) (pins : Inputs) (s : State) :
    ∃ done rest, items = done ++ rest ∧
      (s.rescheduled (some k) is pins).runItems items =
        (s.perform done).rescheduled (some (k - microOps items)) rest pins ∧
      ((rest = [] ∧ microOps items ≤ k) ∨ (rest ≠ [] ∧ k < microOps items ∧ microOps done = k)) := by
  induction items generalizing s k with
  | nil => exact ⟨[], [], rfl, rfl, .inl ⟨rfl, Nat.zero_le _⟩⟩
  | cons x items ih =>
    cases x with
    | set t =>
      obtain ⟨done, rest, split, run, left⟩ := ih k (s.transfer t)
      refine ⟨.set t :: done, rest, by rw [split]; rfl, ?_, left⟩
      rw [State.runItems, State.transfer_rescheduled]
      exact run
    | op m =>
      cases k with
      | zero => exact ⟨[], .op m :: items, rfl, by simp [State.runItems, State.rescheduled], .inr ⟨by simp, by simp [microOps]⟩⟩
      | succ k =>
        obtain ⟨done, rest, split, run, left⟩ := ih k (s.micro m)
        refine ⟨.op m :: done, rest, by rw [split]; rfl, ?_, ?_⟩
        · have next : (s.rescheduled (some (k + 1)) is pins).runItems (.op m :: items) =
              ((s.rescheduled (some k) is pins).micro m).runItems items := rfl
          rw [next, State.micro_rescheduled, run]
          simp [microOps]
        · simp only [microOps]
          exact left.imp (fun h => ⟨h.1, by omega⟩) (fun h => ⟨h.1, by omega, by omega⟩)

/-! ### How long a sequence is -/

@[simp] theorem microOps_append (a b : List Item) : microOps (a ++ b) = microOps a + microOps b := by
  induction a with
  | nil => simp [microOps]
  | cons x a ih => cases x <;> simp [microOps, ih, Nat.add_right_comm]

@[simp] theorem microOps_sends (bytes : List Byte) : microOps (bytes.map send) = bytes.length := by
  induction bytes with
  | nil => rfl
  | cons x bytes ih => simp [send, microOps, ih]

/-- R202: `RADIO.WRITE` has its first branch after this many micro-operations. -/
theorem microOps_radioWriteItems (m : RegMap) (bytes : List Byte) : microOps (radioWriteItems m bytes) = bytes.length + 14 := by
  simp only [radioWriteItems, wrPlItems, frame, microOps_append, microOps_sends, microOps, send, modeTxItems, memWriteCache, waitUs,
    pollItems, memRead, List.cons_append, List.replicate, receive, List.nil_append]

end Sys2Proof.Machine
end

