-- ==== Sys2Proof/Laws/Framing.lean ====
section
/-! SUPPORT. The frame discipline (R11, R303) along a sequence: a sequence that fits what the trace has reached still fits after any
number of its items, so a state cut anywhere inside it is framed. -/

namespace Sys2Proof.Machine.Framing

open Sys2Proof Sys2Proof.Machine

/-- What the trace has reached, and that the items `is` and then the tail fit it. -/
def Fits (is : List Item) (s : State) : Prop :=
  ∃ p, Phase.scan .fresh s.trace = some p ∧ s.lines.csnLvl = p.closed ∧ (s.handle.initDone = true → p ≠ .fresh) ∧
    ∃ q, p.items is = some q ∧ tailFits q s.ctl.tail = true

theorem items_cons (p : Phase) (i is) : p.items (i :: is) = (p.item i).bind (fun p => p.items is) := by
  simp [Phase.items, List.foldlM_cons]

theorem scan_append (t es p) : Phase.scan p (t ++ es) = (Phase.scan p t).bind (fun p => Phase.scan p es) := by
  simp [Phase.scan, List.foldlM_append]

/-- A micro-operation records one event; where the phases allow the micro-operation they allow the event, and only a move of
CSN moves the level. -/
theorem micro_event (m : MicroOp) (s : State) : ∃ e, (s.micro m).trace = s.trace ++ [e] ∧ (s.micro m).handle = s.handle ∧ (s.micro m).ctl.tail = s.ctl.tail ∧
   (∀ p r : Phase, p.item (.op m) = some r → p.event e = some r ∧ ((s.micro m).lines.csnLvl = if e = .lvl .csn true then true else if e = .lvl .csn false then false else s.lines.csnLvl)) := by
  cases m with
  | dir l => refine ⟨.dir l, by simp [State.micro, State.dir, State.followPins]; split <;> rfl, by simp, by simp, fun p r h => ⟨?_, by cases l <;> simp [State.micro, State.dir, Lines.setOut]⟩⟩; cases p <;> simpa [Phase.item] using h
  | lvl l v => refine ⟨.lvl l v, by simp [State.micro, State.lvl, State.followPins]; split <;> rfl, by simp, by simp, fun p r h => ⟨?_, by cases l <;> cases v <;> simp [State.micro, State.lvl, Lines.setLvl]⟩⟩; cases p <;> simpa [Phase.item] using h
  | spiInit => refine ⟨.spiInit, by simp [State.micro, State.spiInit], by simp, by simp, fun p r h => ⟨?_, by simp [State.micro, State.spiInit]⟩⟩; cases p <;> simpa [Phase.item] using h
  | delayUs l => refine ⟨.delayUs l, by simp [State.micro, State.delayUs], by simp, by simp, fun p r h => ⟨?_, by simp [State.micro, State.delayUs]⟩⟩; cases p <;> simpa [Phase.item] using h
  | delayMs l => refine ⟨.delayMs l, by simp [State.micro, State.delayMs], by simp, by simp, fun p r h => ⟨?_, by simp [State.micro, State.delayMs]⟩⟩; cases p <;> simpa [Phase.item] using h
  | xfer src keep =>
    refine ⟨.xfer (s.srcByte src) (State.incoming { s with ctl.seq := s.ctl.seq + 1 } (s.srcByte src)), ?_, by simp, by simp, fun p r h => ⟨?_, by simp [State.micro, State.xfer]⟩⟩
    · simp [State.micro, State.xfer]; cases src <;> simp [State.srcByte]
    · cases src <;> cases p <;> simp_all [Phase.item, Phase.event, State.srcByte]

/-- A register transfer the phases allow keeps the rest fitting. -/
theorem fits_transfer {t is} {s : State} (h : Fits (.set t :: is) s) : Fits is (s.transfer t) := by
  obtain ⟨p, h1, h2, h3, q, h4, h5⟩ := h
  rw [items_cons] at h4
  have hp : p.item (.set t) = some p ∧ (t = .initDone → p ≠ .fresh) := by
    cases p <;> cases t <;> simp_all [Phase.item]
  rw [hp.1] at h4
  refine ⟨p, ?_, ?_, ?_, q, h4, ?_⟩
  · rw [← h1]; cases t <;> rfl
  · rw [← h2]; cases t <;> rfl
  · intro hi
    by_cases ht : t = .initDone
    · exact hp.2 ht
    · apply h3; rw [← hi]; cases t <;> first | rfl | exact absurd rfl ht
  · rw [← h5]; cases t <;> rfl

/-- So does a micro-operation. -/
theorem fits_micro {m is} {s : State} (h : Fits (.op m :: is) s) : Fits is (s.micro m) := by
  obtain ⟨p, h1, h2, h3, q, h4, h5⟩ := h
  rw [items_cons] at h4
  cases hr : p.item (.op m) with
  | none => rw [hr] at h4; cases h4
  | some r =>
    rw [hr] at h4
    obtain ⟨e, a1, a2, a3, a4⟩ := micro_event m s
    obtain ⟨b1, b2⟩ := a4 p r hr
    refine ⟨r, ?_, ?_, ?_, q, h4, by rw [a3]; exact h5⟩
    · rw [a1, scan_append, h1]; simp [Phase.scan, b1]
    · rw [b2, h2]
      cases e with
      | lvl l v => cases l <;> cases v <;> cases p <;> simp_all [Phase.event, Phase.closed] <;> cases b1 <;> rfl
      | dir l => cases p <;> simp_all [Phase.event, Phase.closed]  <;> cases b1 <;> rfl
      | xfer a b =>
        cases p <;> simp_all [Phase.event, Phase.closed]
        all_goals first | (cases b1; rfl) | (obtain ⟨c1, c2⟩ := b1; subst c2; rfl)
      | spiInit => cases p <;> simp_all [Phase.event, Phase.closed]  <;> cases b1 <;> rfl
      | delayUs n => cases p <;> simp_all [Phase.event, Phase.closed]  <;> cases b1 <;> rfl
      | delayMs n => cases p <;> simp_all [Phase.event, Phase.closed]  <;> cases b1 <;> rfl
    · rw [a2]; intro hi; have := h3 hi
      cases e with
      | lvl l v => cases l <;> cases v <;> cases p <;> simp_all [Phase.event, Phase.closed] <;> cases b1 <;> simp
      | dir l => cases p <;> simp_all [Phase.event, Phase.closed]  <;> cases b1 <;> simp
      | xfer a b =>
        cases p <;> simp_all [Phase.event, Phase.closed]
        all_goals first | (cases b1; simp) | (obtain ⟨c1, c2⟩ := b1; subst c2; simp)
      | spiInit => cases p <;> simp_all [Phase.event, Phase.closed]  <;> cases b1 <;> simp
      | delayUs n => cases p <;> simp_all [Phase.event, Phase.closed]  <;> cases b1 <;> simp
      | delayMs n => cases p <;> simp_all [Phase.event, Phase.closed]  <;> cases b1 <;> simp

/-- After any number of the items, the ones that are left fit. -/
theorem fits_runItems {is} {s : State} (h : Fits is s) : Fits (s.runItems is).ctl.todo (s.runItems is) := by
  induction is generalizing s with
  | nil => exact h
  | cons i is ih =>
    cases i with
    | set t => exact ih (fits_transfer h)
    | op m =>
      simp only [State.runItems]
      split
      · exact ih (fits_micro h)
      · exact h
      · exact ih (fits_micro (s := {s with budget := _}) h)

theorem framed_of_fits {s : State} (h : Fits s.ctl.todo s) (hb : s.ctl.busy = true) : s.Framed := by
  obtain ⟨p, h1, h2, h3, q, h4, h5⟩ := h
  refine ⟨p, h1, h2, h3, ?_⟩
  rw [if_pos hb]; exact ⟨q, h4, h5⟩

theorem runItems_busy (is) (s : State) : (s.runItems is).ctl.busy = s.ctl.busy := by
  induction is generalizing s with
  | nil => rfl
  | cons i is ih =>
    cases i with
    | set t => simp only [State.runItems]; rw [ih]; cases t <;> rfl
    | op m =>
      simp only [State.runItems]
      split
      · rw [ih]; cases m <;> simp
      · rfl
      · rw [ih]; cases m <;> simp

theorem runItems_tail (is) (s : State) : (s.runItems is).ctl.tail = s.ctl.tail := by
  induction is generalizing s with
  | nil => rfl
  | cons i is ih =>
    cases i with
    | set t => simp only [State.runItems]; rw [ih]; cases t <;> rfl
    | op m =>
      simp only [State.runItems]
      split
      · rw [ih]; cases m <;> simp
      · rfl
      · rw [ih]; cases m <;> simp

theorem fits_of_outside {s : State} {k is} (h : ∃ p, Phase.scan .fresh s.trace = some p ∧ s.lines.csnLvl = p.closed ∧ (s.handle.initDone = true → p ≠ .fresh) ∧ p = .outside) (hi : ∃ q, Phase.items .outside is = some q ∧ tailFits q k = true) : Fits is { s with ctl.tail := k } := by
  obtain ⟨p, h1, h2, h3, rfl⟩ := h
  obtain ⟨q, a, b⟩ := hi
  exact ⟨.outside, h1, h2, h3, q, a, b⟩

end Sys2Proof.Machine.Framing
end

