-- ==== Sys2Proof/Laws/PerInstr.lean ====
section
/-! SUPPORT. Statements about every instruction as syntax, one lemma per constructor: the encoder puts an instruction into the code
space it belongs to, host operations on an assigned operation code (R95), wire commands as a frame with a known command byte (R86). -/

namespace Sys2Proof.Laws.CodeSpace

open Sys2Proof Sys2Proof.Machine

/-- R85, R92, R95: a host operation is encoded as a command with an assigned code, a wire command as a frame that opens with a
command byte and then carries its data bytes. -/
def Statement (i : Instr) : Prop :=
  match encode i with
  | .host c => isHostOp i = true ∧ decodeHost c ≠ .illegalOp c.op
  | .wire bytes => isHostOp i = false ∧ ∃ b data, bytes = b :: data ∧ decodeWire b ≠ none

theorem rRegister (a : RegAddr) (data : List Byte) : Statement (.rRegister a data) :=
  ⟨rfl, _, _, rfl, by revert a; decide⟩

theorem wRegister (a : RegAddr) (data : List Byte) : Statement (.wRegister a data) :=
  ⟨rfl, _, _, rfl, by revert a; decide⟩

theorem rRxPayload (data : List Byte) : Statement (.rRxPayload data) :=
  ⟨rfl, _, _, rfl, by decide⟩

theorem wTxPayload (data : List Byte) : Statement (.wTxPayload data) :=
  ⟨rfl, _, _, rfl, by decide⟩

theorem flushTx (data : List Byte) : Statement (.flushTx data) :=
  ⟨rfl, _, _, rfl, by decide⟩

theorem flushRx (data : List Byte) : Statement (.flushRx data) :=
  ⟨rfl, _, _, rfl, by decide⟩

theorem spiInitm : Statement .spiInitm :=
  ⟨rfl, Decoded.noConfusion⟩

theorem spiTx (byte : Byte) : Statement (.spiTx byte) :=
  ⟨rfl, Decoded.noConfusion⟩

theorem spiRx : Statement .spiRx :=
  ⟨rfl, Decoded.noConfusion⟩

theorem spiWrbuf (n : Len) (buf : Buf) : Statement (.spiWrbuf n buf) :=
  ⟨rfl, Decoded.noConfusion⟩

theorem spiRdbuf (n : Len) : Statement (.spiRdbuf n) :=
  ⟨rfl, Decoded.noConfusion⟩

theorem nrfRdreg (reg : Byte) (n : Len) : Statement (.nrfRdreg reg n) :=
  ⟨rfl, Decoded.noConfusion⟩

theorem nrfWrreg (reg : Byte) (n : Len) (buf : Buf) : Statement (.nrfWrreg reg n buf) :=
  ⟨rfl, Decoded.noConfusion⟩

theorem nrfStatus : Statement .nrfStatus :=
  ⟨rfl, Decoded.noConfusion⟩

theorem nrfClrstatus : Statement .nrfClrstatus :=
  ⟨rfl, Decoded.noConfusion⟩

theorem nrfSetrf (rate : Byte) (power : Byte) (lna : Byte) : Statement (.nrfSetrf rate power lna) :=
  ⟨rfl, Decoded.noConfusion⟩

theorem nrfSetch (frequency : Byte) : Statement (.nrfSetch frequency) :=
  ⟨rfl, Decoded.noConfusion⟩

theorem nrfSetretr (count : Byte) (delay : Byte) : Statement (.nrfSetretr count delay) :=
  ⟨rfl, Decoded.noConfusion⟩

theorem nrfSetpw (pipe : Byte) (size : Byte) : Statement (.nrfSetpw pipe size) :=
  ⟨rfl, Decoded.noConfusion⟩

theorem nrfDispipe (pipe : Byte) : Statement (.nrfDispipe pipe) :=
  ⟨rfl, Decoded.noConfusion⟩

theorem nrfSetrxaddr (pipe : Byte) (address : Buf) : Statement (.nrfSetrxaddr pipe address) :=
  ⟨rfl, Decoded.noConfusion⟩

theorem nrfSettxaddr (address : Buf) : Statement (.nrfSettxaddr address) :=
  ⟨rfl, Decoded.noConfusion⟩

theorem nrfInit (ce : Byte) (csn : Byte) : Statement (.nrfInit ce csn) :=
  ⟨rfl, Decoded.noConfusion⟩

theorem nrfPwrup : Statement .nrfPwrup :=
  ⟨rfl, Decoded.noConfusion⟩

theorem nrfPwrdn : Statement .nrfPwrdn :=
  ⟨rfl, Decoded.noConfusion⟩

theorem nrfModerx : Statement .nrfModerx :=
  ⟨rfl, Decoded.noConfusion⟩

theorem nrfModetx : Statement .nrfModetx :=
  ⟨rfl, Decoded.noConfusion⟩

theorem nrfStandby : Statement .nrfStandby :=
  ⟨rfl, Decoded.noConfusion⟩

theorem nrfFlushtx : Statement .nrfFlushtx :=
  ⟨rfl, Decoded.noConfusion⟩

theorem nrfFlushrx : Statement .nrfFlushrx :=
  ⟨rfl, Decoded.noConfusion⟩

theorem nrfRxempty : Statement .nrfRxempty :=
  ⟨rfl, Decoded.noConfusion⟩

theorem nrfRxfull : Statement .nrfRxfull :=
  ⟨rfl, Decoded.noConfusion⟩

theorem nrfTxempty : Statement .nrfTxempty :=
  ⟨rfl, Decoded.noConfusion⟩

theorem nrfTxfull : Statement .nrfTxfull :=
  ⟨rfl, Decoded.noConfusion⟩

theorem nrfRdpl (n : Len) : Statement (.nrfRdpl n) :=
  ⟨rfl, Decoded.noConfusion⟩

theorem nrfWrpl (n : Len) (buf : Buf) : Statement (.nrfWrpl n buf) :=
  ⟨rfl, Decoded.noConfusion⟩

theorem radioInit (ce : Byte) (csn : Byte) : Statement (.radioInit ce csn) :=
  ⟨rfl, Decoded.noConfusion⟩

theorem radioWrite (n : Len) (payload : Buf) : Statement (.radioWrite n payload) :=
  ⟨rfl, Decoded.noConfusion⟩

theorem radioRead (n : Len) : Statement (.radioRead n) :=
  ⟨rfl, Decoded.noConfusion⟩

theorem radioHaspl : Statement .radioHaspl :=
  ⟨rfl, Decoded.noConfusion⟩

end Sys2Proof.Laws.CodeSpace
end

