-- ==== Sys2Proof/Tests/Slice0.lean ====
section
/-! SUPPORT. The model's own tests. Expected words and results are those of spec/95_test_vectors.md (the vector is named), of the
encoding tables of spec/30_encoding.md, or of the tables of spec/10_state.md and spec/46_chip_environment.md. Then, for each
statement with hypotheses, a state and operands that meet them. -/

namespace Sys2Proof.Tests

open Sys2Proof Sys2Proof.Machine

/-! ### Helpers -/

/-- A buffer that begins with these bytes. -/
def bufOf (bytes : List Byte) : Buf := fillBuf (Vector.replicate 32 0) bytes

/-- 95_test_vectors.md section 2: the state in which the vectors start, with the bytes the oracle presents. -/
def ready (miso : List Byte) : State :=
  { State.reset with
    handle := { ceId := 9, csnId := 10, configCache := 0x0E, addrWidth := 5, txAddrCache := Vector.replicate 5 0, initDone := true }
    lines := { ceDir := true, csnDir := true, ceLvl := false, csnLvl := true }
    spi := { State.resetSpi with en := true }
    miso := miso }

/-- The same block on the reference chip at power-on. -/
def onChip : State := { ready [] with far := .refChip, trace := [.lvl .csn true] }

/-- After V2: the master is enabled and nothing else. -/
def enabled (miso : List Byte) : State := { State.reset with spi := { State.resetSpi with en := true }, miso := miso }

/-- Inside the delay of the poll loop, after one poll. -/
def pausing (miso : List Byte) : State :=
  { ready miso with
    trace := [.lvl .csn true]
    dlyCnt := 1600000
    ctl := { State.resetControl with
      busy := true
      pollCnt := 1
      todo := .set .delayDone :: pollItems RegMap.standard
      tail := .pollBranch } }

/-- Whether an outcome is a next state, and one with this property. -/
def nextWith (o : Host.Outcome State Fault Refusal) (p : State → Bool) : Bool :=
  match o with
  | .next s => p s
  | .fault _ => false
  | .refused _ => false

/-- The next state of an outcome that has one. -/
def after (o : Host.Outcome State Fault Refusal) : State :=
  match o with
  | .next s => s
  | .fault _ => State.reset
  | .refused _ => State.reset

theorem next_after {o : Host.Outcome State Fault Refusal} (h : nextWith o (fun _ => true) = true) : o = .next (after o) := by
  cases o with
  | next s => rfl
  | fault r => exact absurd h Bool.false_ne_true
  | refused r => exact absurd h Bool.false_ne_true

/-- R10: a frame of exchanges, sent and received bytes in pairs. -/
def frameOf (pairs : List (Byte × Byte)) : List Event :=
  .lvl .csn false :: (pairs.map (fun p => Event.xfer p.1 p.2) ++ [.lvl .csn true])

/-- Section 2: "Fault K": an empty trace, `rsp_ok` = 0, `rsp_err` = K, `err_sticky[K]` set. -/
def faultOf (k : Nat) (s : State) : Bool :=
  decide (s.trace = []) && !s.rsp.ok && decide (s.rsp.err.toNat = k) && decide (s.rsp.sticky = bit k) && !s.ctl.busy

/-! ### WellFormed: each check refuses -/

theorem test_wellFormed_lengths :
    Instr.wellFormed (.spiWrbuf 33 (bufOf [])) = false ∧ Instr.wellFormed (.spiRdbuf 33) = false ∧
    Instr.wellFormed (.nrfRdreg 0x0A 33) = false ∧ Instr.wellFormed (.nrfWrreg 0x0A 33 (bufOf [])) = false ∧
    Instr.wellFormed (.nrfRdpl 33) = false ∧ Instr.wellFormed (.nrfWrpl 63 (bufOf [])) = false ∧
    Instr.wellFormed (.radioWrite 33 (bufOf [])) = false ∧ Instr.wellFormed (.radioRead 33) = false := by decide

theorem test_wellFormed_registers :
    Instr.wellFormed (.nrfRdreg 0x20 1) = false ∧ Instr.wellFormed (.nrfWrreg 0x20 1 (bufOf [])) = false ∧
    Instr.wellFormed (.nrfRdreg 0x1F 32) = true := by decide

theorem test_wellFormed_operands :
    Instr.wellFormed (.nrfSetrf 2 0 0) = false ∧ Instr.wellFormed (.nrfSetrf 0 4 0) = false ∧
    Instr.wellFormed (.nrfSetrf 0 0 2) = false ∧ Instr.wellFormed (.nrfSetpw 6 1) = false ∧
    Instr.wellFormed (.nrfSetpw 0 33) = false ∧ Instr.wellFormed (.nrfDispipe 6) = false ∧
    Instr.wellFormed (.nrfSetrxaddr 6 (bufOf [])) = false := by decide

theorem test_wellFormed_frames :
    Instr.wellFormed (.rRegister 0 (List.replicate 33 0)) = false ∧ Instr.wellFormed (.wRegister 0 (List.replicate 33 0)) = false ∧
    Instr.wellFormed (.rRxPayload (List.replicate 33 0)) = false ∧ Instr.wellFormed (.wTxPayload (List.replicate 33 0)) = false ∧
    Instr.wellFormed (.flushTx [0]) = false ∧ Instr.wellFormed (.flushRx [0]) = false := by decide

/-! ### Decoding: a word for every constructor, written out from R86, R87 and R95 -/

/-- Section 2.8. -/
theorem test_decode_wire :
    decode (.wire [0b00000111, 0xFF]) = .instr (.rRegister 0x07 [0xFF]) ∧
    decode (.wire [0b00011111, 0xFF]) = .instr (.rRegister 0x1F [0xFF]) ∧
    decode (.wire [0b00100111, 0x70]) = .instr (.wRegister 0x07 [0x70]) ∧
    decode (.wire [0b00111111, 0xAA]) = .instr (.wRegister 0x1F [0xAA]) ∧
    decode (.wire [0b01100001, 0xFF]) = .instr (.rRxPayload [0xFF]) ∧
    decode (.wire [0b10100000, 0x50]) = .instr (.wTxPayload [0x50]) ∧
    decode (.wire [0b11100001]) = .instr (.flushTx []) ∧ decode (.wire [0b11100010]) = .instr (.flushRx []) := by
  decide +kernel

/-- Section 2.8, the unknown bytes. -/
theorem test_decode_wire_unknown :
    ([0x40, 0x5F, 0x60, 0x62, 0x80, 0xA1, 0xE0, 0xE3, 0xFF] : List Byte).all (fun b => (decodeWire b).isNone) = true ∧
    decode (.wire []) = .emptyFrame := by
  decide +kernel

/-- A command with every operand port different. -/
def ports (op : OpCode) : HostCmd := { op := op, a0 := 3, a1 := 2, a2 := 1, len := 5, buf := bufOf [0x50, 0x49] }

theorem test_decode_spi :
    decode (.host (ports 0b000000)) = .instr .spiInitm ∧ decode (.host (ports 0b000001)) = .instr (.spiTx 3) ∧
    decode (.host (ports 0b000010)) = .instr .spiRx ∧
    decode (.host (ports 0b000011)) = .instr (.spiWrbuf 5 (bufOf [0x50, 0x49])) ∧
    decode (.host (ports 0b000100)) = .instr (.spiRdbuf 5) := by
  decide +kernel

theorem test_decode_codec :
    decode (.host (ports 0b010000)) = .instr (.nrfRdreg 3 5) ∧
    decode (.host (ports 0b010001)) = .instr (.nrfWrreg 3 5 (bufOf [0x50, 0x49])) ∧
    decode (.host (ports 0b010010)) = .instr .nrfStatus ∧ decode (.host (ports 0b010011)) = .instr .nrfClrstatus ∧
    decode (.host (ports 0b010100)) = .instr (.nrfSetrf 3 2 1) ∧ decode (.host (ports 0b010101)) = .instr (.nrfSetch 3) ∧
    decode (.host (ports 0b010110)) = .instr (.nrfSetretr 3 2) ∧ decode (.host (ports 0b010111)) = .instr (.nrfSetpw 3 2) ∧
    decode (.host (ports 0b011000)) = .instr (.nrfDispipe 3) ∧
    decode (.host (ports 0b011001)) = .instr (.nrfSetrxaddr 3 (bufOf [0x50, 0x49])) ∧
    decode (.host (ports 0b011010)) = .instr (.nrfSettxaddr (bufOf [0x50, 0x49])) := by
  decide +kernel

theorem test_decode_mode :
    decode (.host (ports 0b100000)) = .instr (.nrfInit 3 2) ∧ decode (.host (ports 0b100001)) = .instr .nrfPwrup ∧
    decode (.host (ports 0b100010)) = .instr .nrfPwrdn ∧ decode (.host (ports 0b100011)) = .instr .nrfModerx ∧
    decode (.host (ports 0b100100)) = .instr .nrfModetx ∧ decode (.host (ports 0b100101)) = .instr .nrfStandby := by
  decide +kernel

theorem test_decode_fifo :
    decode (.host (ports 0b101000)) = .instr .nrfFlushtx ∧ decode (.host (ports 0b101001)) = .instr .nrfFlushrx ∧
    decode (.host (ports 0b101010)) = .instr .nrfRxempty ∧ decode (.host (ports 0b101011)) = .instr .nrfRxfull ∧
    decode (.host (ports 0b101100)) = .instr .nrfTxempty ∧ decode (.host (ports 0b101101)) = .instr .nrfTxfull ∧
    decode (.host (ports 0b101110)) = .instr (.nrfRdpl 5) ∧
    decode (.host (ports 0b101111)) = .instr (.nrfWrpl 5 (bufOf [0x50, 0x49])) := by
  decide +kernel

theorem test_decode_radio :
    decode (.host (ports 0b110000)) = .instr (.radioInit 3 2) ∧
    decode (.host (ports 0b110001)) = .instr (.radioWrite 5 (bufOf [0x50, 0x49])) ∧
    decode (.host (ports 0b110010)) = .instr (.radioRead 5) ∧ decode (.host (ports 0b110011)) = .instr .radioHaspl := by
  decide +kernel

/-- V95: the 30 reserved codes. -/
theorem test_decode_reserved :
    ((List.range 64).filter fun n => decide (decodeHost (HostCmd.ofOp (BitVec.ofNat 6 n)) = .illegalOp (BitVec.ofNat 6 n))) =
      [0x05, 0x06, 0x07, 0x08, 0x09, 0x0A, 0x0B, 0x0C, 0x0D, 0x0E, 0x0F, 0x1B, 0x1C, 0x1D, 0x1E, 0x1F, 0x26, 0x27, 0x34, 0x35,
        0x36, 0x37, 0x38, 0x39, 0x3A, 0x3B, 0x3C, 0x3D, 0x3E, 0x3F] := by
  decide +kernel

theorem test_decodeTableWord :
    decodeTableWord 6 0x31 = some (.radioWrite 0 (bufOf [])) ∧ decodeTableWord 8 0x31 = some (.radioWrite 0 (bufOf [])) ∧
    decodeTableWord 8 0xE1 = some (.flushTx []) ∧ decodeTableWord 8 0x3F = some (.wRegister 0x1F [0]) ∧
    decodeTableWord 8 0x40 = none ∧ decodeTableWord 6 0x05 = none := by
  decide +kernel

/-- The very next step runs the instruction placed by `withFetchWord`. -/
theorem test_withFetchWord :
    nextWith (step (State.reset.withFetchWord 6 0x20)) (fun t => t.handle.initDone && decide (t.trace.length = 18)) = true ∧
    nextWith (step (State.reset.withFetchWord 8 0xE1)) (fun t => decide (t.wireOut = [0x0E])) = true := by
  decide +kernel

/-! ### The SPI master (section 2.1) -/

theorem test_spi_needs_enable : nextWith (exec (.spiTx 0x55) State.reset) (faultOf 4) = true := by decide +kernel  -- V1

theorem test_spiInitm :  -- V2
    nextWith (exec .spiInitm State.reset)
      (fun t => t.spi.en && t.rsp.ok && !t.handle.initDone && decide (t.trace = [.spiInit])) = true := by
  decide +kernel

/-- V10: repeated, with the count of the last exchange still standing. -/
theorem test_spiInitm_again :
    let on : Spi := { en := true, sr := 3, rxd := 3, cnt := 8, busy := false, sck := false }
    nextWith (exec .spiInitm { ready [] with spi := on })
      (fun t => decide (t.trace = [.spiInit]) && decide (t.spi = on)) = true := by
  decide +kernel

theorem test_spiTx :  -- V3
    nextWith (exec (.spiTx 0xE1) (enabled [0x0E]))
      (fun t => decide (t.trace = [.xfer 0xE1 0x0E]) && t.rsp.ok && decide (t.rsp.byte = 0) && decide (t.spi.rxd = 0x0E)) = true := by
  decide +kernel

theorem test_spiRx :  -- V4
    nextWith (exec .spiRx (enabled [0x2A])) (fun t => decide (t.trace = [.xfer 0xFF 0x2A]) && decide (t.rsp.byte = 0x2A)) = true := by
  decide +kernel

theorem test_spiRx_dummy :  -- V9
    nextWith (exec .spiRx { enabled [0x2A] with cfg := { Config.standard with dummy := 0 } })
      (fun t => decide (t.trace = [.xfer 0x00 0x2A]) && decide (t.rsp.byte = 0x2A)) = true := by
  decide +kernel

theorem test_spiWrbuf :  -- V7
    nextWith (exec (.spiWrbuf 3 (bufOf [0xA0, 0x50, 0x49])) (enabled [1, 2, 3]))
      (fun t => decide (t.trace = [.xfer 0xA0 1, .xfer 0x50 2, .xfer 0x49 3])) = true := by
  decide +kernel

theorem test_spiWrbuf_bounds :  -- V5, V6
    nextWith (exec (.spiWrbuf 0 (bufOf [])) (enabled [])) (fun t => t.rsp.ok && decide (t.trace = [])) = true ∧
    nextWith (exec (.spiWrbuf 33 (bufOf [])) (enabled [])) (faultOf 2) = true := by
  decide +kernel

theorem test_spiRdbuf :  -- V8
    nextWith (exec (.spiRdbuf 2) (enabled [0x50, 0x49]))
      (fun t => decide (t.trace = [.xfer 0xFF 0x50, .xfer 0xFF 0x49]) && decide (t.rsp.buf = bufOf [0x50, 0x49])) = true := by
  decide +kernel

/-- V11: the shift register after each of the eight falling edges, `mosi` before each of the eight rising edges. -/
theorem test_exchange_bits :
    let x : Spi := { State.resetSpi with en := true }
    (List.range 8).map (fun k => (((Spi.wireBits 0x0E).take (k + 1)).foldl Spi.clock (Spi.load 0xA5 x)).sr) =
      [0x4A, 0x94, 0x28, 0x50, 0xA1, 0x43, 0x87, 0x0E] ∧
    (List.range 8).map (fun k => (((Spi.wireBits 0x0E).take k).foldl Spi.clock (Spi.load 0xA5 x)).mosiPin) =
      [true, false, true, false, false, true, false, true].map Pin.level := by
  decide +kernel

/-- V11: `sck` is 0 before the first and after the last edge; each of the eight cycles rises and falls. -/
theorem test_exchange_clock :
    let x : Spi := { State.resetSpi with en := true }
    let before (k : Nat) : Spi := ((Spi.wireBits 0x0E).take k).foldl Spi.clock (Spi.load 0xA5 x)
    (∀ k < 8, (before k).sckPin = .level false ∧ (before k).rise.sckPin = .level true ∧
      (Spi.fall true (before k).rise).sckPin = .level false) ∧
    (x.exchange 0xA5 0x0E).sckPin = .level false ∧ State.reset.sckPin = .z ∧ State.reset.spi.mosiOut = false := by
  decide +kernel

/-! ### The register codec (section 2.3) -/

theorem test_nrfRdreg :  -- V21
    nextWith (exec (.nrfRdreg 0x00 1) (ready [0x0E, 0x0F]))
      (fun t => decide (t.trace = frameOf [(0x00, 0x0E), (0xFF, 0x0F)]) && decide (t.handle.configCache = 0x0F) &&
        decide (t.rsp.byte = 0x0F)) = true := by
  decide +kernel

theorem test_nrfRdreg_bounds :  -- V22, V23, V24
    nextWith (exec (.nrfRdreg 0x1F 0) (ready [0x0E])) (fun t => decide (t.trace = frameOf [(0x1F, 0x0E)]) && t.rsp.ok) = true ∧
    nextWith (exec (.nrfRdreg 0x20 1) (ready [])) (faultOf 2) = true ∧
    nextWith (exec (.nrfRdreg 0x0A 33) (ready [])) (faultOf 2) = true := by
  decide +kernel

theorem test_nrfRdreg_chip :  -- V25
    nextWith (exec (.nrfRdreg 0x0A 5) onChip) (fun t => decide (t.rsp.buf = bufOf [0xE7, 0xE7, 0xE7, 0xE7, 0xE7])) = true := by
  decide +kernel

theorem test_nrfWrreg :  -- V27, V29
    nextWith (exec (.nrfWrreg 0x00 1 (bufOf [0x0F])) (ready [1, 2]))
      (fun t => decide (t.trace = frameOf [(0x20, 1), (0x0F, 2)]) && decide (t.handle.configCache = 0x0F)) = true ∧
    nextWith (exec (.nrfWrreg 0x1F 2 (bufOf [0xAA, 0x55])) (ready [1, 2, 3]))
      (fun t => decide (t.trace = frameOf [(0x3F, 1), (0xAA, 2), (0x55, 3)]) && t.rsp.ok) = true := by
  decide +kernel

theorem test_nrfStatus :  -- V32, V91
    nextWith (exec .nrfStatus (ready [0x40, 0x0E])) (fun t => decide (t.rsp.byte = 0x0E)) = true ∧
    nextWith (exec .nrfStatus State.reset) (faultOf 4) = true := by
  decide +kernel

theorem test_nrfClrstatus :  -- V33
    nextWith (exec .nrfClrstatus (ready [1, 2])) (fun t => decide (t.trace = frameOf [(0x27, 1), (0x70, 2)])) = true := by
  decide +kernel

theorem test_nrfSetrf :  -- V35, V36
    nextWith (exec (.nrfSetrf 1 3 1) (ready [1, 2])) (fun t => decide (t.trace = frameOf [(0x26, 1), (0x0F, 2)])) = true ∧
    nextWith (exec (.nrfSetrf 1 2 0) (ready [1, 2])) (fun t => decide (t.trace = frameOf [(0x26, 1), (0x0C, 2)])) = true := by
  decide +kernel

theorem test_nrfSetrf_bounds :  -- V37
    nextWith (exec (.nrfSetrf 2 0 0) (ready [])) (faultOf 2) = true ∧
    nextWith (exec (.nrfSetrf 0 4 0) (ready [])) (faultOf 2) = true ∧
    nextWith (exec (.nrfSetrf 0 0 2) (ready [])) (faultOf 2) = true := by
  decide +kernel

theorem test_nrfSetch :  -- V38, V39
    nextWith (exec (.nrfSetch 170) (ready [1, 2])) (fun t => decide (t.trace = frameOf [(0x25, 1), (0x2A, 2)])) = true ∧
    nextWith (exec (.nrfSetch 255) (ready [1, 2])) (fun t => decide (t.trace = frameOf [(0x25, 1), (0x7F, 2)])) = true := by
  decide +kernel

theorem test_nrfSetretr :  -- V41, S9
    nextWith (exec (.nrfSetretr 0x1A 0x25) (ready [1, 2])) (fun t => decide (t.trace = frameOf [(0x24, 1), (0x5A, 2)])) = true ∧
    nextWith (exec (.nrfSetretr 16 16) (ready [1, 2])) (fun t => decide (t.trace = frameOf [(0x24, 1), (0x00, 2)])) = true := by
  decide +kernel

theorem test_nrfSetpw :  -- V42, V43
    nextWith (exec (.nrfSetpw 5 1) (ready [1, 2])) (fun t => decide (t.trace = frameOf [(0x36, 1), (0x01, 2)])) = true ∧
    nextWith (exec (.nrfSetpw 6 1) (ready [])) (faultOf 2) = true ∧
    nextWith (exec (.nrfSetpw 9 40) State.reset) (faultOf 4) = true := by
  decide +kernel

theorem test_nrfDispipe :  -- V44
    nextWith (exec (.nrfDispipe 3) (ready [1, 2])) (fun t => decide (t.trace = frameOf [(0x34, 1), (0x00, 2)])) = true := by
  decide +kernel

theorem test_nrfSetrxaddr :  -- V46
    nextWith (exec (.nrfSetrxaddr 2 (bufOf [0xA7, 0x99])) (ready [1, 2, 3, 0x03, 5, 6]))
      (fun t => decide (t.trace =
        frameOf [(0x2C, 1), (0xA7, 2)] ++ frameOf [(0x02, 3), (0xFF, 0x03)] ++ frameOf [(0x22, 5), (0x07, 6)])) = true := by
  decide +kernel

theorem test_nrfSetrxaddr_width :  -- V48, V49, V50, V94
    nextWith (exec (.nrfSetrxaddr 6 (bufOf [])) (ready [])) (faultOf 2) = true ∧
    nextWith (exec (.nrfSetrxaddr 1 (bufOf [])) { ready [] with handle.addrWidth := 2 }) (faultOf 6) = true ∧
    nextWith (exec (.nrfSetrxaddr 4 (bufOf [0xC5])) { ready [1, 2, 3, 0x03, 5, 6] with handle.addrWidth := 2 })
      (fun t => decide (t.trace =
        frameOf [(0x2E, 1), (0xC5, 2)] ++ frameOf [(0x02, 3), (0xFF, 0x03)] ++ frameOf [(0x22, 5), (0x13, 6)])) = true := by
  decide +kernel

theorem test_nrfSettxaddr :  -- V51
    nextWith (exec (.nrfSettxaddr (bufOf [1, 2, 3, 4, 5]))
        { ready [0, 0, 0, 0, 0, 0, 0, 0, 0, 0] with handle.addrWidth := 4, handle.txAddrCache := Vector.replicate 5 0x31 })
      (fun t => decide (t.trace =
          frameOf [(0x30, 0), (1, 0), (2, 0), (3, 0), (4, 0)] ++ frameOf [(0x2A, 0), (1, 0), (2, 0), (3, 0), (4, 0)]) &&
        decide (t.handle.txAddrCache.toList = [1, 2, 3, 4, 0x31])) = true := by
  decide +kernel

theorem test_nrfSettxaddr_width :  -- V52
    ([1, 0, 2, 6, 255] : List Byte).all (fun w =>
      nextWith (exec (.nrfSettxaddr (bufOf [])) { ready [] with handle.addrWidth := w }) (faultOf 6)) = true := by
  decide +kernel

/-! ### The mode control (section 2.4) -/

theorem test_mode :
    (([(0x00, false), (0x0C, false), (0x0C, true), (0x0D, true), (0x0E, false), (0x0F, false), (0x0E, true), (0x0F, true),
        (0xFF, true), (0x02, true)] : List (Byte × Bool)).map fun p => modeOf RegMap.standard p.1 p.2) =
      [.powerDown, .powerDown, .powerDown, .powerDown, .standby, .standby, .tx, .rx, .rx, .tx] := by
  decide +kernel

theorem test_nrfInit :  -- V53
    nextWith (exec (.nrfInit 9 10) { State.reset with miso := [1, 2, 3, 0x0C, 5, 0x03] })
      (fun t => decide (t.trace = [.dir .ce, .dir .csn, .lvl .ce false, .lvl .csn true, .spiInit, .delayUs 1500]
          ++ frameOf [(0x20, 1), (0x0C, 2)] ++ frameOf [(0x00, 3), (0xFF, 0x0C)] ++ frameOf [(0x03, 5), (0xFF, 0x03)]) &&
        decide (t.handle = { ceId := 9, csnId := 10, configCache := 0x0C, addrWidth := 5, txAddrCache := Vector.replicate 5 0,
                             initDone := true }) && decide (t.mode = .powerDown)) = true := by
  decide +kernel

theorem test_nrfInit_noChip :  -- V54
    nextWith (exec (.nrfInit 0 0) { State.reset with miso := [0xFF, 0xFF, 0xFF, 0xFF, 0xFF, 0xFF] })
      (fun t => decide (t.handle.configCache = 0xFF) && decide (t.handle.addrWidth = 1) && decide (t.mode = .standby)) = true := by
  decide +kernel

theorem test_nrfPwrup :  -- V56
    nextWith (exec .nrfPwrup { ready [1, 2] with handle.configCache := 0x0C })
      (fun t => decide (t.trace = frameOf [(0x20, 1), (0x0E, 2)] ++ [.delayUs 1500]) && decide (t.mode = .standby)) = true := by
  decide +kernel

theorem test_nrfPwrdn :  -- V58
    nextWith (exec .nrfPwrdn { ready [1, 2] with handle.configCache := 0x0F, lines.ceLvl := true })
      (fun t => decide (t.trace = frameOf [(0x20, 1), (0x0D, 2)] ++ [.lvl .ce false]) && decide (t.mode = .powerDown)) = true := by
  decide +kernel

theorem test_nrfModerx :  -- V59
    nextWith (exec .nrfModerx (ready [1, 2]))
      (fun t => decide (t.trace = frameOf [(0x20, 1), (0x0F, 2)] ++ [.lvl .ce true, .delayUs 130]) && decide (t.mode = .rx)) = true := by
  decide +kernel

theorem test_nrfModetx :  -- R171
    nextWith (exec .nrfModetx { ready [1, 2] with handle.configCache := 0x0F })
      (fun t => decide (t.trace = frameOf [(0x20, 1), (0x0E, 2)] ++ [.lvl .ce true, .delayUs 150]) && decide (t.mode = .tx)) = true := by
  decide +kernel

theorem test_nrfStandby :  -- R172
    nextWith (exec .nrfStandby { ready [1, 2, 3, 4] with lines.ceLvl := true })
      (fun t => decide (t.trace = frameOf [(0x27, 1), (0x70, 2)] ++ [.lvl .ce false] ++ frameOf [(0xE1, 3)] ++ frameOf [(0xE2, 4)])
        && decide (t.mode = .standby)) = true := by
  decide +kernel

/-- V15 to V19. -/
theorem test_delays :
    usCycles { Config.standard with fClkHz := 16000000 } 130 = 2080 ∧
    usCycles { Config.standard with fClkHz := 16000000 } 1500 = 24000 ∧
    usCycles { Config.standard with fClkHz := 1000000 } 150 = 150 ∧
    usCycles { Config.standard with fClkHz := 7372800 } 130 = 959 ∧
    msCycles { Config.standard with fClkHz := 16000000 } 100 = 1600000 := by
  decide +kernel

/-! ### The FIFO controller (section 2.5) -/

theorem test_flushes :  -- V65, V66
    nextWith (exec .nrfFlushtx (ready [1])) (fun t => decide (t.trace = frameOf [(0xE1, 1)])) = true ∧
    nextWith (exec .nrfFlushrx (ready [1])) (fun t => decide (t.trace = frameOf [(0xE2, 1)])) = true := by
  decide +kernel

/-- V67 and the table after it, V90: the five tests for a FIFO-status byte. -/
def occupancy (f : Byte) : List Bool :=
  [Instr.nrfRxempty, .nrfRxfull, .nrfTxempty, .nrfTxfull, .radioHaspl].map fun i =>
    nextWith (exec i (ready [0x0E, f])) fun t =>
      t.rsp.ok && decide (t.rsp.byte = f) && decide (t.trace = frameOf [(0x17, 0x0E), (0xFF, f)])

theorem test_occupancy :
    occupancy 0x11 = [true, false, true, false, false] ∧ occupancy 0x12 = [false, true, true, false, true] ∧
    occupancy 0x21 = [true, false, false, true, false] ∧ occupancy 0xEE = [false, true, false, true, true] := by
  decide +kernel

theorem test_nrfRdpl :  -- V68
    nextWith (exec (.nrfRdpl 5) (ready [0x0E, 0x50, 0x49, 0x4E, 0x47, 0x21]))
      (fun t => decide (t.trace = frameOf [(0x61, 0x0E), (0xFF, 0x50), (0xFF, 0x49), (0xFF, 0x4E), (0xFF, 0x47), (0xFF, 0x21)]) &&
        decide (t.rsp.buf = bufOf [0x50, 0x49, 0x4E, 0x47, 0x21])) = true := by
  decide +kernel

theorem test_nrfWrpl :  -- V72, V71
    nextWith (exec (.nrfWrpl 2 (bufOf [0x50, 0x49, 0x4E])) (ready [1, 2, 3]))
      (fun t => decide (t.trace = frameOf [(0xA0, 1), (0x50, 2), (0x49, 3)])) = true ∧
    nextWith (exec (.nrfWrpl 63 (bufOf [])) (ready [])) (faultOf 2) = true := by
  decide +kernel

/-! ### The link sequencer (section 2.6) -/

/-- P1: on the reference chip at power-on; the pins are driven already, for their levels before that are open (R281). -/
theorem test_radioInit :
    nextWith (exec (.radioInit 9 10)
        { State.reset with far := .refChip, lines := { State.resetLines with ceDir := true, csnDir := true } })
      (fun t => decide (t.trace.length = 53) && decide (t.handle.configCache = 0x0E) && decide (t.handle.addrWidth = 5) &&
        decide (t.chip.regs =
          [(0x00, 0x0E), (0x20, 0x5A), (0x28, 0x2A), (0x30, 0x01), (0x88, 0x20), (0x90, 0x20)])) = true := by
  decide +kernel

/-- V75: success at the first poll, 30 events. -/
theorem test_radioWrite_sent :
    nextWith (exec (.radioWrite 5 (bufOf [0x50, 0x49, 0x4E, 0x47, 0x21]))
        (ready [0, 0, 0, 0, 0, 0, 0, 0, 0, 0x2E, 0, 0, 0, 0]))
      (fun t => decide (t.trace =
          frameOf [(0xA0, 0), (0x50, 0), (0x49, 0), (0x4E, 0), (0x47, 0), (0x21, 0)] ++ frameOf [(0x20, 0), (0x0E, 0)]
            ++ [.lvl .ce true, .delayUs 150, .lvl .ce false] ++ frameOf [(0x07, 0), (0xFF, 0x2E)]
            ++ frameOf [(0x27, 0), (0x70, 0)] ++ [.lvl .ce false] ++ frameOf [(0xE1, 0)] ++ frameOf [(0xE2, 0)]) &&
        t.rsp.ok && decide (t.rsp.err = 0) && decide (t.rsp.byte = 0x2E) && !t.ctl.busy) = true := by
  decide +kernel

/-- V78: both flags set is a failure; V76, V77, V81: what the second poll decides. -/
theorem test_radioWrite_polls :
    nextWith (exec (.radioWrite 0 (bufOf [])) (ready [0, 0, 0, 0, 0x3E, 0, 0, 0, 0, 0]))
      (fun t => !t.rsp.ok && decide (t.rsp.err = 1) && decide (t.rsp.sticky = 0)) = true ∧
    nextWith (step (pausing [0, 0x0E])) (fun t => t.ctl.busy && decide (t.ctl.pollCnt = 2)) = true ∧
    nextWith (step { pausing [0, 0x0E, 0, 0, 0, 0] with cfg := { Config.standard with pollLimit := 2 } })
      (fun t => !t.rsp.ok && decide (t.rsp.err = 3) && decide (t.rsp.sticky = 0x08) && decide (t.rsp.byte = 0x0E)) = true := by
  decide +kernel

theorem test_radioRead_empty :  -- V87
    nextWith (exec (.radioRead 5) (ready [1, 2, 3, 0x11]))
      (fun t => decide (t.trace = frameOf [(0x20, 1), (0x0F, 2)] ++ [.lvl .ce true, .delayUs 130] ++ frameOf [(0x17, 3), (0xFF, 0x11)])
        && !t.rsp.ok && decide (t.rsp.err = 0) && decide (t.mode = .rx) && decide (t.ctl.t = 0x11)) = true := by
  decide +kernel

theorem test_radioRead_payload :  -- V88
    nextWith (exec (.radioRead 2) (ready [1, 2, 3, 0x10, 5, 0x50, 0x49]))
      (fun t => decide (t.trace = frameOf [(0x20, 1), (0x0F, 2)] ++ [.lvl .ce true, .delayUs 130]
          ++ frameOf [(0x17, 3), (0xFF, 0x10)] ++ frameOf [(0x61, 5), (0xFF, 0x50), (0xFF, 0x49)])
        && t.rsp.ok && decide (t.rsp.buf = bufOf [0x50, 0x49])) = true := by
  decide +kernel

/-! ### The reference chip (R218 to R228, P2, P4) -/

theorem test_rRegister :  -- R218, R220, R224
    nextWith (exec (.rRegister 0x0B [0, 0]) State.reset) (fun t => decide (t.wireOut = [0x0E, 0xC2, 0xC2])) = true ∧
    nextWith (exec (.rRegister 0x17 [0]) State.reset) (fun t => decide (t.wireOut = [0x0E, 0x11])) = true := by
  decide +kernel

theorem test_wRegister :  -- R221: bit 7 of RF_CH is not stored; R222: a flag is cleared by writing 1
    nextWith (exec (.wRegister 0x05 [0xAA]) State.reset) (fun t => decide (t.chip.regs.read 0x28 = some 0x2A)) = true ∧
    nextWith (exec (.wRegister 0x07 [0x20]) { State.reset with chip := { State.powerOnChip with rxDr := true, txDs := true } })
      (fun t => t.chip.rxDr && !t.chip.txDs) = true := by
  decide +kernel

theorem test_payload_frames :  -- R225, R226, R228
    nextWith (exec (.wTxPayload [0x50, 0x49]) State.reset) (fun t => decide (t.chip.txFifo = [[0x50, 0x49]])) = true ∧
    nextWith (exec (.rRxPayload [0, 0]) { State.reset with chip := { State.powerOnChip with rxFifo := [(0, [0x50, 0x49]), (1, [7])] } })
      (fun t => decide (t.wireOut = [0x00, 0x50, 0x49]) && decide (t.chip.rxFifo = [(1, [7])])) = true := by
  decide +kernel

theorem test_flush_frames :  -- R227, R228
    nextWith (exec (.flushTx []) { State.reset with chip := { State.powerOnChip with txFifo := [[1]], armed := true } })
      (fun t => decide (t.chip.txFifo = []) && !t.chip.armed) = true ∧
    nextWith (exec (.flushRx []) { State.reset with chip := { State.powerOnChip with rxFifo := [(0, [1])], rxDr := true } })
      (fun t => decide (t.chip.rxFifo = []) && t.chip.rxDr) = true := by
  decide +kernel

/-- P4: a packet arrives at a listening receiver: STATUS 0x40, FIFO_STATUS 0x10. -/
def listening : Chip :=
  State.powerOnChip.air RegMap.standard true (.arrived 0 []) |>.writeReg RegMap.standard .config 0 0x0F
    |>.writeReg RegMap.standard (.rxPw 0) 0 0x02

theorem test_arrival :
    (listening.air RegMap.standard true (.arrived 0 [0x50, 0x49])).statusByte RegMap.standard = 0x40 ∧
    (listening.air RegMap.standard true (.arrived 0 [0x50, 0x49])).fifoByte RegMap.standard = 0x10 ∧
    listening.air RegMap.standard true (.arrived 0 [0x50]) = listening := by
  decide +kernel

/-! ### The host port (section 2.7) -/

theorem test_illegalOp :  -- V92
    nextWith (step { State.reset with program := [.host (HostCmd.ofOp 0x05)] }) (faultOf 5) = true := by decide +kernel

theorem test_busy_ignores :  -- V97
    nextWith (step { pausing [0, 0x0E] with turns := [{ quietTurn with cmd := some (ports 0x05) }] })
      (fun t => decide (t.operands = HostCmd.ofOp 0) && t.ctl.busy && decide (t.rsp.err = 0)) = true := by
  decide +kernel

theorem test_rst :  -- V99
    nextWith (step { pausing [] with turns := [{ quietTurn with rst := true }] })
      (fun t => decide (t.handle = State.resetHandle) && decide (t.cePin = .z) && !t.ctl.busy && decide (t.dlyCnt = 0)) = true := by
  decide +kernel

/-! ### Witnesses: for each statement with hypotheses, a state and operands that meet them, clause by clause -/

theorem reset_uninterrupted : State.reset.Uninterrupted := ⟨rfl, rfl⟩

theorem ready_ready (miso : List Byte) : (ready miso).Ready := ⟨⟨rfl, rfl⟩, rfl⟩

theorem enabled_uninterrupted (miso : List Byte) : (enabled miso).Uninterrupted := ⟨rfl, rfl⟩

theorem pausing_polling (miso : List Byte) : (pausing miso).Polling 1 := ⟨rfl, rfl, rfl, rfl, rfl, rfl⟩

theorem witness_EveryCodeHasOneMeaning :
    decodeWire 0x27 = some (.writeReg 0x07) ∧ decodeHost (ports 0x31) = .instr (.radioWrite 5 (bufOf [0x50, 0x49])) := by
  decide +kernel

theorem witness_SixtyEightCommandBytes : decodeWire 0x40 = none ∧ decodeWire 0xE3 = none := by decide +kernel

theorem witness_ReservedCodesEndWithIllegalOp :
    State.reset.Uninterrupted ∧ (0x05 ≤ (ports 0x05).op.toNat ∧ (ports 0x05).op.toNat ≤ 0x0F) ∧
    0x34 ≤ (ports 0x3F).op.toNat ∧ (ports 0x33).op.toNat < 0x34 ∧ 0x27 < (ports 0x33).op.toNat :=
  ⟨⟨rfl, rfl⟩, by decide⟩

/-- Both clauses on the chip: the free oracle, and the reference chip with no frame open. -/
theorem witness_ResetGivesEveryElementItsValue :
    (({ pausing [] with turns := [{ quietTurn with rst := true }] } : State).turns = [{ quietTurn with rst := true }] ∧
      (pausing []).far = .free) ∧
    ({ onChip with turns := [{ quietTurn with rst := true }] } : State).takeTurn.chip.sel = false := by
  decide +kernel

theorem witness_StepRunsTheDecodedInstruction :
    ((ready []).ctl.busy = false ∧ (ready []).turns = []) ∧ decode (.host (ports 0x12)) = .instr .nrfStatus ∧
    decode (.wire [0xE1]) = .instr (.flushTx []) ∧
    ({ ready [] with program := [.host (ports 0x12)] } : State).program = .host (ports 0x12) :: [] ∧
    ({ ready [] with program := [.wire [0xE1]] } : State).program = .wire [0xE1] :: [] := by
  decide +kernel

theorem witness_AcceptanceCopiesThePorts :
    let s : State := { ready [] with program := [.host (ports 0x31)], turns := [{ rst := false, cmd := none, air := [], budget := some 0 }] }
    s.far = .free ∧ s.ctl.busy = false ∧ s.program = .host (ports 0x31) :: [] ∧
      s.turns = [{ rst := false, cmd := none, air := [], budget := some 0 }] := by
  decide +kernel

/-- A command out of turn: a step that goes on, and one that is refused because the chip has left the spec. -/
theorem witness_BusyBlockIgnoresCommands :
    let turn : Turn := { quietTurn with cmd := some (ports 0x05) }
    let s : State := { pausing [0, 0x0E] with turns := [turn] }
    s.ctl.busy = true ∧ s.turns = turn :: [] ∧ turn.cmd = some (ports 0x05) ∧ turn.rst = false ∧
      nextWith (step s) (fun _ => true) = true ∧
      nextWith (step { s with far := .refChip, chip := { State.powerOnChip with gap := some .txFifoFull } }) (fun _ => true) = false := by
  decide +kernel

theorem witness_IdleBlockWaits :
    State.reset.ctl.busy = false ∧ State.reset.program = [] ∧ ∀ turn ∈ State.reset.turns.head?, turn.rst = false ∧ turn.cmd = none :=
  ⟨rfl, rfl, fun _ h => nomatch h⟩

/-- `RADIO.READ` cut after five of its micro-operations; `RADIO.WRITE` with n = 1 cut in its payload frame, right before its
first branch (k = 14) and at it (k = 15); and a later poll cut before its branch (k = 3) and after it (k = 5). -/
theorem witness_CutOperationEndsTheSame :
    let s : State := { ready [1, 2, 3, 0x10, 5, 6, 7] with program := [.host (ports 0x32)] }
    s.far = .free ∧ s.turns = [] ∧
      nextWith (step { s with turns := [{ rst := false, cmd := none, air := [], budget := some 5 }] })
        (fun t => t.ctl.busy && decide (t.ctl.tail ≠ .pollBranch)) = true ∧
    (let w : State := { ready [] with program := [.host { ports 0x31 with len := 1 }], miso := List.replicate 12 0x0E }
     let p := pausing [0x0E, 0x0E, 0x0E]
     let cut (k : Nat) (s : State) : State := { s with turns := [{ rst := false, cmd := none, air := [], budget := some k }] }
     w.far = .free ∧ w.turns = [] ∧ w.ctl.busy = false ∧
       decode (.host { ports 0x31 with len := 1 }) = .instr (.radioWrite 1 (ports 0x31).buf) ∧
       [2, 14, 15].all (fun k => nextWith (step (cut k w)) (fun t => t.ctl.busy && decide (t.ctl.tail = .pollBranch))) = true ∧
       p.far = .free ∧ p.turns = [] ∧ p.ctl.busy = true ∧ p.ctl.tail = .pollBranch ∧ microOps p.ctl.todo = 4 ∧
       [3, 5].all (fun k => nextWith (step (cut k p)) (fun t => t.ctl.busy && decide (t.ctl.tail = .pollBranch))) = true) := by
  decide +kernel

/-- The four clauses: V1 and V91, V43, V49 and V52, and operations that run. -/
theorem witness_FirstFailingCheckGivesTheKind :
    State.reset.Uninterrupted ∧ (ready []).Uninterrupted ∧
    (isHostOp .nrfStatus = true ∧ State.reset.has (needOf .nrfStatus) = false) ∧
    ((ready []).has (needOf (.nrfSetpw 6 1)) = true ∧ Instr.wellFormed (.nrfSetpw 6 1) = false) ∧
    (usesAddrWidth (.nrfSetrxaddr 1 (bufOf [])) = true ∧ ({ ready [] with handle.addrWidth := 2 } : State).handle.addrWidth = 2) ∧
    (Instr.wellFormed (.nrfSettxaddr (bufOf [])) = true ∧ (ready []).handle.addrWidth = 5) :=
  ⟨⟨rfl, rfl⟩, ⟨rfl, rfl⟩, by decide +kernel⟩

theorem witness_SpiInitmEnablesTheMaster : State.reset.Uninterrupted ∧ (HostCmd.ofOp 0x00).op.toNat = 0x00 := ⟨⟨rfl, rfl⟩, rfl⟩

/-- Of `SpiTxSendsOneByte` and `SpiRxReturnsTheByteReceived`. -/
theorem witness_SpiTxSendsOneByte :
    (State.reset.Uninterrupted ∧ State.reset.spi.en = false) ∧ (enabled [0x0E]).Uninterrupted ∧ (enabled [0x0E]).spi.en = true :=
  ⟨⟨⟨rfl, rfl⟩, rfl⟩, ⟨rfl, rfl⟩, rfl⟩

/-- Of `SpiWrbufSendsTheBuffer` and `SpiRdbufFillsTheResponse`: lengths 0, 32 and 33. -/
theorem witness_SpiWrbufSendsTheBuffer :
    (enabled []).Uninterrupted ∧ (enabled []).spi.en = true ∧ State.reset.spi.en = false ∧ 32 < (33 : Len).toNat ∧
      (32 : Len).toNat ≤ 32 ∧ (0 : Len).toNat ≤ 32 :=
  ⟨⟨rfl, rfl⟩, rfl, rfl, by decide⟩

theorem witness_ByteGoesBitSevenFirst : (enabled []).spi.en = true ∧ 7 < 8 := by decide

/-- The three clauses of the statements about an NRF operation with operands in range: not initialised, initialised with a bad
operand, initialised with good ones at the ends of the ranges. `RdregReadsTheRegister`, `WrregWritesTheRegister`,
`StatusIsReadAndItsFlagsCleared`, `SetrfWritesTheCombinedByte`, `SetchMasksTheChannel`, `SetretrMasksBothFields`,
`SetpwAndDispipeWriteTheSize`, `RdplReadsThePayload`, `WrplWritesThePayload`, `FlushIsOneByteInAFrame`,
`OccupancyTestsReturnTheirBit`, `InitRunsTheWholeSequence`, `RadioInitConfiguresAndPowersUp`. -/
theorem witness_operands :
    (State.reset.Uninterrupted ∧ State.reset.handle.initDone = false) ∧ (ready []).Uninterrupted ∧
    (ready []).handle.initDone = true ∧ (ready []).cfg.regMap = RegMap.standard ∧
    (0x1F < (0x20 : Byte).toNat ∧ 32 < (33 : Len).toNat ∧ (0x1F : Byte).toNat ≤ 0x1F ∧ (32 : Len).toNat ≤ 32) ∧
    (1 < (2 : Byte).toNat ∧ 3 < (4 : Byte).toNat ∧ (1 : Byte).toNat ≤ 1 ∧ (3 : Byte).toNat ≤ 3) ∧
    (5 < (6 : Byte).toNat ∧ (5 : Byte).toNat ≤ 5 ∧ (32 : Byte).toNat ≤ 32 ∧ 32 < (33 : Byte).toNat) :=
  ⟨⟨⟨rfl, rfl⟩, rfl⟩, ⟨rfl, rfl⟩, by decide +kernel⟩

/-- Both uses of `NRF.RDREG` and `NRF.WRREG`: the configuration register and another one. -/
theorem witness_RdregReadsTheRegister :
    1 ≤ (1 : Len).toNat ∧ (0x00 : Byte).setWidth 5 = (ready []).cfg.regMap.aConfig ∧
      (0x05 : Byte).setWidth 5 ≠ (ready []).cfg.regMap.aConfig := by
  decide

/-- The widths 2, 3, 5 and 6, on a full-width pipe and on another. -/
theorem witness_SetrxaddrWritesAddressThenEnableBit :
    (ready []).Ready ∧ (State.reset.Uninterrupted ∧ State.reset.handle.initDone = false) ∧ 5 < (6 : Byte).toNat ∧
    ((1 : Byte).toNat ≤ 1 ∧ ({ ready [] with handle.addrWidth := 2 } : State).handle.addrWidth.toNat < 3 ∧
      5 < ({ ready [] with handle.addrWidth := 6 } : State).handle.addrWidth.toNat) ∧
    (3 ≤ ({ ready [] with handle.addrWidth := 3 } : State).handle.addrWidth.toNat ∧ (ready []).handle.addrWidth.toNat ≤ 5) ∧
    ¬(2 : Byte).toNat ≤ 1 :=
  ⟨⟨⟨rfl, rfl⟩, rfl⟩, ⟨⟨rfl, rfl⟩, rfl⟩, by decide +kernel⟩

theorem witness_SettxaddrWritesBothAddressesAndCaches :
    (ready []).Ready ∧ ({ ready [] with handle.addrWidth := 2 } : State).handle.addrWidth.toNat < 3 ∧
    (3 ≤ (ready []).handle.addrWidth.toNat ∧ (ready []).handle.addrWidth.toNat ≤ 5) :=
  ⟨⟨⟨rfl, rfl⟩, rfl⟩, by decide +kernel⟩

/-- Of `PwrupSetsThePowerBit`, `PwrdnClearsThePowerBitAndCe`, `ModeSwitchWritesConfigThenRaisesCe`,
`StandbyClearsLowersAndFlushes`. -/
theorem witness_PwrupSetsThePowerBit :
    (ready []).Ready ∧ State.reset.Uninterrupted ∧ State.reset.handle.initDone = false := ⟨⟨⟨rfl, rfl⟩, rfl⟩, ⟨rfl, rfl⟩, rfl⟩

/-- A powered-up and a powered-down block. -/
theorem witness_ModeGoesAsTheTableSays :
    ((pausing []).far = .free ∧ (pausing []).turns = [] ∧ (pausing []).cfg.regMap = RegMap.standard ∧ (pausing []).Polling 1 ∧
      (pausing []).lines.ceLvl = false) ∧
    (ready []).Ready ∧ ({ ready [] with handle.configCache := 0x0C } : State).Ready ∧
    ((ready []).cfg.regMap = RegMap.standard ∧ (ready []).mode = .standby ∧
      ({ ready [] with handle.configCache := 0x0C } : State).mode = .powerDown ∧ (ready []).lines.ceLvl = false ∧
      (32 : Len).toNat ≤ 32) :=
  ⟨⟨rfl, rfl, rfl, ⟨rfl, rfl, rfl, rfl, rfl, rfl⟩, rfl⟩, ⟨⟨rfl, rfl⟩, rfl⟩, ⟨⟨rfl, rfl⟩, rfl⟩, by decide +kernel⟩

/-- The four things the first poll can decide: V77, V75, V82, V76. -/
theorem witness_RadioWriteSendsAndPolls :
    (∀ miso, (ready miso).Ready) ∧ (5 : Len).toNat ≤ 32 ∧
    (((ready [0, 0, 0, 0, 0, 0, 0, 0, 0, 0x1E]).rx 9).getLsbD 4 = true) ∧
    (((ready [0, 0, 0, 0, 0, 0, 0, 0, 0, 0x2E]).rx 9).getLsbD 4 = false ∧
      ((ready [0, 0, 0, 0, 0, 0, 0, 0, 0, 0x2E]).rx 9).getLsbD 5 = true) ∧
    (((ready [0, 0, 0, 0, 0, 0, 0, 0, 0, 0x0E]).rx 9).getLsbD 4 = false ∧
      ((ready [0, 0, 0, 0, 0, 0, 0, 0, 0, 0x0E]).rx 9).getLsbD 5 = false) ∧
    ({ Config.standard with pollLimit := 1 } : Config).pollLimit = 1 ∧ Config.standard.pollLimit ≠ 1 :=
  ⟨fun _ => ⟨⟨rfl, rfl⟩, rfl⟩, by decide +kernel⟩

/-- The same four in the delay after one poll. -/
theorem witness_NextPollDecides :
    (∀ miso, (pausing miso).far = .free ∧ (pausing miso).turns = [] ∧ (pausing miso).Polling 1) ∧
    (((pausing [0, 0x1E]).rx 1).getLsbD 4 = true) ∧
    (((pausing [0, 0x2E]).rx 1).getLsbD 4 = false ∧ ((pausing [0, 0x2E]).rx 1).getLsbD 5 = true) ∧
    (((pausing [0, 0x0E]).rx 1).getLsbD 4 = false ∧ ((pausing [0, 0x0E]).rx 1).getLsbD 5 = false) ∧
    ({ Config.standard with pollLimit := 2 } : Config).pollLimit = 1 + 1 ∧ (pausing []).cfg.pollLimit ≠ 1 + 1 :=
  ⟨fun _ => ⟨rfl, rfl, rfl, rfl, rfl, rfl, rfl, rfl⟩, by decide +kernel⟩

/-- The program of `RadioWriteEndsAsThePollsSay`: a payload of 5 bytes, polls 0x0E, then 0x2E (V76); or 0x0E three times (V81). -/
def linkRun (limit : Nat) (polls : List Byte) : State :=
  { ready (List.replicate 8 0 ++ polls.flatMap fun b => [0, b]) with
    cfg := { Config.standard with pollLimit := limit }
    program := [.host (ports 0x31)] }

theorem witness_RadioWriteEndsAsThePollsSay :
    (∀ limit polls, (linkRun limit polls).far = .free ∧ (linkRun limit polls).ctl.busy = false ∧ (linkRun limit polls).turns = [] ∧
      (linkRun limit polls).handle.initDone = true ∧ (linkRun limit polls).program = .host (ports 0x31) :: []) ∧
    ((ports 0x31).op = 0x31 ∧ (ports 0x31).len.toNat = 5) ∧
    (let flagged (s : State) (j : Nat) : Bool := (s.rx (5 + 4 + 2 * j)).getLsbD 4 || (s.rx (5 + 4 + 2 * j)).getLsbD 5
     (∀ j < 1, flagged (linkRun 0 [0x0E, 0x2E]) j = false) ∧ flagged (linkRun 0 [0x0E, 0x2E]) 1 = true ∧
     (∀ j < 3, flagged (linkRun 3 [0x0E, 0x0E, 0x0E]) j = false)) :=
  ⟨fun _ _ => ⟨rfl, rfl, rfl, rfl, rfl⟩, by decide +kernel⟩

/-- V87 and V88. -/
theorem witness_RadioReadListensAndFetches :
    (∀ miso, (ready miso).Ready) ∧ (32 : Len).toNat ≤ 32 ∧ 32 < (33 : Len).toNat ∧
    ((ready [1, 2, 3, 0x11]).rx 3).getLsbD 0 = true ∧ ((ready [1, 2, 3, 0x10]).rx 3).getLsbD 0 = false :=
  ⟨fun _ => ⟨⟨rfl, rfl⟩, rfl⟩, by decide +kernel⟩

theorem witness_ReadRegisterFrameShiftsOutTheRegister :
    chipReg RegMap.standard 0x0A = some (.rxAddr 0) ∧ State.powerOnChip.readReg RegMap.standard (.rxAddr 0) 4 = some 0xE7 ∧
    State.powerOnChip.readReg RegMap.standard (.rxAddr 0) 5 = none := by
  decide +kernel

/-- A register that stores, STATUS, a read-only register and an address without one. -/
theorem witness_WriteRegisterFrameStoresDefinedBits :
    State.reset.chip.regs.wf = true ∧ chipReg RegMap.standard 0x05 = some .rfCh ∧ ChipReg.rfCh.stores = some 0x7F ∧
    chipReg RegMap.standard 0x07 = some .status ∧ chipReg RegMap.standard 0x09 = some .cd ∧ chipReg RegMap.standard 0x1F = none ∧
    ([] : List Byte) = [] := by
  decide +kernel

/-- Room for a payload of 1 and of 32 bytes, a full FIFO, a bad length, and a payload to read. -/
theorem witness_PayloadFramesUseTheFifos :
    (State.reset.chip.txFifo.length < 3 ∧ 1 ≤ [(7 : Byte)].length ∧ (List.replicate 32 (7 : Byte)).length ≤ 32) ∧
    3 ≤ ({ State.powerOnChip with txFifo := [[1], [2], [3]] } : Chip).txFifo.length ∧
    ([] : List Byte).length = 0 ∧ 32 < (List.replicate 33 (7 : Byte)).length ∧
    ({ State.powerOnChip with rxFifo := [(0, [0x50])] } : Chip).rxFifo.head? = some (0, [0x50]) := by
  decide +kernel

/-- R230: the chip's own mode by its CE pin; a pin that is not driven counts as low, unless a transmission is under way; and a
chip that is not the far side has no driven pin (log 3). -/
theorem test_chipMode :
    let on (config : Byte) (armed : Bool) : Chip :=
      { State.powerOnChip with regs := State.powerOnChip.regs.write (Memory.key 0 0) config, armed := armed }
    let lines (dir lvl : Bool) : Lines := { State.resetLines with ceDir := dir, ceLvl := lvl }
    let mode (c : Chip) (l : Lines) : Mode := State.chipMode { State.reset with far := .refChip, chip := c, lines := l }
    mode State.powerOnChip (lines true true) = .powerDown ∧ mode (on 0x0F false) (lines false true) = .standby ∧
    mode (on 0x0F false) (lines true false) = .standby ∧ mode (on 0x0F false) (lines true true) = .rx ∧
    mode (on 0x0E false) (lines true true) = .tx ∧ mode (on 0x0E true) (lines false true) = .tx ∧
    State.chipMode { State.reset with chip := on 0x0F false, lines := lines true true } = .standby := by
  decide +kernel

theorem witness_StatusBytesShowFlagsAndFifos :
    State.powerOnChip.txFifo.length ≤ 3 ∧ ({ State.powerOnChip with rxFifo := [(0, [1]), (1, [2]), (5, [3])] } : Chip).rxFifo.length ≤ 3 := by
  decide

/-- An idle chip, an armed one, a packet that is taken and one that is not. -/
theorem witness_AirActsOnlyWhenEnabled :
    State.powerOnChip.armed = false ∧ ({ State.powerOnChip with armed := true } : Chip).armed = true ∧
    ((listening.reg .config).getLsbD 1 = true ∧ (listening.reg .config).getLsbD 0 = true ∧ listening.rxFifo.length < 3 ∧
      (listening.reg .enRxaddr).getLsbD 0 = true ∧ listening.reg (.rxPw 0) ≠ 0 ∧ 2 = (listening.reg (.rxPw 0)).toNat) ∧
    (State.powerOnChip.reg .config).getLsbD 1 = false := by
  decide +kernel

theorem witness_RegisterSpaceIsAMemory :
    Memory.wf [(0x28, 0x2A)] = true ∧ Memory.unlisted 0x28 ≠ none ∧ Memory.unlisted 0x29 = none := by
  decide +kernel

theorem witness_HandleFieldsHaveOwners :
    (ready [0x0E, 0x2E]).Uninterrupted ∧ nextWith (exec .nrfStatus (ready [0x0E, 0x2E])) (fun _ => true) = true ∧
    changesMode .nrfStatus = false :=
  ⟨⟨rfl, rfl⟩, by decide +kernel⟩

theorem framed_reset : State.reset.Framed := ⟨.fresh, rfl, rfl, fun h => absurd h (by decide), rfl⟩

/-- An idle block at reset, and a block inside its poll loop; both take a step without `rst`. -/
theorem witness_EveryStepKeepsTheFrameDiscipline :
    (State.reset.Framed ∧ State.reset.takeTurn.inp.rst = false ∧ nextWith (step State.reset) (fun _ => true) = true) ∧
    (pausing [0, 0x2E, 0, 0, 0, 0]).Framed ∧ nextWith (step (pausing [0, 0x2E, 0, 0, 0, 0])) (fun _ => true) = true :=
  ⟨⟨framed_reset, rfl, by decide +kernel⟩,
    ⟨.outside, rfl, rfl, fun _ h => Phase.noConfusion h, .outside, rfl, rfl⟩, by decide +kernel⟩

/-- Also with `rst`. -/
theorem witness_EveryStepKeepsTheChipWithinItsLimits :
    State.reset.chip.Sound ∧ nextWith (step State.reset) (fun _ => true) = true ∧
    nextWith (step { State.reset with turns := [{ quietTurn with rst := true }] }) (fun _ => true) = true :=
  ⟨⟨rfl, by decide, by decide, by decide, by decide⟩, by decide +kernel⟩

theorem witness_EveryStepKeepsResponsesAndDrivers :
    (State.reset.rsp.Sound ∧ State.reset.StaysDriven) ∧ (ready [0, 0x2E]).Driven ∧
    (ready []).handle.initDone = true ∧ (ready []).spi.en = true ∧ (ready []).lines.ceDir = true ∧ (ready []).lines.csnDir = true ∧
    nextWith (step { ready [0, 0x2E] with program := [.host (ports 0x12)] }) (fun _ => true) = true :=
  ⟨⟨⟨by decide, by decide⟩, (fun h => nomatch h), fun h => nomatch h⟩, fun _ => ⟨rfl, rfl, rfl⟩, by decide +kernel⟩

/-- An idle block that runs `NRF.INIT`, and a block inside its poll loop. -/
theorem witness_CacheIsTheLastConfigurationByte :
    (State.reset.CacheAgrees ∧ State.reset.far = .free ∧ State.reset.cfg.regMap = RegMap.standard ∧
      nextWith (step { State.reset with miso := [1, 2, 3, 0x0C, 5, 3], program := [.host (ports 0x20)] }) (fun _ => true) = true) ∧
    ({ pausing [0, 0x2E, 0, 0, 0, 0] with trace := frameOf [(0x20, 0), (0x0E, 0)] } : State).CacheAgrees ∧
    (pausing []).ctl.busy = true ∧ (pausing []).Polling 1 ∧ ((pausing []).turns.headD quietTurn).rst = false ∧
    ((pausing []).turns.headD quietTurn).budget = none :=
  ⟨⟨rfl, rfl, rfl, by decide +kernel⟩, rfl, rfl, pausing_polling [], rfl, rfl⟩

/-- A chip with a payload waiting and a flag set, CE high. -/
def loaded : State :=
  { onChip with
    lines.ceLvl := true
    chip := { State.powerOnChip with txFifo := [[1, 2]], rxDr := true, armed := true } }

theorem witness_StandbyTwiceIsStandbyOnce :
    (loaded.budget = none ∧ loaded.far = .refChip ∧ loaded.cfg.regMap = RegMap.standard ∧ loaded.handle.initDone = true ∧
      loaded.lines.ceDir = true ∧ loaded.lines.csnDir = true ∧ loaded.lines.csnLvl = true ∧ loaded.chip.sel = false ∧
      loaded.chip.gap = none) ∧
    exec .nrfStandby loaded = .next (after (exec .nrfStandby loaded)) ∧
    exec .nrfStandby (after (exec .nrfStandby loaded)) = .next (after (exec .nrfStandby (after (exec .nrfStandby loaded)))) :=
  ⟨by decide +kernel, next_after (by decide +kernel), next_after (by decide +kernel)⟩

/-- The widths 3 and 5. -/
theorem witness_TxAddressReadsBackAsWritten :
    (onChip.budget = none ∧ onChip.far = .refChip ∧ onChip.handle.initDone = true ∧ onChip.lines.ceDir = true ∧
      onChip.lines.csnDir = true ∧ onChip.lines.csnLvl = true ∧ onChip.chip.sel = false ∧ onChip.chip.gap = none ∧
      onChip.chip.regs.wf = true ∧ onChip.handle.addrWidth.toNat = 5) ∧
    nextWith (exec (.nrfSettxaddr (bufOf [1, 2, 3, 4, 5])) onChip)
      (fun t => nextWith (exec (.nrfRdreg 0x10 5) t) (fun u => decide (u.rsp.buf = bufOf [1, 2, 3, 4, 5]))) = true ∧
    nextWith (exec (.nrfSettxaddr (bufOf [1, 2, 3, 4, 5])) { onChip with handle.addrWidth := 3 })
      (fun t => nextWith (exec (.nrfRdreg 0x10 3) t) (fun u => decide (u.rsp.buf = bufOf [1, 2, 3]))) = true := by
  decide +kernel

/-- A block on the reference chip inside its poll loop, once with the packet sent and once with the limit reached. -/
def waiting (txDs : Bool) : State :=
  { pausing [] with
    far := .refChip
    cfg := { Config.standard with pollLimit := 2 }
    chip := { State.powerOnChip with txDs := txDs, txFifo := [[1, 2]] } }

theorem witness_LinkWriteLeavesTheChipInStandby :
    (∀ b, (waiting b).far = .refChip ∧ (waiting b).cfg.regMap = RegMap.standard ∧ (waiting b).handle.initDone = true ∧
      (waiting b).lines.ceDir = true ∧ (waiting b).lines.csnDir = true ∧ (waiting b).lines.csnLvl = true ∧
      (waiting b).chip.sel = false ∧ (waiting b).chip.gap = none ∧ (waiting b).Polling 1 ∧
      ((waiting b).turns.headD quietTurn).rst = false ∧ ((waiting b).turns.headD quietTurn).budget = none) ∧
    nextWith (step (waiting true)) (fun t => !t.ctl.busy && t.rsp.ok && decide (t.chip.txFifo = [])) = true ∧
    nextWith (step (waiting false)) (fun t => !t.ctl.busy && decide (t.rsp.err = 3) && decide (t.chip.txFifo = [])) = true ∧
    nextWith (step { waiting false with chip.armed := true, turns := [{ quietTurn with air := [.gaveUp] }] })
      (fun t => !t.ctl.busy && decide (t.rsp.err = 1) && decide (t.chip.txFifo = [])) = true ∧
    nextWith (exec (.radioWrite 1 (bufOf [7])) { onChip with cfg := { Config.standard with pollLimit := 1 } })
      (fun t => !t.ctl.busy && decide (t.rsp.err = 3)) = true :=
  ⟨fun _ => ⟨rfl, rfl, rfl, rfl, rfl, rfl, rfl, rfl, ⟨rfl, rfl, rfl, rfl, rfl, rfl⟩, rfl, rfl⟩, by decide +kernel⟩

end Sys2Proof.Tests
end

