-- ==== Sys2Proof/Proofs/Steps.lean ====
section
/-! SUPPORT. One step of the machine: what a host operation loads into the sequencer, and what a step without `rst` can do. -/

namespace Sys2Proof.Machine

open Sys2Proof

/-! ### What an operation loads -/

/-- An operation as the sequencer takes it up: the outcome of its checks (R97), its sequence, and what follows the sequence. -/
structure Job where
  check : Option Kind
  items : List Item
  tail : Tail

/-- A bus operation (R97 (2), R253): it needs the master enabled. -/
def Job.bus (en argsOk : Bool) (items : List Item) (f : Finish) : Job := ⟨acceptanceFault en argsOk true, items, .finish f⟩

/-- An NRF or RADIO operation with operands in range or not (R97): it needs the chip initialised. -/
def Job.nrf (hd : Handle) (argsOk : Bool) (items : List Item) (tail : Tail) : Job :=
  ⟨acceptanceFault hd.initDone argsOk true, items, tail⟩

/-- What a host operation loads: it depends on `spi_en`, the handle and the register map only. A wire command loads nothing. -/
def jobOf (en : Bool) (hd : Handle) (m : RegMap) : Instr → Job
  | .spiInitm => ⟨none, [.op .spiInit], .finish .plain⟩
  | .spiTx byte => .bus en true [send byte] .plain
  | .spiRx => .bus en true [receive] .byteRead
  | .spiWrbuf n buf => .bus en (lenOk n) ((bufBytes buf n.toNat).map send) .plain
  | .spiRdbuf n => .bus en (lenOk n) (List.replicate n.toNat receive) .bufRead
  | .nrfRdreg reg n => .nrf hd (regOk reg && lenOk n) (rdRegItems m reg n.toNat) (.finish .regRead)
  | .nrfWrreg reg n buf => .nrf hd (regOk reg && lenOk n) (wrRegItems m reg (bufBytes buf n.toNat)) (.finish .plain)
  | .nrfStatus => .nrf hd true (memRead m.aStatus 1) (.finish .byteRead)
  | .nrfClrstatus => .nrf hd true (clrStatusItems m) (.finish .plain)
  | .nrfSetrf rate power lna => .nrf hd (rfOk rate power lna) (setRfItems m rate power lna) (.finish .plain)
  | .nrfSetch frequency => .nrf hd true (setChItems m frequency) (.finish .plain)
  | .nrfSetretr count delay => .nrf hd true (setRetrItems m count delay) (.finish .plain)
  | .nrfSetpw pipe size => .nrf hd (pipeOk pipe && sizeOk size) (setPwItems m pipe size) (.finish .plain)
  | .nrfDispipe pipe => .nrf hd (pipeOk pipe) (setPwItems m pipe 0) (.finish .plain)
  | .nrfSetrxaddr pipe address =>
    ⟨acceptanceFault hd.initDone (pipeOk pipe) (!(fullWidthPipe pipe) || widthOk hd.addrWidth),
      setRxAddrItems m pipe (bufBytes address (if fullWidthPipe pipe then hd.addrWidth.toNat else 1)), .finish .plain⟩
  | .nrfSettxaddr address =>
    ⟨acceptanceFault hd.initDone true (widthOk hd.addrWidth), setTxAddrItems m (bufBytes address hd.addrWidth.toNat),
      .finish .plain⟩
  | .nrfInit ce csn => ⟨none, initItems m ce csn, .finish .plain⟩
  | .nrfPwrup => .nrf hd true (pwrUpItems m) (.finish .plain)
  | .nrfPwrdn => .nrf hd true (pwrDnItems m) (.finish .plain)
  | .nrfModerx => .nrf hd true (modeRxItems m) (.finish .plain)
  | .nrfModetx => .nrf hd true (modeTxItems m) (.finish .plain)
  | .nrfStandby => .nrf hd true (standbyItems m) (.finish .plain)
  | .nrfFlushtx => .nrf hd true flushTxItems (.finish .plain)
  | .nrfFlushrx => .nrf hd true flushRxItems (.finish .plain)
  | .nrfRxempty => .nrf hd true (memRead m.aFifoStatus 1) (.finish (.bitSet m.bRxEmpty))
  | .nrfRxfull => .nrf hd true (memRead m.aFifoStatus 1) (.finish (.bitSet m.bRxFull))
  | .nrfTxempty => .nrf hd true (memRead m.aFifoStatus 1) (.finish (.bitSet m.bTxEmpty))
  | .nrfTxfull => .nrf hd true (memRead m.aFifoStatus 1) (.finish (.bitSet m.bTxFull))
  | .nrfRdpl n => .nrf hd (lenOk n) (rdPlItems n.toNat) (.finish .bufRead)
  | .nrfWrpl n buf => .nrf hd (lenOk n) (wrPlItems (bufBytes buf n.toNat)) (.finish .plain)
  | .radioInit ce csn => ⟨none, radioInitItems m ce csn, .finish .plain⟩
  | .radioWrite n payload => .nrf hd (lenOk n) (radioWriteItems m (bufBytes payload n.toNat)) .pollBranch
  | .radioRead n => .nrf hd (lenOk n) (radioReadItems m) (.readBranch n.toNat)
  | .radioHaspl => .nrf hd true (memRead m.aFifoStatus 1) (.finish (.bitClear m.bRxEmpty))
  | _ => ⟨none, [], .finish .plain⟩

/-- The state with a job taken up: its sequence if the checks pass, else the completion with the fault. -/
def State.take (j : Job) (s : State) : State := s.taken j.check j.items j.tail

/-- R97: the checks are passed only if each of them holds. -/
theorem acceptanceFault_eq_none {ready args addr : Bool} (h : acceptanceFault ready args addr = none) :
    ready = true ∧ args = true ∧ addr = true := by
  revert ready args addr
  decide

theorem State.take_fault {j : Job} {k : Kind} (h : j.check = some k) (s : State) :
    s.take j = s.load [] (.finish (.fault k)) := by
  simp [State.take, State.taken, h]

theorem State.take_items {j : Job} (h : j.check = none) (s : State) : s.take j = s.load j.items j.tail := by
  simp [State.take, State.taken, h]

/-- R97, R106: a host operation takes up its job and the sequencer runs it. -/
theorem exec_hostOp {i : Instr} (h : isHostOp i = true) (s : State) :
    exec i s = (s.take (jobOf s.spi.en s.handle s.cfg.regMap i)).advance.outcome := by
  unfold State.take
  rw [← State.operate_taken]
  cases i with
  | rRegister | wRegister | rRxPayload | wTxPayload | flushTx | flushRx => cases h
  | _ => rfl

/-- A wire command is a frame clocked into the chip. -/
theorem exec_wireOp {i : Instr} (h : isHostOp i = false) (s : State) : ∃ op data, exec i s = s.wireFrame op data := by
  cases i with
  | rRegister | wRegister | rRxPayload | wTxPayload | flushTx | flushRx => exact ⟨_, _, rfl⟩
  | _ => cases h

/-- R95: a host command decodes to a host operation or to the rejection of its code. -/
theorem decodeHost_cases (c : HostCmd) :
    decodeHost c = .illegalOp c.op ∨ ∃ i, isHostOp i = true ∧ decodeHost c = .instr i := by
  unfold decodeHost
  split
  case h_35 => exact .inl rfl
  all_goals exact .inr ⟨_, rfl, rfl⟩

/-! ### What a step does -/

/-- R96: the state in which the sequencer begins a host command: the ports copied, the job taken up. -/
def State.begin (c : HostCmd) (s : State) : State :=
  match decodeHost c with
  | .instr i => (s.accept (.host c)).take (jobOf s.spi.en s.handle s.cfg.regMap i)
  | _ => (s.accept (.host c)).take ⟨some .illegalOp, [], .finish .plain⟩

theorem State.begin_instr {c : HostCmd} {i : Instr} (h : decodeHost c = .instr i) (s : State) :
    s.begin c = (s.accept (.host c)).take (jobOf s.spi.en s.handle s.cfg.regMap i) := by
  simp [State.begin, h]

theorem State.begin_illegalOp {c : HostCmd} {code : OpCode} (h : decodeHost c = .illegalOp code) (s : State) :
    s.begin c = (s.accept (.host c)).take ⟨some .illegalOp, [], .finish .plain⟩ := by
  simp [State.begin, h]

section beginning

variable (c : HostCmd) (s : State)

theorem State.begin_busy : (s.begin c).ctl.busy = true := by
  unfold State.begin State.take State.taken
  split <;> split <;> rfl

theorem State.begin_far : (s.begin c).far = s.far := by
  unfold State.begin State.take State.taken
  split <;> split <;> rfl

theorem State.begin_turns : (s.begin c).turns = s.turns := by
  unfold State.begin State.take State.taken
  split <;> split <;> rfl

theorem State.begin_notDone : (s.begin c).ctl.done = s.ctl.done := by
  unfold State.begin State.take State.taken
  split <;> split <;> rfl

end beginning

/-- R96, R97: whatever its code, a host command is run by the sequencer. -/
theorem dispatch_host (c : HostCmd) (s : State) : dispatch (.host c) s = (s.begin c).advance.outcome := by
  rcases decodeHost_cases c with hc | ⟨i, hi, hc⟩
  · rw [State.begin_illegalOp hc]
    simp [dispatch, decode, hc, State.illegalOp, State.operate_taken, State.take]
  · rw [State.begin_instr hc]
    simp only [dispatch, decode, hc]
    exact exec_hostOp hi _

/-- A frame clocked into the chip changes nothing of the block. -/
theorem State.wireFrame_changes {op : WireOp} {data : List Byte} {s t : State} (h : s.wireFrame op data = .next t) :
    ∃ chip wireOut draws, t = { s with chip := chip, wireOut := wireOut, draws := draws } := by
  simp only [State.wireFrame] at h
  split at h
  · cases h
  · exact ⟨_, _, _, (Host.Outcome.next.inj h).symm⟩

/-- R85, R99: the bytes of a frame decode to a wire command or to none; the codes of host operations are not among them. -/
theorem decodeFrame_cases (bytes : List Byte) :
    (∃ i, isHostOp i = false ∧ decodeFrame bytes = .instr i) ∨ (∃ b, decodeFrame bytes = .unknownCommand b) ∨
      decodeFrame bytes = .emptyFrame := by
  cases bytes with
  | nil => exact .inr (.inr rfl)
  | cons b data =>
    simp only [decodeFrame]
    split
    case h_7 => exact .inr (.inl ⟨b, rfl⟩)
    all_goals exact .inl ⟨_, rfl, rfl⟩

theorem dispatch_wire {bytes : List Byte} {s t : State} (h : dispatch (.wire bytes) s = .next t) :
    ∃ op data, s.wireFrame op data = .next t := by
  rcases decodeFrame_cases bytes with ⟨i, hi, hd⟩ | ⟨b, hd⟩ | hd
  · obtain ⟨op, data, he⟩ := exec_wireOp hi s
    refine ⟨op, data, he.symm.trans ?_⟩
    simpa [dispatch, decode, hd, State.accept] using h
  · simp [dispatch, decode, hd] at h
  · simp [dispatch, decode, hd] at h

/-- R104: with a quiet outside an idle block is given the host's next line, a host command on its port. -/
theorem State.takeTurn_hostLine {s : State} {c : HostCmd} {rest : List Command} (hb : s.ctl.busy = false) (ht : s.turns = [])
    (hp : s.program = .host c :: rest) :
    s.takeTurn = { s with
      program := rest
      inp := { rst := false, valid := true, cmd := c, frame := none }
      budget := none
      ctl.done := false } := by
  simp [State.takeTurn, nextLine, quietTurn, hb, ht, hp]

/-- Log 3: a wire frame as the next line is clocked into the chip by a bench. -/
theorem State.takeTurn_wireLine {s : State} {bytes : List Byte} {rest : List Command} (hb : s.ctl.busy = false) (ht : s.turns = [])
    (hp : s.program = .wire bytes :: rest) :
    s.takeTurn = { s with
      program := rest
      inp := { rst := false, valid := false, cmd := s.inp.cmd, frame := some bytes }
      budget := none
      ctl.done := false } := by
  simp [State.takeTurn, nextLine, quietTurn, hb, ht, hp]

theorem clockEdge_busy {s : State} (hr : s.inp.rst = false) (hb : s.ctl.busy = true) : clockEdge s = s.advance.outcome := by
  simp [clockEdge, hr, hb]

theorem clockEdge_host {s : State} {c : HostCmd} (hr : s.inp.rst = false) (hb : s.ctl.busy = false)
    (hc : s.presented = some (.host c)) : clockEdge s = (s.begin c).advance.outcome := by
  simp [clockEdge, hr, hb, hc, dispatch_host]

/-- What a clock edge without `rst` can do: the sequencer goes on; or, in an idle block, it begins a host command, or a bench
clocks a frame into the chip, or nothing happens. -/
theorem clockEdge_cases {s t : State} (hr : s.inp.rst = false) (h : clockEdge s = .next t) :
    (s.ctl.busy = true ∧ t = s.advance) ∨
    (s.ctl.busy = false ∧ ∃ c, s.presented = some (.host c) ∧ t = (s.begin c).advance) ∨
    (s.ctl.busy = false ∧ ∃ op data, s.wireFrame op data = .next t) ∨
    (s.ctl.busy = false ∧ t = s) := by
  cases hb : s.ctl.busy with
  | true => exact .inl ⟨rfl, State.outcome_next ((clockEdge_busy hr hb).symm.trans h)⟩
  | false =>
    cases hp : s.presented with
    | none => exact .inr (.inr (.inr ⟨rfl, by simpa [clockEdge, hr, hb, hp] using h.symm⟩))
    | some c =>
      cases c with
      | host c => exact .inr (.inl ⟨rfl, c, rfl, State.outcome_next ((clockEdge_host hr hb hp).symm.trans h)⟩)
      | wire bytes => exact .inr (.inr (.inl ⟨rfl, dispatch_wire (by simpa [clockEdge, hr, hb, hp] using h)⟩))

/-! ### A property the sequencer keeps -/

/-- A property that every part of the sequencer keeps, whatever is still to do and however long the outside leaves it. -/
structure Kept (P : State → Prop) : Prop where
  micro : ∀ s m, P s → P (State.micro m s)
  transfer : ∀ s t, P s → P (State.transfer t s)
  complete : ∀ s f, P s → P (State.complete f s)
  todo : ∀ (s : State) is, P s → P { s with ctl.todo := is }
  tail : ∀ (s : State) t, P s → P { s with ctl.tail := t }
  budget : ∀ (s : State) b, P s → P { s with budget := b }

section kept

variable {P : State → Prop} (h : Kept P)
include h

theorem Kept.runItems (is : List Item) {s : State} (hs : P s) : P (s.runItems is) := by
  induction is generalizing s with
  | nil => exact h.todo s [] hs
  | cons i is ih =>
    cases i with
    | set t => exact ih (h.transfer s t hs)
    | op m =>
      simp only [State.runItems]
      split
      · exact ih (h.micro s m hs)
      · exact h.todo s _ hs
      · exact ih (h.micro _ m (h.budget s _ hs))

theorem Kept.tryComplete (f : Finish) {s : State} (hs : P s) : P (s.tryComplete f) := by
  simp only [State.tryComplete]
  split
  · exact h.complete s f hs
  · exact hs
  · exact h.complete _ f (h.budget s _ hs)

theorem Kept.runToEnd (is : List Item) (f : Finish) {s : State} (hs : P s) : P (s.runToEnd is f) := by
  have run := h.runItems is (h.tail s (.finish f) hs)
  simp only [State.runToEnd]
  split
  · exact h.tryComplete f run
  · exact run

theorem Kept.runTail {s : State} (hs : P s) : P s.runTail := by
  simp only [State.runTail]
  split
  · exact h.tryComplete _ hs
  · split <;> exact h.runToEnd _ _ hs
  · split
    · exact h.runToEnd _ _ hs
    · exact h.todo _ _ (h.runItems _ (h.tail s .pollBranch hs))

theorem Kept.advance {s : State} (hs : P s) : P s.advance := by
  have run := h.runItems s.ctl.todo hs
  simp only [State.advance]
  split
  · exact h.runTail run
  · exact run

end kept

end Sys2Proof.Machine
end

