-- ==== Sys2Proof/Proofs/FrameDiscipline.lean ====
section
/-! PROOF. The frame discipline (R11, R262, R303): the sequence of every operation fits what the trace of an idle block has
reached, and the sequencer keeps what fits, so every step keeps a framed state framed. -/

namespace Sys2Proof.Machine.Framing

open Sys2Proof Sys2Proof.Machine

/-! ### Sequences that leave no frame open -/

/-- A sequence that, begun outside every frame, ends outside every frame. -/
def KeepsOutside (is : List Item) : Prop := Phase.items .outside is = some .outside

theorem items_append (p : Phase) (a b : List Item) : p.items (a ++ b) = (p.items a).bind fun q => q.items b := by
  simp [Phase.items, List.foldlM_append]

theorem items_append_of {p q : Phase} {a : List Item} (h : p.items a = some q) (b : List Item) :
    p.items (a ++ b) = q.items b := by
  rw [items_append, h, Option.bind_some]

theorem KeepsOutside.append {a b : List Item} (ha : KeepsOutside a) (hb : KeepsOutside b) : KeepsOutside (a ++ b) :=
  (items_append_of ha b).trans hb

theorem KeepsOutside.cons_set {is : List Item} (t : Transfer) (h : KeepsOutside is) : KeepsOutside (.set t :: is) := h

theorem keepsOutside_nil : KeepsOutside [] := rfl

theorem keepsOutside_set (t : Transfer) : KeepsOutside [.set t] := rfl

theorem keepsOutside_lvl_ce (v : Bool) : KeepsOutside [.op (.lvl .ce v)] := rfl

theorem keepsOutside_waitUs (n : Nat) : KeepsOutside (waitUs n) := rfl

theorem item_xfer {p : Phase} (hp : p ≠ .opened) (src : Src) (keep : Bool) : p.item (.op (.xfer src keep)) = some p := by
  cases p with
  | opened => exact absurd rfl hp
  | fresh | outside | inside => cases src <;> rfl

/-- Exchanges move no line: only right after `CSN=0` they change the phase. -/
theorem items_xfers {p : Phase} (hp : p ≠ .opened) (is : List Item) (h : ∀ i ∈ is, ∃ src keep, i = .op (.xfer src keep)) :
    p.items is = some p := by
  induction is with
  | nil => rfl
  | cons i is ih =>
    obtain ⟨src, keep, rfl⟩ := h i List.mem_cons_self
    rw [items_cons, item_xfer hp]
    exact ih fun j hj => h j (List.mem_cons_of_mem _ hj)

theorem items_sends {p : Phase} (hp : p ≠ .opened) (bytes : List Byte) : p.items (bytes.map send) = some p := by
  apply items_xfers hp
  intro i hi
  obtain ⟨b, -, rfl⟩ := List.mem_map.mp hi
  exact ⟨_, _, rfl⟩

theorem items_receives {p : Phase} (hp : p ≠ .opened) (n : Nat) : p.items (List.replicate n receive) = some p := by
  apply items_xfers hp
  intro i hi
  exact ⟨_, _, List.eq_of_mem_replicate hi⟩

/-- R90: what the encoder gives is one of the 68 command bytes. -/
theorem decodeWire_encodeWire_isSome (op : WireOp) : (decodeWire (encodeWire op)).isSome = true := by
  cases op with
  | readReg a | writeReg a => revert a; decide
  | readPayload | writePayload | flushTx | flushRx => decide

/-- R11: a frame that begins with a command byte and then only exchanges bytes. -/
theorem keepsOutside_frame (op : WireOp) {body : List Item} (h : Phase.items .inside body = some .inside) :
    KeepsOutside (frame (send (encodeWire op) :: body)) := by
  have opens : Phase.items .outside (frame (send (encodeWire op) :: body)) =
      (Phase.item .opened (send (encodeWire op))).bind fun q => q.items (body ++ [.op (.lvl .csn true)]) := rfl
  have command : Phase.item .opened (send (encodeWire op)) = some .inside := if_pos (decodeWire_encodeWire_isSome op)
  rw [KeepsOutside, opens, command, Option.bind_some, items_append, h]
  rfl

theorem keepsOutside_memRead (a : RegAddr) (n : Nat) : KeepsOutside (memRead a n) :=
  (keepsOutside_frame _ (items_receives (by decide) n)).cons_set _

theorem keepsOutside_memWrite (a : RegAddr) (v : List Byte) : KeepsOutside (memWrite a v) :=
  keepsOutside_frame _ (items_sends (by decide) v)

theorem keepsOutside_memWriteCache (m : RegMap) : KeepsOutside (memWriteCache m) := keepsOutside_frame _ rfl

theorem keepsOutside_flushTx : KeepsOutside flushTxItems := keepsOutside_frame _ rfl

theorem keepsOutside_flushRx : KeepsOutside flushRxItems := keepsOutside_frame _ rfl

theorem keepsOutside_rdPl (n : Nat) : KeepsOutside (rdPlItems n) :=
  (keepsOutside_frame _ (items_receives (by decide) n)).cons_set _

theorem keepsOutside_wrPl (bytes : List Byte) : KeepsOutside (wrPlItems bytes) :=
  keepsOutside_frame _ (items_sends (by decide) bytes)

theorem keepsOutside_standby (m : RegMap) : KeepsOutside (standbyItems m) :=
  (((keepsOutside_memWrite _ _).append (keepsOutside_lvl_ce false)).append keepsOutside_flushTx).append keepsOutside_flushRx

theorem keepsOutside_pwrUp (m : RegMap) : KeepsOutside (pwrUpItems m) :=
  ((keepsOutside_memWriteCache m).append (keepsOutside_waitUs _)).cons_set _

theorem keepsOutside_pwrDn (m : RegMap) : KeepsOutside (pwrDnItems m) :=
  ((keepsOutside_memWriteCache m).append (keepsOutside_lvl_ce false)).cons_set _

theorem keepsOutside_modeRx (m : RegMap) : KeepsOutside (modeRxItems m) :=
  (((keepsOutside_memWriteCache m).append (keepsOutside_lvl_ce true)).append (keepsOutside_waitUs _)).cons_set _

theorem keepsOutside_modeTx (m : RegMap) : KeepsOutside (modeTxItems m) :=
  (((keepsOutside_memWriteCache m).append (keepsOutside_lvl_ce true)).append (keepsOutside_waitUs _)).cons_set _

theorem keepsOutside_poll (m : RegMap) : KeepsOutside (pollItems m) := (keepsOutside_memRead _ _).append rfl

theorem keepsOutside_rdReg (m : RegMap) (reg : Byte) (n : Nat) : KeepsOutside (rdRegItems m reg n) := by
  refine (keepsOutside_memRead _ _).append ?_
  split <;> rfl

theorem keepsOutside_wrReg (m : RegMap) (reg : Byte) (bytes : List Byte) : KeepsOutside (wrRegItems m reg bytes) := by
  refine (keepsOutside_memWrite _ _).append ?_
  unfold cacheWritten
  split
  · split <;> rfl
  · rfl

theorem keepsOutside_setRxAddr (m : RegMap) (pipe : Byte) (bytes : List Byte) : KeepsOutside (setRxAddrItems m pipe bytes) :=
  (((keepsOutside_memWrite _ _).append (keepsOutside_memRead _ _)).append (keepsOutside_set _)).append
    (keepsOutside_frame _ rfl)

theorem keepsOutside_setTxAddr (m : RegMap) (bytes : List Byte) : KeepsOutside (setTxAddrItems m bytes) :=
  ((keepsOutside_memWrite _ _).append (keepsOutside_memWrite _ _)).append (keepsOutside_set _)

/-- R167: an initialisation drives CSN high before its first frame, also where the trace has no CSN event yet. -/
theorem items_init {p : Phase} (hp : p.closed = true) (m : RegMap) (ce csn : Byte) :
    p.items (initItems m ce csn) = some .outside := by
  have drives : p.items [.set (.lineIds ce csn), .op (.dir .ce), .op (.dir .csn), .op (.lvl .ce false), .op (.lvl .csn true),
      .op .spiInit] = some .outside := by
    cases p with
    | fresh | outside => rfl
    | opened | inside => cases hp
  have frames : KeepsOutside (waitUs Config.tPwrupUs ++ (memWrite m.aConfig [m.configInit] ++ ([.set (.cacheSet m.configInit)]
      ++ (memRead m.aConfig 1 ++ ([.set .cacheRead] ++ (memRead m.aSetupAw 1 ++ [.set .widthRead, .set .initDone])))))) :=
    (keepsOutside_waitUs _).append <| (keepsOutside_memWrite _ _).append <| (keepsOutside_set _).append <|
      (keepsOutside_memRead _ _).append <| (keepsOutside_set _).append <| (keepsOutside_memRead _ _).append rfl
  simp only [initItems, List.append_assoc]
  exact (items_append_of drives _).trans frames

theorem items_radioInit {p : Phase} (hp : p.closed = true) (m : RegMap) (ce csn : Byte) :
    p.items (radioInitItems m ce csn) = some .outside := by
  have settings : KeepsOutside (setRfItems m Config.linkRate Config.linkPwr Config.linkLna ++ (setChItems m Config.linkChannel
      ++ (clrStatusItems m ++ (flushTxItems ++ (flushRxItems ++ (setPwItems m 0 Config.linkPayload
      ++ (setPwItems m 1 Config.linkPayload ++ (setRetrItems m Config.linkArc Config.linkArd ++ pwrUpItems m)))))))) :=
    (keepsOutside_memWrite _ _).append <| (keepsOutside_memWrite _ _).append <| (keepsOutside_memWrite _ _).append <|
      keepsOutside_flushTx.append <| keepsOutside_flushRx.append <| (keepsOutside_memWrite _ _).append <|
      (keepsOutside_memWrite _ _).append <| (keepsOutside_memWrite _ _).append <| keepsOutside_pwrUp m
  simp only [radioInitItems, List.append_assoc]
  exact (items_append_of (items_init hp m ce csn) _).trans settings

theorem keepsOutside_radioWrite (m : RegMap) (bytes : List Byte) : KeepsOutside (radioWriteItems m bytes) :=
  (((keepsOutside_wrPl _).append (keepsOutside_modeTx m)).append
    (show KeepsOutside [.op (.lvl .ce false), .set .pollStart] from rfl)).append (keepsOutside_poll m)

theorem keepsOutside_radioRead (m : RegMap) : KeepsOutside (radioReadItems m) :=
  ((keepsOutside_modeRx m).append (keepsOutside_memRead _ _)).append (keepsOutside_set _)

/-! ### The job of every operation -/

/-- Outside every frame every operation may begin. -/
theorem jobOf_keepsOutside (en : Bool) (hd : Handle) (m : RegMap) (i : Instr) : KeepsOutside (jobOf en hd m i).items := by
  cases i with
  | spiInitm | spiTx | spiRx => rfl
  | spiWrbuf n buf => exact items_sends (by decide) _
  | spiRdbuf n => exact items_receives (by decide) _
  | nrfRdreg reg n => exact keepsOutside_rdReg _ _ _
  | nrfWrreg reg n buf => exact keepsOutside_wrReg _ _ _
  | nrfStatus | nrfRxempty | nrfRxfull | nrfTxempty | nrfTxfull | radioHaspl => exact keepsOutside_memRead _ _
  | nrfClrstatus | nrfSetrf | nrfSetch | nrfSetretr | nrfSetpw | nrfDispipe => exact keepsOutside_memWrite _ _
  | nrfSetrxaddr pipe address => exact keepsOutside_setRxAddr _ _ _
  | nrfSettxaddr address => exact keepsOutside_setTxAddr _ _
  | nrfInit ce csn => exact items_init rfl _ _ _
  | nrfPwrup => exact keepsOutside_pwrUp m
  | nrfPwrdn => exact keepsOutside_pwrDn m
  | nrfModerx => exact keepsOutside_modeRx m
  | nrfModetx => exact keepsOutside_modeTx m
  | nrfStandby => exact keepsOutside_standby m
  | nrfFlushtx => exact keepsOutside_flushTx
  | nrfFlushrx => exact keepsOutside_flushRx
  | nrfRdpl n => exact keepsOutside_rdPl _
  | nrfWrpl n buf => exact keepsOutside_wrPl _
  | radioInit ce csn => exact items_radioInit rfl _ _ _
  | radioWrite n payload => exact keepsOutside_radioWrite _ _
  | radioRead n => exact keepsOutside_radioRead m
  | rRegister | wRegister | rRxPayload | wTxPayload | flushTx | flushRx => exact keepsOutside_nil

theorem jobOf_tailFits (en : Bool) (hd : Handle) (m : RegMap) (i : Instr) : tailFits .outside (jobOf en hd m i).tail = true := by
  cases i <;> rfl

/-- Before the first CSN event only the operations of the SPI master and the two initialisations pass the checks (R97), and they
may begin there. -/
theorem jobOf_fresh {en : Bool} {hd : Handle} {m : RegMap} {i : Instr} (hi : hd.initDone = false)
    (hc : (jobOf en hd m i).check = none) :
    ∃ q, Phase.items .fresh (jobOf en hd m i).items = some q ∧ tailFits q (jobOf en hd m i).tail = true := by
  cases i with
  | spiInitm | spiTx | spiRx => exact ⟨.fresh, rfl, rfl⟩
  | spiWrbuf n buf => exact ⟨.fresh, items_sends (by decide) _, rfl⟩
  | spiRdbuf n => exact ⟨.fresh, items_receives (by decide) _, rfl⟩
  | nrfInit ce csn => exact ⟨.outside, items_init rfl _ _ _, rfl⟩
  | radioInit ce csn => exact ⟨.outside, items_radioInit rfl _ _ _, rfl⟩
  | rRegister | wRegister | rRxPayload | wTxPayload | flushTx | flushRx => exact ⟨.fresh, rfl, rfl⟩
  | _ => cases hi.symm.trans (acceptanceFault_eq_none hc).1

/-! ### The sequencer -/

/-- A framed block that runs an operation. -/
theorem fits_of_framed {s : State} (h : s.Framed) (hb : s.ctl.busy = true) : Fits s.ctl.todo s := by
  obtain ⟨p, scan, csn, driven, rest⟩ := h
  rw [if_pos hb] at rest
  exact ⟨p, scan, csn, driven, rest⟩

/-- An operation all of whose items are performed: whether or not the outside leaves it the step of its completion. -/
theorem framed_tryComplete {s : State} {f : Finish} (hb : s.ctl.busy = true) (htodo : s.ctl.todo = [])
    (htail : s.ctl.tail = .finish f) (h : Fits [] s) : (s.tryComplete f).Framed := by
  obtain ⟨p, scan, csn, driven, q, hq, closed⟩ := h
  obtain rfl : p = q := Option.some.inj hq
  simp only [htail, tailFits] at closed
  simp only [State.tryComplete]
  split
  · exact ⟨p, scan, csn, driven, closed⟩
  · exact framed_of_fits ⟨p, scan, csn, driven, p, by rw [htodo]; rfl, by rw [htail]; exact closed⟩ hb
  · exact ⟨p, scan, csn, driven, closed⟩

theorem framed_runToEnd {s : State} {is : List Item} {f : Finish} (hb : s.ctl.busy = true)
    (h : Fits is { s with ctl.tail := .finish f }) : (s.runToEnd is f).Framed := by
  have fits := fits_runItems h
  have busy := (runItems_busy is { s with ctl.tail := .finish f }).trans hb
  simp only [State.runToEnd]
  split
  next done =>
    have todo := List.isEmpty_iff.mp done
    exact framed_tryComplete busy todo (runItems_tail _ _) (todo ▸ fits)
  next => exact framed_of_fits fits busy

/-- R202: every exit of the poll loop performs whole frames. -/
theorem pollExit_keepsOutside {s : State} {is : List Item} (h : s.pollExit = some is) : KeepsOutside is := by
  simp only [State.pollExit] at h
  split at h
  · cases h
    exact (keepsOutside_flushTx.append (keepsOutside_standby _)).cons_set _
  · split at h
    · cases h
      exact keepsOutside_standby _
    · split at h
      · cases h
        exact (keepsOutside_standby _).cons_set _
      · cases h

/-- A branch follows only where no frame is open. -/
theorem outside_of_tailFits {q : Phase} {k : Tail} (branch : ∀ f, k ≠ .finish f) (h : tailFits q k = true) : q = .outside := by
  cases k with
  | finish f => exact absurd rfl (branch f)
  | readBranch | pollBranch => exact of_decide_eq_true h

/-- After a sequence that a branch follows, whole frames may follow, whatever comes after them. -/
theorem fits_append {a b : List Item} {s : State} {k : Tail} (h : Fits a s) (branch : ∀ f, s.ctl.tail ≠ .finish f)
    (hb : KeepsOutside b) (hk : tailFits .outside k = true) : Fits (a ++ b) { s with ctl.tail := k } := by
  obtain ⟨p, scan, csn, driven, q, hq, fits⟩ := h
  obtain rfl := outside_of_tailFits branch fits
  exact ⟨p, scan, csn, driven, .outside, (items_append_of hq b).trans hb, hk⟩

theorem framed_append_todo {s : State} {is : List Item} (hb : s.ctl.busy = true) (htail : s.ctl.tail = .pollBranch)
    (h : Fits s.ctl.todo s) (hi : KeepsOutside is) : State.Framed { s with ctl.todo := s.ctl.todo ++ is } := by
  obtain ⟨p, scan, csn, driven, rest⟩ := fits_append (k := .pollBranch) h (by simp [htail]) hi rfl
  exact framed_of_fits ⟨p, scan, csn, driven, by rw [← htail] at rest; exact rest⟩ hb

theorem framed_pollAgain {s : State} (hb : s.ctl.busy = true) (htail : s.ctl.tail = .pollBranch) (h : Fits [] s) :
    s.pollAgain.Framed := by
  have delay : Fits [.op (.delayMs Config.tPollMs)] { s with ctl.tail := .pollBranch } :=
    fits_append (a := []) h (by simp [htail]) rfl rfl
  exact framed_append_todo ((runItems_busy _ _).trans hb) (runItems_tail _ _) (fits_runItems delay)
    ((keepsOutside_poll _).cons_set _)

theorem framed_runTail {s : State} (hb : s.ctl.busy = true) (htodo : s.ctl.todo = []) (h : Fits [] s) : s.runTail.Framed := by
  have ends {is : List Item} {f : Finish} (branch : ∀ f, s.ctl.tail ≠ .finish f) (hi : KeepsOutside is) :
      (s.runToEnd is f).Framed := framed_runToEnd hb (fits_append (a := []) h branch hi rfl)
  cases htail : s.ctl.tail with
  | finish f =>
    rw [State.runTail_finish htail]
    exact framed_tryComplete hb htodo htail h
  | readBranch n =>
    cases he : fifoRxEmpty s.cfg.regMap s.ctl.t with
    | true =>
      rw [State.runTail_noData htail he]
      exact ends (by simp [htail]) keepsOutside_nil
    | false =>
      rw [State.runTail_data htail he]
      exact ends (by simp [htail]) (keepsOutside_rdPl n)
  | pollBranch =>
    cases he : s.pollExit with
    | some is =>
      rw [State.runTail_pollExit htail he]
      exact ends (by simp [htail]) (pollExit_keepsOutside he)
    | none =>
      rw [State.runTail_pollAgain htail he]
      exact framed_pollAgain hb htail h

theorem framed_advance {s : State} (hb : s.ctl.busy = true) (h : Fits s.ctl.todo s) : s.advance.Framed := by
  have fits := fits_runItems h
  have busy := (runItems_busy s.ctl.todo s).trans hb
  simp only [State.advance]
  split
  next done =>
    have todo := List.isEmpty_iff.mp done
    exact framed_runTail busy todo (todo ▸ fits)
  next => exact framed_of_fits fits busy

/-! ### The step -/

/-- A host command begun in a framed idle block fits what its trace has reached. -/
theorem fits_begin {s : State} (c : HostCmd) (hb : s.ctl.busy = false) (h : s.Framed) : Fits (s.begin c).ctl.todo (s.begin c) := by
  obtain ⟨p, scan, csn, driven, closed⟩ := h
  rw [if_neg (by simp [hb])] at closed
  rcases decodeHost_cases c with hc | ⟨i, -, hc⟩
  · rw [State.begin_illegalOp hc]
    exact ⟨p, scan, csn, driven, p, rfl, closed⟩
  · rw [State.begin_instr hc]
    cases hk : (jobOf s.spi.en s.handle s.cfg.regMap i).check with
    | some k =>
      rw [State.take_fault hk]
      exact ⟨p, scan, csn, driven, p, rfl, closed⟩
    | none =>
      rw [State.take_items hk]
      cases p with
      | outside =>
        exact ⟨.outside, scan, csn, driven, .outside, jobOf_keepsOutside _ _ _ i, jobOf_tailFits _ _ _ i⟩
      | fresh =>
        have uninitialised : s.handle.initDone = false := Bool.eq_false_iff.mpr fun hi => driven hi rfl
        exact ⟨.fresh, scan, csn, driven, jobOf_fresh uninitialised hk⟩
      | opened | inside => cases closed

theorem clockEdge_framed {s t : State} (hr : s.inp.rst = false) (h : s.Framed) (ht : clockEdge s = .next t) : t.Framed := by
  rcases clockEdge_cases hr ht with ⟨hb, rfl⟩ | ⟨hb, c, -, rfl⟩ | ⟨-, op, data, hw⟩ | ⟨-, rfl⟩
  · exact framed_advance hb (fits_of_framed h hb)
  · exact framed_advance (State.begin_busy c s) (fits_begin c hb h)
  · obtain ⟨chip, wireOut, draws, rfl⟩ := State.wireFrame_changes hw
    exact h
  · exact h

/-- Settles O54: the outside's move touches nothing the discipline speaks of, and the clock edge keeps it. -/
theorem everyStepKeepsTheFrameDiscipline : Obligations.EveryStepKeepsTheFrameDiscipline := by
  intro s t h hr ht
  have moved : s.takeTurn.Framed := h
  exact clockEdge_framed hr moved ht

end Sys2Proof.Machine.Framing
end

