-- ==== Sys2Proof/Proofs/Resume.lean ====
section
/-! SUPPORT. The sequencer in equations, what it does not look at, and a run in two goes: cut where the budget ends and continued
without a limit, it does what the run without a limit does; only the poll loop pauses by itself (log 5). -/

namespace Sys2Proof.Machine

open Sys2Proof

/-! ### The sequencer in equations -/

/-- The same state with other items still to do. -/
def State.withTodo (is : List Item) (s : State) : State := { s with ctl.todo := is }

/-- The same state with something else to follow the items. -/
def State.withTail (t : Tail) (s : State) : State := { s with ctl.tail := t }

/-- The same state with another limit on the sequencer's steps. -/
def State.withBudget (b : Option Nat) (s : State) : State := { s with budget := b }

section equations

variable (s : State)

@[simp] theorem State.withTodo_todo (is : List Item) : (s.withTodo is).ctl.todo = is := rfl
@[simp] theorem State.withTodo_budget (is : List Item) : (s.withTodo is).budget = s.budget := rfl
@[simp] theorem State.withBudget_budget (b : Option Nat) : (s.withBudget b).budget = b := rfl

theorem State.withTodo_own {is : List Item} {s : State} (h : s.ctl.todo = is) : s.withTodo is = s := by
  subst h
  rfl

theorem State.withTodo_withBudget (is : List Item) (b : Option Nat) :
    (s.withTodo is).withBudget b = (s.withBudget b).withTodo is := rfl

theorem State.runItems_nil : s.runItems [] = s.withTodo [] := rfl

theorem State.runItems_set (t : Transfer) (is : List Item) : s.runItems (.set t :: is) = (s.transfer t).runItems is := rfl

theorem State.runItems_op_none {s : State} (h : s.budget = none) (m : MicroOp) (is : List Item) :
    s.runItems (.op m :: is) = (s.micro m).runItems is := by
  simp [State.runItems, h]

theorem State.runItems_op_zero {s : State} (h : s.budget = some 0) (m : MicroOp) (is : List Item) :
    s.runItems (.op m :: is) = s.withTodo (.op m :: is) := by
  simp [State.runItems, h, State.withTodo]

theorem State.runItems_op_succ {s : State} {k : Nat} (h : s.budget = some (k + 1)) (m : MicroOp) (is : List Item) :
    s.runItems (.op m :: is) = ((s.withBudget (some k)).micro m).runItems is := by
  simp [State.runItems, h, State.withBudget]

theorem State.tryComplete_zero {s : State} (h : s.budget = some 0) (f : Finish) : s.tryComplete f = s := by
  simp [State.tryComplete, h]

theorem State.tryComplete_succ {s : State} {k : Nat} (h : s.budget = some (k + 1)) (f : Finish) :
    s.tryComplete f = (s.withBudget (some k)).complete f := by
  simp [State.tryComplete, h, State.withBudget]

theorem State.runToEnd_eq (is : List Item) (f : Finish) :
    s.runToEnd is f = if ((s.withTail (.finish f)).runItems is).ctl.todo.isEmpty then
        ((s.withTail (.finish f)).runItems is).tryComplete f
      else (s.withTail (.finish f)).runItems is := rfl

/-- R202: the delay of the poll loop as far as the outside leaves it. -/
def State.pollDelay (s : State) : State := (s.withTail .pollBranch).runItems [.op (.delayMs Config.tPollMs)]

theorem State.pollAgain_eq :
    s.pollAgain = s.pollDelay.withTodo (s.pollDelay.ctl.todo ++ .set .delayDone :: pollItems s.pollDelay.cfg.regMap) := rfl

theorem State.advance_eq :
    s.advance = if (s.runItems s.ctl.todo).ctl.todo.isEmpty then (s.runItems s.ctl.todo).runTail else s.runItems s.ctl.todo := rfl

theorem State.advance_done {s : State} (h : (s.runItems s.ctl.todo).ctl.todo = []) :
    s.advance = (s.runItems s.ctl.todo).runTail := by
  simp [State.advance_eq, h]

theorem State.advance_more {s : State} (h : (s.runItems s.ctl.todo).ctl.todo ≠ []) : s.advance = s.runItems s.ctl.todo := by
  simp [State.advance_eq, h]

/-- What the sequencer does depends on where the items it has lead. -/
theorem State.advance_congr {s t : State} (h : s.runItems s.ctl.todo = t.runItems t.ctl.todo) : s.advance = t.advance := by
  rw [State.advance_eq, State.advance_eq, h]

end equations

/-! ### What the sequencer does not look at -/

/-- A change of the state that no part of the sequencer sees or undoes: it commutes with every part. -/
structure Blind (g : State → State) : Prop where
  micro : ∀ s m, (g s).micro m = g (s.micro m)
  transfer : ∀ s t, (g s).transfer t = g (s.transfer t)
  complete : ∀ s f, (g s).complete f = g (s.complete f)
  withTodo : ∀ s is, (g s).withTodo is = g (s.withTodo is)
  withTail : ∀ s t, (g s).withTail t = g (s.withTail t)
  withBudget : ∀ s b, (g s).withBudget b = g (s.withBudget b)
  budget : ∀ s, (g s).budget = s.budget
  ctl : ∀ s, (g s).ctl = s.ctl
  cfg : ∀ s, (g s).cfg = s.cfg

section blind

variable {g : State → State} (h : Blind g)
include h

theorem Blind.runItems (is : List Item) (s : State) : (g s).runItems is = g (s.runItems is) := by
  induction is generalizing s with
  | nil => exact h.withTodo s []
  | cons i is ih =>
    cases i with
    | set t => rw [State.runItems_set, h.transfer, ih, State.runItems_set]
    | op m =>
      have budget := h.budget s
      rcases hb : s.budget with - | - | k <;> rw [hb] at budget
      · rw [State.runItems_op_none budget, h.micro, ih, State.runItems_op_none hb]
      · rw [State.runItems_op_zero budget, h.withTodo, State.runItems_op_zero hb]
      · rw [State.runItems_op_succ budget, h.withBudget, h.micro, ih, State.runItems_op_succ hb]

theorem Blind.tryComplete (f : Finish) (s : State) : (g s).tryComplete f = g (s.tryComplete f) := by
  have budget := h.budget s
  rcases hb : s.budget with - | - | k <;> rw [hb] at budget
  · rw [State.tryComplete_all budget, h.complete, State.tryComplete_all hb]
  · rw [State.tryComplete_zero budget, State.tryComplete_zero hb]
  · rw [State.tryComplete_succ budget, h.withBudget, h.complete, State.tryComplete_succ hb]

theorem Blind.runToEnd (is : List Item) (f : Finish) (s : State) : (g s).runToEnd is f = g (s.runToEnd is f) := by
  simp only [State.runToEnd_eq, h.withTail, h.runItems, h.ctl, h.tryComplete, apply_ite g]

theorem Blind.pollExit (s : State) : (g s).pollExit = s.pollExit := by
  simp only [State.pollExit, h.cfg, h.ctl]

theorem Blind.pollAgain (s : State) : (g s).pollAgain = g s.pollAgain := by
  simp only [State.pollAgain_eq, State.pollDelay, h.withTail, h.runItems, h.ctl, h.cfg, h.withTodo]

theorem Blind.runTail (s : State) : (g s).runTail = g s.runTail := by
  simp only [State.runTail, h.ctl, h.cfg, h.pollExit]
  split
  · exact h.tryComplete _ s
  · split <;> exact h.runToEnd _ _ s
  · split
    · exact h.runToEnd _ _ s
    · exact h.pollAgain s

theorem Blind.advance (s : State) : (g s).advance = g s.advance := by
  simp only [State.advance_eq, h.ctl, h.runItems, h.runTail, apply_ite g]

end blind

/-- The same state with other levels on the input pins. -/
def State.repin (pins : Inputs) (s : State) : State := { s with inp := pins }

theorem State.rescheduled_eq_repin {b : Option Nat} {is : List Item} {s : State} (hb : s.budget = b) (ht : s.ctl.todo = is)
    (pins : Inputs) : s.rescheduled b is pins = s.repin pins := by
  subst hb ht
  rfl

/-- R31, R32: a running operation does not look at the input pins. -/
theorem blind_repin (pins : Inputs) : Blind (State.repin pins) where
  micro s m :=
    (s.micro_rescheduled s.budget s.ctl.todo pins m).trans (State.rescheduled_eq_repin (by simp) (by simp) pins)
  transfer s t := by cases t <;> rfl
  complete s f := rfl
  withTodo s is := rfl
  withTail s t := rfl
  withBudget s b := rfl
  budget s := rfl
  ctl s := rfl
  cfg s := rfl

/-! ### Going on without a limit -/

theorem State.rescheduled_eq_withTodo {b : Option Nat} {is : List Item} {s : State} (hb : s.budget = b) (pins : Inputs)
    (hp : s.inp = pins) : s.rescheduled b is pins = s.withTodo is := by
  subst hb hp
  rfl

theorem State.rescheduled_eq_withBudget {b : Option Nat} {is : List Item} {s : State} (ht : s.ctl.todo = is) (pins : Inputs)
    (hp : s.inp = pins) : s.rescheduled b is pins = s.withBudget b := by
  subst ht hp
  rfl

section unlimited

variable (s : State)

theorem State.micro_withTodo (is : List Item) (m : MicroOp) : (s.withTodo is).micro m = (s.micro m).withTodo is :=
  (s.micro_rescheduled s.budget is s.inp m).trans (State.rescheduled_eq_withTodo (by simp) _ (by simp))

theorem State.micro_withBudget (b : Option Nat) (m : MicroOp) : (s.withBudget b).micro m = (s.micro m).withBudget b :=
  (s.micro_rescheduled b s.ctl.todo s.inp m).trans (State.rescheduled_eq_withBudget (by simp) _ (by simp))

theorem State.transfer_withTodo (is : List Item) (t : Transfer) : (s.withTodo is).transfer t = (s.transfer t).withTodo is := by
  cases t <;> rfl

theorem State.transfer_withBudget (b : Option Nat) (t : Transfer) :
    (s.withBudget b).transfer t = (s.transfer t).withBudget b := by
  cases t <;> rfl

/-- The sequencer performs the items it is given, whatever `todo` held before. -/
theorem State.runItems_withTodo (is items : List Item) : (s.withTodo is).runItems items = s.runItems items := by
  induction items generalizing s with
  | nil => rfl
  | cons x items ih =>
    cases x with
    | set t => rw [State.runItems_set, State.transfer_withTodo, ih, State.runItems_set]
    | op m =>
      have budget := s.withTodo_budget is
      rcases hb : s.budget with - | - | k <;> rw [hb] at budget
      · rw [State.runItems_op_none budget, State.micro_withTodo, ih, State.runItems_op_none hb]
      · rw [State.runItems_op_zero budget, State.runItems_op_zero hb]
        rfl
      · rw [State.runItems_op_succ budget, State.withTodo_withBudget, State.micro_withTodo, ih, State.runItems_op_succ hb]

/-- The state with no limit on its steps. -/
def State.unlimited (s : State) : State := s.withBudget none

@[simp] theorem State.unlimited_budget : s.unlimited.budget = none := rfl
@[simp] theorem State.unlimited_ctl : s.unlimited.ctl = s.ctl := rfl
@[simp] theorem State.withTail_unlimited (t : Tail) : (s.withTail t).unlimited = s.unlimited.withTail t := rfl
@[simp] theorem State.withTodo_unlimited (is : List Item) : (s.withTodo is).unlimited = s.unlimited.withTodo is := rfl
@[simp] theorem State.withBudget_unlimited (b : Option Nat) : (s.withBudget b).unlimited = s.unlimited := rfl
@[simp] theorem State.micro_unlimited (m : MicroOp) : (s.micro m).unlimited = s.unlimited.micro m :=
  (s.micro_withBudget none m).symm
@[simp] theorem State.transfer_unlimited (t : Transfer) : (s.transfer t).unlimited = s.unlimited.transfer t :=
  (s.transfer_withBudget none t).symm

/-- Items performed in two goes: as far as the budget lasts, and then the rest without a limit. -/
theorem State.runItems_resume (items : List Item) :
    (s.runItems items).unlimited.runItems (s.runItems items).ctl.todo = s.unlimited.runItems items := by
  induction items generalizing s with
  | nil => rfl
  | cons x items ih =>
    cases x with
    | set t => rw [State.runItems_set, ih, State.transfer_unlimited, State.runItems_set]
    | op m =>
      rcases hb : s.budget with - | - | k
      · rw [State.runItems_op_none hb, ih, State.micro_unlimited, State.runItems_op_none s.unlimited_budget]
      · rw [State.runItems_op_zero hb, State.withTodo_todo, State.withTodo_unlimited, State.runItems_withTodo]
      · rw [State.runItems_op_succ hb, ih, State.micro_unlimited, State.withBudget_unlimited,
          State.runItems_op_none s.unlimited_budget]

/-- Without a limit two sequences are one. -/
theorem State.runItems_append {s : State} (h : s.budget = none) (a b : List Item) :
    s.runItems (a ++ b) = (s.runItems a).runItems b :=
  calc s.runItems (a ++ b) = ((s.perform a).perform b).withTodo [] := by
        rw [State.runItems_all h, State.perform_append]
        rfl
    _ = (s.perform a).runItems b := (State.runItems_all (by simpa using h) b).symm
    _ = ((s.perform a).withTodo []).runItems b := (State.runItems_withTodo _ _ _).symm
    _ = (s.runItems a).runItems b := by
        rw [State.runItems_all h a]
        rfl

theorem State.runItems_cfg (items : List Item) : (s.runItems items).cfg = s.cfg :=
  congrArg (fun c => c.2.1) (untouched_context.runItems items s)

/-- A budget of k steps lasts for at most k micro-operations. -/
theorem State.runItems_todo_eq_nil_iff {s : State} {k : Nat} (h : s.budget = some k) (items : List Item) :
    (s.runItems items).ctl.todo = [] ↔ microOps items ≤ k := by
  obtain ⟨done, rest, -, run, left⟩ := State.runItems_cut items k s.ctl.todo s.inp s
  have start : s.rescheduled (some k) s.ctl.todo s.inp = s := by
    rw [← h]
    rfl
  have todo : (s.runItems items).ctl.todo = rest := by
    rw [start] at run
    rw [run]
    rfl
  rw [todo]
  rcases left with ⟨nil, enough⟩ | ⟨more, short, -⟩
  · exact iff_of_true nil enough
  · exact iff_of_false more (Nat.not_le.mpr short)

/-! ### A cut operation goes on -/

/-- Nothing is left to do once the items are performed without a limit. -/
theorem State.runItems_unlimited_todo (items : List Item) : (s.unlimited.runItems items).ctl.todo = [] := by
  rw [State.runItems_all s.unlimited_budget]

/-- An operation still busy after its last item has been cut before its completion. -/
theorem State.tryComplete_busy {s : State} {f : Finish} (h : (s.tryComplete f).ctl.busy = true) : s.tryComplete f = s := by
  rcases hb : s.budget with - | - | k
  · rw [State.tryComplete_all hb] at h
    cases h
  · exact State.tryComplete_zero hb f
  · rw [State.tryComplete_succ hb] at h
    cases h

theorem State.runToEnd_busy {s : State} {is : List Item} {f : Finish} (h : (s.runToEnd is f).ctl.busy = true) :
    s.runToEnd is f = (s.withTail (.finish f)).runItems is := by
  rw [State.runToEnd_eq] at h ⊢
  split at h
  next done => rw [if_pos done, State.tryComplete_busy h]
  next more => rw [if_neg more]

theorem State.runToEnd_resume {s : State} {is : List Item} {f : Finish} (h : (s.runToEnd is f).ctl.busy = true) :
    (s.runToEnd is f).unlimited.advance = s.unlimited.runToEnd is f := by
  have resume := State.runItems_resume (s.withTail (.finish f)) is
  have todo := State.runItems_unlimited_todo (s.withTail (.finish f)) is
  have tail : ((s.withTail (.finish f)).unlimited.runItems is).ctl.tail = .finish f := Framing.runItems_tail _ _
  rw [State.runToEnd_busy h, State.advance_eq, State.unlimited_ctl, resume, State.runTail_finish tail]
  simp only [todo]
  rw [State.runToEnd_eq, ← State.withTail_unlimited, todo]

/-- A cut after the branch: the operation goes on as if it had not been cut. Only the poll loop pauses by itself. -/
theorem State.runTail_resume {s : State} (htodo : s.ctl.todo = []) (h : s.runTail.ctl.busy = true)
    (hp : s.runTail.ctl.tail ≠ .pollBranch) : s.runTail.unlimited.advance = s.unlimited.runTail := by
  cases htail : s.ctl.tail with
  | finish f =>
    rw [State.runTail_finish htail] at h ⊢
    rw [State.tryComplete_busy h]
    have nothing : s.unlimited.runItems s.unlimited.ctl.todo = s.unlimited := by
      rw [State.unlimited_ctl, htodo]
      exact State.withTodo_own htodo
    rw [State.advance_done (by rw [nothing]; exact htodo), nothing]
  | readBranch n =>
    cases he : fifoRxEmpty s.cfg.regMap s.ctl.t with
    | true =>
      rw [State.runTail_noData htail he] at h ⊢
      rw [State.runTail_noData (s := s.unlimited) htail he, State.runToEnd_resume h]
    | false =>
      rw [State.runTail_data htail he] at h ⊢
      rw [State.runTail_data (s := s.unlimited) htail he, State.runToEnd_resume h]
  | pollBranch =>
    cases he : s.pollExit with
    | some is =>
      rw [State.runTail_pollExit htail he] at h ⊢
      rw [State.runTail_pollExit (s := s.unlimited) htail he, State.runToEnd_resume h]
    | none =>
      rw [State.runTail_pollAgain htail he] at hp
      exact absurd (Framing.runItems_tail _ _) hp

/-- Where the sequencer stands when it is cut or pauses: what it does next, without a limit, is what it would have done. -/
theorem State.advance_resume {s : State} (h : s.advance.ctl.busy = true)
    (hp : s.advance.ctl.tail ≠ .pollBranch ∨ (s.runItems s.ctl.todo).ctl.todo ≠ []) :
    s.advance.unlimited.advance = s.unlimited.advance := by
  have resume := s.runItems_resume s.ctl.todo
  by_cases done : (s.runItems s.ctl.todo).ctl.todo = []
  · have tail := hp.resolve_right (not_not_intro done)
    rw [State.advance_done done] at h tail ⊢
    rw [done, State.runItems_nil] at resume
    have unlimited : s.unlimited.runItems s.unlimited.ctl.todo = (s.runItems s.ctl.todo).unlimited :=
      resume.symm.trans (State.withTodo_own done)
    rw [State.runTail_resume done h tail, State.advance_done (s := s.unlimited) (by rw [unlimited]; exact done), unlimited]
  · rw [State.advance_more done]
    exact State.advance_congr resume

/-! ### The pause of the poll loop -/

theorem State.runToEnd_tail {s : State} {is : List Item} {f : Finish} (h : (s.runToEnd is f).ctl.busy = true) :
    (s.runToEnd is f).ctl.tail = .finish f := by
  rw [State.runToEnd_busy h]
  exact Framing.runItems_tail _ _

/-- A busy block with a branch of the poll loop before it is pausing: the branch just taken goes on polling. -/
theorem State.runTail_paused {s : State} (h : s.runTail.ctl.busy = true) (hp : s.runTail.ctl.tail = .pollBranch) :
    s.ctl.tail = .pollBranch ∧ s.pollExit = none := by
  cases htail : s.ctl.tail with
  | finish f =>
    rw [State.runTail_finish htail] at h hp
    rw [State.tryComplete_busy h, htail] at hp
    cases hp
  | readBranch n =>
    cases he : fifoRxEmpty s.cfg.regMap s.ctl.t with
    | true =>
      rw [State.runTail_noData htail he] at h hp
      cases hp.symm.trans (State.runToEnd_tail h)
    | false =>
      rw [State.runTail_data htail he] at h hp
      cases hp.symm.trans (State.runToEnd_tail h)
  | pollBranch =>
    cases he : s.pollExit with
    | some is =>
      rw [State.runTail_pollExit htail he] at h hp
      cases hp.symm.trans (State.runToEnd_tail h)
    | none => exact ⟨rfl, rfl⟩

/-- Only the poll loop leads to a branch of the poll loop. -/
theorem State.advance_tail_ne_pollBranch {s : State} {f : Finish} (htail : s.ctl.tail = .finish f)
    (h : s.advance.ctl.busy = true) : s.advance.ctl.tail ≠ .pollBranch := by
  have tail : (s.runItems s.ctl.todo).ctl.tail = .finish f := (Framing.runItems_tail _ _).trans htail
  intro hp
  by_cases done : (s.runItems s.ctl.todo).ctl.todo = []
  · rw [State.advance_done done] at h hp
    cases tail.symm.trans (State.runTail_paused h hp).1
  · rw [State.advance_more done] at hp
    cases tail.symm.trans hp

theorem State.pollAgain_busy : s.pollAgain.ctl.busy = s.ctl.busy := Framing.runItems_busy _ _

/-- After a pause the rest of the delay and the next poll follow, wherever in the delay the pause is. -/
theorem State.pollAgain_then :
    s.pollAgain.unlimited.runItems s.pollAgain.ctl.todo =
      s.unlimited.pollDelay.runItems (.set .delayDone :: pollItems s.cfg.regMap) := by
  have resume : s.pollDelay.unlimited.runItems s.pollDelay.ctl.todo = s.unlimited.pollDelay := State.runItems_resume _ _
  have cfg : s.pollDelay.cfg = s.cfg := State.runItems_cfg _ _
  rw [State.pollAgain_eq, State.withTodo_unlimited, State.withTodo_todo, State.runItems_withTodo,
    State.runItems_append (State.unlimited_budget _), resume, cfg]

/-- R202, log 5: cut at or after a branch that goes on polling, the operation is where the uncut one pauses, and goes on from
there. -/
theorem State.advance_paused {s : State} (done : (s.runItems s.ctl.todo).ctl.todo = []) (h : s.advance.ctl.busy = true)
    (hp : s.advance.ctl.tail = .pollBranch) :
    s.unlimited.advance.ctl.busy = true ∧ s.advance.unlimited.advance = s.unlimited.advance.unlimited.advance := by
  have resume := s.runItems_resume s.ctl.todo
  rw [done, State.runItems_nil] at resume
  have unlimited : s.unlimited.runItems s.unlimited.ctl.todo = (s.runItems s.ctl.todo).unlimited :=
    resume.symm.trans (State.withTodo_own done)
  rw [State.advance_done done] at h hp
  obtain ⟨tail, stays⟩ := State.runTail_paused h hp
  have cut : s.advance = (s.runItems s.ctl.todo).pollAgain := by
    rw [State.advance_done done, State.runTail_pollAgain tail stays]
  have uncut : s.unlimited.advance = (s.runItems s.ctl.todo).unlimited.pollAgain := by
    rw [State.advance_done (s := s.unlimited) (by rw [unlimited]; exact done), unlimited]
    exact State.runTail_pollAgain tail stays
  have same := (State.pollAgain_then (s.runItems s.ctl.todo)).trans
    (State.pollAgain_then (s.runItems s.ctl.todo).unlimited).symm
  rw [State.runTail_pollAgain tail stays, State.pollAgain_busy] at h
  rw [cut, uncut]
  exact ⟨(State.pollAgain_busy _).trans h, State.advance_congr same⟩

end unlimited

end Sys2Proof.Machine
end

