-- ==== Sys2Proof/Proofs/CutOperation.lean ====
section
/-! PROOF. O13 (R15): the step cut after some of its micro-operations and the uncut step are the sequencer's from one place, and a
cut operation goes on without a limit. -/

namespace Sys2Proof.Machine

open Sys2Proof

/-! ### A running operation -/

/-- A running operation against the free oracle; the outside has nothing more in its schedule. -/
structure State.Running (s : State) : Prop where
  far : s.far = .free
  turns : s.turns = []
  busy : s.ctl.busy = true
  notDone : s.ctl.done = false

/-- R34: `done` is not raised before the completion. -/
theorem kept_notDone : Kept fun s => s.ctl.busy = true → s.ctl.done = false where
  micro s m := by simp
  transfer s t := by simp
  complete s f _ hb := by cases hb
  todo s is h := h
  tail s t h := h
  budget s b h := h

theorem State.Running.advance {s : State} (h : s.Running) (hb : s.advance.ctl.busy = true) : s.advance.Running where
  far := s.advance_far.trans h.far
  turns := s.advance_turns.trans h.turns
  busy := hb
  notDone := kept_notDone.advance (fun _ => h.notDone) hb

theorem State.Running.unlimited {s : State} (h : s.Running) : s.unlimited.Running := ⟨h.far, h.turns, h.busy, h.notDone⟩

theorem State.Running.takeTurn {s : State} (h : s.Running) :
    s.takeTurn = s.unlimited.repin { rst := false, valid := false, cmd := s.inp.cmd, frame := none } := by
  obtain ⟨-, turns, busy, notDone⟩ := h
  have lowered : ({ s with ctl.done := false } : State) = s := by rw [← notDone]
  have moved : s.takeTurn = State.repin { rst := false, valid := false, cmd := s.inp.cmd, frame := none }
      (State.unlimited { s with ctl.done := false }) := by
    simp [State.takeTurn, nextLine, quietTurn, State.repin, State.unlimited, State.withBudget, turns, busy]
  rw [moved, lowered]

/-- With nothing in its way a running operation goes on without a limit; only the input pins show the step. -/
theorem State.Running.step {s : State} (h : s.Running) : ∃ pins, step s = .next (s.unlimited.advance.repin pins) := by
  refine ⟨{ rst := false, valid := false, cmd := s.inp.cmd, frame := none }, ?_⟩
  have free := (State.advance_far _).trans h.unlimited.far
  have run := clockEdge_busy (s := s.unlimited.repin { rst := false, valid := false, cmd := s.inp.cmd, frame := none }) rfl h.busy
  rw [Machine.step, h.takeTurn, run, (blind_repin _).advance]
  exact State.outcome_free free

theorem State.Running.resume {s : State} (h : s.Running) (hb : s.advance.ctl.busy = true)
    (hp : s.advance.ctl.tail ≠ .pollBranch ∨ (s.runItems s.ctl.todo).ctl.todo ≠ []) :
    ∃ pins, Machine.step s.advance = .next (s.unlimited.advance.repin pins) := by
  rw [← State.advance_resume hb hp]
  exact (h.advance hb).step

section beginning

variable (c : HostCmd) (s : State)

theorem State.take_withBudget (j : Job) (b : Option Nat) : (s.withBudget b).take j = (s.take j).withBudget b := by
  cases hk : j.check with
  | some k => rw [State.take_fault hk, State.take_fault hk]; rfl
  | none => rw [State.take_items hk, State.take_items hk]; rfl

theorem State.begin_withBudget (b : Option Nat) : (s.withBudget b).begin c = (s.begin c).withBudget b := by
  rcases decodeHost_cases c with hc | ⟨i, -, hc⟩
  · rw [State.begin_illegalOp hc, State.begin_illegalOp hc]
    exact State.take_withBudget (s.accept (.host c)) _ b
  · rw [State.begin_instr hc, State.begin_instr hc]
    exact State.take_withBudget (s.accept (.host c)) _ b

/-- R202: `RADIO.WRITE` of n bytes has n + 14 micro-operations before its first branch, unless it fails a check. -/
theorem State.begin_radioWrite {c : HostCmd} {n : Len} {payload : Buf} (h : decodeHost c = .instr (.radioWrite n payload)) :
    microOps (s.begin c).ctl.todo = n.toNat + 14 ∨
      microOps (s.begin c).ctl.todo = 0 ∧ ∃ f, (s.begin c).ctl.tail = .finish f := by
  rw [State.begin_instr h]
  cases hk : (jobOf s.spi.en s.handle s.cfg.regMap (.radioWrite n payload)).check with
  | some k =>
    rw [State.take_fault hk]
    exact .inr ⟨rfl, _, rfl⟩
  | none =>
    rw [State.take_items hk]
    have length : n.toNat ≤ 32 := of_decide_eq_true (acceptanceFault_eq_none hk).2.1
    have items := microOps_radioWriteItems s.cfg.regMap (bufBytes payload n.toNat)
    rw [bufBytes_length payload n.toNat length] at items
    exact .inl items

end beginning

theorem State.takeTurn_quiet {s : State} (hs : s.turns = []) :
    s.takeTurn.inp.rst = false ∧ s.takeTurn.turns = [] ∧ s.takeTurn.unlimited = s.takeTurn := by
  have budget : s.takeTurn.budget = none := by simp [State.takeTurn, hs, quietTurn]
  refine ⟨by simp [State.takeTurn, hs, quietTurn], by simp [State.takeTurn, hs], ?_⟩
  rw [State.unlimited, ← budget]
  rfl

/-- A turn that only cuts the step differs from a quiet one in the budget it leaves. -/
theorem State.takeTurn_cut {s : State} (hs : s.turns = []) (k : Nat) :
    State.takeTurn { s with turns := [{ rst := false, cmd := none, air := [], budget := some k }] } =
      s.takeTurn.withBudget (some k) := by
  simp [State.takeTurn, State.withBudget, hs, quietTurn]

/-- A step cut after k micro-operations that leaves the block busy: it is the sequencer cut after k, and the uncut step is the
sequencer uncut, from the same place in the same operation. -/
theorem step_cut {s t : State} {k : Nat} (hf : s.far = .free) (hs : s.turns = [])
    (h : step { s with turns := [{ rst := false, cmd := none, air := [], budget := some k }] } = .next t)
    (hb : t.ctl.busy = true) :
    ∃ z : State, z.Running ∧ z.budget = some k ∧ t = z.advance ∧ step s = .next z.unlimited.advance ∧
      (s.ctl.busy = true ∧ z.ctl.todo = s.ctl.todo ∨
        s.ctl.busy = false ∧ ∃ (c : HostCmd) (x : State), s.takeTurn.presented = some (.host c) ∧ z = x.begin c) := by
  obtain ⟨noReset, turns, uncut⟩ := State.takeTurn_quiet hs
  have still (u : State) (e : t = u) (idle : u.ctl.busy = false) : False := by
    rw [e, idle] at hb
    cases hb
  rw [step, State.takeTurn_cut hs] at h
  rcases clockEdge_cases (s := s.takeTurn.withBudget (some k)) noReset h with
    ⟨busy, e⟩ | ⟨idle, c, presented, e⟩ | ⟨idle, op, data, hw⟩ | ⟨idle, e⟩
  · refine ⟨s.takeTurn.withBudget (some k), ⟨hf, turns, busy, rfl⟩, rfl, e, ?_, .inl ⟨busy, rfl⟩⟩
    rw [State.withBudget_unlimited, uncut, step, clockEdge_busy noReset busy]
    exact State.outcome_free ((State.advance_far _).trans hf)
  · have far : (s.takeTurn.begin c).far = .free := (State.begin_far c _).trans hf
    have begun : (s.takeTurn.begin c).unlimited = s.takeTurn.begin c := by
      rw [State.unlimited, ← State.begin_withBudget, ← State.unlimited, uncut]
    refine ⟨(s.takeTurn.withBudget (some k)).begin c, ?_, ?_, e, ?_, .inr ⟨idle, c, _, presented, rfl⟩⟩
    · exact ⟨(State.begin_far c _).trans hf, (State.begin_turns c _).trans turns, State.begin_busy c _,
        State.begin_notDone c _⟩
    · rw [State.begin_withBudget, State.withBudget_budget]
    · rw [State.begin_withBudget, State.withBudget_unlimited, begun, step, clockEdge_host noReset idle presented]
      exact State.outcome_free ((State.advance_far _).trans far)
  · obtain ⟨chip, wireOut, draws, e⟩ := State.wireFrame_changes hw
    exact (still _ e idle).elim
  · exact (still _ e idle).elim

/-- Settles O13: both steps are the sequencer's from one place; a cut before the branch resumes there, and a cut at or after a
branch that goes on polling resumes where the uncut operation pauses. -/
theorem cutOperationEndsTheSame : Obligations.CutOperationEndsTheSame := by
  intro s k t hf hs cut hb
  obtain ⟨z, running, budget, rfl, uncut, place⟩ := step_cut hf hs cut hb
  have same (hp : z.advance.ctl.tail ≠ .pollBranch ∨ (z.runItems z.ctl.todo).ctl.todo ≠ []) :
      ∃ u v, step z.advance = .next u ∧ step s = .next v ∧ u = { v with inp := u.inp } := by
    obtain ⟨pins, resumed⟩ := running.resume hb hp
    exact ⟨_, _, resumed, uncut, rfl⟩
  refine ⟨fun tail => same (.inl tail), fun m hm => ?_⟩
  have length : microOps z.ctl.todo ≤ m ∧ (microOps z.ctl.todo = m ∨ ∃ f, z.ctl.tail = .finish f) := by
    rcases hm with ⟨busy, -, rfl⟩ | ⟨idle, c, rest, n, payload, program, decoded, rfl⟩
    · rcases place with ⟨-, todo⟩ | ⟨idle, -⟩
      · exact ⟨todo ▸ le_rfl, .inl (by rw [todo])⟩
      · cases busy.symm.trans idle
    · rcases place with ⟨busy, -⟩ | ⟨-, c', x, presented, rfl⟩
      · cases busy.symm.trans idle
      · have line : s.takeTurn.presented = some (.host c) := by
          rw [State.takeTurn_hostLine idle hs program]
          rfl
        obtain rfl : c' = c := by simpa [line] using presented.symm
        rcases State.begin_radioWrite x decoded with whole | ⟨none, fault⟩
        · exact ⟨whole.le, .inl whole⟩
        · exact ⟨none ▸ Nat.zero_le _, .inr fault⟩
  constructor
  · intro hk
    rcases length.2 with exactly | ⟨f, tail⟩
    · exact same (.inr fun done => absurd ((State.runItems_todo_eq_nil_iff budget _).mp done) (by omega))
    · exact same (.inl (State.advance_tail_ne_pollBranch tail hb))
  · intro hk tail
    have done := (State.runItems_todo_eq_nil_iff budget _).mpr (length.1.trans hk)
    obtain ⟨busy, later⟩ := State.advance_paused done hb tail
    obtain ⟨pins, resumed⟩ := (running.advance hb).step
    obtain ⟨pins', polled⟩ := (running.unlimited.advance busy).step
    rw [later] at resumed
    exact ⟨_, _, _, resumed, uncut, polled, rfl⟩

end Sys2Proof.Machine
end

