-- ==== Sys2Proof/Proofs/Scope.lean ====
section
/-! PROOF. The parameters (R6) and the step as the meaning of the decoded command (R15, R96, R104). -/

namespace Sys2Proof.Machine

open Sys2Proof

/-- Settles O6: each value is the one written in `RegMap.standard` and `Config.standard`. -/
theorem defaultParameters : Obligations.DefaultParameters := by
  unfold Obligations.DefaultParameters
  decide

/-- An idle block without `rst` runs what the presented command decodes to. -/
theorem clockEdge_instr {s : State} {c : Command} {i : Instr} (hr : s.inp.rst = false) (hb : s.ctl.busy = false)
    (hp : s.presented = some c) (hd : decode c = .instr i) : clockEdge s = exec i (s.accept c) := by
  simp [clockEdge, hr, hb, hp, dispatch, hd]

/-- Settles O9: the outside presents the line, and the idle block runs what it decodes to. -/
theorem stepRunsTheDecodedInstruction : Obligations.StepRunsTheDecodedInstruction := by
  intro s rest i hb ht
  constructor
  · intro c hp hd
    have turn := State.takeTurn_hostLine hb ht hp
    have run := clockEdge_instr (s := s.takeTurn) (c := .host c) (by rw [turn]) hb (by rw [turn]; rfl) hd
    rw [step, run, turn]
    rfl
  · intro bytes hp hd
    have turn := State.takeTurn_wireLine hb ht hp
    have run := clockEdge_instr (s := s.takeTurn) (c := .wire bytes) (by rw [turn]) hb (by rw [turn]; rfl) hd
    rw [step, run, turn]
    rfl

end Sys2Proof.Machine
end

