-- ==== Sys2Proof/Proofs/Reset.lean ====
section
/-! PROOF. Reset (R53, R280 to R283): the step with `rst` gives every element its value, and the machine right after reset meets
the invariants. -/

namespace Sys2Proof.Machine

open Sys2Proof

/-- A turn with `rst`: the host issues no line. -/
theorem State.takeTurn_rst {s : State} {turn : Turn} {rest : List Turn} (ht : s.turns = turn :: rest) (hr : turn.rst = true) :
    s.takeTurn.inp.rst = true ∧ s.takeTurn.program = s.program ∧ s.takeTurn.turns = rest := by
  simp [State.takeTurn, ht, hr, nextLine]

/-- R280: with `rst` the step is the reset, whatever the block was doing. -/
theorem step_reset {s : State} (h : s.takeTurn.inp.rst = true) : step s = .next s.takeTurn.resetBlock := by
  simp [step, clockEdge, h]

/-- R281, R282: only a frame of the reference chip that is open is cut short. -/
theorem State.resetBlock_chip {s : State} (h : s.far = .free ∨ s.chip.sel = false) : s.resetBlock.chip = s.chip := by
  rcases h with far | closed
  · simp [State.resetBlock, far]
  · cases far : s.far <;> simp [State.resetBlock, far, closed]

/-- Without the power bit in the cache the mode is `PowerDown`, whatever the register map (R165). -/
theorem modeOf_zero (m : RegMap) (ce : Bool) : modeOf m 0 ce = .powerDown := by simp [modeOf, testBit]

/-- Settles O7: the step is the block's reset, whose values are those of R53. -/
theorem resetGivesEveryElementItsValue : Obligations.ResetGivesEveryElementItsValue := by
  intro s turn rest ht hr
  obtain ⟨rst, program, turns⟩ := State.takeTurn_rst ht hr
  have mosiOut : State.resetSpi.mosiOut = false := by decide
  exact ⟨_, step_reset rst, rfl, rfl, rfl, mosiOut, rfl, rfl, rfl, rfl, rfl, rfl, rfl, rfl, rfl, rfl, rfl, modeOf_zero _ _, rfl, rfl,
    rfl, rfl, rfl, rfl, program, turns, fun kept => State.resetBlock_chip kept⟩

/-- Settles O8: the trace is empty, the block idle and uninitialised, the chip at power-on. -/
theorem resetMeetsTheInvariants : Obligations.ResetMeetsTheInvariants := by
  have framed : State.reset.Framed := ⟨.fresh, rfl, rfl, (fun initDone => nomatch initDone), rfl⟩
  have chip : State.reset.chip.Sound := ⟨rfl, by decide, by decide, by decide, by decide⟩
  have rsp : State.reset.rsp.Sound := ⟨by decide, by decide⟩
  have driven : State.reset.StaysDriven := ⟨(fun initDone => nomatch initDone), fun busy => nomatch busy⟩
  exact ⟨framed, chip, rsp, driven, rfl, rfl, rfl, by decide, by decide⟩

end Sys2Proof.Machine
end

