-- ==== Sys2Proof/Proofs/Ownership.lean ====
section
/-! PROOF. Who writes what (R20 to R25, R173, R178): which item writes which of the owned fields, which items each operation
performs, and that the sequencer leaves alone what none of them writes. -/

namespace Sys2Proof.Machine

open Sys2Proof

/-! ### What an item writes -/

/-- The fields that only certain operations write: what an initialisation sets (R20, R21, R23, R25), the cached address (R24), the
cached configuration and CE (R22, R173). -/
inductive Owned where
  | identity
  | address
  | mode
deriving DecidableEq

/-- The handle and the CE level with every field outside the group blanked. -/
def State.owned (g : Owned) (s : State) : Handle × Bool :=
  match g with
  | .identity =>
    ({ s.handle with configCache := 0, txAddrCache := State.resetHandle.txAddrCache }, false)
  | .address => ({ State.resetHandle with txAddrCache := s.handle.txAddrCache }, false)
  | .mode => ({ State.resetHandle with configCache := s.handle.configCache }, s.lines.ceLvl)

theorem State.owned_congr {s t : State} (handle : t.handle = s.handle) (ceLvl : t.lines.ceLvl = s.lines.ceLvl) (g : Owned) :
    t.owned g = s.owned g := by
  simp only [State.owned, handle, ceLvl]

theorem State.owned_identity {s t : State} (h : t.owned .identity = s.owned .identity) :
    t.handle.ceId = s.handle.ceId ∧ t.handle.csnId = s.handle.csnId ∧ t.handle.addrWidth = s.handle.addrWidth ∧
      t.handle.initDone = s.handle.initDone := by
  simpa [State.owned] using h

theorem State.owned_address {s t : State} (h : t.owned .address = s.owned .address) :
    t.handle.txAddrCache = s.handle.txAddrCache := by
  simpa [State.owned] using h

theorem State.owned_mode {s t : State} (h : t.owned .mode = s.owned .mode) :
    t.handle.configCache = s.handle.configCache ∧ t.lines.ceLvl = s.lines.ceLvl := by
  simpa [State.owned] using h

/-- The group an assignment writes. -/
@[simp] def Transfer.writes : Transfer → Option Owned
  | .lineIds _ _ => some .identity
  | .widthRead => some .identity
  | .initDone => some .identity
  | .txCache _ => some .address
  | .cacheSet _ => some .mode
  | .cacheOr _ => some .mode
  | .cacheClear _ => some .mode
  | .cacheRead => some .mode
  | .tRead => none
  | .rdClear => none
  | .delayDone => none
  | .pollStart => none
  | .pollCount => none
  | .setFailed => none
  | .setTimedOut => none

/-- The group a micro-operation writes. -/
@[simp] def MicroOp.writes : MicroOp → Option Owned
  | .lvl .ce _ => some .mode
  | .lvl .csn _ => none
  | .dir _ => none
  | .spiInit => none
  | .xfer _ _ => none
  | .delayUs _ => none
  | .delayMs _ => none

/-- The group an item writes. -/
def Item.writes : Item → Option Owned
  | .set t => t.writes
  | .op m => m.writes

theorem State.transfer_owned {g : Owned} {t : Transfer} (h : t.writes ≠ some g) (s : State) :
    (s.transfer t).owned g = s.owned g := by
  cases t with
  | lineIds | widthRead | initDone =>
    cases g with
    | identity => exact absurd rfl h
    | address | mode => rfl
  | txCache =>
    cases g with
    | address => exact absurd rfl h
    | identity | mode => rfl
  | cacheSet | cacheOr | cacheClear | cacheRead =>
    cases g with
    | mode => exact absurd rfl h
    | identity | address => rfl
  | _ => cases g <;> rfl

theorem State.micro_owned {g : Owned} {m : MicroOp} (h : m.writes ≠ some g) (s : State) :
    (s.micro m).owned g = s.owned g := by
  cases m with
  | lvl l v =>
    cases l with
    | csn => exact State.owned_congr (s.micro_handle _) (by simp [State.micro, Lines.setLvl]) g
    | ce =>
      cases g with
      | mode => exact absurd rfl h
      | identity | address => simp [State.owned]
  | dir l => exact State.owned_congr (s.micro_handle _) (by cases l <;> simp [State.micro, Lines.setOut]) g
  | spiInit | xfer | delayUs | delayMs => exact State.owned_congr (s.micro_handle _) (by simp [State.micro]) g

/-! ### What a sequence writes -/

/-- The groups written along a sequence. -/
def writes (is : List Item) : List Owned := is.filterMap Item.writes

@[simp] theorem Item.writes_set (t : Transfer) : (Item.set t).writes = t.writes := rfl

@[simp] theorem Item.writes_op (m : MicroOp) : (Item.op m).writes = m.writes := rfl

@[simp] theorem writes_send (b : Byte) : (send b).writes = none := rfl

@[simp] theorem writes_nil : writes [] = [] := rfl

@[simp] theorem writes_append (a b : List Item) : writes (a ++ b) = writes a ++ writes b := List.filterMap_append

@[simp] theorem writes_cons (i : Item) (is : List Item) : writes (i :: is) = i.writes.toList ++ writes is := by
  cases h : i.writes <;> simp [writes, h]

/-- A sequence leaves alone what none of its items writes. -/
theorem State.perform_owned {g : Owned} {is : List Item} (h : g ∉ writes is) (s : State) : (s.perform is).owned g = s.owned g := by
  induction is generalizing s with
  | nil => rfl
  | cons i is ih =>
    obtain ⟨first, rest⟩ : i.writes ≠ some g ∧ g ∉ writes is := by simpa using h
    cases i with
    | op m => exact (ih rest _).trans (State.micro_owned first s)
    | set t => exact (ih rest _).trans (State.transfer_owned first s)

@[simp] theorem writes_sends (bytes : List Byte) : writes (bytes.map send) = [] := by
  simp [writes, List.filterMap_map, Function.comp_def]

@[simp] theorem writes_receives (n : Nat) : writes (List.replicate n receive) = [] :=
  List.filterMap_replicate_of_none rfl

/-- R11: a frame writes what its body writes: it moves CSN, not CE. -/
@[simp] theorem writes_frame (body : List Item) : writes (frame body) = writes body := by
  simp [frame]

@[simp] theorem writes_memRead (a : RegAddr) (n : Nat) : writes (memRead a n) = [] := by
  simp [memRead]

@[simp] theorem writes_memWrite (a : RegAddr) (v : List Byte) : writes (memWrite a v) = [] := by
  simp [memWrite]

@[simp] theorem writes_waitUs (n : Nat) : writes (waitUs n) = [] := by simp [waitUs]

@[simp] theorem writes_memWriteCache (m : RegMap) : writes (memWriteCache m) = [] := by simp [memWriteCache]

@[simp] theorem writes_flushTx : writes flushTxItems = [] := by simp [flushTxItems]

@[simp] theorem writes_flushRx : writes flushRxItems = [] := by simp [flushRxItems]

@[simp] theorem writes_rdPl (n : Nat) : writes (rdPlItems n) = [] := by simp [rdPlItems]

@[simp] theorem writes_wrPl (bytes : List Byte) : writes (wrPlItems bytes) = [] := by simp [wrPlItems]

@[simp] theorem writes_poll (m : RegMap) : writes (pollItems m) = [] := by simp [pollItems]

@[simp] theorem writes_standby (m : RegMap) : writes (standbyItems m) = [.mode] := by simp [standbyItems, clrStatusItems]

/-- R168: the cached power bit. -/
@[simp] theorem writes_pwrUp (m : RegMap) : writes (pwrUpItems m) = [.mode] := by simp [pwrUpItems]

/-- R169: the cached power bit, then CE. -/
theorem writes_pwrDn (m : RegMap) : writes (pwrDnItems m) = [.mode, .mode] := by simp [pwrDnItems]

/-- R170: the cached receiver bit, then CE. -/
@[simp] theorem writes_modeRx (m : RegMap) : writes (modeRxItems m) = [.mode, .mode] := by simp [modeRxItems]

/-- R171: the cached receiver bit, then CE. -/
@[simp] theorem writes_modeTx (m : RegMap) : writes (modeTxItems m) = [.mode, .mode] := by simp [modeTxItems]

/-- R167: the identifiers, CE, the cache twice, then the width and `init_done`. -/
@[simp] theorem writes_init (m : RegMap) (ce csn : Byte) :
    writes (initItems m ce csn) = [.identity, .mode, .mode, .mode, .identity, .identity] := by
  simp [initItems]

/-- R201: the initialisation and the power-up. -/
theorem writes_radioInit (m : RegMap) (ce csn : Byte) :
    writes (radioInitItems m ce csn) = [.identity, .mode, .mode, .mode, .identity, .identity, .mode] := by
  simp [radioInitItems, setRfItems, setChItems, clrStatusItems, setPwItems, setRetrItems]

/-- R202: the transmit mode, then CE low. -/
theorem writes_radioWrite (m : RegMap) (bytes : List Byte) :
    writes (radioWriteItems m bytes) = [.mode, .mode, .mode] := by
  simp [radioWriteItems]

/-- R203: the receive mode. -/
theorem writes_radioRead (m : RegMap) : writes (radioReadItems m) = [.mode, .mode] := by simp [radioReadItems]

theorem writes_setTxAddr (m : RegMap) (bytes : List Byte) : writes (setTxAddrItems m bytes) = [.address] := by
  simp [setTxAddrItems]

theorem writes_setRxAddr (m : RegMap) (pipe : Byte) (bytes : List Byte) : writes (setRxAddrItems m pipe bytes) = [] := by
  simp [setRxAddrItems]

/-- R140: a register read writes the cache or nothing. -/
theorem writes_rdReg (m : RegMap) (reg : Byte) (n : Nat) : writes (rdRegItems m reg n) ⊆ [.mode] := by
  unfold rdRegItems
  split <;> simp

/-- R141: a register write writes the cache or nothing. -/
theorem writes_wrReg (m : RegMap) (reg : Byte) (bytes : List Byte) : writes (wrRegItems m reg bytes) ⊆ [.mode] := by
  unfold wrRegItems cacheWritten
  split
  · split <;> simp
  · simp

/-- R202: every exit of the poll loop leads to standby. -/
theorem writes_pollExit {s : State} {is : List Item} (h : s.pollExit = some is) : writes is = [.mode] := by
  simp only [State.pollExit] at h
  split at h
  · cases h
    simp [flushTxItems]
  · split at h
    · cases h
      simp
    · split at h
      · cases h
        simp
      · cases h

/-! ### What an operation writes -/

/-- The groups an operation may write (R20 to R25, R173). -/
def owns : Instr → List Owned
  | .nrfInit _ _ => [.identity, .mode]
  | .radioInit _ _ => [.identity, .mode]
  | .nrfSettxaddr _ => [.address]
  | i => if changesMode i then [.mode] else []

/-- The groups written by what follows a sequence. -/
def Tail.writes : Tail → List Owned
  | .finish _ => []
  | .readBranch _ => []
  | .pollBranch => [.mode]

theorem writes_subset {is : List Item} {gs own : List Owned} (h : writes is = gs) (sub : decide (gs ⊆ own) = true) :
    writes is ⊆ own :=
  h ▸ of_decide_eq_true sub

/-- The sequence of an operation writes only what the operation owns. -/
theorem jobOf_writes (en : Bool) (hd : Handle) (m : RegMap) (i : Instr) : writes (jobOf en hd m i).items ⊆ owns i := by
  cases i with
  | spiInitm | spiTx | spiRx => exact List.nil_subset _
  | spiWrbuf n buf => exact writes_subset (writes_sends _) rfl
  | spiRdbuf n => exact writes_subset (writes_receives _) rfl
  | nrfRdreg reg n => exact writes_rdReg _ _ _
  | nrfWrreg reg n buf => exact writes_wrReg _ _ _
  | nrfStatus | nrfRxempty | nrfRxfull | nrfTxempty | nrfTxfull | radioHaspl => exact writes_subset (writes_memRead _ _) rfl
  | nrfClrstatus | nrfSetrf | nrfSetch | nrfSetretr | nrfSetpw | nrfDispipe => exact writes_subset (writes_memWrite _ _) rfl
  | nrfSetrxaddr pipe address => exact writes_subset (writes_setRxAddr _ _ _) rfl
  | nrfSettxaddr address => exact writes_subset (writes_setTxAddr _ _) rfl
  | nrfInit ce csn => exact writes_subset (writes_init m ce csn) rfl
  | nrfPwrup => exact writes_subset (writes_pwrUp m) rfl
  | nrfPwrdn => exact writes_subset (writes_pwrDn m) rfl
  | nrfModerx => exact writes_subset (writes_modeRx m) rfl
  | nrfModetx => exact writes_subset (writes_modeTx m) rfl
  | nrfStandby => exact writes_subset (writes_standby m) rfl
  | nrfFlushtx => exact writes_subset writes_flushTx rfl
  | nrfFlushrx => exact writes_subset writes_flushRx rfl
  | nrfRdpl n => exact writes_subset (writes_rdPl _) rfl
  | nrfWrpl n buf => exact writes_subset (writes_wrPl _) rfl
  | radioInit ce csn => exact writes_subset (writes_radioInit m ce csn) rfl
  | radioWrite n payload => exact writes_subset (writes_radioWrite m _) rfl
  | radioRead n => exact writes_subset (writes_radioRead m) rfl
  | rRegister | wRegister | rRxPayload | wTxPayload | flushTx | flushRx => exact List.nil_subset _

theorem jobOf_tail_writes (en : Bool) (hd : Handle) (m : RegMap) (i : Instr) : (jobOf en hd m i).tail.writes ⊆ owns i := by
  cases i with
  | radioWrite n payload => exact List.Subset.refl _
  | _ => exact List.nil_subset _

/-! ### What an operation leaves alone -/

theorem State.runToEnd_owned {g : Owned} {s : State} (hb : s.budget = none) {is : List Item} (h : g ∉ writes is) (f : Finish) :
    (s.runToEnd is f).owned g = s.owned g := by
  rw [State.runToEnd_all hb]
  exact State.perform_owned h { s with ctl.tail := .finish f }

theorem State.pollAgain_owned {g : Owned} {s : State} (hb : s.budget = none) : s.pollAgain.owned g = s.owned g := by
  have delay := State.runItems_all (s := { s with ctl.tail := .pollBranch }) hb [.op (.delayMs Config.tPollMs)]
  exact (congrArg (State.owned g) delay).trans (State.perform_owned (by simp) _)

/-- R202, R203: the branches read, go back to standby, or wait for the next poll. -/
theorem State.runTail_owned {g : Owned} {s : State} (hb : s.budget = none) (h : g ∉ s.ctl.tail.writes) :
    s.runTail.owned g = s.owned g := by
  cases htail : s.ctl.tail with
  | finish f =>
    rw [State.runTail_finish htail, State.tryComplete_all hb]
    rfl
  | readBranch n =>
    cases he : fifoRxEmpty s.cfg.regMap s.ctl.t with
    | true =>
      rw [State.runTail_noData htail he]
      exact State.runToEnd_owned hb List.not_mem_nil _
    | false =>
      rw [State.runTail_data htail he]
      exact State.runToEnd_owned hb (by simp) _
  | pollBranch =>
    rw [htail] at h
    cases he : s.pollExit with
    | some is =>
      rw [State.runTail_pollExit htail he]
      exact State.runToEnd_owned hb (by rwa [writes_pollExit he]) _
    | none =>
      rw [State.runTail_pollAgain htail he]
      exact State.pollAgain_owned hb

theorem State.advance_owned {g : Owned} {s : State} (hb : s.budget = none) (items : g ∉ writes s.ctl.todo)
    (tail : g ∉ s.ctl.tail.writes) : s.advance.owned g = s.owned g := by
  rw [State.advance_all hb]
  refine (State.runTail_owned ?_ ?_).trans (State.perform_owned items s)
  · simpa using hb
  · simpa using tail

/-- R97: a job whose sequence and branches do not write a group leaves it alone; so does one that fails a check. -/
theorem State.take_owned {g : Owned} {s : State} {j : Job} (hb : s.budget = none) (items : g ∉ writes j.items)
    (tail : g ∉ j.tail.writes) : (s.take j).advance.owned g = s.owned g := by
  cases hk : j.check with
  | some k =>
    rw [State.take_fault hk]
    exact State.advance_owned hb List.not_mem_nil List.not_mem_nil
  | none =>
    rw [State.take_items hk]
    exact State.advance_owned hb items tail

/-- An uninterrupted operation leaves alone what it does not own. -/
theorem exec_owned {g : Owned} {i : Instr} {s t : State} (hb : s.budget = none) (h : exec i s = .next t) (hg : g ∉ owns i) :
    t.owned g = s.owned g := by
  cases hi : isHostOp i with
  | true =>
    rw [State.outcome_next ((exec_hostOp hi s).symm.trans h)]
    exact State.take_owned hb (fun e => hg (jobOf_writes _ _ _ i e)) (fun e => hg (jobOf_tail_writes _ _ _ i e))
  | false =>
    obtain ⟨op, data, he⟩ := exec_wireOp hi s
    obtain ⟨chip, wireOut, draws, rfl⟩ := State.wireFrame_changes (he.symm.trans h)
    rfl

/-- No operation writes the operand registers or the parameters. -/
theorem exec_context {i : Instr} {s t : State} (h : exec i s = .next t) : t.operands = s.operands ∧ t.cfg = s.cfg := by
  cases hi : isHostOp i with
  | true =>
    rw [State.outcome_next ((exec_hostOp hi s).symm.trans h), State.advance_operands, State.advance_cfg]
    unfold State.take State.taken
    split <;> exact ⟨rfl, rfl⟩
  | false =>
    obtain ⟨op, data, he⟩ := exec_wireOp hi s
    obtain ⟨chip, wireOut, draws, rfl⟩ := State.wireFrame_changes (he.symm.trans h)
    exact ⟨rfl, rfl⟩

theorem identity_notMem_owns {i : Instr} (h : ∀ ce csn, i ≠ .nrfInit ce csn ∧ i ≠ .radioInit ce csn) : .identity ∉ owns i := by
  cases i with
  | nrfInit ce csn => exact absurd rfl (h ce csn).1
  | radioInit ce csn => exact absurd rfl (h ce csn).2
  | _ => exact of_decide_eq_true rfl

theorem address_notMem_owns {i : Instr} (h : ∀ address, i ≠ .nrfSettxaddr address) : .address ∉ owns i := by
  cases i with
  | nrfSettxaddr address => exact absurd rfl (h address)
  | _ => exact of_decide_eq_true rfl

theorem mode_notMem_owns {i : Instr} (h : changesMode i = false) : .mode ∉ owns i := by
  unfold owns
  split
  · cases h
  · cases h
  · decide
  · simp [h]

/-- Settles O53: each group of fields is written by the items of its owners only. -/
theorem handleFieldsHaveOwners : Obligations.HandleFieldsHaveOwners := by
  rintro i s t ⟨hb, -⟩ h
  exact ⟨fun other => State.owned_identity (exec_owned hb h (identity_notMem_owns other)),
    fun other => State.owned_address (exec_owned hb h (address_notMem_owns other)),
    fun other => State.owned_mode (exec_owned hb h (mode_notMem_owns other)),
    exec_context h⟩

end Sys2Proof.Machine
end

