-- ==== Sys2Proof/Proofs/MemoryAndBits.lean ====
section
/-! PROOF. The chip's memory: the bit order of a byte on its bus (R66, R118), and the laws of its register space (R61, R72). -/

namespace Sys2Proof.Machine

open Sys2Proof

/-! ### The cycles of one byte -/

/-- A cycle moves every bit of the shift register one place up. -/
theorem Spi.clock_sr_succ (x : Spi) (b : Bool) {i : Nat} (hi : i + 1 < 8) :
    (x.clock b).sr.getLsbD (i + 1) = x.sr.getLsbD i := by
  have taken : (if b then 1#8 else 0#8).getLsbD (i + 1) = false := by cases b <;> simp [BitVec.getLsbD_one]
  have shifted : (x.clock b).sr = x.sr <<< 1 ||| (if b then 1#8 else 0#8) := rfl
  rw [shifted, BitVec.getLsbD_or, taken, Bool.or_false, BitVec.getLsbD_shiftLeft]
  simp [hi]

section cycles
variable (bits : List Bool) (x : Spi)

theorem Spi.cycles_en : (bits.foldl Spi.clock x).en = x.en := by
  induction bits generalizing x with
  | nil => rfl
  | cons b bs ih => exact ih _

theorem Spi.cycles_busy : (bits.foldl Spi.clock x).busy = x.busy := by
  induction bits generalizing x with
  | nil => rfl
  | cons b bs ih => exact ih _

/-- Between cycles the clock is low. -/
theorem Spi.cycles_sck (low : x.sck = false) : (bits.foldl Spi.clock x).sck = false := by
  induction bits generalizing x with
  | nil => exact low
  | cons b bs ih => exact ih _ rfl

/-- n cycles move every bit of the shift register n places up. -/
theorem Spi.cycles_sr {i : Nat} (hi : i + bits.length < 8) :
    (bits.foldl Spi.clock x).sr.getLsbD (i + bits.length) = x.sr.getLsbD i := by
  induction bits generalizing x i with
  | nil => rfl
  | cons b bs ih =>
    rw [List.length_cons] at hi ⊢
    calc
      _ = (bs.foldl Spi.clock (x.clock b)).sr.getLsbD (i + 1 + bs.length) := by
        rw [List.foldl_cons, Nat.add_assoc, Nat.add_comm 1]
      _ = (x.clock b).sr.getLsbD (i + 1) := ih _ (by omega)
      _ = x.sr.getLsbD i := x.clock_sr_succ b (by omega)

end cycles

/-! ### What the pins carry -/

/-- R29, R118: an enabled master drives its clock. -/
theorem Spi.sckPin_eq {x : Spi} (en : x.en = true) : x.sckPin = .level x.sck := by simp [Spi.sckPin, pinOf, en]

/-- R29, R118: while a byte is in flight, `mosi` is the top bit of the shift register. -/
theorem Spi.mosiPin_eq {x : Spi} (en : x.en = true) (busy : x.busy = true) : x.mosiPin = .level (x.sr.getLsbD 7) := by
  simp [Spi.mosiPin, Spi.mosiOut, testBit, en, busy]

/-! ### The order of the bits -/

/-- R66: the k-th bit on the wire is bit 7 - k. -/
theorem Spi.wireBits_take_succ (r : Byte) {k : Nat} (hk : k < 8) :
    (Spi.wireBits r).take (k + 1) = (Spi.wireBits r).take k ++ [r.getLsbD (7 - k)] := by
  have kth : (Spi.wireBits r)[k]? = some (r.getLsbD (7 - k)) := by interval_cases k <;> rfl
  rw [List.take_add_one, kth, Option.toList_some]

/-- Settles O20: k cycles have brought bit 7 - k of the byte sent to the top of the shift register, and the next cycle takes in
the k-th bit of the byte received; what the eight cycles leave is `Spi.exchange_eq`. -/
theorem byteGoesBitSevenFirst : Obligations.ByteGoesBitSevenFirst := by
  intro t r x hx
  refine ⟨fun k hk => ?_, Spi.exchange_eq t r x⟩
  intro y
  have en : y.en = true := (Spi.cycles_en _ _).trans hx
  have busy : y.busy = true := Spi.cycles_busy _ _
  have sck : y.sck = false := Spi.cycles_sck _ _ rfl
  have len : ((Spi.wireBits r).take k).length = k := List.length_take_of_le hk.le
  have top : y.sr.getLsbD 7 = t.getLsbD (7 - k) := by
    have moved := Spi.cycles_sr ((Spi.wireBits r).take k) (Spi.load t x) (i := 7 - k) (by omega)
    rwa [len, Nat.sub_add_cancel (by omega)] at moved
  refine ⟨sck ▸ Spi.sckPin_eq en, top ▸ Spi.mosiPin_eq en busy, Spi.sckPin_eq (x := y.rise) en,
    top ▸ Spi.mosiPin_eq (x := y.rise) en busy, ?_⟩
  rw [Spi.wireBits_take_succ r hk, List.foldl_append]
  rfl

/-! ### The register space -/

section absent
variable {k : Nat} (h : Memory.unlisted k = none) (m : Memory)
include h

/-- R61: a byte that does not exist is not written. -/
theorem Memory.write_absent (v : Byte) : m.write k v = m := by simp [Memory.write, h]

/-- R61: a byte that does not exist is not read. -/
theorem Memory.read_absent : m.read k = none := by simp [Memory.read, h]

end absent

/-- A byte that exists reads as some value. -/
theorem Memory.read_present {k : Nat} (h : Memory.unlisted k ≠ none) (m : Memory) : ∃ v, m.read k = some v := by
  obtain ⟨d, hd⟩ := Option.ne_none_iff_exists'.mp h
  exact ⟨(m.listed k).getD d, by simp [Memory.read, hd]⟩

/-- The memory with no entry is the memory at power-on (R218). -/
theorem Memory.read_nil (k : Nat) : Memory.read [] k = Memory.unlisted k := by
  cases h : Memory.unlisted k with
  | none => exact Memory.read_absent h []
  | some d => simp [Memory.read, Memory.listed, h]

theorem Memory.read_write_same {m : Memory} (hm : m.wf = true) {k : Nat} (h : Memory.unlisted k ≠ none) (v : Byte) :
    (m.write k v).read k = some v := by
  obtain ⟨old, hold⟩ := Memory.read_present h m
  rw [Memory.read_write hm, if_pos rfl, hold, Option.map_some]

theorem Memory.read_write_other {m : Memory} (hm : m.wf = true) {j k : Nat} (h : j ≠ k) (v : Byte) :
    (m.write k v).read j = m.read j := by
  rw [Memory.read_write hm, if_neg h]

/-- Settles O52: the laws of the memory, one by one. -/
theorem registerSpaceIsAMemory : Obligations.RegisterSpaceIsAMemory :=
  ⟨fun _ k v hm present =>
      ⟨Memory.wf_write hm k v, Memory.read_write_same hm present v, fun _ other => Memory.read_write_other hm other v⟩,
    fun m _ v absent => ⟨Memory.write_absent absent m v, Memory.read_absent absent m⟩,
    Memory.read_nil,
    fun _ _ hm hm' same => Memory.eq_of_read hm hm' same⟩

end Sys2Proof.Machine
end

