-- ==== Sys2Proof/Proofs/Encoding.lean ====
section
/-! PROOF. The encoding of commands (R86, R87, R90, R92, R95, R99): decoder and encoder are each other's inverse on the assigned
codes, and which command bytes and operation codes are assigned. -/

namespace Sys2Proof

open Machine

/-! ### Wire frames -/

/-- The instruction of a wire command and the data bytes that follow it (R85). -/
def WireOp.instr (data : List Byte) : WireOp → Instr
  | .readReg a => .rRegister a data
  | .writeReg a => .wRegister a data
  | .readPayload => .rRxPayload data
  | .writePayload => .wTxPayload data
  | .flushTx => .flushTx data
  | .flushRx => .flushRx data

theorem decodeFrame_command {b : Byte} {op : WireOp} (h : decodeWire b = some op) (data : List Byte) :
    decodeFrame (b :: data) = .instr (op.instr data) := by
  cases op <;> simp [decodeFrame, h, WireOp.instr]

theorem decodeFrame_unknown {b : Byte} (h : decodeWire b = none) (data : List Byte) :
    decodeFrame (b :: data) = .unknownCommand b := by
  simp [decodeFrame, h]

/-- R86, R87. -/
theorem decodeWire_encodeWire (op : WireOp) : decodeWire (encodeWire op) = some op := by
  cases op with
  | readReg a | writeReg a => revert a; decide
  | readPayload | writePayload | flushTx | flushRx => decide

/-- Settles O1: a wire command by its command byte, a host operation by its row of R95. -/
theorem decodeOfEncodeIsIdentity : Obligations.DecodeOfEncodeIsIdentity := by
  intro i
  cases i with
  | rRegister a data => exact decodeFrame_command (decodeWire_encodeWire (.readReg a)) data
  | wRegister a data => exact decodeFrame_command (decodeWire_encodeWire (.writeReg a)) data
  | rRxPayload data => exact decodeFrame_command (decodeWire_encodeWire .readPayload) data
  | wTxPayload data => exact decodeFrame_command (decodeWire_encodeWire .writePayload) data
  | flushTx data => exact decodeFrame_command (decodeWire_encodeWire .flushTx) data
  | flushRx data => exact decodeFrame_command (decodeWire_encodeWire .flushRx) data
  | _ => rfl

/-- R86: a byte is its three command bits and its five address bits. -/
theorem commandBits_or_addressBits (b : Byte) : b &&& 0xE0 ||| (b.setWidth 5).setWidth 8 = b := by
  ext i hi
  interval_cases i <;> simp

theorem encodeWire_of_decodeWire {b : Byte} {op : WireOp} (h : decodeWire b = some op) : encodeWire op = b := by
  unfold decodeWire at h
  split at h
  next read => cases h; rw [encodeWire, ← read]; exact commandBits_or_addressBits b
  split at h
  next write => cases h; rw [encodeWire, ← write]; exact commandBits_or_addressBits b
  iterate 4
    split at h
    next byte => cases h; exact byte.symm
  cases h

theorem encode_of_decodeHost {c : HostCmd} {i : Instr} (h : decodeHost c = .instr i) :
    ∃ c' : HostCmd, encode i = .host c' ∧ c'.op = c.op := by
  unfold decodeHost at h
  split at h
  case h_35 => cases h
  all_goals
    next code =>
      cases h
      exact ⟨_, rfl, (BitVec.eq_of_toNat_eq code).symm⟩

/-- Settles O2: along the branches of the two decoders. -/
theorem everyCodeHasOneMeaning : Obligations.EveryCodeHasOneMeaning :=
  ⟨fun _ _ => encodeWire_of_decodeWire, fun _ _ => encode_of_decodeHost⟩

/-! ### Which bytes and codes are assigned -/

/-- R86: the three command bits of a byte say which block of 32 values it lies in. -/
theorem commandBits_toNat (b : Byte) : (b &&& 0xE0).toNat = 32 * (b.toNat / 32) := by
  have shifted : b &&& (0xE0 : Byte) = b >>> 5 <<< 5 := by
    ext i hi
    interval_cases i <;> simp
  rw [shifted, BitVec.toNat_shiftLeft, BitVec.toNat_ushiftRight, Nat.shiftRight_eq_div_pow, Nat.shiftLeft_eq]
  omega

theorem commandBits_eq_iff (b cmd : Byte) : b &&& 0xE0 = cmd ↔ 32 * (b.toNat / 32) = cmd.toNat := by
  rw [BitVec.toNat_eq, commandBits_toNat]

theorem decodeWire_isSome_iff (b : Byte) :
    (decodeWire b).isSome ↔ b.toNat ≤ 0x3F ∨ b = 0x61 ∨ b = 0xA0 ∨ b = 0xE1 ∨ b = 0xE2 := by
  have registers : b.toNat ≤ 0x3F ↔ b &&& 0xE0 = Config.cmdRRegister ∨ b &&& 0xE0 = Config.cmdWRegister := by
    rw [commandBits_eq_iff, commandBits_eq_iff]
    simp only [Config.cmdRRegister, Config.cmdWRegister, BitVec.reduceToNat]
    omega
  rw [registers, or_assoc, decodeWire]
  split_ifs with read write rxPayload txPayload flushTx flushRx
  · exact iff_of_true rfl (.inl read)
  · exact iff_of_true rfl (.inr (.inl write))
  · exact iff_of_true rfl (.inr (.inr (.inl rxPayload)))
  · exact iff_of_true rfl (.inr (.inr (.inr (.inl txPayload))))
  · exact iff_of_true rfl (.inr (.inr (.inr (.inr (.inl flushTx)))))
  · exact iff_of_true rfl (.inr (.inr (.inr (.inr (.inr flushRx)))))
  · refine iff_of_false (by simp) ?_
    rintro (h | h | h | h | h | h)
    exacts [read h, write h, rxPayload h, txPayload h, flushTx h, flushRx h]

/-- Settles O3: two blocks of 32 register commands and four single bytes. -/
theorem sixtyEightCommandBytes : Obligations.SixtyEightCommandBytes := by
  refine ⟨by decide +kernel, decodeWire_isSome_iff, fun b data s unknown => ?_⟩
  have decoded : decode (.wire (b :: data)) = .unknownCommand b := decodeFrame_unknown unknown data
  exact ⟨decoded, by rw [dispatch, decoded]⟩

/-- Settles O4: the frames and host commands are what the encoder gives, so O1 decodes them. -/
theorem writtenOutWordsDecode : Obligations.WrittenOutWordsDecode := by
  refine ⟨rfl, rfl, rfl, rfl, ?_, ?_, ?_, ?_⟩
  · exact decodeOfEncodeIsIdentity (.rRegister 0x07 [0xFF])
  · exact decodeOfEncodeIsIdentity (.wRegister 0x05 [0x2A])
  · exact decodeOfEncodeIsIdentity (.radioInit 0x09 0x0A)
  · exact decodeOfEncodeIsIdentity (.nrfSetpw 3 32)

/-- The 30 codes that R95 assigns to no operation. -/
def Reserved (code : Nat) : Prop :=
  0x05 ≤ code ∧ code ≤ 0x0F ∨ 0x1B ≤ code ∧ code ≤ 0x1F ∨ code = 0x26 ∨ code = 0x27 ∨ 0x34 ≤ code

theorem decodeHost_eq_illegalOp_iff (c : HostCmd) : decodeHost c = .illegalOp c.op ↔ Reserved c.op.toNat := by
  unfold decodeHost Reserved
  split
  case h_35 =>
    refine iff_of_true rfl ?_
    simp only [imp_false] at *
    omega
  all_goals exact iff_of_false Decoded.noConfusion (by omega)

/-- R99, R251: a reserved code ends with its fault, uninterrupted. -/
theorem dispatch_illegalOp {c : HostCmd} (h : decodeHost c = .illegalOp c.op) {s : State} (hs : s.Uninterrupted) :
    dispatch (.host c) s = .next ((s.accept (.host c)).faulted .illegalOp) := by
  have accepted : (s.accept (.host c)).Uninterrupted := hs
  simp only [dispatch, decode, h]
  exact State.operate_fault accepted _ _ _

/-- Settles O5: the decoder rejects the reserved codes only, and a rejected code is a failed check. -/
theorem reservedCodesEndWithIllegalOp : Obligations.ReservedCodesEndWithIllegalOp := by
  intro c
  refine ⟨fun reserved => ?_, fun assigned => ?_⟩
  · have illegal := (decodeHost_eq_illegalOp_iff c).mpr reserved
    exact ⟨illegal, fun s hs => dispatch_illegalOp illegal hs⟩
  · rcases decodeHost_cases c with illegal | ⟨i, hostOp, decoded⟩
    · exact absurd ((decodeHost_eq_illegalOp_iff c).mp illegal) assigned
    · exact ⟨i, decoded, hostOp⟩

end Sys2Proof
end

