-- ==== Sys2Proof/Proofs/Acceptance.lean ====
section
/-! PROOF. Acceptance (R96, R97): what a command does to an idle block and to a busy one, and which check decides how an operation
ends. -/

namespace Sys2Proof.Machine

open Sys2Proof

/-! ### A step cut before the first micro-operation -/

/-- A sequence with at most one assignment before its first micro-operation, and that one not the end of a wait. -/
def StartsSoon (is : List Item) : Prop :=
  (∃ m rest, is = .op m :: rest) ∨ ∃ t m rest, t ≠ .delayDone ∧ is = .set t :: .op m :: rest

theorem startsSoon_op (m : MicroOp) (rest : List Item) : StartsSoon (.op m :: rest) := .inl ⟨m, rest, rfl⟩

theorem startsSoon_set {t : Transfer} (h : t ≠ .delayDone) (m : MicroOp) (rest : List Item) :
    StartsSoon (.set t :: .op m :: rest) := .inr ⟨t, m, rest, h, rfl⟩

theorem startsSoon_sends (bytes : List Byte) : StartsSoon (bytes.map send) ∨ bytes.map send = [] := by
  cases bytes with
  | nil => exact .inr rfl
  | cons b bytes => exact .inl (startsSoon_op _ _)

theorem startsSoon_receives (n : Nat) : StartsSoon (List.replicate n receive) ∨ List.replicate n receive = [] := by
  cases n with
  | zero => exact .inr rfl
  | succ n => exact .inl (startsSoon_op _ _)

/-- What a host command loads begins soon, unless there is nothing to perform. -/
theorem jobOf_startsSoon (en : Bool) (hd : Handle) (m : RegMap) (i : Instr) :
    StartsSoon (jobOf en hd m i).items ∨ (jobOf en hd m i).items = [] ∧ ∃ f, (jobOf en hd m i).tail = .finish f := by
  cases i with
  | spiWrbuf n buf => exact (startsSoon_sends _).imp_right fun nothing => ⟨nothing, _, rfl⟩
  | spiRdbuf n => exact (startsSoon_receives _).imp_right fun nothing => ⟨nothing, _, rfl⟩
  | nrfRdreg | nrfStatus | nrfRxempty | nrfRxfull | nrfTxempty | nrfTxfull | radioHaspl | nrfRdpl | nrfInit | radioInit
  | nrfPwrup | nrfPwrdn | nrfModerx | nrfModetx | radioRead => exact .inl (startsSoon_set (by simp) _ _)
  | rRegister | wRegister | rRxPayload | wTxPayload | flushTx | flushRx => exact .inr ⟨rfl, _, rfl⟩
  | _ => exact .inl (startsSoon_op _ _)

/-- R96: a command begun is a sequence loaded after the copy of the ports. -/
theorem State.begin_loads (c : HostCmd) (s : State) :
    ∃ is tail, s.begin c = (s.accept (.host c)).load is tail ∧ (StartsSoon is ∨ is = [] ∧ ∃ f, tail = .finish f) := by
  rcases decodeHost_cases c with hc | ⟨i, -, hc⟩
  · exact ⟨[], _, State.begin_illegalOp hc s, .inr ⟨rfl, _, rfl⟩⟩
  · rw [State.begin_instr hc]
    cases hk : (jobOf s.spi.en s.handle s.cfg.regMap i).check with
    | some k => exact ⟨[], _, State.take_fault hk _, .inr ⟨rfl, _, rfl⟩⟩
    | none => exact ⟨_, _, State.take_items hk _, jobOf_startsSoon _ _ _ i⟩

/-- With no step left, the sequencer stands before the first micro-operation. -/
theorem State.advance_op_zero {s : State} (hb : s.budget = some 0) {m : MicroOp} {rest : List Item}
    (htodo : s.ctl.todo = .op m :: rest) : s.advance = s := by
  have stays : s.runItems s.ctl.todo = s := by
    rw [htodo, State.runItems_op_zero hb]
    exact State.withTodo_own htodo
  rw [State.advance_more (by rw [stays, htodo]; exact List.cons_ne_nil _ _), stays]

/-- With no step left, an assignment at the head is all that happens. -/
theorem State.advance_set_zero {s : State} (hb : s.budget = some 0) {t : Transfer} {m : MicroOp} {rest : List Item}
    (htodo : s.ctl.todo = .set t :: .op m :: rest) : s.advance = (s.transfer t).withTodo (.op m :: rest) := by
  have stays : s.runItems s.ctl.todo = (s.transfer t).withTodo (.op m :: rest) := by
    rw [htodo, State.runItems_set, State.runItems_op_zero (by simpa using hb)]
  rw [State.advance_more (by simp [stays]), stays]

/-- With no step left, an operation with nothing to perform waits for its completion. -/
theorem State.advance_nil_zero {s : State} (hb : s.budget = some 0) {f : Finish} (htodo : s.ctl.todo = [])
    (htail : s.ctl.tail = .finish f) : s.advance = s := by
  have stays : s.runItems s.ctl.todo = s := by
    rw [htodo]
    exact State.withTodo_own htodo
  rw [State.advance_done (by rw [stays, htodo]), stays, State.runTail_finish htail, State.tryComplete_zero hb]

/-- Only the end of a wait moves the delay counter. -/
theorem State.transfer_dlyCnt {t : Transfer} (h : t ≠ .delayDone) (s : State) : (s.transfer t).dlyCnt = s.dlyCnt := by
  cases t with
  | delayDone => exact absurd rfl h
  | _ => rfl

/-- R96, R15: a host command begun in a step that is cut before the first micro-operation: at most one assignment is made. -/
theorem State.begin_advance_zero {s : State} (hb : s.budget = some 0) (c : HostCmd) :
    ∃ is tail, (s.begin c).advance = (s.accept (.host c)).load is tail ∨
      ∃ t rest, t ≠ .delayDone ∧ (s.begin c).advance = (((s.accept (.host c)).load is tail).transfer t).withTodo rest := by
  obtain ⟨is, tail, loaded, starts⟩ := s.begin_loads c
  rw [loaded]
  have budget : ((s.accept (.host c)).load is tail).budget = some 0 := hb
  refine ⟨is, tail, ?_⟩
  rcases starts with (⟨m, rest, rfl⟩ | ⟨t, m, rest, notDelay, rfl⟩) | ⟨rfl, f, rfl⟩
  · exact .inl (State.advance_op_zero budget rfl)
  · exact .inr ⟨t, _, notDelay, State.advance_set_zero budget rfl⟩
  · exact .inl (State.advance_nil_zero budget rfl rfl)

/-- R104: an idle block is given the host's next line in a step cut before its first micro-operation. -/
theorem State.takeTurn_hostLine_cut {s : State} {c : HostCmd} {rest : List Command} (hb : s.ctl.busy = false)
    (ht : s.turns = [{ rst := false, cmd := none, air := [], budget := some 0 }]) (hp : s.program = .host c :: rest) :
    s.takeTurn = { s with
      turns := []
      program := rest
      inp := { rst := false, valid := true, cmd := c, frame := none }
      budget := some 0
      ctl.done := false } := by
  simp [State.takeTurn, nextLine, hb, ht, hp]

/-- Settles O10: the cut step begins the command and makes at most one assignment to the handle or to the scratch registers. -/
theorem acceptanceCopiesThePorts : Obligations.AcceptanceCopiesThePorts := by
  intro s c rest hf hb hp ht
  have turn := State.takeTurn_hostLine_cut hb ht hp
  have begun : step s = (s.takeTurn.begin c).advance.outcome := clockEdge_host (by rw [turn]) hb (by rw [turn]; rfl)
  have free : (s.takeTurn.begin c).advance.far = .free := by rw [State.advance_far, State.begin_far]; exact hf
  refine ⟨_, begun.trans (State.outcome_free free), ?_⟩
  obtain ⟨is, tail, loaded | ⟨t, todo, notDelay, assigned⟩⟩ := State.begin_advance_zero (s := s.takeTurn) (by rw [turn]) c
  · rw [loaded, turn]
    exact ⟨rfl, rfl, rfl, rfl, rfl, rfl, rfl, rfl, rfl, rfl, rfl⟩
  · rw [assigned, turn]
    simp [State.withTodo, State.accept, State.load, State.transfer_dlyCnt notDelay]

/-! ### A command presented to a busy block -/

/-- An outcome with other levels on the input pins. -/
def repinOutcome (pins : Inputs) : Host.Outcome State Fault Refusal → Host.Outcome State Fault Refusal
  | .next s => .next (s.repin pins)
  | .fault f => .fault f
  | .refused r => .refused r

theorem repinOutcome_eq_next {pins : Inputs} {o : Host.Outcome State Fault Refusal} {t : State}
    (h : repinOutcome pins o = .next t) : ∃ t', o = .next t' ∧ t = t'.repin pins := by
  cases o with
  | next t' => exact ⟨t', rfl, (Host.Outcome.next.inj h).symm⟩
  | fault | refused => cases h

theorem repinOutcome_eq_refused {pins : Inputs} {o : Host.Outcome State Fault Refusal} {r : Refusal}
    (h : repinOutcome pins o = .refused r) : o = .refused r := by
  cases o with
  | refused r' => exact h
  | next | fault => cases h

theorem State.outcome_repin (pins : Inputs) (s : State) : (s.repin pins).outcome = repinOutcome pins s.outcome := by
  unfold State.outcome
  simp only [State.repin]
  split
  · rfl
  · split <;> rfl

/-- R31, R32: of the input pins a busy block looks at `rst` only. -/
theorem clockEdge_repin {s : State} {pins : Inputs} (hb : s.ctl.busy = true) (hr : pins.rst = s.inp.rst) :
    clockEdge (s.repin pins) = repinOutcome pins (clockEdge s) := by
  cases rst : s.inp.rst with
  | true =>
    have reset : clockEdge (s.repin pins) = .next (s.repin pins).resetBlock := if_pos (hr.trans rst)
    rw [reset, clockEdge, if_pos rst]
    rfl
  | false =>
    rw [clockEdge_busy rst hb, clockEdge_busy (s := s.repin pins) (hr.trans rst) hb, (blind_repin pins).advance,
      State.outcome_repin]

/-- R96, R104: to a busy block the command of a turn is only levels of the input pins. -/
theorem State.takeTurn_command {s : State} {turn : Turn} {rest : List Turn} (hb : s.ctl.busy = true)
    (ht : s.turns = turn :: rest) :
    s.takeTurn = (State.takeTurn { s with turns := { turn with cmd := none } :: rest }).repin s.takeTurn.inp ∧
      s.takeTurn.inp.rst = turn.rst ∧
      (State.takeTurn { s with turns := { turn with cmd := none } :: rest }).inp.rst = turn.rst := by
  simp [State.takeTurn, State.repin, nextLine, hb, ht, State.chipCe]

/-- R96: the step with the command is the step without it, but for the input pins. -/
theorem step_command {s : State} {turn : Turn} {rest : List Turn} (hb : s.ctl.busy = true) (ht : s.turns = turn :: rest) :
    step s = repinOutcome s.takeTurn.inp (step { s with turns := { turn with cmd := none } :: rest }) := by
  obtain ⟨moved, rst, rst'⟩ := State.takeTurn_command hb ht
  have edge := clockEdge_repin (s := State.takeTurn { s with turns := { turn with cmd := none } :: rest }) hb
    (rst.trans rst'.symm)
  rwa [← moved] at edge

/-- Settles O11: the command changes the pins only, and without `rst` the sequencer keeps the operand registers. -/
theorem busyBlockIgnoresCommands : Obligations.BusyBlockIgnoresCommands := by
  intro s turn rest c hb ht _
  obtain ⟨-, rst, -⟩ := State.takeTurn_command hb ht
  have same := step_command hb ht
  refine ⟨fun t next => ?_, fun r refused => repinOutcome_eq_refused (same.symm.trans refused), fun noReset t next => ?_⟩
  · obtain ⟨t', without, rfl⟩ := repinOutcome_eq_next (same.symm.trans next)
    exact ⟨t', without, rfl⟩
  · have run : s.takeTurn.advance.outcome = .next t := (clockEdge_busy (rst.trans noReset) hb).symm.trans next
    rw [State.outcome_next run, State.advance_operands, State.takeTurn_operands]

/-! ### The checks in their order -/

theorem widthOk_iff (w : Byte) : widthOk w = true ↔ w = 3 ∨ w = 4 ∨ w = 5 := by
  rw [widthOk_eq, decide_eq_true_iff]
  simp only [BitVec.toNat_eq, BitVec.reduceToNat]
  omega

/-- R97, R100, R253, R254: the checks of an operation are what it needs, its operands' ranges, and the width if it frames a full
address. -/
theorem jobOf_check {i : Instr} (h : isHostOp i = true) (s : State) :
    (jobOf s.spi.en s.handle s.cfg.regMap i).check =
      acceptanceFault (s.has (needOf i)) i.wellFormed (!usesAddrWidth i || widthOk s.handle.addrWidth) := by
  have pipes (pipe : Byte) : pipeOk pipe = decide (pipe.toNat ≤ 5) := decide_eq_decide.mpr Nat.lt_succ_iff
  cases i with
  | rRegister | wRegister | rRxPayload | wTxPayload | flushTx | flushRx => cases h
  | nrfSetpw pipe size => exact congrArg (fun ok => acceptanceFault s.handle.initDone (ok && sizeOk size) true) (pipes pipe)
  | nrfDispipe pipe => exact congrArg (acceptanceFault s.handle.initDone · true) (pipes pipe)
  | nrfSetrxaddr pipe address =>
    exact congrArg (acceptanceFault s.handle.initDone · (!fullWidthPipe pipe || widthOk s.handle.addrWidth)) (pipes pipe)
  | _ => rfl

/-- No operation is loaded with a fault as its end. -/
theorem jobOf_tail_ne_fault (en : Bool) (hd : Handle) (m : RegMap) (i : Instr) (k : Kind) :
    (jobOf en hd m i).tail ≠ .finish (.fault k) := by
  cases i <;> exact nofun

theorem State.perform_ctl_busy (is : List Item) (s : State) : (s.perform is).ctl.busy = s.ctl.busy := by
  induction is generalizing s with
  | nil => rfl
  | cons i is ih => cases i <;> simp [ih]

section checks

variable {i : Instr} {s : State} (hi : isHostOp i = true) (hs : s.Uninterrupted)
include hi hs

/-- R98, R259: a check that fails ends the operation. -/
theorem faultsWith_of_check {k : Kind}
    (h : acceptanceFault (s.has (needOf i)) i.wellFormed (!usesAddrWidth i || widthOk s.handle.addrWidth) = some k) :
    FaultsWith i s k := by
  rw [← jobOf_check hi] at h
  rw [FaultsWith, exec_hostOp hi, State.take, h, ← State.operate_taken]
  exact State.operate_fault hs k _ _

/-- R97: the checks pass, and the operation runs to its first branch or to its end. -/
theorem exec_of_checks
    (h : acceptanceFault (s.has (needOf i)) i.wellFormed (!usesAddrWidth i || widthOk s.handle.addrWidth) = none) :
    ∃ u : State, exec i s = .next u.runTail ∧ u.budget = none ∧ u.ctl.busy = true ∧
      ∀ k, u.ctl.tail ≠ .finish (.fault k) := by
  rw [← jobOf_check hi] at h
  rw [exec_hostOp hi, State.take, h, ← State.operate_taken, State.operate_tail hs]
  refine ⟨_, rfl, ?_, ?_, fun k => ?_⟩
  · simpa using hs.1
  · simp [State.perform_ctl_busy]
  · simpa using jobOf_tail_ne_fault _ _ _ i k

end checks

/-- R250: a completion without a fault of its own leaves no kind but `None`, `MaxRetransmit` and `HardwareTimeout`. -/
theorem Response.finish_err {f : Finish} (h : ∀ k, f ≠ .fault k) (c : Control) (r : Response) :
    (r.finish f c).err = 0 ∨ (r.finish f c).err = 1 ∨ (r.finish f c).err = 3 := by
  cases f with
  | fault k => exact absurd rfl (h k)
  | link =>
    cases timedOut : c.timedOut with
    | true => exact .inr (.inr (by simp [Response.finish, Response.linkResult, Response.raise, timedOut, Kind.code]))
    | false => cases failed : c.failed <;> simp [Response.finish, Response.linkResult, timedOut, failed, Kind.code]
  | _ => exact .inl rfl

/-- R98, R202, R203: an uninterrupted operation that has ended has been completed, and none of its branches ends with a fault of
its own. -/
theorem State.runTail_ended {s : State} (hb : s.budget = none) (busy : s.ctl.busy = true)
    (tail : ∀ k, s.ctl.tail ≠ .finish (.fault k)) (ended : s.runTail.ctl.busy = false) :
    ∃ (f : Finish) (u : State), s.runTail = u.complete f ∧ ∀ k, f ≠ .fault k := by
  cases htail : s.ctl.tail with
  | finish f =>
    refine ⟨f, s, ?_, fun k e => tail k (e ▸ htail)⟩
    rw [State.runTail_finish htail, State.tryComplete_all hb]
  | readBranch n =>
    cases he : fifoRxEmpty s.cfg.regMap s.ctl.t with
    | true => exact ⟨.noData, _, by rw [State.runTail_noData htail he, State.runToEnd_all hb], nofun⟩
    | false => exact ⟨.bufRead, _, by rw [State.runTail_data htail he, State.runToEnd_all hb], nofun⟩
  | pollBranch =>
    cases he : s.pollExit with
    | some is => exact ⟨.link, _, by rw [State.runTail_pollExit htail he, State.runToEnd_all hb], nofun⟩
    | none =>
      rw [State.runTail_pollAgain htail he, State.pollAgain_busy, busy] at ended
      cases ended

/-- Settles O14: the checks are `acceptanceFault`, and a completion that follows no failed check has none of their kinds. -/
theorem firstFailingCheckGivesTheKind : Obligations.FirstFailingCheckGivesTheKind := by
  intro i s hi hs
  refine ⟨fun missing => ?_, fun there bad => ?_, fun there good uses width => ?_, fun there good width => ?_⟩
  · exact faultsWith_of_check hi hs (by rw [missing, acceptanceFault_notReady])
  · exact faultsWith_of_check hi hs (by rw [there, bad, acceptanceFault_badArgument])
  · have illegal : widthOk s.handle.addrWidth = false := by
      rw [← Bool.not_eq_true, widthOk_iff]
      simpa using width
    exact faultsWith_of_check hi hs (by rw [there, good, uses, illegal]; rfl)
  · have legal : (!usesAddrWidth i || widthOk s.handle.addrWidth) = true := by
      cases uses : usesAddrWidth i with
      | true => exact (widthOk_iff _).mpr (width uses)
      | false => rfl
    obtain ⟨u, run, budget, busy, tail⟩ := exec_of_checks hi hs (by rw [there, good, legal, acceptanceFault_pass])
    refine ⟨_, run, fun ended => ?_⟩
    obtain ⟨f, x, completed, faultless⟩ := State.runTail_ended budget busy tail ended
    rw [completed, State.complete_rsp]
    rcases Response.finish_err faultless x.ctl x.rsp with err | err | err <;> rw [err] <;> decide

end Sys2Proof.Machine
end

