-- ==== Sys2Proof/Proofs/SpiMaster.lean ====
section
/-! PROOF. The operations of the SPI master (R119 to R123), uninterrupted, against the free oracle: runs of exchanges outside every
frame. -/

namespace Sys2Proof.Machine

open Sys2Proof

/-! ### The row of a code -/

/-- R95: what the decoder makes of a code, operands and all. -/
theorem encoded_of_row {op : OpCode} {f : HostCmd → Instr}
    (row : ∀ a0 a1 a2 len buf, decodeHost ⟨op, a0, a1, a2, len, buf⟩ = .instr (f ⟨op, a0, a1, a2, len, buf⟩)) :
    Encoded op.toNat f := by
  rintro ⟨code, a0, a1, a2, len, buf⟩ same
  obtain rfl : code = op := BitVec.eq_of_toNat_eq same
  exact row a0 a1 a2 len buf

/-! ### Exchanges outside every frame (R288) -/

section exchanges

variable {s : State} (h : s.Uninterrupted)
include h

/-- R122: an operation that only sends. -/
theorem State.operate_sends (ts : List Byte) :
    s.operate none (ts.map send) (.finish .plain) = .next (s.ends ts.length (s.xEvents 0 ts) s.rsp.good) := by
  rw [State.operate_eq h (State.perform_sends (by simpa using h.2) ts), State.load_xEvents]
  exact congrArg Host.Outcome.next (State.complete_did_plain s _ _ _ _ s.lines)

/-- R123: an operation that only receives. -/
theorem State.operate_receives (n : Nat) (f : Finish) :
    s.operate none (List.replicate n receive) (.finish f) =
      .next (s.ends n (s.xEvents 0 (List.replicate n s.cfg.dummy)) (s.rsp.finish f { s.ctl with rd := s.rxBytes 0 n })) := by
  rw [State.operate_eq h (State.perform_receives (by simpa using h.2) n)]
  exact congrArg Host.Outcome.next (State.complete_did s _ _ _ _ f s.lines _)

end exchanges

/-! ### The checks (R97) -/

/-- An enabled master and a good length: nothing stands in the way. -/
theorem spiCheck_pass {s : State} (on : s.spi.en = true) {argsOk : Bool} (good : argsOk = true) : spiCheck argsOk s = none := by
  rw [spiCheck, on, good, acceptanceFault_pass]

section faults

variable {i : Instr} {s : State} (hi : isHostOp i = true) (hs : s.Uninterrupted)
include hi hs

/-- R97 (2). -/
theorem faultsWith_notInitialized (missing : s.has (needOf i) = false) : FaultsWith i s .notInitialized :=
  faultsWith_of_check hi hs (by rw [missing, acceptanceFault_notReady])

/-- R97 (3). -/
theorem faultsWith_invalidArgument (there : s.has (needOf i) = true) (bad : i.wellFormed = false) :
    FaultsWith i s .invalidArgument :=
  faultsWith_of_check hi hs (by rw [there, bad, acceptanceFault_badArgument])

end faults

/-! ### The five operations -/

/-- Settles O15: one micro-operation, `SPI_INIT()`, and no check. -/
theorem spiInitmEnablesTheMaster : Obligations.SpiInitmEnablesTheMaster := by
  refine ⟨encoded_of_row (op := 0x00) fun _ _ _ _ _ => rfl, fun s hs => ?_⟩
  rw [exec, execSpiInitm, State.operate_finish hs, State.perform_op, State.micro_spiInit]
  rfl

/-- Settles O16: a run of one byte sent. -/
theorem spiTxSendsOneByte : Obligations.SpiTxSendsOneByte := by
  refine ⟨encoded_of_row (op := 0x01) fun _ _ _ _ _ => rfl, fun b s hs => ⟨fun off => ?_, fun on => ?_⟩⟩
  · exact faultsWith_notInitialized rfl hs off
  · rw [exec, execSpiTx, spiCheck_pass on rfl]
    exact State.operate_sends hs [b]

/-- Settles O17: a run of one byte received, which the completion puts into `rsp_byte`. -/
theorem spiRxReturnsTheByteReceived : Obligations.SpiRxReturnsTheByteReceived := by
  refine ⟨encoded_of_row (op := 0x02) fun _ _ _ _ _ => rfl, fun s hs => ⟨fun off => ?_, fun on => ?_⟩⟩
  · exact faultsWith_notInitialized rfl hs off
  · rw [exec, execSpiRx, spiCheck_pass on rfl]
    exact State.operate_receives hs 1 .byteRead

/-- Settles O18: a run of n bytes sent. -/
theorem spiWrbufSendsTheBuffer : Obligations.SpiWrbufSendsTheBuffer := by
  refine ⟨encoded_of_row (op := 0x03) fun _ _ _ _ _ => rfl,
    fun n buf s hs => ⟨fun off => ?_, fun on long => ?_, fun on short => ?_⟩⟩
  · exact faultsWith_notInitialized rfl hs off
  · exact faultsWith_invalidArgument rfl hs on (lenOk_false long)
  · rw [exec, execSpiWrbuf, spiCheck_pass on (lenOk_true short), State.operate_sends hs, bufBytes_length buf _ short,
      bufBytes]

/-- Settles O19: a run of n bytes received, which the completion puts into the response buffer. -/
theorem spiRdbufFillsTheResponse : Obligations.SpiRdbufFillsTheResponse := by
  refine ⟨encoded_of_row (op := 0x04) fun _ _ _ _ _ => rfl,
    fun n s hs => ⟨fun off => ?_, fun on long => ?_, fun on short => ?_⟩⟩
  · exact faultsWith_notInitialized rfl hs off
  · exact faultsWith_invalidArgument rfl hs on (lenOk_false long)
  · rw [exec, execSpiRdbuf, spiCheck_pass on (lenOk_true short), State.operate_receives hs, Response.finish,
      fillBuf_rxBytes]
    rfl

end Sys2Proof.Machine
end

