-- ==== Sys2Proof/Proofs/Delay.lean ====
section
/-! PROOF. The delay timer (R135, R136, R268): the rounding of the loaded count, the load and the end of the wait. -/

namespace Sys2Proof.Machine

open Sys2Proof

/-! ### Rounding up (R268) -/

/-- R268: the quotient rounded up, times the divisor, is at least the dividend and less than one divisor above it. -/
theorem ceilDiv_mul_bounds (c : Nat) {d : Nat} (pos : 0 < d) : c ≤ ceilDiv c d * d ∧ ceilDiv c d * d < c + d := by
  have whole : c / d * d + c % d = c := Nat.div_add_mod' c d
  have part : c % d < d := Nat.mod_lt c pos
  unfold ceilDiv
  split
  case isTrue divides => omega
  case isFalse remains =>
    rw [Nat.succ_mul]
    omega

/-! ### The load and the wait (R135, R136) -/

/-- Settles O21: both counts are quotients rounded up; the load is the delay's definition, and the end of the wait
(`State.transfer_delayDone`) overwrites the counter and keeps the event. -/
theorem delayIsNeverShorterThanNominal : Obligations.DelayIsNeverShorterThanNominal := by
  refine ⟨fun cfg n => ?_, fun cfg n => ?_, fun s n => ⟨rfl, rfl, ?_, ?_⟩, ?_⟩
  · exact ceilDiv_mul_bounds (n * cfg.fClkHz) (by decide)
  · exact ceilDiv_mul_bounds (n * cfg.fClkHz) (by decide)
  · exact State.transfer_delayDone (s.delayUs n)
  · exact State.transfer_delayDone (s.delayMs n)
  · decide

end Sys2Proof.Machine
end

