-- ==== Sys2Proof/Proofs/RegisterCodec.lean ====
section
/-! PROOF. The register codec (R140 to R154), uninterrupted, against the free oracle: register accesses and what the block keeps of
them. -/

namespace Sys2Proof.Machine

open Sys2Proof

/-! ### Operands and checks -/

/-- R86: a register number within its five bits is its own read command. -/
theorem encodeWire_readReg {reg : Byte} (h : reg.toNat ≤ 0x1F) : encodeWire (.readReg (regAddr reg)) = reg := by
  have read : reg &&& 0xE0 = Config.cmdRRegister := by
    rw [commandBits_eq_iff]
    exact (show 32 * (reg.toNat / 32) = 0 by omega)
  exact encodeWire_of_decodeWire (by rw [decodeWire, if_pos read]; rfl)

/-- R86: the write command of a register number within its five bits. -/
theorem encodeWire_writeReg {reg : Byte} (h : reg.toNat ≤ 0x1F) : encodeWire (.writeReg (regAddr reg)) = 0x20 ||| reg := by
  have number : (regAddr reg).setWidth 8 = reg := by
    simpa [encodeWire, Config.cmdRRegister] using encodeWire_readReg h
  rw [encodeWire, number, Config.cmdWRegister]

/-- R100: a register number and a length in range. -/
theorem regOk_and_lenOk {reg : Byte} {n : Len} (number : reg.toNat ≤ 0x1F) (short : n.toNat ≤ 32) :
    (regOk reg && lenOk n) = true := by
  rw [regOk_true number, lenOk_true short, Bool.and_self]

/-- R100: one of two operands out of its range. -/
theorem inRange_eq_false {x y a b : Nat} (bad : a < x ∨ b < y) : (decide (x ≤ a) && decide (y ≤ b)) = false := by
  rw [← Bool.decide_and, decide_eq_false_iff_not]
  omega

/-- R97: an initialised block, good operands and a good width: nothing stands in the way. -/
theorem nrfCheck_pass {s : State} (init : s.handle.initDone = true) {argsOk addrOk : Bool} (args : argsOk = true)
    (addr : addrOk = true) : nrfCheck argsOk addrOk s = none := by
  rw [nrfCheck, init, args, addr, acceptanceFault_pass]

/-- R97 (4), R254. -/
theorem faultsWith_badAddrWidth {i : Instr} {s : State} (hi : isHostOp i = true) (hs : s.Uninterrupted)
    (there : s.has (needOf i) = true) (good : i.wellFormed = true) (uses : usesAddrWidth i = true)
    (illegal : widthOk s.handle.addrWidth = false) : FaultsWith i s .badAddrWidth :=
  faultsWith_of_check hi hs (by rw [there, good, uses, illegal]; rfl)

/-- R63: `buf[0]` comes first. -/
theorem bufBytes_succ (buf : Buf) (n : Nat) : bufBytes buf (n + 1) = buf[0] :: buf.toList.tail.take n := by
  have first : buf.toList = buf[0] :: buf.toList.tail := by
    rw [← List.cons_head_tail (List.ne_nil_of_length_pos (by simp : 0 < buf.toList.length)), List.head_eq_getElem]
    simp
  rw [bufBytes, first, List.take_succ_cons, List.tail_cons]

/-- R141: what a write of `buf[0..n-1]` does to the cache. -/
theorem cacheWritten_bufBytes (m : RegMap) (a : RegAddr) (buf : Buf) (n : Nat) :
    cacheWritten m a (bufBytes buf n) = if 1 ≤ n ∧ a = m.aConfig then [.set (.cacheSet buf[0])] else [] := by
  cases n with
  | zero => rfl
  | succ n => simp [bufBytes_succ, cacheWritten]

/-- R154: the cached address once `buf[0..w-1]` has been put into it; the other bytes keep their value. -/
theorem fillAddr_bufBytes (old : Vector Byte 5) (buf : Buf) (w : Nat) :
    fillAddr old (bufBytes buf w) = Vector.ofFn fun i : Fin 5 => if i.val < w then buf[i.val] else old[i] := by
  apply Vector.ext
  intro i hi
  simp [fillAddr, bufBytes, List.getD_eq_getElem?_getD, List.getElem?_take]
  split
  case isTrue listed => rw [Vector.getElem?_eq_getElem (by omega)]; rfl
  case isFalse => rfl

/-! ### Sequences -/

/-- The handle written on a condition. -/
theorem State.perform_setIf {c : Prop} [Decidable c] {t : Transfer} {s : State} {hd : Handle}
    (ht : c → s.transfer t = s.setHandle hd) :
    s.perform (if c then [.set t] else []) = s.setHandle (if c then hd else s.handle) := by
  split
  case isTrue holds => exact ht holds
  case isFalse => rfl

/-- The first of n bytes read. -/
theorem State.rxBytes_headD (s : State) (k n : Nat) (d : Byte) : (s.rxBytes k n).headD d = if 1 ≤ n then s.rx k else d := by
  cases n with
  | zero => rfl
  | succ n => rw [State.rxBytes_succ, if_pos (Nat.le_add_left 1 n)]; rfl

section sequences

variable {s : State} (h : s.far = .free)
include h

/-- R12: a read of n bytes. -/
theorem State.perform_memRead (a : RegAddr) (n : Nat) :
    s.perform (memRead a n) =
      ((s.did (n + 1) (s.frameEvents 0 (encodeWire (.readReg a) :: List.replicate n s.cfg.dummy))).setLines
        s.lines.idleCsn).setRd (s.rxBytes 1 n) := by
  rw [memRead, State.perform_set, State.transfer_rdClear, State.perform_readFrame (by simpa using h)]
  simp
  rfl

/-- R140: the cache follows the first byte read from `A_CONFIG`. -/
theorem State.perform_rdRegItems (m : RegMap) (reg : Byte) (n : Nat) :
    s.perform (rdRegItems m reg n) =
      (((s.did (n + 1) (s.frameEvents 0 (encodeWire (.readReg (regAddr reg)) :: List.replicate n s.cfg.dummy))).setLines
          s.lines.idleCsn).setRd (s.rxBytes 1 n)).setHandle
        (if 1 ≤ n ∧ regAddr reg = m.aConfig then { s.handle with configCache := s.rx 1 } else s.handle) := by
  rw [rdRegItems, State.perform_append, State.perform_memRead h]
  refine State.perform_setIf fun ⟨pos, _⟩ => ?_
  rw [State.transfer_cacheRead, State.setRd_ctl_rd, State.rxBytes_headD, if_pos pos]
  rfl

/-- R141: the cache follows the first byte written to `A_CONFIG`. -/
theorem State.perform_wrRegItems (m : RegMap) (reg : Byte) (buf : Buf) {n : Nat} (hn : n ≤ 32) :
    s.perform (wrRegItems m reg (bufBytes buf n)) =
      ((s.did (n + 1) (s.frameEvents 0 (encodeWire (.writeReg (regAddr reg)) :: bufBytes buf n))).setLines
          s.lines.idleCsn).setHandle
        (if 1 ≤ n ∧ regAddr reg = m.aConfig then { s.handle with configCache := buf[0] } else s.handle) := by
  rw [wrRegItems, State.perform_append, State.perform_memWrite h, cacheWritten_bufBytes,
    State.perform_setIf fun _ => State.transfer_cacheSet _ _, bufBytes_length _ _ hn]
  rfl

/-- R153: the address, the byte read into the scratch register, and that byte with the pipe's bit. -/
theorem State.perform_setRxAddrItems (m : RegMap) (pipe : Byte) (bytes : List Byte) :
    s.perform (setRxAddrItems m pipe bytes) =
      (((s.did (bytes.length + 5)
          (s.frameEvents 0 (encodeWire (.writeReg (rxAddrAddr m pipe)) :: bytes)
            ++ s.frameEvents (bytes.length + 1) [encodeWire (.readReg m.aEnRxaddr), s.cfg.dummy]
            ++ s.frameEvents (bytes.length + 3)
                [encodeWire (.writeReg m.aEnRxaddr), s.rx (bytes.length + 2) ||| pipeBit pipe])).setLines
        s.lines.idleCsn).setRd [s.rx (bytes.length + 2)]).setT (s.rx (bytes.length + 2)) := by
  simp only [setRxAddrItems, State.perform_append, State.perform_set, State.perform_nil]
  rw [State.perform_memWrite h, State.perform_memRead_one (by simpa using h), State.transfer_tRead,
    State.perform_srcFrame (by simpa using h)]
  simp [State.srcByte, Nat.add_assoc]
  rfl

/-- R154: both addresses, then the cache. -/
theorem State.perform_setTxAddrItems (m : RegMap) (bytes : List Byte) :
    s.perform (setTxAddrItems m bytes) =
      ((s.did (2 * bytes.length + 2)
          (s.frameEvents 0 (encodeWire (.writeReg m.aTxAddr) :: bytes)
            ++ s.frameEvents (bytes.length + 1) (encodeWire (.writeReg m.aRxAddrP0) :: bytes))).setLines
        s.lines.idleCsn).setHandle { s.handle with txAddrCache := fillAddr s.handle.txAddrCache bytes } := by
  simp only [setTxAddrItems, State.perform_append, State.perform_set, State.perform_nil]
  rw [State.perform_memWrite h, State.perform_memWrite (by simpa using h), State.transfer_txCache]
  simp [show 2 * bytes.length + 2 = bytes.length + 1 + (bytes.length + 1) by omega]
  rfl

end sequences

/-! ### Completion -/

section completion

variable (s : State) (is : List Item) (tail : Tail) (n : Nat) (es : List Event) (L : Lines)

/-- Completion of a sequence that has written the handle. -/
theorem State.complete_did_handle (f : Finish) (rd : List Byte) (hd : Handle) :
    State.complete f (((((s.load is tail).did n es).setLines L).setRd rd).setHandle hd) =
      { s.ends n es (s.rsp.finish f { s.ctl with rd := rd }) with lines := L, handle := hd } :=
  congrArg (State.setHandle hd) (State.complete_did s is tail n es f L rd)

/-- The same without a byte read. -/
theorem State.complete_did_plain_handle (hd : Handle) :
    State.complete .plain ((((s.load is tail).did n es).setLines L).setHandle hd) =
      { s.ends n es s.rsp.good with lines := L, handle := hd } :=
  congrArg (State.setHandle hd) (State.complete_did_plain s is tail n es L)

/-- Completion of a sequence that has written the scratch register. -/
theorem State.complete_did_plain_t (rd : List Byte) (t : Byte) :
    State.complete .plain (((((s.load is tail).did n es).setLines L).setRd rd).setT t) =
      { s.ends n es s.rsp.good with lines := L, ctl.t := t } :=
  congrArg (State.setT t) (State.complete_did_plain s is tail n es L)

end completion

/-- R12, R97: an operation of the initialised block that is one register write. -/
theorem State.operate_write {s : State} (hs : s.Uninterrupted) (init : s.handle.initDone = true) {argsOk : Bool}
    (args : argsOk = true) (a : RegAddr) (vs : List Byte) :
    s.operate (nrfCheck argsOk true s) (memWrite a vs) (.finish .plain) = .next (s.wrote a vs) := by
  rw [nrfCheck_pass init args rfl, State.operate_memWrite hs]

/-! ### Reads and writes of any register -/

/-- Settles O22: one frame that reads n bytes; the cache follows the first byte of `A_CONFIG`. -/
theorem rdregReadsTheRegister : Obligations.RdregReadsTheRegister := by
  refine ⟨encoded_of_row (op := 0x10) fun _ _ _ _ _ => rfl,
    fun reg n s hs => ⟨fun off => ?_, fun init bad => ?_, fun init number short => ?_⟩⟩
  · exact faultsWith_notInitialized rfl hs off
  · exact faultsWith_invalidArgument rfl hs init (inRange_eq_false bad)
  · rw [exec, execNrfRdreg, nrfCheck_pass init (regOk_and_lenOk number short) rfl,
      State.operate_eq hs (State.perform_rdRegItems (by simpa using hs.2) _ _ _), State.complete_did_handle,
      encodeWire_readReg number, Response.finish]
    simp only [State.load_rxBytes, fillBuf_rxBytes, State.rxBytes_headD]
    rfl

/-- Settles O23: one frame that sends n bytes; the cache follows the first byte of `A_CONFIG`. -/
theorem wrregWritesTheRegister : Obligations.WrregWritesTheRegister := by
  refine ⟨encoded_of_row (op := 0x11) fun _ _ _ _ _ => rfl,
    fun reg n buf s hs => ⟨fun off => ?_, fun init bad => ?_, fun init number short => ?_⟩⟩
  · exact faultsWith_notInitialized rfl hs off
  · exact faultsWith_invalidArgument rfl hs init (inRange_eq_false bad)
  · rw [exec, execNrfWrreg, nrfCheck_pass init (regOk_and_lenOk number short) rfl,
      State.operate_eq hs (State.perform_wrRegItems (by simpa using hs.2) _ _ _ short), State.complete_did_plain_handle,
      encodeWire_writeReg number]
    rfl

/-- Settles O24: a read of one byte, and a write of one byte. -/
theorem statusIsReadAndItsFlagsCleared : Obligations.StatusIsReadAndItsFlagsCleared := by
  refine ⟨encoded_of_row (op := 0x12) fun _ _ _ _ _ => rfl, encoded_of_row (op := 0x13) fun _ _ _ _ _ => rfl, rfl,
    fun s hs => ⟨fun off => ?_, fun off => ?_, fun init => ⟨?_, ?_⟩⟩⟩
  · exact faultsWith_notInitialized rfl hs off
  · exact faultsWith_notInitialized rfl hs off
  · rw [exec, execNrfStatus, nrfCheck_pass init rfl rfl, State.operate_memRead_one hs]
    rfl
  · exact State.operate_write hs init rfl _ _

/-! ### Writes of one byte -/

/-- Settles O25: a write of the combined byte. -/
theorem setrfWritesTheCombinedByte : Obligations.SetrfWritesTheCombinedByte := by
  refine ⟨encoded_of_row (op := 0x14) fun _ _ _ _ _ => rfl,
    fun rate power lna s hs => ⟨fun off => ?_, fun init bad => ?_, fun init hr hp hl => ?_⟩⟩
  · exact faultsWith_notInitialized rfl hs off
  · refine faultsWith_invalidArgument rfl hs init ?_
    simp only [Instr.wellFormed, Bool.and_eq_false_iff, decide_eq_false_iff_not]
    omega
  · have args : rfOk rate power lna = true := by simp [rfOk, hr, hp, hl]
    have run : exec (.nrfSetrf rate power lna) s =
        .next (s.wrote s.cfg.regMap.aRfSetup [rfByte s.cfg.regMap rate power lna]) :=
      State.operate_write hs init args _ _
    refine ⟨run, fun std => ?_⟩
    rw [run, std, rfByte]
    simp [RegMap.standard]

/-- Settles O26: a write of the masked channel. -/
theorem setchMasksTheChannel : Obligations.SetchMasksTheChannel := by
  refine ⟨encoded_of_row (op := 0x15) fun _ _ _ _ _ => rfl, fun frequency s hs => ⟨fun off => ?_, fun init => ?_⟩⟩
  · exact faultsWith_notInitialized rfl hs off
  · have run : exec (.nrfSetch frequency) s = .next (s.wrote s.cfg.regMap.aRfCh [channelByte s.cfg.regMap frequency]) :=
      State.operate_write hs init rfl _ _
    refine ⟨run, fun std => ?_⟩
    rw [run, std, channelByte]
    simp [RegMap.standard, Config.rfChMask]

/-- Settles O27: a write of the two masked fields. -/
theorem setretrMasksBothFields : Obligations.SetretrMasksBothFields := by
  refine ⟨encoded_of_row (op := 0x16) fun _ _ _ _ _ => rfl, fun count delay s hs => ⟨fun off => ?_, fun init => ?_⟩⟩
  · exact faultsWith_notInitialized rfl hs off
  · have run : exec (.nrfSetretr count delay) s =
        .next (s.wrote s.cfg.regMap.aSetupRetr [retrByte s.cfg.regMap count delay]) :=
      State.operate_write hs init rfl _ _
    refine ⟨run, fun std => ?_⟩
    rw [run, std, retrByte]
    simp [RegMap.standard]

/-- R151: a pipe and a size in range. -/
theorem exec_nrfSetpw {s : State} (hs : s.Uninterrupted) (init : s.handle.initDone = true) {pipe size : Byte}
    (hp : pipe.toNat ≤ 5) (hz : size.toNat ≤ 32) :
    exec (.nrfSetpw pipe size) s = .next (s.wrote (pwAddr s.cfg.regMap pipe) [size]) :=
  State.operate_write hs init (by rw [pipeOk_true hp, sizeOk_true hz, Bool.and_self]) _ _

/-- R152, R105. -/
theorem exec_nrfDispipe (pipe : Byte) (s : State) : exec (.nrfDispipe pipe) s = exec (.nrfSetpw pipe 0) s := by
  have zero : (pipeOk pipe && sizeOk 0) = pipeOk pipe := Bool.and_true _
  rw [exec, exec, execNrfDispipe, execNrfSetpw, zero]

/-- Settles O28: a write of the size, which is 0 for the disabled pipe. -/
theorem setpwAndDispipeWriteTheSize : Obligations.SetpwAndDispipeWriteTheSize := by
  refine ⟨encoded_of_row (op := 0x17) fun _ _ _ _ _ => rfl, encoded_of_row (op := 0x18) fun _ _ _ _ _ => rfl,
    fun pipe size s hs => ⟨fun off => ?_, fun init bad => ?_, fun init hp hz => ?_, ?_, fun init hp => ?_⟩⟩
  · exact faultsWith_notInitialized rfl hs off
  · exact faultsWith_invalidArgument rfl hs init (inRange_eq_false bad)
  · exact exec_nrfSetpw hs init hp hz
  · exact exec_nrfDispipe pipe s
  · rw [exec_nrfDispipe]
    exact exec_nrfSetpw hs init hp (Nat.zero_le 32)

/-! ### Addresses -/

/-- Settles O29: the address in the pipe's width, then the enable byte read and written back with the pipe's bit. -/
theorem setrxaddrWritesAddressThenEnableBit : Obligations.SetrxaddrWritesAddressThenEnableBit := by
  refine ⟨encoded_of_row (op := 0x19) fun _ _ _ _ _ => rfl,
    fun pipe address s hs => ⟨fun off => ?_, fun init bad => ?_, fun init full illegal => ?_, fun init hp legal => ?_⟩⟩
  · exact faultsWith_notInitialized rfl hs off
  · exact faultsWith_invalidArgument rfl hs init (decide_eq_false (Nat.not_le.mpr bad))
  · exact faultsWith_badAddrWidth rfl hs init (decide_eq_true (by omega)) (decide_eq_true full) (widthOk_false illegal)
  · have width : (!fullWidthPipe pipe || widthOk s.handle.addrWidth) = true := by
      by_cases full : pipe.toNat ≤ 1
      · rw [widthOk_true (legal full).1 (legal full).2, Bool.or_true]
      · rw [fullWidthPipe_false (by omega)]
        rfl
    have length : (if fullWidthPipe pipe then s.handle.addrWidth.toNat else 1) =
        if pipe.toNat ≤ 1 then s.handle.addrWidth.toNat else 1 := by
      simp only [fullWidthPipe, decide_eq_true_eq]
    have short : (if pipe.toNat ≤ 1 then s.handle.addrWidth.toNat else 1) ≤ 32 := by
      split
      case isTrue full => exact (legal full).2.trans (by decide)
      case isFalse => decide
    rw [exec, execNrfSetrxaddr, nrfCheck_pass init (pipeOk_true hp) width,
      State.operate_eq hs (State.perform_setRxAddrItems (by simpa using hs.2) _ _ _), State.complete_did_plain_t, length,
      bufBytes_length _ _ short]
    rfl

/-- Settles O30: both registers, then the cache. -/
theorem settxaddrWritesBothAddressesAndCaches : Obligations.SettxaddrWritesBothAddressesAndCaches := by
  refine ⟨encoded_of_row (op := 0x1A) fun _ _ _ _ _ => rfl,
    fun address s hs => ⟨fun off => ?_, fun init illegal => ?_, fun init wide narrow => ?_⟩⟩
  · exact faultsWith_notInitialized rfl hs off
  · exact faultsWith_badAddrWidth rfl hs init rfl rfl (widthOk_false illegal)
  · rw [exec, execNrfSettxaddr, nrfCheck_pass init rfl (widthOk_true wide narrow),
      State.operate_eq hs (State.perform_setTxAddrItems (by simpa using hs.2) _ _), State.complete_did_plain_handle,
      bufBytes_length _ _ (by omega)]
    simp only [State.load_handle, fillAddr_bufBytes]
    rfl

end Sys2Proof.Machine
end

