-- ==== Sys2Proof/Proofs/ChipConversation.lean ====
section
/-! PROOF. Frames of the block against the reference chip (R215, R219 to R221): a frame the block sends is a frame clocked into the
chip, whatever its bytes are made of; what a register write leaves in the chip's register space, and that a read gives it back. -/

namespace Sys2Proof.Machine

open Sys2Proof

/-! ### The chip's side of a frame (R219 to R221) -/

section chip

variable (m : RegMap) (ce : Bool)

/-- R221: the register space after a run of data bytes, the first of them for the byte the index names. -/
theorem Chip.dataBytes_read {a : RegAddr} {r : ChipReg} {mask : Byte} (named : chipReg m a = some r)
    (stores : r.stores = some mask) {c : Chip} (wf : c.regs.wf = true) (ts : List Byte) (n k : Nat) :
    (Chip.dataBytes m ce (.writeReg a) ts n c).2.regs.read k =
      if k / 8 = r.home ∧ c.idx ≤ k % 8 ∧ k % 8 < c.idx + ts.length then
        (c.regs.read k).map fun _ => ts.getD (k % 8 - c.idx) 0 &&& mask
      else c.regs.read k := by
  induction ts generalizing n c with
  | nil => simp
  | cons t ts ih =>
    have first : c.dataIn m (.writeReg a) t = { c.writeReg m r c.idx t with idx := c.idx + 1 } := by
      simp only [Chip.dataIn, named]
    have canonical : ((c.dataIn m (.writeReg a) t).rearm m ce).regs.wf = true := by
      rw [Chip.rearm_regs]
      exact Chip.dataIn_wf m wf _ _
    have one : ((c.dataIn m (.writeReg a) t).rearm m ce).regs.read k =
        if k = Memory.key r.home c.idx ∧ c.idx < 8 then (c.regs.read k).map fun _ => t &&& mask else c.regs.read k := by
      rw [Chip.rearm_regs, first, Chip.writeReg_stores m c stores]
      by_cases inside : c.idx < 8
      · simp [inside, Memory.read_write wf]
      · simp [inside]
    have next : ((c.dataIn m (.writeReg a) t).rearm m ce).idx = c.idx + 1 := by rw [Chip.rearm_idx, first]
    rw [Chip.dataBytes, ih canonical, one, next]
    have key : k = Memory.key r.home c.idx ∧ c.idx < 8 ↔ k / 8 = r.home ∧ k % 8 = c.idx := by
      unfold Memory.key
      omega
    simp only [key, List.length_cons]
    by_cases home : k / 8 = r.home
    case neg => simp [home]
    case pos =>
      rcases Nat.lt_trichotomy (k % 8) c.idx with below | same | above
      · simp [home, below.ne, Nat.not_le.mpr below, Nat.not_le.mpr (Nat.lt_succ_of_lt below)]
      · simp [home, same]
      · have position : k % 8 - c.idx = k % 8 - (c.idx + 1) + 1 := by omega
        simp [home, above.ne', position, Nat.add_assoc, Nat.add_comm 1, above.le, Nat.succ_le_of_lt above]

/-- R219, R221: the chip after a register-write frame. -/
theorem Chip.frame_writeReg (a : RegAddr) (data : List Byte) (n : Nat) (c : Chip) :
    (c.frame m ce (.writeReg a) data n).2 =
      ({ (Chip.dataBytes m ce (.writeReg a) data n (c.started m ce (.writeReg a))).2 with sel := false, cmd := none } : Chip).rearm
        m ce := by
  have cmd : (Chip.dataBytes m ce (.writeReg a) data n (c.started m ce (.writeReg a))).2.cmd = some (.writeReg a) := by
    rw [Chip.dataBytes_eq]
    simp [Chip.started_eq]
  rw [Chip.frame_eq, Chip.deselect, cmd]

/-- R221: the register space after a register-write frame: the defined bits of data byte i in the byte of that index, if the
register has one. -/
theorem Chip.frame_writeReg_read {a : RegAddr} {r : ChipReg} {mask : Byte} (named : chipReg m a = some r)
    (stores : r.stores = some mask) {c : Chip} (wf : c.regs.wf = true) (data : List Byte) (n k : Nat) :
    (c.frame m ce (.writeReg a) data n).2.regs.read k =
      if k / 8 = r.home ∧ k % 8 < data.length then (c.regs.read k).map fun _ => data.getD (k % 8) 0 &&& mask
      else c.regs.read k := by
  have regs : (c.started m ce (.writeReg a)).regs = c.regs := by simp [Chip.started_eq]
  have idx : (c.started m ce (.writeReg a)).idx = 0 := by simp [Chip.started_eq]
  rw [Chip.frame_writeReg, Chip.rearm_regs]
  have read := Chip.dataBytes_read m ce named stores (c := c.started m ce (.writeReg a)) (by rw [regs]; exact wf) data n k
  simpa [regs, idx] using read

/-- R221: a register-write frame keeps the register space canonical. -/
theorem Chip.frame_writeReg_wf {c : Chip} (wf : c.regs.wf = true) (a : RegAddr) (data : List Byte) (n : Nat) :
    (c.frame m ce (.writeReg a) data n).2.regs.wf = true := by
  rw [Chip.frame_writeReg, Chip.rearm_regs]
  exact Chip.dataBytes_wf m ce (by simpa [Chip.started_eq] using wf) _ _ _

/-- R219: a register-write frame ends within what the spec says, with the decoder idle. -/
theorem Chip.frame_writeReg_idle (a : RegAddr) (data : List Byte) (n : Nat) (c : Chip) :
    (c.frame m ce (.writeReg a) data n).2.sel = false ∧ (c.frame m ce (.writeReg a) data n).2.gap = none := by
  rw [Chip.frame_writeReg, Chip.rearm_sel, Chip.rearm_gap, Chip.dataBytes_eq]
  simp [Chip.started_eq]

/-- R220: a register-read frame shifts out the register's bytes after the status byte, lowest first. -/
theorem Chip.frame_readReg_out {a : RegAddr} {r : ChipReg} (named : chipReg m a = some r) {c : Chip} {i : Nat} {b : Byte}
    (read : c.readReg m r i = some b) {data : List Byte} (hi : i < data.length) (n : Nat) :
    (c.frame m ce (.readReg a) data n).1[i + 1]? = some b := by
  have same : ({ c.started m ce (.readReg a) with idx := i } : Chip).readReg m r i = c.readReg m r i := by
    cases r <;> simp [Chip.started_eq, Chip.readReg, Chip.statusByte, Chip.fifoByte, Chip.pipeField]
  have idx : (c.started m ce (.readReg a)).idx = 0 := by simp [Chip.started_eq]
  rw [Chip.frame_eq, List.getElem?_cons_succ,
    Chip.dataBytes_out m ce (by simp) (Chip.started_stable m ce c _) data n i hi, idx, Nat.zero_add, Chip.dataOut, named]
  simp only
  rw [same, read, Option.getD_some]

/-- A register that stores bits is read from the register space. -/
theorem Chip.readReg_stored {r : ChipReg} {mask : Byte} (stores : r.stores = some mask) {i : Nat} (hi : i < 8) (c : Chip) :
    c.readReg m r i = c.regs.read (Memory.key r.home i) := by
  cases r with
  | status | fifoStatus => cases stores
  | _ => exact if_pos hi

/-- R61: a byte's key tells its register and its place. -/
theorem Memory.key_div_mod (a : Nat) {i : Nat} (hi : i < 8) : Memory.key a i / 8 = a ∧ Memory.key a i % 8 = i := by
  unfold Memory.key
  omega

section written

variable {a : RegAddr} {r : ChipReg} {mask : Byte} (named : chipReg m a = some r) (stores : r.stores = some mask) {c : Chip}
  (wf : c.regs.wf = true) {data : List Byte} (n : Nat) {i : Nat} (hi : i < 8)
include named stores wf hi

/-- R221: a register read back after a write of it. -/
theorem Chip.readReg_frame_writeReg_same (present : Memory.unlisted (Memory.key r.home i) ≠ none) (sent : i < data.length) :
    (c.frame m ce (.writeReg a) data n).2.readReg m r i = some (data[i] &&& mask) := by
  obtain ⟨old, hold⟩ := Memory.read_present present c.regs
  obtain ⟨register, place⟩ := Memory.key_div_mod r.home hi
  rw [Chip.readReg_stored m stores hi, Chip.frame_writeReg_read m ce named stores wf, register, place, if_pos ⟨rfl, sent⟩, hold]
  simp [List.getD_eq_getElem?_getD, sent]

/-- R221: a register read after a write of another one. -/
theorem Chip.readReg_frame_writeReg_other {r' : ChipReg} {mask' : Byte} (stores' : r'.stores = some mask')
    (other : r'.home ≠ r.home) : (c.frame m ce (.writeReg a) data n).2.readReg m r' i = c.readReg m r' i := by
  obtain ⟨register, -⟩ := Memory.key_div_mod r'.home hi
  rw [Chip.readReg_stored m stores' hi, Chip.readReg_stored m stores' hi, Chip.frame_writeReg_read m ce named stores wf, register,
    if_neg fun same => other same.1]

end written

/-- Arming before the command byte is arming after it. -/
theorem Chip.command_rearm (op : WireOp) (c : Chip) : ((c.rearm m ce).command op).rearm m ce = (c.command op).rearm m ce := by
  cases op with
  | flushTx =>
    rw [Chip.rearm_eq m ce c]
    rfl
  | readReg | writeReg | readPayload | writePayload | flushRx =>
    rw [← Chip.rearm_rearm m ce (c.command _), Chip.rearm_eq m ce (c.command _), Chip.rearm_eq m ce c, Chip.rearm_armed,
      Chip.rearm_armed]
    rfl

/-- The chip of a frame just opened takes the command byte. -/
theorem Chip.exchange_command {c : Chip} (sel : c.sel = true) (cmd : c.cmd = none) (op : WireOp) (free : Byte) :
    c.exchange m (encodeWire op) free = (c.selStatus, c.command op) := by
  simp [Chip.exchange, sel, cmd, decodeWire_encodeWire]

/-- The chip inside a frame takes a data byte. -/
theorem Chip.exchange_data {c : Chip} {op : WireOp} (sel : c.sel = true) (cmd : c.cmd = some op) (t free : Byte) :
    c.exchange m t free = (c.dataOut m op free, c.dataIn m op t) := by
  simp [Chip.exchange, sel, cmd]

end chip

/-! ### Micro-operations against the reference chip -/

/-- The block drives both lines of the reference chip (R27, R281). -/
structure State.Drives (s : State) : Prop where
  far : s.far = .refChip
  ceDir : s.lines.ceDir = true
  csnDir : s.lines.csnDir = true

/-- The block drives the reference chip and has no frame open (R11). -/
structure State.BusIdle (s : State) : Prop extends s.Drives where
  csnLvl : s.lines.csnLvl = true
  sel : s.chip.sel = false
  gap : s.chip.gap = none

theorem State.micro_csn_lines (v : Bool) (s : State) : (s.micro (.lvl .csn v)).lines = { s.lines with csnLvl := v } :=
  State.followPins_lines _

section micro

variable {s : State} (h : s.Drives)
include h

theorem State.Drives.micro_csn (v : Bool) : (s.micro (.lvl .csn v)).Drives where
  far := by simpa using h.far
  ceDir := by rw [State.micro_csn_lines]; exact h.ceDir
  csnDir := by rw [State.micro_csn_lines]; exact h.csnDir

/-- R219: the chip follows CSN, and CE as it stands. -/
theorem State.Drives.micro_csn_chip (v : Bool) :
    (s.micro (.lvl .csn v)).chip = s.chip.followPins s.cfg.regMap v s.lines.ceLvl := by
  obtain ⟨far, ceDir, csnDir⟩ := h
  simp [State.micro, State.lvl, State.followPins, far, State.chipCsn, State.chipCe, Lines.setLvl, ceDir, csnDir]

/-- R117, R219: one byte exchanged with the chip, the answer kept or dropped. -/
theorem State.Drives.micro_xfer (src : Src) (keep : Bool) :
    let r := s.chip.exchange s.cfg.regMap (s.srcByte src) (Config.freeByte s.draws)
    (s.micro (.xfer src keep)).chip = r.2.rearm s.cfg.regMap s.lines.ceLvl ∧
      (s.micro (.xfer src keep)).ctl.rd = s.ctl.rd ++ if keep then [r.1] else [] := by
  obtain ⟨far, ceDir, csnDir⟩ := h
  have run : s.micro (.xfer src keep) = State.xfer (s.srcByte src) keep { s with ctl.seq := s.ctl.seq + 1 } := by
    cases src <;> rfl
  rw [run]
  constructor
  · simp [State.xfer, State.chipAfter, State.chipNow, State.chipCe, far, ceDir, csnDir]
  · cases keep <;> simp [State.xfer, State.incoming, State.chipNow, far, csnDir]

end micro

/-! ### Frames against the reference chip -/

/-- An exchange of an operation: what it sends, and whether the answer is kept. -/
def exchangeItem (keep : Bool) (src : Src) : Item := .op (.xfer src keep)

/-- R219: the data bytes of a frame the block sends are the data bytes the chip takes. -/
theorem State.Drives.perform_exchanges {s : State} (h : s.Drives) {op : WireOp} (sel : s.chip.sel = true)
    (cmd : s.chip.cmd = some op) (keep : Bool) (srcs : List Src) :
    let t := s.perform (srcs.map (exchangeItem keep))
    let r := Chip.dataBytes s.cfg.regMap s.lines.ceLvl op (srcs.map s.srcByte) s.draws s.chip
    t.chip = r.2 ∧ t.ctl.rd = (s.ctl.rd ++ if keep then r.1 else []) ∧ t.lines = s.lines ∧
      t.draws = s.draws + srcs.length := by
  induction srcs generalizing s with
  | nil => simp
  | cons src srcs ih =>
    obtain ⟨chip, rd⟩ := h.micro_xfer src keep
    rw [Chip.exchange_data _ sel cmd] at chip rd
    have bytes : srcs.map (s.micro (.xfer src keep)).srcByte = srcs.map s.srcByte :=
      List.map_congr_left fun other _ => by cases other <;> rfl
    have after := ih (s := s.micro (.xfer src keep)) ⟨h.far, h.ceDir, h.csnDir⟩
      (by rw [chip, Chip.rearm_sel, Chip.dataIn_eq]; exact sel) (by rw [chip, Chip.rearm_cmd, Chip.dataIn_eq]; exact cmd)
    rw [bytes, chip, rd] at after
    obtain ⟨chip', rd', lines', draws'⟩ := after
    refine ⟨chip', rd'.trans ?_, lines', draws'.trans ?_⟩
    · cases keep <;> simp [Chip.dataBytes]
      rfl
    · rw [List.length_cons, Nat.add_comm srcs.length, ← Nat.add_assoc]
      rfl

/-- The block once a frame is open and its command byte sent. -/
def State.opened (op : WireOp) (s : State) : State := (s.micro (.lvl .csn false)).micro (.xfer (.lit (encodeWire op)) false)

section frames

variable {s : State} (h : s.BusIdle) (op : WireOp)

@[simp] theorem State.opened_cfg (s : State) : (s.opened op).cfg = s.cfg := by simp [State.opened]

theorem State.opened_lines (s : State) : (s.opened op).lines = { s.lines with csnLvl := false } := State.micro_csn_lines false s

theorem State.opened_draws (s : State) : (s.opened op).draws = s.draws + 1 := congrArg (· + 1) (State.followPins_draws _)

theorem State.opened_srcByte (s : State) (src : Src) : (s.opened op).srcByte src = s.srcByte src := by
  cases src <;> simp [State.opened, State.srcByte]

include h

theorem State.BusIdle.opened_drives : (s.opened op).Drives where
  far := by simpa [State.opened] using h.far
  ceDir := by rw [State.opened_lines]; exact h.ceDir
  csnDir := by rw [State.opened_lines]; exact h.csnDir

/-- R219: the chip has taken the command byte, and the block has dropped the status byte (R89). -/
theorem State.BusIdle.opened_chip :
    (s.opened op).chip = s.chip.started s.cfg.regMap s.lines.ceLvl op ∧ (s.opened op).ctl.rd = s.ctl.rd := by
  have low : (s.micro (.lvl .csn false)).chip = (s.chip.select s.cfg.regMap).rearm s.cfg.regMap s.lines.ceLvl := by
    rw [h.toDrives.micro_csn_chip, Chip.followPins]
    simp [h.sel]
  have noGap : ({ s.chip with gap := none } : Chip) = s.chip := by rw [← h.gap]
  obtain ⟨chip, rd⟩ := (h.toDrives.micro_csn false).micro_xfer (.lit (encodeWire op)) false
  refine ⟨chip.trans ?_, rd.trans ?_⟩
  · rw [low, State.srcByte, Chip.exchange_command _ (by simp) (by simp), State.micro_cfg, State.micro_csn_lines,
      Chip.command_rearm, Chip.started, noGap]
  · simp [State.micro, State.lvl]

/-- R11, R219: a frame the block sends is that frame clocked into the chip, which leaves the lines as they were. -/
theorem State.BusIdle.perform_frame (keep : Bool) (srcs : List Src) :
    let t := s.perform (frame (send (encodeWire op) :: srcs.map (exchangeItem keep)))
    let r := s.chip.frame s.cfg.regMap s.lines.ceLvl op (srcs.map s.srcByte) (s.draws + 1)
    t.chip = r.2 ∧ t.ctl.rd = (s.ctl.rd ++ if keep then r.1.tail else []) ∧ t.lines = s.lines := by
  have shape : s.perform (frame (send (encodeWire op) :: srcs.map (exchangeItem keep))) =
      ((s.opened op).perform (srcs.map (exchangeItem keep))).micro (.lvl .csn true) := by
    simp only [frame, State.perform_op, List.cons_append, State.perform_append, send]
    rfl
  obtain ⟨startChip, startRd⟩ := h.opened_chip op
  have sel : (s.chip.started s.cfg.regMap s.lines.ceLvl op).sel = true := by simp [Chip.started_eq]
  have cmd : (s.chip.started s.cfg.regMap s.lines.ceLvl op).cmd = some op := by simp [Chip.started_eq]
  have body := (h.opened_drives op).perform_exchanges (by rw [startChip]; exact sel) (by rw [startChip]; exact cmd) keep srcs
  simp only [State.opened_cfg, State.opened_lines, State.opened_draws, startChip, startRd,
    List.map_congr_left fun src _ => State.opened_srcByte op s src] at body
  obtain ⟨chip, rd, lines, -⟩ := body
  have drives : ((s.opened op).perform (srcs.map (exchangeItem keep))).Drives :=
    ⟨by simpa using (h.opened_drives op).far, by rw [lines]; exact h.ceDir, by rw [lines]; exact h.csnDir⟩
  simp only [shape]
  refine ⟨?_, ?_, ?_⟩
  · have open' : ((s.opened op).perform (srcs.map (exchangeItem keep))).chip.sel = true := by
      rw [chip, Chip.dataBytes_eq]
      exact sel
    rw [drives.micro_csn_chip, Chip.followPins, if_pos rfl, if_pos open', chip, lines, State.perform_cfg, State.opened_cfg]
    rfl
  · simp [State.micro, State.lvl, rd, Chip.frame_eq]
  · rw [State.micro_csn_lines, lines, ← h.csnLvl]

/-- R12: a register write against the reference chip. -/
theorem State.BusIdle.perform_memWrite (a : RegAddr) (vs : List Byte) :
    (s.perform (memWrite a vs)).BusIdle ∧
      (s.perform (memWrite a vs)).chip = (s.chip.frame s.cfg.regMap s.lines.ceLvl (.writeReg a) vs (s.draws + 1)).2 := by
  have sends : (vs.map Src.lit).map (exchangeItem false) = vs.map send := List.map_map
  have bytes : (vs.map Src.lit).map s.srcByte = vs := by simp [State.srcByte, Function.comp_def]
  have framed := h.perform_frame (.writeReg a) false (vs.map .lit)
  rw [sends, bytes] at framed
  obtain ⟨chip, -, lines⟩ := framed
  obtain ⟨sel, gap⟩ := Chip.frame_writeReg_idle s.cfg.regMap s.lines.ceLvl a vs (s.draws + 1) s.chip
  refine ⟨⟨⟨?_, ?_, ?_⟩, ?_, ?_, ?_⟩, chip⟩
  · simpa using h.far
  · exact lines ▸ h.ceDir
  · exact lines ▸ h.csnDir
  · exact lines ▸ h.csnLvl
  · exact chip ▸ sel
  · exact chip ▸ gap

/-- R12: the bytes a register read against the reference chip keeps. -/
theorem State.BusIdle.perform_memRead_rd (a : RegAddr) (n : Nat) :
    (s.perform (memRead a n)).ctl.rd =
      (s.chip.frame s.cfg.regMap s.lines.ceLvl (.readReg a) (List.replicate n s.cfg.dummy) (s.draws + 1)).1.tail := by
  have cleared : (s.transfer .rdClear).BusIdle := ⟨⟨h.far, h.ceDir, h.csnDir⟩, h.csnLvl, h.sel, h.gap⟩
  have receives : (List.replicate n Src.dummy).map (exchangeItem true) = List.replicate n receive := List.map_replicate
  have bytes : (List.replicate n Src.dummy).map (s.transfer .rdClear).srcByte = List.replicate n s.cfg.dummy :=
    List.map_replicate
  have framed := cleared.perform_frame (.readReg a) true (List.replicate n .dummy)
  rw [receives, bytes] at framed
  obtain ⟨-, rd, -⟩ := framed
  exact rd

end frames

/-! ### The transmit address (R154, S1) -/

/-- An operation on any far side, uninterrupted, that has an outcome. -/
theorem State.operate_next {s t : State} (hb : s.budget = none) {is : List Item} {f : Finish}
    (h : s.operate none is (.finish f) = .next t) : t = ((s.load is (.finish f)).perform is).complete f := by
  rw [State.outcome_next ((State.operate_taken none is (.finish f) s).symm.trans h)]
  exact State.advance_finish (s := s.load is (.finish f)) hb f rfl

/-- R98: a byte read is in the response buffer at its place. -/
theorem fillBuf_getElem {old : Buf} {bytes : List Byte} {i : Nat} {b : Byte} (hi : i < 32) (h : bytes[i]? = some b) :
    (fillBuf old bytes)[i] = b := by
  simp [fillBuf, List.getD_eq_getElem?_getD, h]

/-- R154: the transmit address is in its register afterwards; the second write goes to another register. -/
theorem State.BusIdle.perform_setTxAddrItems {s : State} (h : s.BusIdle) (std : s.cfg.regMap = RegMap.standard)
    (wf : s.chip.regs.wf = true) {bytes : List Byte} (short : bytes.length ≤ 5) :
    let t := s.perform (setTxAddrItems RegMap.standard bytes)
    t.BusIdle ∧ ∀ i (hi : i < bytes.length), t.chip.readReg RegMap.standard .txAddr i = some bytes[i] := by
  obtain ⟨first, firstChip⟩ := h.perform_memWrite RegMap.standard.aTxAddr bytes
  obtain ⟨second, secondChip⟩ := first.perform_memWrite RegMap.standard.aRxAddrP0 bytes
  rw [State.perform_cfg, std] at secondChip
  rw [std] at firstChip
  have shape : s.perform (setTxAddrItems RegMap.standard bytes) =
      ((s.perform (memWrite RegMap.standard.aTxAddr bytes)).perform (memWrite RegMap.standard.aRxAddrP0 bytes)).transfer
        (.txCache bytes) := by
    simp [setTxAddrItems]
  rw [shape]
  refine ⟨⟨⟨second.far, second.ceDir, second.csnDir⟩, second.csnLvl, second.sel, second.gap⟩, fun i hi => ?_⟩
  have pos : i < 8 := by omega
  have present : Memory.unlisted (Memory.key ChipReg.txAddr.home i) ≠ none := by
    have : i < 5 := by omega
    interval_cases i <;> decide
  have firstWf : (s.perform (memWrite RegMap.standard.aTxAddr bytes)).chip.regs.wf = true := by
    rw [firstChip]
    exact Chip.frame_writeReg_wf _ _ wf _ _ _
  rw [State.transfer_chip, secondChip,
    Chip.readReg_frame_writeReg_other _ _ (r := .rxAddr 0) rfl rfl firstWf _ pos (r' := .txAddr) rfl (by decide), firstChip,
    Chip.readReg_frame_writeReg_same _ _ (r := .txAddr) rfl rfl wf _ pos present hi]
  exact congrArg some (BitVec.and_allOnes)

/-- Taking up an operation opens no frame. -/
theorem State.BusIdle.load {s : State} (h : s.BusIdle) (is : List Item) (tail : Tail) : (s.load is tail).BusIdle :=
  ⟨⟨h.far, h.ceDir, h.csnDir⟩, h.csnLvl, h.sel, h.gap⟩

/-- Completion opens no frame. -/
theorem State.BusIdle.complete {s : State} (h : s.BusIdle) (f : Finish) : (s.complete f).BusIdle :=
  ⟨⟨h.far, h.ceDir, h.csnDir⟩, h.csnLvl, h.sel, h.gap⟩

/-- R140, R220: a register read against the reference chip answers the bytes of the chip's register. -/
theorem State.BusIdle.rdreg_response {s t : State} (h : s.BusIdle) (hb : s.budget = none) (init : s.handle.initDone = true)
    {reg : Byte} {n : Len} (number : reg.toNat ≤ 0x1F) (short : n.toNat ≤ 32) (run : exec (.nrfRdreg reg n) s = .next t)
    {r : ChipReg} (named : chipReg s.cfg.regMap (regAddr reg) = some r) {i : Nat} (hi : i < n.toNat) {b : Byte}
    (read : s.chip.readReg s.cfg.regMap r i = some b) : t.rsp.buf[i] = b := by
  rw [exec, execNrfRdreg, nrfCheck_pass init (regOk_and_lenOk number short) rfl] at run
  rw [State.operate_next hb run]
  refine fillBuf_getElem (by omega) ?_
  have kept (u : State) (c : Prop) [Decidable c] : (u.perform (if c then [.set .cacheRead] else [])).ctl.rd = u.ctl.rd := by
    split <;> rfl
  rw [rdRegItems, State.perform_append, kept, (h.load _ _).perform_memRead_rd, List.getElem?_tail]
  exact Chip.frame_readReg_out _ _ named read (by simpa using hi) _

/-- R154: after `NRF.SETTXADDR` the reference chip's transmit address is the operand's bytes. -/
theorem State.BusIdle.settxaddr_chip {s t : State} (h : s.BusIdle) (hb : s.budget = none) (std : s.cfg.regMap = RegMap.standard)
    (init : s.handle.initDone = true) (wf : s.chip.regs.wf = true) (wide : 3 ≤ s.handle.addrWidth.toNat)
    (narrow : s.handle.addrWidth.toNat ≤ 5) {address : Buf} (run : exec (.nrfSettxaddr address) s = .next t) :
    t.BusIdle ∧ t.budget = none ∧
      ∀ i (hi : i < 32), i < s.handle.addrWidth.toNat → t.chip.readReg RegMap.standard .txAddr i = some address[i] := by
  have length := bufBytes_length address s.handle.addrWidth.toNat (by omega)
  rw [exec, execNrfSettxaddr, nrfCheck_pass init rfl (widthOk_true wide narrow), std] at run
  obtain ⟨ended, written⟩ := (h.load _ _).perform_setTxAddrItems std wf (length.le.trans narrow)
  rw [State.operate_next hb run]
  refine ⟨ended.complete _, by simpa using hb, fun i hi inside => ?_⟩
  rw [State.complete_chip, written i (length.symm ▸ inside)]
  simp [bufBytes]

/-- Settles O59: the write leaves the address in the chip's register, and the read answers that register. -/
theorem txAddressReadsBackAsWritten : Obligations.TxAddressReadsBackAsWritten := by
  intro address s t u hb far std init ceDir csnDir csnLvl sel gap wf wide narrow write read i inside hi
  have idle : s.BusIdle := ⟨⟨far, ceDir, csnDir⟩, csnLvl, sel, gap⟩
  obtain ⟨idle', hb', written⟩ := idle.settxaddr_chip hb std init wf wide narrow write
  have std' : t.cfg.regMap = RegMap.standard := by rw [(exec_context write).2, std]
  obtain ⟨-, -, -, initDone⟩ := State.owned_identity (exec_owned hb write (identity_notMem_owns (by simp)))
  have length : (s.handle.addrWidth.setWidth 6).toNat = s.handle.addrWidth.toNat := by
    rw [BitVec.toNat_setWidth]
    omega
  exact idle'.rdreg_response hb' (initDone.trans init) (by decide) (by omega) read (r := .txAddr) (by rw [std']; rfl) (by omega)
    (by rw [std']; exact written i hi inside)

end Sys2Proof.Machine
end

