-- ==== Sys2Proof/Proofs/Idle.lean ====
section
/-! PROOF. The idle block to which nothing is presented (R175, R272). -/

namespace Sys2Proof.Machine

open Sys2Proof

/-- R104: a host without a line issues none. -/
theorem nextLine_nil (idle : Bool) : nextLine idle [] = (none, []) := by cases idle <;> rfl

/-- R104, R175: a host without a line, and a turn without `rst` and without a command, present nothing. -/
theorem State.takeTurn_nothing {s : State} (program : s.program = [])
    (quiet : ∀ turn ∈ s.turns.head?, turn.rst = false ∧ turn.cmd = none) :
    s.takeTurn.inp.rst = false ∧ s.takeTurn.program = s.program ∧ s.takeTurn.presented = none := by
  have turn : (s.turns.headD quietTurn).rst = false ∧ (s.turns.headD quietTurn).cmd = none := by
    cases turns : s.turns with
    | nil => exact ⟨rfl, rfl⟩
    | cons turn rest => exact quiet turn (by rw [turns]; rfl)
  simp only [State.takeTurn, State.presented, program, turn, nextLine_nil]
  exact ⟨trivial, trivial, rfl⟩

/-- R175: without `rst`, an idle block to which nothing is presented waits. -/
theorem clockEdge_nothing {s : State} (rst : s.inp.rst = false) (idle : s.ctl.busy = false) (nothing : s.presented = none) :
    clockEdge s = .next s := by
  simp [clockEdge, rst, idle, nothing]

/-- Settles O12: the step is the outside's turn alone, and of the block the turn changes `done` only. -/
theorem idleBlockWaits : Obligations.IdleBlockWaits := by
  intro s idle program quiet
  obtain ⟨rst, kept, nothing⟩ := State.takeTurn_nothing program quiet
  have moved : ({ s.takeTurn with inp := s.inp, turns := s.turns, budget := s.budget, chip := s.chip } : State) =
      { s with program := s.takeTurn.program, ctl := { s.ctl with done := false } } := rfl
  exact ⟨s.takeTurn, clockEdge_nothing rst idle nothing, by rw [moved, kept]⟩

end Sys2Proof.Machine
end

