-- ==== Sys2Proof/Proofs/ModeControl.lean ====
section
/-! PROOF. The mode control (R167 to R174), uninterrupted, against the free oracle: the operations in closed form, and the mode
they lead to. -/

namespace Sys2Proof.Machine

open Sys2Proof

/-! ### Completion -/

section completion

variable (s : State) (is : List Item) (tail : Tail) (n : Nat) (es : List Event) (L : Lines)

/-- Completion of a sequence that has waited and has written the handle. -/
theorem State.complete_did_plain_dly_handle (d : Nat) (hd : Handle) :
    State.complete .plain (((((s.load is tail).did n es).setLines L).setDly d).setHandle hd) =
      { s.ends n es s.rsp.good with lines := L, dlyCnt := d, handle := hd } :=
  congrArg (fun u => (State.setDly d u).setHandle hd) (State.complete_did_plain s is tail n es L)

/-- Completion looks at neither the master nor the delay counter. -/
theorem State.complete_spi_dly (f : Finish) (spi : Spi) (d : Nat) :
    State.complete f { s with spi := spi, dlyCnt := d } = { s.complete f with spi := spi, dlyCnt := d } := rfl

end completion

/-- R169: the cache written, then CE low. -/
theorem State.perform_pwrDnItems {s : State} (h : s.far = .free) {m : RegMap} (hm : m = s.cfg.regMap) :
    s.perform (pwrDnItems m) =
      ((s.did 2 (s.frameEvents 0 [encodeWire (.writeReg m.aConfig), s.handle.configCache &&& ~~~(bit m.bPwrUp)]
          ++ [.lvl .ce false])).setLines { s.lines.idleCsn with ceLvl := false }).setHandle
        { s.handle with configCache := s.handle.configCache &&& ~~~(bit m.bPwrUp) } := by
  subst hm
  simp [pwrDnItems, State.transfer_cacheClear, State.perform_memWriteCache, h, State.micro_lvl]
  rfl

/-! ### The operations -/

/-- Settles O31: the sequence of R167 has no check. -/
theorem initRunsTheWholeSequence : Obligations.InitRunsTheWholeSequence := by
  refine ⟨encoded_of_row (op := 0x20) fun _ _ _ _ _ => rfl, rfl, fun ce csn s hs => ?_⟩
  rw [exec, execNrfInit, State.operate_eq hs (State.perform_initItems (by simpa using hs.2) rfl _ _),
    State.complete_spi_dly, State.complete_did_handle]
  rfl

/-- Settles O32: the cached power bit set and written, then the delay. -/
theorem pwrupSetsThePowerBit : Obligations.PwrupSetsThePowerBit := by
  refine ⟨encoded_of_row (op := 0x21) fun _ _ _ _ _ => rfl, fun s hs => ⟨fun off => ?_, fun init => ?_⟩⟩
  · exact faultsWith_notInitialized rfl hs off
  · rw [exec, execNrfPwrup, nrfCheck_pass init rfl rfl,
      State.operate_eq hs (State.perform_pwrUpItems (by simpa using hs.2) rfl), State.complete_did_plain_dly_handle]
    rfl

/-- Settles O33: the cached power bit cleared and written, then CE low. -/
theorem pwrdnClearsThePowerBitAndCe : Obligations.PwrdnClearsThePowerBitAndCe := by
  refine ⟨encoded_of_row (op := 0x22) fun _ _ _ _ _ => rfl, fun s hs => ⟨fun off => ?_, fun init => ?_⟩⟩
  · exact faultsWith_notInitialized rfl hs off
  · rw [exec, execNrfPwrdn, nrfCheck_pass init rfl rfl,
      State.operate_eq hs (State.perform_pwrDnItems (by simpa using hs.2) rfl), State.complete_did_plain_handle]
    rfl

/-- Settles O34: the cached receiver bit set or cleared and written, then CE high and the delay. -/
theorem modeSwitchWritesConfigThenRaisesCe : Obligations.ModeSwitchWritesConfigThenRaisesCe := by
  refine ⟨encoded_of_row (op := 0x23) fun _ _ _ _ _ => rfl, encoded_of_row (op := 0x24) fun _ _ _ _ _ => rfl,
    fun s hs => ⟨fun off => ?_, fun off => ?_, fun init => ⟨?_, ?_⟩⟩⟩
  · exact faultsWith_notInitialized rfl hs off
  · exact faultsWith_notInitialized rfl hs off
  · rw [exec, execNrfModerx, nrfCheck_pass init rfl rfl,
      State.operate_eq hs (State.perform_modeRxItems (by simpa using hs.2) rfl), State.complete_did_plain_dly_handle]
    rfl
  · rw [exec, execNrfModetx, nrfCheck_pass init rfl rfl,
      State.operate_eq hs (State.perform_modeTxItems (by simpa using hs.2) rfl), State.complete_did_plain_dly_handle]
    rfl

/-- Settles O35: the flags cleared, CE low, both FIFOs flushed. -/
theorem standbyClearsLowersAndFlushes : Obligations.StandbyClearsLowersAndFlushes := by
  refine ⟨encoded_of_row (op := 0x25) fun _ _ _ _ _ => rfl, fun s hs => ⟨fun off => ?_, fun init => ?_⟩⟩
  · exact faultsWith_notInitialized rfl hs off
  · rw [exec, execNrfStandby, nrfCheck_pass init rfl rfl,
      State.operate_eq hs (State.perform_standbyItems (by simpa using hs.2) rfl), State.complete_did_plain]
    rfl

/-! ### The mode (R165) -/

/-- R165: the power bit alone decides whether the mode is `PowerDown`. -/
theorem modeOf_eq_powerDown_iff {m : RegMap} {c : Byte} {ce : Bool} :
    modeOf m c ce = .powerDown ↔ testBit c m.bPwrUp = false := by
  unfold modeOf
  split
  case isTrue off => exact iff_of_true rfl off
  case isFalse on =>
    refine iff_of_false ?_ on
    split
    · decide
    · split <;> decide

/-- R165: the mode once CE is low, by the mode before. -/
theorem modeOf_low (m : RegMap) (c : Byte) (ce : Bool) :
    modeOf m c false = if modeOf m c ce = .powerDown then .powerDown else .standby := by
  simp only [modeOf_eq_powerDown_iff]
  simp only [modeOf, if_true]

/-- R169: without the power bit. -/
theorem modeOf_clearPower (m : RegMap) (c : Byte) (ce : Bool) : modeOf m (c &&& ~~~(bit m.bPwrUp)) ce = .powerDown := by
  rw [modeOf_eq_powerDown_iff]
  simp [testBit, bit]

section table

variable {m : RegMap} (std : m = RegMap.standard) (c : Byte)
include std

/-- R168, R174: the power bit set in a handle whose CE is low whenever that bit is 0. -/
theorem modeOf_setPower {ce : Bool} (usual : modeOf m c ce = .powerDown → ce = false) :
    modeOf m (c ||| bit m.bPwrUp) ce = if modeOf m c ce = .powerDown then .standby else modeOf m c ce := by
  have power : testBit (c ||| bit m.bPwrUp) m.bPwrUp = true := by simp [std, testBit, bit, RegMap.standard]
  have receiver : testBit (c ||| bit m.bPwrUp) m.bPrimRx = testBit c m.bPrimRx := by simp [std, testBit, bit, RegMap.standard]
  split
  case isTrue off => simp [modeOf, power, usual off]
  case isFalse on =>
    rw [modeOf_eq_powerDown_iff] at on
    simp [modeOf, power, receiver, on]

/-- R170, R174: the receiver bit set and CE high. -/
theorem modeOf_setReceiver (ce : Bool) :
    modeOf m (c ||| bit m.bPrimRx) true = if modeOf m c ce = .powerDown then .powerDown else .rx := by
  have power : testBit (c ||| bit m.bPrimRx) m.bPwrUp = testBit c m.bPwrUp := by simp [std, testBit, bit, RegMap.standard]
  have receiver : testBit (c ||| bit m.bPrimRx) m.bPrimRx = true := by simp [std, testBit, bit, RegMap.standard]
  simp only [modeOf_eq_powerDown_iff]
  simp [modeOf, power, receiver]

/-- R171, R174: the receiver bit cleared and CE high. -/
theorem modeOf_clearReceiver (ce : Bool) :
    modeOf m (c &&& ~~~(bit m.bPrimRx)) true = if modeOf m c ce = .powerDown then .powerDown else .tx := by
  have power : testBit (c &&& ~~~(bit m.bPrimRx)) m.bPwrUp = testBit c m.bPwrUp := by
    simp [std, testBit, bit, RegMap.standard]
  have receiver : testBit (c &&& ~~~(bit m.bPrimRx)) m.bPrimRx = false := by simp [std, testBit, bit, RegMap.standard]
  simp only [modeOf_eq_powerDown_iff]
  simp [modeOf, power, receiver]

end table

/-- The group `mode` of a block with this cached configuration and this CE level. -/
def ownedMode (cache : Byte) (ce : Bool) : Handle × Bool := ({ State.resetHandle with configCache := cache }, ce)

theorem State.owned_eq_ownedMode {s : State} {cache : Byte} {ce : Bool} (h : s.owned .mode = ownedMode cache ce) :
    s.handle.configCache = cache ∧ s.lines.ceLvl = ce := by
  simpa [State.owned, ownedMode] using h

/-- R165: the mode is a function of the cache and CE. -/
theorem State.mode_of_owned {s t : State} (cfg : t.cfg = s.cfg) (h : t.owned .mode = s.owned .mode) : t.mode = s.mode := by
  obtain ⟨cache, ceLvl⟩ := State.owned_mode h
  rw [State.mode, State.mode, cfg, cache, ceLvl]

/-! ### The poll loop (R202) -/

/-- R202: every exit of the poll loop ends with a return to standby; what precedes it leaves the cache and CE alone. -/
theorem State.pollExit_standby {s : State} {is : List Item} (h : s.pollExit = some is) :
    ∃ before, is = before ++ standbyItems s.cfg.regMap ∧ writes before = [] := by
  simp only [State.pollExit] at h
  split at h
  · cases h
    exact ⟨.set .setFailed :: flushTxItems, rfl, by simp⟩
  · split at h
    · cases h
      exact ⟨[], rfl, rfl⟩
    · split at h
      · cases h
        exact ⟨[.set .setTimedOut], rfl, by simp⟩
      · cases h

/-- R172: with CE low a return to standby changes neither the cache nor CE. -/
theorem State.perform_standbyItems_low {s : State} (hf : s.far = .free) (low : s.lines.ceLvl = false) {m : RegMap}
    (hm : m = s.cfg.regMap) : (s.perform (standbyItems m)).owned .mode = s.owned .mode := by
  rw [State.perform_standbyItems hf hm]
  refine State.owned_congr ?_ ?_ .mode
  · rfl
  · exact low.symm

/-- R202: with CE low the branch of the poll loop, taken or not, changes neither the cache nor CE. -/
theorem State.runTail_pollBranch_low {s : State} (hb : s.budget = none) (hf : s.far = .free) (tail : s.ctl.tail = .pollBranch)
    (low : s.lines.ceLvl = false) : s.runTail.owned .mode = s.owned .mode := by
  cases he : s.pollExit with
  | none =>
    rw [State.runTail_pollAgain tail he]
    exact State.pollAgain_owned hb
  | some is =>
    obtain ⟨before, rfl, none⟩ := State.pollExit_standby he
    have first : (State.perform before { s with ctl.tail := .finish .link }).owned .mode = s.owned .mode :=
      State.perform_owned (by simp [none]) _
    rw [State.runTail_pollExit tail he, State.runToEnd_all hb, State.perform_append]
    refine (State.perform_standbyItems_low ?_ ?_ ?_).trans first
    · simpa using hf
    · exact (State.owned_mode first).2.trans low
    · simp

/-- R202, R174: a step of the poll loop with CE low. -/
theorem step_polling {s : State} {k : Nat} (hf : s.far = .free) (hs : s.turns = []) (polling : s.Polling k)
    (low : s.lines.ceLvl = false) : ∃ t, step s = .next t ∧ t.cfg = s.cfg ∧ t.owned .mode = s.owned .mode := by
  obtain ⟨busy, tail, todo, -⟩ := polling
  obtain ⟨noReset, -, -⟩ := State.takeTurn_quiet hs
  have budget : s.takeTurn.budget = none := by simp [State.takeTurn, hs, quietTurn]
  have polled : (s.takeTurn.perform s.takeTurn.ctl.todo).owned .mode = s.owned .mode := by
    refine (State.perform_owned ?_ _).trans rfl
    rw [show s.takeTurn.ctl.todo = s.ctl.todo from rfl, todo]
    simp
  refine ⟨s.takeTurn.advance, ?_, s.takeTurn.advance_cfg, ?_⟩
  · rw [step, clockEdge_busy noReset busy]
    exact State.outcome_free (s.takeTurn.advance_far.trans hf)
  · rw [State.advance_all budget]
    refine (State.runTail_pollBranch_low ?_ ?_ ?_ ?_).trans polled
    · simpa using budget
    · simpa using hf
    · exact (State.perform_ctl_tail _ _).trans tail
    · exact (State.owned_mode polled).2.trans low

/-! ### The table (R174) -/

/-- An accepted operation before its branch: its first sequence has been performed. -/
theorem State.operate_runTail {s : State} (h : s.Uninterrupted) (is : List Item) (tail : Tail) :
    ∃ u : State, s.operate none is tail = .next u.runTail ∧ u.budget = none ∧ u.far = .free ∧ u.ctl.tail = tail ∧
      u.owned .mode = ((s.load is tail).perform is).owned .mode := by
  refine ⟨_, State.operate_tail h is tail, ?_, ?_, ?_, rfl⟩
  · simpa using h.1
  · simpa using h.2
  · simp

/-- R202: before the first branch of `RADIO.WRITE` the receiver bit is 0 and CE low. -/
theorem State.perform_radioWriteItems_owned {s : State} (h : s.far = .free) {m : RegMap} (hm : m = s.cfg.regMap) (v : List Byte) :
    (s.perform (radioWriteItems m v)).owned .mode = ownedMode (s.handle.configCache &&& ~~~(bit m.bPrimRx)) false := by
  rw [State.perform_radioWriteItems h hm v rfl]
  rfl

/-- R203: before the branch of `RADIO.READ` the receiver bit is 1 and CE high. -/
theorem State.perform_radioReadItems_owned {s : State} (h : s.far = .free) {m : RegMap} (hm : m = s.cfg.regMap) :
    (s.perform (radioReadItems m)).owned .mode = ownedMode (s.handle.configCache ||| bit m.bPrimRx) true := by
  have test (u : State) : (u.perform (memRead m.aFifoStatus 1 ++ [.set .tRead])).owned .mode = u.owned .mode :=
    State.perform_owned (by simp) u
  rw [radioReadItems, List.append_assoc, State.perform_append, test, State.perform_modeRxItems h hm]
  rfl

section table

variable {s : State} (hs : s.Ready) {n : Len} (short : n.toNat ≤ 32)
include hs short

/-- R202, R174: the branch that ends the first step of `RADIO.WRITE` leaves the cache and CE as the sequence before it did. -/
theorem exec_radioWrite_owned (payload : Buf) :
    ∃ t, exec (.radioWrite n payload) s = .next t ∧
      t.owned .mode = ownedMode (s.handle.configCache &&& ~~~(bit s.cfg.regMap.bPrimRx)) false := by
  obtain ⟨u, run, hb, hf, tail, before⟩ :=
    State.operate_runTail hs.1 (radioWriteItems s.cfg.regMap (bufBytes payload n.toNat)) .pollBranch
  have reached := before.trans (State.perform_radioWriteItems_owned (by simpa using hs.1.2) (by simp) _)
  have low : u.lines.ceLvl = false := (State.owned_eq_ownedMode reached).2
  rw [← nrfCheck_pass (s := s) hs.2 (lenOk_true short) rfl] at run
  exact ⟨_, run, (State.runTail_pollBranch_low hb hf tail low).trans reached⟩

/-- R203, R174: the branch of `RADIO.READ`, with a payload or without, leaves the cache and CE as the sequence before it did. -/
theorem exec_radioRead_owned :
    ∃ t, exec (.radioRead n) s = .next t ∧
      t.owned .mode = ownedMode (s.handle.configCache ||| bit s.cfg.regMap.bPrimRx) true := by
  obtain ⟨u, run, hb, -, tail, before⟩ := State.operate_runTail hs.1 (radioReadItems s.cfg.regMap) (.readBranch n.toNat)
  have reached := before.trans (State.perform_radioReadItems_owned (by simpa using hs.1.2) (by simp))
  rw [← nrfCheck_pass (s := s) hs.2 (lenOk_true short) rfl] at run
  exact ⟨_, run, (State.runTail_owned hb (by simp [tail, Tail.writes])).trans reached⟩

end table

/-- Settles O36: the operations' own equations give cache and CE, and R165 the mode. -/
theorem modeGoesAsTheTableSays : Obligations.ModeGoesAsTheTableSays := by
  refine ⟨fun s k hf hs std polling low => ?_,
    fun s hs std usual => ⟨?_, ?_, ?_, ?_, ?_, fun n payload short => ?_, fun n short => ?_⟩⟩
  · obtain ⟨t, run, cfg, kept⟩ := step_polling hf hs polling low
    exact ⟨t, run, State.mode_of_owned cfg kept, (State.owned_mode kept).2.trans low⟩
  · exact ⟨_, (pwrupSetsThePowerBit.2 s hs.1).2 hs.2, modeOf_setPower std _ usual⟩
  · exact ⟨_, (pwrdnClearsThePowerBitAndCe.2 s hs.1).2 hs.2, modeOf_clearPower _ _ _⟩
  · exact ⟨_, ((modeSwitchWritesConfigThenRaisesCe.2.2 s hs.1).2.2 hs.2).1, modeOf_setReceiver std _ _⟩
  · exact ⟨_, ((modeSwitchWritesConfigThenRaisesCe.2.2 s hs.1).2.2 hs.2).2, modeOf_clearReceiver std _ _⟩
  · exact ⟨_, (standbyClearsLowersAndFlushes.2 s hs.1).2 hs.2, modeOf_low _ _ _⟩
  · obtain ⟨t, run, owned⟩ := exec_radioWrite_owned hs short payload
    obtain ⟨cache, low⟩ := State.owned_eq_ownedMode owned
    refine ⟨t, run, low, ?_⟩
    rw [State.mode, (exec_context run).2, cache, low, modeOf_low _ _ true, modeOf_clearReceiver std _ s.lines.ceLvl, State.mode]
    split <;> rfl
  · obtain ⟨t, run, owned⟩ := exec_radioRead_owned hs short
    obtain ⟨cache, high⟩ := State.owned_eq_ownedMode owned
    refine ⟨t, run, ?_⟩
    rw [State.mode, (exec_context run).2, cache, high]
    exact modeOf_setReceiver std _ _

end Sys2Proof.Machine
end

