-- ==== Sys2Proof/Proofs/Standby.lean ====
section
/-! PROOF. The return to standby against the reference chip (R71, R172, R222, R227, R228, S7). -/

namespace Sys2Proof.Machine

open Sys2Proof

/-! ### The chip's side -/

/-- R222: a frame that writes one byte to STATUS clears the flags written as 1 and leaves the registers alone. -/
theorem Chip.frame_clearFlags (m : RegMap) (ce : Bool) {a : RegAddr} (named : chipReg m a = some .status) (v : Byte) (n : Nat)
    (c : Chip) :
    let d := (c.frame m ce (.writeReg a) [v] n).2
    d.regs = c.regs ∧ d.rxDr = (c.rxDr && !testBit v m.bRxDr) ∧ d.txDs = (c.txDs && !testBit v m.bTxDs) ∧
      d.maxRt = (c.maxRt && !testBit v m.bMaxRt) := by
  have first : (c.started m ce (.writeReg a)).dataIn m (.writeReg a) v =
      { (c.started m ce (.writeReg a)).clearFlags m v with idx := 1 } := by
    simp [Chip.dataIn, named, Chip.writeReg_status, Chip.started_eq]
  simp only [Chip.frame_writeReg, Chip.dataBytes, first]
  simp [Chip.clearFlags, Chip.started_eq]

/-- R172: what a return to standby leaves of the chip's FIFOs and flags. -/
structure Chip.Cleared (c : Chip) : Prop where
  txFifo : c.txFifo = []
  rxFifo : c.rxFifo = []
  rxDr : c.rxDr = false
  txDs : c.txDs = false
  maxRt : c.maxRt = false
  armed : c.armed = false

/-- R227, R228: both flushes, with CE low, of a chip whose flags are clear. -/
theorem Chip.frame_flushes (m : RegMap) {c : Chip} (rxDr : c.rxDr = false) (txDs : c.txDs = false) (maxRt : c.maxRt = false)
    (n k : Nat) :
    let d := ((c.frame m false .flushTx [] n).2.frame m false .flushRx [] k).2
    d.Cleared ∧ d.regs = c.regs := by
  rw [Chip.frame_flushRx, Chip.frame_flushTx]
  exact ⟨⟨rfl, rfl, rxDr, txDs, maxRt, rfl⟩, rfl⟩

/-! ### The block's side -/

section block

variable {s : State} (h : s.BusIdle)
include h

/-- On an idle bus only CE moves, and the chip's decoder is idle again: the bus is idle still. -/
theorem State.BusIdle.of_lines {t : State} (far : t.far = s.far) {ce : Bool} (lines : t.lines = { s.lines with ceLvl := ce })
    (sel : t.chip.sel = false) (gap : t.chip.gap = none) : t.BusIdle where
  far := far.trans h.far
  ceDir := lines ▸ h.ceDir
  csnDir := lines ▸ h.csnDir
  csnLvl := lines ▸ h.csnLvl
  sel := sel
  gap := gap

/-- R132: CE low on an idle bus: the chip does not arm, and keeps the rest. -/
theorem State.BusIdle.lowerCe :
    let t := s.micro (.lvl .ce false)
    t.BusIdle ∧ t.lines = { s.lines with ceLvl := false } ∧ t.chip = s.chip := by
  have lines : (s.micro (.lvl .ce false)).lines = { s.lines with ceLvl := false } := State.followPins_lines _
  have chip : (s.micro (.lvl .ce false)).chip = s.chip := by
    obtain ⟨⟨far, ceDir, csnDir⟩, csnLvl, sel, -⟩ := h
    simp [State.micro, State.lvl, State.followPins, far, State.chipCsn, State.chipCe, Lines.setLvl, ceDir, csnDir, csnLvl,
      Chip.followPins, sel]
  exact ⟨h.of_lines (State.micro_far _ _) lines (chip ▸ h.sel) (chip ▸ h.gap), lines, chip⟩

/-- R11, R219: a frame of a command byte and data bytes that ends within what the spec says of the chip. -/
theorem State.BusIdle.perform_sendFrame {op : WireOp} {vs : List Byte}
    (ends : ∀ n, (s.chip.frame s.cfg.regMap s.lines.ceLvl op vs n).2.sel = false ∧
      (s.chip.frame s.cfg.regMap s.lines.ceLvl op vs n).2.gap = none) :
    let t := s.perform (frame (send (encodeWire op) :: vs.map send))
    t.BusIdle ∧ t.lines = s.lines ∧ t.chip = (s.chip.frame s.cfg.regMap s.lines.ceLvl op vs (s.draws + 1)).2 := by
  have sends : (vs.map Src.lit).map (exchangeItem false) = vs.map send := List.map_map
  have bytes : (vs.map Src.lit).map s.srcByte = vs := by simp [State.srcByte, Function.comp_def]
  have framed := h.perform_frame op false (vs.map .lit)
  rw [sends, bytes] at framed
  obtain ⟨chip, -, lines⟩ := framed
  obtain ⟨sel, gap⟩ := ends (s.draws + 1)
  exact ⟨h.of_lines (State.perform_far _ _) lines (chip ▸ sel) (chip ▸ gap), lines, chip⟩

/-- R185: the TX flush on an idle bus. -/
theorem State.BusIdle.perform_flushTxItems :
    let t := s.perform flushTxItems
    t.BusIdle ∧ t.lines = s.lines ∧ t.chip = (s.chip.frame s.cfg.regMap s.lines.ceLvl .flushTx [] (s.draws + 1)).2 :=
  h.perform_sendFrame (vs := []) fun n => by
    rw [Chip.frame_flushTx]
    exact ⟨rfl, rfl⟩

/-- R186: the RX flush on an idle bus. -/
theorem State.BusIdle.perform_flushRxItems :
    let t := s.perform flushRxItems
    t.BusIdle ∧ t.lines = s.lines ∧ t.chip = (s.chip.frame s.cfg.regMap s.lines.ceLvl .flushRx [] (s.draws + 1)).2 :=
  h.perform_sendFrame (vs := []) fun n => by
    rw [Chip.frame_flushRx]
    exact ⟨rfl, rfl⟩

/-- R143: the flags cleared on an idle bus. -/
theorem State.BusIdle.perform_clrStatusItems (std : s.cfg.regMap = RegMap.standard) :
    let t := s.perform (clrStatusItems s.cfg.regMap)
    t.BusIdle ∧ t.lines = s.lines ∧ t.chip.regs = s.chip.regs ∧ t.chip.rxDr = false ∧ t.chip.txDs = false ∧
      t.chip.maxRt = false := by
  obtain ⟨idle, lines, chip⟩ := h.perform_sendFrame (op := .writeReg s.cfg.regMap.aStatus) (vs := [s.cfg.regMap.statusClear])
    fun n => Chip.frame_writeReg_idle _ _ _ _ n _
  obtain ⟨regs, rxDr, txDs, maxRt⟩ := Chip.frame_clearFlags s.cfg.regMap s.lines.ceLvl (a := s.cfg.regMap.aStatus)
    (by rw [std]; rfl) s.cfg.regMap.statusClear (s.draws + 1) s.chip
  rw [← chip] at regs rxDr txDs maxRt
  refine ⟨idle, lines, regs, rxDr.trans ?_, txDs.trans ?_, maxRt.trans ?_⟩ <;> simp [std, testBit, RegMap.standard]

/-- R172 against the reference chip: CE low, FIFOs empty, flags clear, registers as before. -/
theorem State.BusIdle.perform_standbyItems (std : s.cfg.regMap = RegMap.standard) :
    let t := s.perform (standbyItems s.cfg.regMap)
    t.BusIdle ∧ t.lines = { s.lines with ceLvl := false } ∧ t.chip.Cleared ∧ t.chip.regs = s.chip.regs := by
  obtain ⟨idle, lines, regs, rxDr, txDs, maxRt⟩ := h.perform_clrStatusItems std
  obtain ⟨idle', lines', chip'⟩ := idle.lowerCe
  obtain ⟨idleTx, linesTx, chipTx⟩ := idle'.perform_flushTxItems
  obtain ⟨idleRx, linesRx, chipRx⟩ := idleTx.perform_flushRxItems
  rw [linesTx, lines', chipTx, lines', chip', State.perform_cfg] at chipRx
  obtain ⟨cleared, kept⟩ := Chip.frame_flushes _ rxDr txDs maxRt _ _
  simp only [standbyItems, State.perform_append, State.perform_op, State.perform_nil]
  refine ⟨idleRx, ?_, ?_, ?_⟩
  · rw [linesRx, linesTx, lines', lines]
  · exact chipRx ▸ cleared
  · exact chipRx ▸ kept.trans regs

end block

/-- R172: a return to standby does not touch the handle. -/
theorem State.perform_standbyItems_handle (m : RegMap) (s : State) : (s.perform (standbyItems m)).handle = s.handle := by
  simp [standbyItems, clrStatusItems, memWrite, flushTxItems, flushRxItems, frame, send]

/-- R33: before its completion an operation does not touch the response registers. -/
theorem State.perform_rsp (is : List Item) (s : State) : (s.perform is).rsp = s.rsp := by
  induction is generalizing s with
  | nil => rfl
  | cons i is ih => cases i <;> simp [ih]

/-! ### Twice is once (S7) -/

/-- R172 against the reference chip: what `NRF.STANDBY` ends in. -/
theorem State.BusIdle.exec_nrfStandby {s t : State} (h : s.BusIdle) (hb : s.budget = none) (std : s.cfg.regMap = RegMap.standard)
    (init : s.handle.initDone = true) (run : exec .nrfStandby s = .next t) :
    (t.BusIdle ∧ t.budget = none) ∧ (t.chip.Cleared ∧ t.chip.regs = s.chip.regs) ∧
      t.handle = s.handle ∧ t.lines = { s.lines with ceLvl := false } ∧ t.rsp = s.rsp.good := by
  rw [exec, execNrfStandby, nrfCheck_pass init rfl rfl] at run
  obtain ⟨idle, lines, cleared, regs⟩ := (h.load (standbyItems s.cfg.regMap) (.finish .plain)).perform_standbyItems std
  rw [State.operate_next hb run]
  refine ⟨⟨idle.complete _, ?_⟩, ⟨cleared, regs⟩, ?_, lines, ?_⟩
  · simpa using hb
  · exact State.perform_standbyItems_handle _ _
  · exact congrArg Response.good (State.perform_rsp _ _)

/-- Settles O58: a second return to standby starts where the first one ended and ends there. -/
theorem standbyTwiceIsStandbyOnce : Obligations.StandbyTwiceIsStandbyOnce := by
  intro s t u hb far std init ceDir csnDir csnLvl sel gap first second
  have idle : s.BusIdle := ⟨⟨far, ceDir, csnDir⟩, csnLvl, sel, gap⟩
  obtain ⟨⟨idle', hb'⟩, ⟨cleared, regs⟩, handle, lines, rsp⟩ := idle.exec_nrfStandby hb std init first
  have std' : t.cfg.regMap = RegMap.standard := by rw [(exec_context first).2, std]
  have init' : t.handle.initDone = true := by rw [handle, init]
  obtain ⟨-, ⟨cleared', regs'⟩, handle', lines', rsp'⟩ := idle'.exec_nrfStandby hb' std' init' second
  obtain ⟨txFifo, rxFifo, rxDr, txDs, maxRt, armed⟩ := cleared
  obtain ⟨txFifo', rxFifo', rxDr', txDs', maxRt', armed'⟩ := cleared'
  refine ⟨txFifo, rxFifo, rxDr, txDs, maxRt, armed, regs, regs', ?_, ?_, ?_, ?_, ?_, ?_, handle', ?_, ?_⟩
  · rw [txFifo', txFifo]
  · rw [rxFifo', rxFifo]
  · rw [rxDr', rxDr]
  · rw [txDs', txDs]
  · rw [maxRt', maxRt]
  · rw [armed', armed]
  · rw [lines', lines]
  · rw [rsp', rsp]
    rfl

end Sys2Proof.Machine
end

