-- ==== Sys2Proof/Proofs/FifoController.lean ====
section
/-! PROOF. The FIFO controller (R185 to R193) and `RADIO.HASPL` (R204), uninterrupted, against the free oracle: each operation is
one frame, and what its completion makes of the bytes read. -/

namespace Sys2Proof.Machine

open Sys2Proof

/-! ### Operations of one frame -/

section frames

variable {s : State} (hs : s.Uninterrupted)
include hs

/-- R11: an operation that is one frame that only sends. -/
theorem State.operate_sendFrame (c : Byte) (ts : List Byte) :
    s.operate none (frame (send c :: ts.map send)) (.finish .plain) =
      .next { s.ends (ts.length + 1) (s.frameEvents 0 (c :: ts)) s.rsp.good with lines := s.lines.idleCsn } := by
  rw [State.operate_eq hs (State.perform_sendFrame (by simpa using hs.2) _ _), State.complete_did_plain]
  rfl

/-- R12, R97: an operation of the initialised block that reads one byte of a register. -/
theorem State.operate_read (init : s.handle.initDone = true) (a : RegAddr) (f : Finish) :
    s.operate (nrfCheck true true s) (memRead a 1) (.finish f) =
      .next (s.readByte a (s.rsp.finish f { s.ctl with rd := [s.rx 1] })) := by
  rw [nrfCheck_pass init rfl rfl, State.operate_memRead_one hs]

end frames

/-! ### Flushes -/

/-- Settles O37: each flush is a frame of its command byte alone. -/
theorem flushIsOneByteInAFrame : Obligations.FlushIsOneByteInAFrame := by
  refine ⟨encoded_of_row (op := 0x28) fun _ _ _ _ _ => rfl, encoded_of_row (op := 0x29) fun _ _ _ _ _ => rfl,
    fun s hs => ⟨fun off => ?_, fun off => ?_, fun init => ⟨?_, ?_⟩⟩⟩
  · exact faultsWith_notInitialized rfl hs off
  · exact faultsWith_notInitialized rfl hs off
  · rw [exec, execNrfFlushtx, nrfCheck_pass init rfl rfl]
    exact State.operate_sendFrame hs 0xE1 []
  · rw [exec, execNrfFlushrx, nrfCheck_pass init rfl rfl]
    exact State.operate_sendFrame hs 0xE2 []

/-! ### Occupancy tests -/

/-- Settles O38: one read of the FIFO status, of which the completion takes the tested bit. -/
theorem occupancyTestsReturnTheirBit : Obligations.OccupancyTestsReturnTheirBit := by
  refine ⟨encoded_of_row (op := 0x2A) fun _ _ _ _ _ => rfl, encoded_of_row (op := 0x2B) fun _ _ _ _ _ => rfl,
    encoded_of_row (op := 0x2C) fun _ _ _ _ _ => rfl, encoded_of_row (op := 0x2D) fun _ _ _ _ _ => rfl,
    encoded_of_row (op := 0x33) fun _ _ _ _ _ => rfl, fun s hs => ⟨?_, fun init => ⟨?_, ?_⟩⟩⟩
  · have needsInit : ∀ i ∈ [Instr.nrfRxempty, .nrfRxfull, .nrfTxempty, .nrfTxfull, .radioHaspl],
        isHostOp i = true ∧ needOf i = .initDone := by decide
    intro i listed off
    obtain ⟨host, need⟩ := needsInit i listed
    exact faultsWith_notInitialized host hs (need ▸ off)
  · have read (pos : Nat) := State.operate_read hs init s.cfg.regMap.aFifoStatus (.bitSet pos)
    simp only [List.forall_mem_cons]
    exact ⟨read _, read _, read _, read _, nofun⟩
  · exact State.operate_read hs init _ (.bitClear _)

/-! ### Payloads -/

/-- Settles O39: one frame that reads n bytes, which the completion puts into the response buffer. -/
theorem rdplReadsThePayload : Obligations.RdplReadsThePayload := by
  refine ⟨encoded_of_row (op := 0x2E) fun _ _ _ _ _ => rfl,
    fun n s hs => ⟨fun off => ?_, fun init long => ?_, fun init short => ?_⟩⟩
  · exact faultsWith_notInitialized rfl hs off
  · exact faultsWith_invalidArgument rfl hs init (lenOk_false long)
  · rw [exec, execNrfRdpl, nrfCheck_pass init (lenOk_true short) rfl, rdPlItems, State.operate_readFrame hs,
      Response.finish, fillBuf_rxBytes]
    rfl

/-- Settles O40: one frame that sends n bytes. -/
theorem wrplWritesThePayload : Obligations.WrplWritesThePayload := by
  refine ⟨encoded_of_row (op := 0x2F) fun _ _ _ _ _ => rfl,
    fun n buf s hs => ⟨fun off => ?_, fun init long => ?_, fun init short => ?_⟩⟩
  · exact faultsWith_notInitialized rfl hs off
  · exact faultsWith_invalidArgument rfl hs init (lenOk_false long)
  · rw [exec, execNrfWrpl, nrfCheck_pass init (lenOk_true short) rfl, wrPlItems, State.operate_sendFrame hs,
      bufBytes_length _ _ short]
    rfl

end Sys2Proof.Machine
end

