-- ==== Sys2Proof/Proofs/LinkInit.lean ====
section
/-! PROOF. `RADIO.INIT` (R201), uninterrupted, against the free oracle: the initialisation, the link's constants, the power-up. -/

namespace Sys2Proof.Machine

open Sys2Proof

/-! ### The constants of the link (R201) -/

section constants

variable (m : RegMap)

theorem rfByte_link : rfByte m Config.linkRate Config.linkPwr Config.linkLna =
    ((0 : Byte) <<< m.bRfDr) ||| ((0 : Byte) <<< m.fRfPwr) ||| ((1 : Byte) <<< m.bLna) := rfl

theorem channelByte_link : channelByte m Config.linkChannel = (42 : Byte) <<< m.fRfCh := rfl

theorem retrByte_link : retrByte m Config.linkArc Config.linkArd = ((5 : Byte) <<< m.fArd) ||| ((10 : Byte) <<< m.fArc) := rfl

theorem pwAddr_zero : pwAddr m 0 = m.aRxPwP0 := BitVec.add_zero _

theorem pwAddr_one : pwAddr m 1 = m.aRxPwP0 + 1 := rfl

end constants

/-! ### RADIO.INIT (R201) -/

/-- R201: the eight operations between `NRF.INIT` and `NRF.PWRUP`, each a frame or two that only send. -/
def linkSetupItems (m : RegMap) : List Item :=
  setRfItems m Config.linkRate Config.linkPwr Config.linkLna
    ++ setChItems m Config.linkChannel
    ++ clrStatusItems m ++ flushTxItems ++ flushRxItems
    ++ setPwItems m 0 Config.linkPayload ++ setPwItems m 1 Config.linkPayload
    ++ setRetrItems m Config.linkArc Config.linkArd

theorem radioInitItems_eq (m : RegMap) (ce csn : Byte) :
    radioInitItems m ce csn = initItems m ce csn ++ (linkSetupItems m ++ pwrUpItems m) := by
  simp only [radioInitItems, linkSetupItems, List.append_assoc]

/-- R201: the events of those operations, the first exchange the k-th from now. -/
def State.linkSetupEvents (s : State) (k : Nat) : List Event :=
  let m := s.cfg.regMap
  let w (a : RegAddr) : Byte := encodeWire (.writeReg a)
  s.frameEvents k [w m.aRfSetup, ((0 : Byte) <<< m.bRfDr) ||| ((0 : Byte) <<< m.fRfPwr) ||| ((1 : Byte) <<< m.bLna)]
    ++ s.frameEvents (k + 2) [w m.aRfCh, (42 : Byte) <<< m.fRfCh] ++ s.frameEvents (k + 4) [w m.aStatus, m.statusClear]
    ++ s.frameEvents (k + 6) [0xE1] ++ s.frameEvents (k + 7) [0xE2]
    ++ s.frameEvents (k + 8) [w m.aRxPwP0, 32] ++ s.frameEvents (k + 10) [w (m.aRxPwP0 + 1), 32]
    ++ s.frameEvents (k + 12) [w m.aSetupRetr, ((5 : Byte) <<< m.fArd) ||| ((10 : Byte) <<< m.fArc)]

/-- R201: those operations performed. -/
theorem State.perform_linkSetupItems {s : State} (h : s.far = .free) {m : RegMap} (hm : m = s.cfg.regMap) :
    s.perform (linkSetupItems m) = (s.did 14 (s.linkSetupEvents 0)).setLines s.lines.idleCsn := by
  subst hm
  simp only [linkSetupItems, setRfItems, setChItems, clrStatusItems, flushTxItems, flushRxItems, setPwItems, setRetrItems,
    rfByte_link, channelByte_link, retrByte_link, pwAddr_zero, pwAddr_one]
  simp [State.perform_memWrite, State.perform_commandFrame, h, State.linkSetupEvents]
  rfl

/-- R201 after `NRF.INIT`, c the configuration byte it ends with. -/
theorem State.perform_linkSetup_pwrUp {s : State} (h : s.far = .free) {m : RegMap} (hm : m = s.cfg.regMap) {c : Byte}
    (hc : c = s.handle.configCache ||| bit m.bPwrUp) :
    s.perform (linkSetupItems m ++ pwrUpItems m) =
      (((s.did 16 (s.linkSetupEvents 0 ++ (s.frameEvents 14 [encodeWire (.writeReg m.aConfig), c] ++ [.delayUs 1500]))).setLines
          s.lines.idleCsn).setDly 0).setHandle { s.handle with configCache := c } := by
  subst hm hc
  rw [State.perform_append, State.perform_linkSetupItems h rfl, State.perform_pwrUpItems (by simpa using h) (by rfl)]
  simp
  rfl

/-- The state with another `spi`. -/
def State.setSpi (v : Spi) (s : State) : State := { s with spi := v }

section setSpi

variable (s : State) (v : Spi)

@[simp] theorem State.setSpi_handle : (s.setSpi v).handle = s.handle := rfl
@[simp] theorem State.setSpi_lines : (s.setSpi v).lines = s.lines := rfl
@[simp] theorem State.setSpi_cfg : (s.setSpi v).cfg = s.cfg := rfl
@[simp] theorem State.setSpi_far : (s.setSpi v).far = s.far := rfl
@[simp] theorem State.setSpi_frameEvents (k : Nat) (ts : List Byte) : (s.setSpi v).frameEvents k ts = s.frameEvents k ts := rfl

/-- After an exchange the master holds the byte received, whatever it held before. -/
theorem State.setSpi_did (n : Nat) (es : List Event) :
    (s.setSpi v).did (n + 1) es =
      (s.did (n + 1) es).setSpi { v with sr := s.rx n, rxd := s.rx n, cnt := 8, busy := false, sck := false } := rfl

end setSpi

/-- R201: the events of the whole sequence. -/
def State.radioInitEvents (s : State) (c : Byte) : List Event :=
  s.initEvents ++ (s.linkSetupEvents 6 ++ (s.frameEvents 20 [encodeWire (.writeReg s.cfg.regMap.aConfig), c] ++ [.delayUs 1500]))

/-- R201 up to the completion. -/
theorem State.perform_radioInitItems {s : State} (h : s.far = .free) {m : RegMap} (hm : m = s.cfg.regMap) (ce csn : Byte)
    {c : Byte} (hc : c = s.rx 3 ||| bit m.bPwrUp) :
    s.perform (radioInitItems m ce csn) =
      (((((s.did 22 (s.radioInitEvents c)).setLines { ceDir := true, csnDir := true, ceLvl := false, csnLvl := true }).setRd
            [s.rx 5]).setHandle
          { s.handle with ceId := ce, csnId := csn, configCache := c, addrWidth := s.rx 5 + 2, initDone := true }).setDly 0).setSpi
        { en := true, sr := s.rx 21, rxd := s.rx 21, cnt := 8, busy := false, sck := false } := by
  subst hm
  have init : s.perform (initItems s.cfg.regMap ce csn) =
      (((((s.did 6 s.initEvents).setLines { ceDir := true, csnDir := true, ceLvl := false, csnLvl := true }).setRd
            [s.rx 5]).setHandle
          { s.handle with ceId := ce, csnId := csn, configCache := s.rx 3, addrWidth := s.rx 5 + 2, initDone := true }).setDly
            0).setSpi { en := true, sr := s.rx 5, rxd := s.rx 5, cnt := 8, busy := false, sck := false } :=
    State.perform_initItems h rfl ce csn
  rw [radioInitItems_eq, State.perform_append, init, State.perform_linkSetup_pwrUp (by simpa using h) (by rfl) hc,
    State.setSpi_did]
  simp [State.linkSetupEvents, State.radioInitEvents]
  rfl

/-- R201: the events in the order of the statement. -/
theorem State.radioInitEvents_eq (s : State) (c : Byte) :
    let m := s.cfg.regMap
    let w (a : RegAddr) : Byte := encodeWire (.writeReg a)
    s.initEvents
      ++ s.frameEvents 6 [w m.aRfSetup, ((0 : Byte) <<< m.bRfDr) ||| ((0 : Byte) <<< m.fRfPwr) ||| ((1 : Byte) <<< m.bLna)]
      ++ s.frameEvents 8 [w m.aRfCh, (42 : Byte) <<< m.fRfCh] ++ s.frameEvents 10 [w m.aStatus, m.statusClear]
      ++ s.frameEvents 12 [0xE1] ++ s.frameEvents 13 [0xE2]
      ++ s.frameEvents 14 [w m.aRxPwP0, 32] ++ s.frameEvents 16 [w (m.aRxPwP0 + 1), 32]
      ++ s.frameEvents 18 [w m.aSetupRetr, ((5 : Byte) <<< m.fArd) ||| ((10 : Byte) <<< m.fArc)]
      ++ s.frameEvents 20 [w m.aConfig, c] ++ [.delayUs 1500] = s.radioInitEvents c := by
  simp only [State.radioInitEvents, State.linkSetupEvents, List.append_assoc]

/-- Completion of an initialisation. -/
theorem State.complete_did_setSpi (s : State) (is : List Item) (tail : Tail) (n : Nat) (es : List Event) (L : Lines)
    (rd : List Byte) (hd : Handle) (d : Nat) (spi : Spi) :
    State.complete .plain (((((((s.load is tail).did n es).setLines L).setRd rd).setHandle hd).setDly d).setSpi spi) =
      { s.ends n es s.rsp.good with handle := hd, lines := L, spi := spi, dlyCnt := d } :=
  congrArg (fun u => (State.setDly d u).setSpi spi) (State.complete_did_handle s is tail n es L .plain rd hd)

/-- R201, c the configuration byte at its end. -/
theorem State.exec_radioInit {s : State} (hs : s.Uninterrupted) (ce csn : Byte) {c : Byte}
    (hc : c = s.rx 3 ||| bit s.cfg.regMap.bPwrUp) :
    exec (.radioInit ce csn) s = .next
      { s.ends 22 (s.radioInitEvents c) s.rsp.good with
        handle := { s.handle with ceId := ce, csnId := csn, configCache := c, addrWidth := s.rx 5 + 2, initDone := true }
        lines := { ceDir := true, csnDir := true, ceLvl := false, csnLvl := true }
        spi := { en := true, sr := s.rx 21, rxd := s.rx 21, cnt := 8, busy := false, sck := false }
        dlyCnt := 0 } := by
  have run := State.perform_radioInitItems (m := s.cfg.regMap)
    (s := s.load (radioInitItems s.cfg.regMap ce csn) (.finish .plain)) hs.2 rfl ce csn hc
  rw [exec, execRadioInit, State.operate_eq hs run, State.complete_did_setSpi]
  rfl

/-- Settles O41: the initialisation, the link's constants written one after the other, and the power-up. -/
theorem radioInitConfiguresAndPowersUp : Obligations.RadioInitConfiguresAndPowersUp := by
  refine ⟨encoded_of_row (op := 0x30) fun _ _ _ _ _ => rfl, fun ce csn s hs => ⟨?_, ?_⟩⟩
  · simp [State.initEvents]
  · rw [State.exec_radioInit hs ce csn rfl, State.radioInitEvents_eq]
    rfl

end Sys2Proof.Machine
end

