-- ==== Sys2Proof/Proofs/LinkRead.lean ====
section
/-! PROOF. `RADIO.READ` (R203), uninterrupted, against the free oracle: the switch to the receiver, the occupancy test and both sides of
its branch. -/

namespace Sys2Proof.Machine

open Sys2Proof

/-- R203: the events up to the occupancy test, c the configuration byte. -/
def State.radioReadEvents (s : State) (c : Byte) : List Event :=
  s.frameEvents 0 [encodeWire (.writeReg s.cfg.regMap.aConfig), c] ++ [.lvl .ce true, .delayUs 130]
    ++ s.frameEvents 2 [encodeWire (.readReg s.cfg.regMap.aFifoStatus), s.cfg.dummy]

/-- The state of a receiver that has listened: CE high, no delay running, c in the cache. -/
def State.listening (c t : Byte) (s : State) : State :=
  { s with lines := { s.lines.idleCsn with ceLvl := true }, dlyCnt := 0, handle.configCache := c, ctl.t := t }

section listening

variable (c t : Byte) (s : State)

@[simp] theorem State.listening_far : (s.listening c t).far = s.far := rfl
@[simp] theorem State.listening_cfg : (s.listening c t).cfg = s.cfg := rfl
@[simp] theorem State.listening_lines : (s.listening c t).lines = { s.lines.idleCsn with ceLvl := true } := rfl
@[simp] theorem State.listening_frameEvents (k : Nat) (ts : List Byte) :
    (s.listening c t).frameEvents k ts = s.frameEvents k ts := rfl
@[simp] theorem State.listening_rxBytes (k n : Nat) : (s.listening c t).rxBytes k n = s.rxBytes k n := rfl
@[simp] theorem State.listening_did (n : Nat) (es : List Event) : (s.listening c t).did n es = (s.did n es).listening c t := rfl

end listening

/-- R203 up to the branch. -/
theorem State.perform_radioReadItems {s : State} (h : s.far = .free) {m : RegMap} (hm : m = s.cfg.regMap) {c : Byte}
    (hc : c = s.handle.configCache ||| bit m.bPrimRx) :
    s.perform (radioReadItems m) = ((s.did 4 (s.radioReadEvents c)).setRd [s.rx 3]).listening c (s.rx 3) := by
  subst hm hc
  rw [radioReadItems, State.perform_append, State.perform_append, State.perform_modeRxItems h rfl,
    State.perform_memRead_one (by simpa using h)]
  simp [State.transfer_tRead, State.radioReadEvents]
  rfl

/-- R192 after other exchanges of the same operation. -/
theorem State.perform_rdPlItems {s : State} (h : s.far = .free) (n : Nat) :
    s.perform (rdPlItems n) =
      ((s.did (n + 1) (s.frameEvents 0 (0x61 :: List.replicate n s.cfg.dummy))).setLines s.lines.idleCsn).setRd
        (s.rxBytes 1 n) := by
  rw [rdPlItems, State.perform_set, State.transfer_rdClear, State.perform_readFrame (by simpa using h)]
  simp [encodeWire, Config.cmdRRxPayload]
  rfl

/-- Completion of either side of the branch. -/
theorem State.complete_did_listening (s : State) (is : List Item) (tail : Tail) (n : Nat) (es : List Event) (rd : List Byte)
    (c t : Byte) {f : Finish} (hf : f ≠ .link) :
    State.complete f ((((s.load is tail).did n es).setRd rd).listening c t) =
      (s.ends n es (s.rsp.finish f { s.ctl with rd := rd })).listening c t := by
  have last (u : State) : (u.listening c t).complete f = (u.complete f).listening c t := by
    cases f with
    | link => exact absurd rfl hf
    | plain | byteRead | bufRead | regRead | bitSet | bitClear | noData | fault => rfl
  rw [last]
  exact congrArg (State.listening c t) (State.complete_did s is tail n es f s.lines rd)

/-- R203 before the branch: the occupancy byte has been read, and `tail` follows. -/
def State.looked (c : Byte) (tail : Tail) (s : State) : State :=
  (((s.load [] tail).did 4 (s.radioReadEvents c)).setRd [s.rx 3]).listening c (s.rx 3)

theorem State.looked_budget (c : Byte) (tail : Tail) (s : State) : (s.looked c tail).budget = s.budget := rfl
theorem State.looked_far (c : Byte) (tail : Tail) (s : State) : (s.looked c tail).far = s.far := rfl

section read

variable {s : State} (hs : s.Uninterrupted) (init : s.handle.initDone = true) {n : Len} (short : n.toNat ≤ 32) {c : Byte}
  (hc : c = s.handle.configCache ||| bit s.cfg.regMap.bPrimRx)
include hs init short hc

/-- R203 up to the branch, as an operation. -/
theorem State.exec_radioRead :
    exec (.radioRead n) s = .next (s.looked c (.readBranch n.toNat)).runTail := by
  have run := State.perform_radioReadItems (m := s.cfg.regMap)
    (s := s.load (radioReadItems s.cfg.regMap) (.readBranch n.toNat)) hs.2 rfl hc
  rw [exec, execRadioRead, nrfCheck_pass init (lenOk_true short) rfl, State.operate_tail hs, run]
  rfl

/-- R203: no payload. -/
theorem State.exec_radioRead_noData (empty : (s.rx 3).getLsbD s.cfg.regMap.bRxEmpty = true) :
    exec (.radioRead n) s = .next
      ((s.ends 4 (s.radioReadEvents c) { s.rsp with ok := false, err := 0 }).listening c (s.rx 3)) := by
  have branch := State.runTail_noData (s := s.looked c (.readBranch n.toNat)) rfl empty
  rw [State.exec_radioRead hs init short hc, branch, State.runToEnd_all ((State.looked_budget _ _ s).trans hs.1)]
  exact congrArg Host.Outcome.next (State.complete_did_listening s [] (.finish .noData) 4 _ _ c _ (by simp))

/-- R203: a payload. -/
theorem State.exec_radioRead_data (there : (s.rx 3).getLsbD s.cfg.regMap.bRxEmpty = false) :
    exec (.radioRead n) s = .next
      ((s.ends (n.toNat + 5) (s.radioReadEvents c ++ s.frameEvents 4 (0x61 :: List.replicate n.toNat s.cfg.dummy))
        { s.rsp.good with buf := s.received 5 n.toNat }).listening c (s.rx 3)) := by
  have branch := State.runTail_data (s := s.looked c (.readBranch n.toNat)) rfl there
  have fetch : (s.looked c (.finish .bufRead)).perform (rdPlItems n.toNat) =
      (((s.load [] (.finish .bufRead)).did (n.toNat + 5)
        (s.radioReadEvents c ++ s.frameEvents 4 (0x61 :: List.replicate n.toNat s.cfg.dummy))).setRd
          (s.rxBytes 5 n.toNat)).listening c (s.rx 3) := by
    rw [State.perform_rdPlItems ((State.looked_far _ _ s).trans hs.2)]
    simp [State.looked, show 4 + (n.toNat + 1) = n.toNat + 5 by omega]
    rfl
  rw [State.exec_radioRead hs init short hc, branch, State.runToEnd_all ((State.looked_budget _ _ s).trans hs.1)]
  refine (congrArg (fun u => Host.Outcome.next (State.complete .bufRead u)) fetch).trans ?_
  rw [State.complete_did_listening s _ _ _ _ _ c _ (by simp), Response.finish, fillBuf_rxBytes]
  rfl

end read

/-- Settles O45: the branch tests the byte just read, and each side ends in its own completion. -/
theorem radioReadListensAndFetches : Obligations.RadioReadListensAndFetches := by
  refine ⟨encoded_of_row (op := 0x32) fun _ _ _ _ _ => rfl,
    fun n s hs => ⟨fun off => ?_, fun init long => ?_, fun init short empty => ?_, fun init short there => ?_⟩⟩
  · exact faultsWith_notInitialized rfl hs off
  · exact faultsWith_invalidArgument rfl hs init (lenOk_false long)
  · exact State.exec_radioRead_noData hs init short rfl empty
  · exact State.exec_radioRead_data hs init short rfl there

end Sys2Proof.Machine
end

