-- ==== Sys2Proof/Proofs/LinkWrite.lean ====
section
/-! PROOF. `RADIO.WRITE` (R202, R208, R255, R256) against the free oracle: the first poll, every further poll, and the run of all of them. -/

namespace Sys2Proof.Machine

open Sys2Proof

/-! ### After a poll -/

/-- R202 between a poll and its tests: n exchanges and these events after `s`, k polls so far, t the byte polled last. -/
def State.polledAt (s : State) (n : Nat) (es : List Event) (seq k : Nat) (t : Byte) : State :=
  { s.bus n es with
    dlyCnt := 0
    ctl := { s.ctl with
      busy := true
      seq := seq
      failed := false
      timedOut := false
      pollCnt := k
      t := t
      todo := []
      tail := .pollBranch
      rd := [t] } }

section tests

variable {s : State} (n : Nat) (es : List Event) (seq k : Nat) (t : Byte)

/-- R202: a link write that completes after a poll; `seq` aside, nothing of the sequencer before it is left. -/
theorem State.linkEnds_polledAt (j : Nat) (fs : List Event) (rsp : Response) (failed timedOut : Bool) (q : Nat) :
    ({ (s.polledAt n es seq k t).linkEnds j fs rsp failed timedOut k t with ctl.seq := q } : State) =
      { s.linkEnds (n + j) (es ++ fs) rsp failed timedOut k t with ctl.seq := q } := by
  have bus := s.bus_bus n j es fs
  simp only [State.bus, State.mk.injEq] at bus
  simp_all [State.linkEnds, State.ends, State.bus, State.polledAt, State.rx]

@[simp] theorem State.polledAt_frameEvents (i : Nat) (ts : List Byte) :
    (s.polledAt n es seq k t).frameEvents i ts = s.frameEvents (n + i) ts := by
  simp only [State.frameEvents]
  exact congrArg (fun xs => Event.lvl .csn false :: (xs ++ [.lvl .csn true])) (s.xEvents_bus n es i ts)

@[simp] theorem State.polledAt_rx (i : Nat) : (s.polledAt n es seq k t).rx i = s.rx (n + i) := oracleByte_drop ..

@[simp] theorem State.polledAt_standbyEvents (i : Nat) :
    (s.polledAt n es seq k t).standbyEvents i = s.standbyEvents (n + i) := by
  simp only [State.standbyEvents, State.polledAt_frameEvents]
  rfl

variable {n es seq k t}
variable (hb : s.budget = none) (hf : s.far = .free)
include hb hf

/-- R202: `MAX_RT`. -/
theorem State.runTail_polledAt_failed (maxRt : t.getLsbD s.cfg.regMap.bMaxRt = true) :
    (s.polledAt n es seq k t).runTail =
      { s.linkEnds (n + 5) (es ++ (s.frameEvents n [0xE1] ++ s.standbyEvents (n + 1)))
          { s.rsp with ok := false, err := 1, byte := t } true false k t with
        ctl.seq := seq + 14 } := by
  rw [State.runTail_failed (s := s.polledAt n es seq k t) hb hf rfl rfl maxRt rfl, State.polledAt_frameEvents,
    State.polledAt_standbyEvents]
  exact State.linkEnds_polledAt ..

variable (maxRt : t.getLsbD s.cfg.regMap.bMaxRt = false)
include maxRt

/-- R202: `TX_DS`. -/
theorem State.runTail_polledAt_sent (txDs : t.getLsbD s.cfg.regMap.bTxDs = true) :
    (s.polledAt n es seq k t).runTail =
      { s.linkEnds (n + 4) (es ++ s.standbyEvents n) { s.rsp with ok := true, err := 0, byte := t } false false k t with
        ctl.seq := seq + 11 } := by
  rw [State.runTail_sent (s := s.polledAt n es seq k t) hb hf rfl rfl rfl maxRt txDs rfl, State.polledAt_standbyEvents]
  exact State.linkEnds_polledAt ..

variable (txDs : t.getLsbD s.cfg.regMap.bTxDs = false)
include txDs

/-- R202, R255: the limit. -/
theorem State.runTail_polledAt_timedOut (limit : s.cfg.pollLimit = k) (pos : k ≠ 0) :
    (s.polledAt n es seq k t).runTail =
      { s.linkEnds (n + 4) (es ++ s.standbyEvents n)
          { s.rsp with ok := false, err := 3, sticky := s.rsp.sticky ||| 0x08, byte := t } false true k t with
        ctl.seq := seq + 11 } := by
  rw [State.runTail_timedOut (s := s.polledAt n es seq k t) hb hf rfl rfl maxRt txDs limit pos rfl,
    State.polledAt_standbyEvents]
  exact State.linkEnds_polledAt ..

omit hf

/-- R202: the delay before the next poll. -/
theorem State.runTail_polledAt_again (limit : s.cfg.pollLimit ≠ k) :
    (s.polledAt n es seq k t).runTail = s.polls n (es ++ [.delayMs 100]) (seq + 1) k t := by
  rw [State.runTail_again (s := s.polledAt n es seq k t) hb rfl maxRt txDs limit]
  have bus := s.bus_bus n 0 es [.delayMs 100]
  simp only [State.bus, State.mk.injEq] at bus
  simp_all [State.polls, State.did, State.bus, State.polledAt, Config.tPollMs]

end tests

/-! ### The first poll -/

/-- R202 after the first poll: the block is a transmitter with CE low. -/
def State.asSender (c : Byte) (s : State) : State :=
  { s with handle.configCache := c, lines := { s.lines.idleCsn with ceLvl := false } }

section first

variable {s : State} (hs : s.Uninterrupted) (init : s.handle.initDone = true) {n : Len} (short : n.toNat ≤ 32) (payload : Buf)
  {c : Byte} (hc : c = s.handle.configCache &&& ~~~(bit s.cfg.regMap.bPrimRx))
include hs init short hc

/-- R202 up to the tests after the first poll. -/
theorem State.exec_radioWrite :
    exec (.radioWrite n payload) s = .next ((s.asSender c).polledAt (n.toNat + 5)
      (s.linkWriteEvents (payload.toList.take n.toNat) c) (n.toNat + 14) 1 (s.rx (n.toNat + 4))).runTail := by
  have run := State.perform_radioWriteItems (m := s.cfg.regMap)
    (s := s.load (radioWriteItems s.cfg.regMap (bufBytes payload n.toNat)) .pollBranch) hs.2 rfl (bufBytes payload n.toNat) hc
  rw [exec, execRadioWrite, nrfCheck_pass init (lenOk_true short) rfl, State.operate_tail hs, run, bufBytes_length _ _ short,
    show n.toNat + 14 = 0 + n.toNat + 14 by omega]
  rfl

end first

/-- R208: the count of the micro-operations is that of the events. -/
theorem State.linkEnds_seq (s : State) (n : Nat) {es : List Event} (rsp : Response) (failed timedOut : Bool) (k : Nat) (t : Byte)
    {q : Nat} (hq : q = es.length) :
    ({ s.linkEnds n es rsp failed timedOut k t with ctl.seq := q } : State) = s.linkEnds n es rsp failed timedOut k t := by
  subst hq
  rfl

@[simp] theorem State.standbyEvents_length (s : State) (k : Nat) : (s.standbyEvents k).length = 11 := by
  simp [State.standbyEvents]

@[simp] theorem State.linkWriteEvents_length (s : State) (vs : List Byte) (c : Byte) :
    (s.linkWriteEvents vs c).length = vs.length + 14 := by
  simp [State.linkWriteEvents]

/-- Settles O42: the sequence up to the first poll, then the branch the polled byte takes. -/
theorem radioWriteSendsAndPolls : Obligations.RadioWriteSendsAndPolls := by
  refine ⟨encoded_of_row (op := 0x31) fun _ _ _ _ _ => rfl, fun n payload s hs => ⟨fun off => ?_, fun init long => ?_,
    fun init short => ⟨fun maxRt => ?_, fun maxRt txDs => ?_, fun maxRt txDs limit => ?_, fun maxRt txDs limit => ?_⟩⟩⟩
  · exact faultsWith_notInitialized rfl hs off
  · exact faultsWith_invalidArgument rfl hs init (lenOk_false long)
  · rw [State.exec_radioWrite hs init short payload rfl, State.runTail_polledAt_failed (s := s.asSender _) hs.1 hs.2 maxRt,
      State.linkEnds_seq, ← List.append_assoc]
    · rfl
    · simp [short]
  · rw [State.exec_radioWrite hs init short payload rfl, State.runTail_polledAt_sent (s := s.asSender _) hs.1 hs.2 maxRt txDs,
      State.linkEnds_seq]
    · rfl
    · simp [short]
  · rw [State.exec_radioWrite hs init short payload rfl,
      State.runTail_polledAt_timedOut (s := s.asSender _) hs.1 hs.2 maxRt txDs limit one_ne_zero, State.linkEnds_seq]
    · rfl
    · simp [short]
  · rw [State.exec_radioWrite hs init short payload rfl, State.runTail_polledAt_again (s := s.asSender _) hs.1 maxRt txDs limit]
    rfl

/-! ### The next poll -/

/-- R202 in the next step of the poll loop: the outside has moved, and a poll leaves CSN high. -/
def State.nextPoll (s : State) : State := s.takeTurn.setLines s.lines.idleCsn

section next

variable {s : State} {k : Nat} (hf : s.far = .free) (hs : s.turns = []) (polling : s.Polling k)
include hf hs polling

/-- R202: the step polls once more, and the tests follow. -/
theorem State.Polling.step :
    Machine.step s = .next (s.nextPoll.polledAt 2
      (s.frameEvents 0 [encodeWire (.readReg s.cfg.regMap.aStatus), s.cfg.dummy]) (s.ctl.seq + 4) (k + 1) (s.rx 1)).runTail := by
  obtain ⟨busy, tail, todo, failed, timedOut, count⟩ := polling
  obtain ⟨noReset, -, -⟩ := State.takeTurn_quiet hs
  have budget : s.takeTurn.budget = none := by simp [State.takeTurn, hs, quietTurn]
  have polled : s.takeTurn.perform s.takeTurn.ctl.todo = (s.takeTurn.setDly 0).polledOnce := by
    rw [show s.takeTurn.ctl.todo = .set .delayDone :: pollItems s.cfg.regMap from todo, State.perform_set,
      State.transfer_delayDone]
    exact State.perform_pollItems (by simpa using hf) rfl
  rw [Machine.step, clockEdge_busy noReset busy, State.outcome_free (s.takeTurn.advance_far.trans hf), State.advance_all budget,
    polled]
  refine congrArg (fun u => Host.Outcome.next (State.runTail u)) ?_
  have control : s.takeTurn.ctl = { s.ctl with done := false } := rfl
  simp [State.nextPoll, State.polledAt, State.polledOnce, State.did, State.bus, control, busy, failed, timedOut, count, tail]
  exact ⟨rfl, rfl⟩

end next

/-- Settles O43: one more poll, then the branch the polled byte takes. -/
theorem nextPollDecides : Obligations.NextPollDecides := by
  intro s k hf hs polling
  have budget : s.nextPoll.budget = none := by simp [State.nextPoll, State.takeTurn, hs, quietTurn]
  refine ⟨fun maxRt => ?_, fun maxRt txDs => ?_, fun maxRt txDs limit => ?_, fun maxRt txDs limit => ?_⟩
  · rw [polling.step hf hs, State.runTail_polledAt_failed (s := s.nextPoll) budget hf maxRt, ← List.append_assoc]
    rfl
  · rw [polling.step hf hs, State.runTail_polledAt_sent (s := s.nextPoll) budget hf maxRt txDs]
    rfl
  · rw [polling.step hf hs, State.runTail_polledAt_timedOut (s := s.nextPoll) budget hf maxRt txDs limit k.succ_ne_zero]
    rfl
  · rw [polling.step hf hs, State.runTail_polledAt_again (s := s.nextPoll) budget maxRt txDs limit]
    rfl

/-! ### The whole run (R208) -/

/-- A run of one step more is a step after the run. -/
theorem run_succ_of_next {M : Host.Core} {s t : M.State} {k : Nat} (run : M.run k s = .next t) :
    M.run (k + 1) s = M.step t := by
  induction k generalizing s with
  | zero =>
    obtain rfl : s = t := Host.Outcome.next.inj run
    simp only [Host.Core.run]
    cases M.step s <;> rfl
  | succ k ih =>
    rw [Host.Core.run] at run ⊢
    cases first : M.step s with
    | next v =>
      rw [first] at run
      exact ih run
    | fault r | refused r =>
      rw [first] at run
      cases run

/-- R208: the byte that a link write of n bytes begun in `s` polls after k others. -/
def State.pollByte (s : State) (n k : Nat) : Byte := s.rx (n + 4 + 2 * k)

/-- R202, R208: `u` is where a link write of n bytes begun in `s` stands after k + 1 polls, before the tests. -/
structure State.AfterPoll (s : State) (n k : Nat) (u : State) : Prop where
  budget : u.budget = none
  far : u.far = .free
  turns : u.turns = []
  cfg : u.cfg = s.cfg
  sticky : u.rsp.sticky = s.rsp.sticky
  dlyCnt : u.dlyCnt = 0
  busy : u.ctl.busy = true
  tail : u.ctl.tail = .pollBranch
  failed : u.ctl.failed = false
  timedOut : u.ctl.timedOut = false
  count : u.ctl.pollCnt = k + 1
  byte : u.ctl.t = s.pollByte n k
  events : u.trace.length = s.trace.length + (n + 5 * k + 14)
  rx : ∀ i, u.rx i = s.rx (n + 5 + 2 * k + i)

/-- R202, R208: `w` is inside the delay after k + 1 polls of that link write. -/
structure State.Paused (s : State) (n k : Nat) (w : State) : Prop where
  polling : w.Polling (k + 1)
  far : w.far = .free
  turns : w.turns = []
  cfg : w.cfg = s.cfg
  sticky : w.rsp.sticky = s.rsp.sticky
  events : w.trace.length = s.trace.length + (n + 5 * (k + 1) + 10)
  rx : ∀ i, w.rx i = s.rx (n + 5 + 2 * k + i)

/-- R96, R202: the first step of a link write makes the first poll. -/
theorem step_radioWrite {s : State} {c : HostCmd} {rest : List Command} (hf : s.far = .free) (idle : s.ctl.busy = false)
    (hs : s.turns = []) (init : s.handle.initDone = true) (line : s.program = .host c :: rest) (code : c.op = 0x31)
    (short : c.len.toNat ≤ 32) : ∃ u, step s = .next u.runTail ∧ s.AfterPoll c.len.toNat 0 u := by
  have decoded : decode (.host c) = .instr (.radioWrite c.len c.buf) := radioWriteSendsAndPolls.1 c (by rw [code]; rfl)
  have accepted : ∃ a : State, step s = exec (.radioWrite c.len c.buf) a ∧ a.Uninterrupted ∧ a.turns = [] ∧
      a.handle = s.handle ∧ a.cfg = s.cfg ∧ a.rsp = s.rsp ∧ a.trace = s.trace ∧ ∀ i, a.rx i = s.rx i :=
    ⟨_, (stepRunsTheDecodedInstruction s rest _ idle hs).1 c line decoded, ⟨rfl, hf⟩, hs, rfl, rfl, rfl, rfl, fun _ => rfl⟩
  obtain ⟨a, run, free, turns, handle, cfg, rsp, trace, rx⟩ := accepted
  refine ⟨_, run.trans (State.exec_radioWrite free (handle ▸ init) short c.buf rfl),
    ⟨free.1, free.2, turns, cfg, congrArg Response.sticky rsp, rfl, rfl, rfl, rfl, rfl, rfl, rx _, ?_, fun i => ?_⟩⟩
  · simp [State.polledAt, State.asSender, short, trace]
  · exact (State.polledAt_rx ..).trans (rx _)

/-- R202: no flag and no limit: the delay. -/
theorem State.AfterPoll.paused {s u : State} {n k : Nat} (h : s.AfterPoll n k u)
    (maxRt : (s.pollByte n k).getLsbD s.cfg.regMap.bMaxRt = false)
    (txDs : (s.pollByte n k).getLsbD s.cfg.regMap.bTxDs = false) (limit : s.cfg.pollLimit ≠ k + 1) :
    s.Paused n k u.runTail := by
  rw [State.runTail_again h.budget h.tail (by rw [h.byte, h.cfg, maxRt]) (by rw [h.byte, h.cfg, txDs])
    (by rw [h.count, h.cfg]; exact limit)]
  refine ⟨⟨h.busy, rfl, rfl, h.failed, h.timedOut, h.count⟩, h.far, h.turns, h.cfg, h.sticky, ?_, fun i => ?_⟩
  · simp [h.events]
    omega
  · exact (State.did_rx u 0 [.delayMs 100] i).trans (by rw [Nat.zero_add, h.rx])

/-- R202: after the delay, the next poll. -/
theorem State.Paused.step {s w : State} {n k : Nat} (h : s.Paused n k w) :
    ∃ u, Machine.step w = .next u.runTail ∧ s.AfterPoll n (k + 1) u := by
  refine ⟨_, h.polling.step h.far h.turns, ⟨?_, h.far, ?_, h.cfg, h.sticky, rfl, rfl, rfl, rfl, rfl, rfl, ?_, ?_, fun i => ?_⟩⟩
  · simp [State.polledAt, State.nextPoll, State.takeTurn, h.turns, quietTurn]
  · simp [State.polledAt, State.nextPoll, State.takeTurn, h.turns, quietTurn]
  · exact (h.rx 1).trans (by rw [State.pollByte]; congr 1; omega)
  · simp [State.polledAt, State.nextPoll, h.events]
    omega
  · rw [State.polledAt_rx]
    exact (h.rx _).trans (congrArg s.rx (by omega))

section ends

variable {s u : State} {n k : Nat} (h : s.AfterPoll n k u)
include h

/-- R208: a flag: how the write ends. -/
theorem State.AfterPoll.flagged (flagged : ((s.pollByte n k).getLsbD s.cfg.regMap.bMaxRt ||
      (s.pollByte n k).getLsbD s.cfg.regMap.bTxDs) = true) :
    let t := u.runTail
    t.ctl.busy = false ∧ t.ctl.done = true ∧ t.lines.ceLvl = false ∧ t.rsp.byte = s.pollByte n k ∧
      t.rsp.sticky = s.rsp.sticky ∧
      if (s.pollByte n k).getLsbD s.cfg.regMap.bMaxRt then
        t.rsp.ok = false ∧ t.rsp.err = 1 ∧ t.trace.length = s.trace.length + (n + 5 * (k + 1) + 23)
      else t.rsp.ok = true ∧ t.rsp.err = 0 ∧ t.trace.length = s.trace.length + (n + 5 * (k + 1) + 20) := by
  cases maxRt : (s.pollByte n k).getLsbD s.cfg.regMap.bMaxRt with
  | true =>
    rw [State.runTail_failed h.budget h.far h.tail h.timedOut (by rw [h.byte, h.cfg, maxRt]) h.dlyCnt]
    refine ⟨rfl, rfl, rfl, h.byte, h.sticky, rfl, rfl, ?_⟩
    simp [State.linkEnds, h.events]
    omega
  | false =>
    rw [maxRt, Bool.false_or] at flagged
    rw [State.runTail_sent h.budget h.far h.tail h.timedOut h.failed (by rw [h.byte, h.cfg, maxRt])
      (by rw [h.byte, h.cfg, flagged]) h.dlyCnt]
    refine ⟨rfl, rfl, rfl, h.byte, h.sticky, rfl, rfl, ?_⟩
    simp [State.linkEnds, h.events]
    omega

/-- R255: the limit and no flag: how the write ends. -/
theorem State.AfterPoll.timedOut_ends (maxRt : (s.pollByte n k).getLsbD s.cfg.regMap.bMaxRt = false)
    (txDs : (s.pollByte n k).getLsbD s.cfg.regMap.bTxDs = false) (limit : s.cfg.pollLimit = k + 1) :
    let t := u.runTail
    t.ctl.busy = false ∧ t.ctl.done = true ∧ t.lines.ceLvl = false ∧ t.rsp.ok = false ∧ t.rsp.err = 3 ∧
      t.rsp.sticky = s.rsp.sticky ||| 0x08 ∧ t.rsp.byte = s.pollByte n k ∧
      t.trace.length = s.trace.length + (n + 5 * (k + 1) + 20) := by
  rw [State.runTail_timedOut h.budget h.far h.tail h.failed (by rw [h.byte, h.cfg, maxRt]) (by rw [h.byte, h.cfg, txDs])
    (by rw [h.count, h.cfg, limit]) (by rw [h.count]; exact k.succ_ne_zero) h.dlyCnt]
  refine ⟨rfl, rfl, rfl, rfl, rfl, congrArg (· ||| 0x08) h.sticky, h.byte, ?_⟩
  simp [State.linkEnds, h.events]
  omega

end ends

section run

variable {s : State} {c : HostCmd} {rest : List Command} (hf : s.far = .free) (idle : s.ctl.busy = false)
  (hs : s.turns = []) (init : s.handle.initDone = true) (line : s.program = .host c :: rest) (code : c.op = 0x31)
  (short : c.len.toNat ≤ 32)
include hf idle hs init line code short

/-- R208: as long as no byte has a flag and no limit is met, each step makes one more poll. -/
theorem run_radioWrite (k : Nat)
    (unflagged : ∀ j < k, ((s.pollByte c.len.toNat j).getLsbD s.cfg.regMap.bMaxRt ||
      (s.pollByte c.len.toNat j).getLsbD s.cfg.regMap.bTxDs) = false)
    (limit : s.cfg.pollLimit = 0 ∨ k < s.cfg.pollLimit) :
    ∃ u, Sys2Proof.core.run (k + 1) s = .next u.runTail ∧ s.AfterPoll c.len.toNat k u := by
  induction k with
  | zero =>
    obtain ⟨u, first, h⟩ := step_radioWrite hf idle hs init line code short
    exact ⟨u, (run_succ_of_next (M := Sys2Proof.core) (k := 0) rfl).trans first, h⟩
  | succ k ih =>
    obtain ⟨u, run, h⟩ := ih (fun j hj => unflagged j (by omega)) (by omega)
    obtain ⟨maxRt, txDs⟩ := Bool.or_eq_false_iff.mp (unflagged k k.lt_succ_self)
    obtain ⟨v, next, h'⟩ := (h.paused maxRt txDs (by omega)).step
    exact ⟨v, (run_succ_of_next run).trans next, h'⟩

end run

/-- Settles O44: the run reaches the deciding poll, and the tests there end it or let it wait. -/
theorem radioWriteEndsAsThePollsSay : Obligations.RadioWriteEndsAsThePollsSay := by
  intro s c rest hf idle hs init line code short
  refine ⟨fun k unflagged flagged limit => ?_, fun limit unflagged => ?_, fun k unflagged limit => ?_⟩
  · obtain ⟨u, run, h⟩ := run_radioWrite hf idle hs init line code short k unflagged limit
    exact ⟨_, run, h.flagged flagged⟩
  · obtain ⟨k, last⟩ := Nat.exists_eq_succ_of_ne_zero limit
    obtain ⟨u, run, h⟩ := run_radioWrite hf idle hs init line code short k (fun j hj => unflagged j (by omega)) (by omega)
    obtain ⟨maxRt, txDs⟩ := Bool.or_eq_false_iff.mp (unflagged k (by omega))
    rw [last]
    exact ⟨_, run, h.timedOut_ends maxRt txDs last⟩
  · obtain ⟨u, run, h⟩ := run_radioWrite hf idle hs init line code short k (fun j hj => unflagged j (by omega)) (by omega)
    obtain ⟨maxRt, txDs⟩ := Bool.or_eq_false_iff.mp (unflagged k k.lt_succ_self)
    have paused := h.paused maxRt txDs (by omega)
    exact ⟨_, run, paused.polling, paused.events⟩

end Sys2Proof.Machine
end

