-- ==== Sys2Proof/Proofs/LinkOnChip.lean ====
section
/-! PROOF. `RADIO.WRITE` against the reference chip (R202, R255, R303 I8): however it ends, its last sequence is a return to standby. -/

namespace Sys2Proof.Machine

open Sys2Proof

/-! ### What the spec leaves unspecified stays marked (R229, U8, U9) -/

section gap

variable {m : RegMap} {c : Chip}

theorem Chip.deselect_gap (h : c.gap ≠ none) : c.deselect.gap ≠ none := by
  have commit : c.commitPayload.gap ≠ none := by
    unfold Chip.commitPayload
    split
    · simp
    · split
      · simp
      · exact h
  unfold Chip.deselect
  split
  · exact commit
  all_goals exact h

theorem Chip.followPins_gap (csn ce : Bool) (h : c.gap ≠ none) : (c.followPins m csn ce).gap ≠ none := by
  rw [Chip.followPins, Chip.rearm_gap]
  split <;> split
  · exact Chip.deselect_gap h
  all_goals exact h

theorem Chip.exchange_gap (t free : Byte) (h : c.gap ≠ none) : (c.exchange m t free).2.gap ≠ none := by
  unfold Chip.exchange
  split
  · exact h
  · split
    · split
      · rwa [Chip.command_eq]
      · simp
    · rwa [Chip.dataIn_eq]

/-- R233, R234: the air reaches neither the frame decoder nor the mark. -/
theorem Chip.air_decoder (ce : Bool) (e : AirEvent) (c : Chip) : (c.air m ce e).sel = c.sel ∧ (c.air m ce e).gap = c.gap := by
  unfold Chip.air
  rw [Chip.rearm_sel, Chip.rearm_gap]
  cases e with
  | sent => dsimp only; split <;> exact ⟨rfl, rfl⟩
  | gaveUp => dsimp only; split <;> exact ⟨rfl, rfl⟩
  | arrived p payload => dsimp only [Chip.arrive]; split <;> exact ⟨rfl, rfl⟩

end gap

theorem State.chipNow_gap {s : State} (h : s.chip.gap ≠ none) : s.chipNow.gap ≠ none := by
  unfold State.chipNow
  split
  · exact h
  · exact Chip.followPins_gap _ _ h

theorem State.followPins_gap {s : State} (h : s.chip.gap ≠ none) : s.followPins.chip.gap ≠ none := by
  unfold State.followPins
  split
  · exact h
  · exact Chip.followPins_gap _ _ h

theorem State.xfer_gap {s : State} (t : Byte) (keep : Bool) (h : s.chip.gap ≠ none) : (s.xfer t keep).chip.gap ≠ none := by
  change (s.chipAfter t).gap ≠ none
  unfold State.chipAfter
  split
  · exact h
  · rw [Chip.rearm_gap]
    exact Chip.exchange_gap _ _ (State.chipNow_gap h)

theorem kept_gap : Kept fun s => s.chip.gap ≠ none where
  micro s m h := by
    cases m with
    | dir l => exact State.followPins_gap h
    | lvl l v => exact State.followPins_gap h
    | xfer src keep => exact State.xfer_gap _ keep h
    | spiInit | delayUs | delayMs => exact h
  transfer s t h := by rwa [State.transfer_chip]
  complete s f h := h
  todo s is h := h
  tail s t h := h
  budget s b h := h

/-- A run within what the spec says of the chip was so before. -/
theorem State.gap_of_perform {is : List Item} {s : State} (h : (s.perform is).chip.gap = none) : s.chip.gap = none := by
  induction is generalizing s with
  | nil => exact h
  | cons i is ih =>
    by_contra marked
    cases i with
    | op m => exact kept_gap.micro s m marked (ih h)
    | set t => exact kept_gap.transfer s t marked (ih h)

/-- R229: a step that is not refused has stayed within what the spec says of the chip. -/
theorem State.outcome_next_gap {s t : State} (far : s.far = .refChip) (h : s.outcome = .next t) : t.chip.gap = none := by
  obtain rfl := State.outcome_next h
  by_contra marked
  obtain ⟨g, hg⟩ := Option.ne_none_iff_exists'.mp marked
  simp [State.outcome, far, hg] at h

/-! ### Sequences that leave the bus idle (R11) -/

/-- The sequence ends with an idle bus if it begins with one and the chip stays within what the spec says of it. -/
def KeepsIdle (is : List Item) : Prop := ∀ s : State, s.BusIdle → (s.perform is).chip.gap = none → (s.perform is).BusIdle

theorem keepsIdle_nil : KeepsIdle [] := fun _ h _ => h

theorem KeepsIdle.append {a b : List Item} (ha : KeepsIdle a) (hb : KeepsIdle b) : KeepsIdle (a ++ b) := by
  intro s h gap
  rw [State.perform_append] at gap ⊢
  exact hb _ (ha s h (State.gap_of_perform gap)) gap

theorem KeepsIdle.cons_set {is : List Item} (t : Transfer) (h : KeepsIdle is) : KeepsIdle (.set t :: is) := by
  intro s idle gap
  refine h (s.transfer t) ⟨⟨?_, ?_, ?_⟩, ?_, ?_, ?_⟩ gap
  · rw [State.transfer_far, idle.far]
  · rw [State.transfer_lines, idle.ceDir]
  · rw [State.transfer_lines, idle.csnDir]
  · rw [State.transfer_lines, idle.csnLvl]
  · rw [State.transfer_chip, idle.sel]
  · rw [State.transfer_chip, idle.gap]

theorem keepsIdle_lvl_ce (v : Bool) : KeepsIdle [.op (.lvl .ce v)] := by
  intro s h gap
  have lines : (s.micro (.lvl .ce v)).lines = { s.lines with ceLvl := v } := State.followPins_lines _
  refine h.of_lines (State.perform_far _ _) lines ?_ gap
  obtain ⟨⟨far, ceDir, csnDir⟩, csnLvl, sel, -⟩ := h
  simp [State.micro, State.lvl, State.followPins, far, State.chipCsn, State.chipCe, Lines.setLvl, ceDir, csnDir, csnLvl,
    Chip.followPins, sel]

theorem keepsIdle_waitUs (n : Nat) : KeepsIdle (waitUs n) := fun s h gap => h.of_lines rfl (ce := s.lines.ceLvl) rfl h.sel gap

theorem Chip.frame_sel (m : RegMap) (ce : Bool) (op : WireOp) (data : List Byte) (n : Nat) (c : Chip) :
    (c.frame m ce op data n).2.sel = false := by
  rw [Chip.frame_eq, Chip.rearm_sel]
  rfl

theorem keepsIdle_frame (op : WireOp) (keep : Bool) (srcs : List Src) :
    KeepsIdle (frame (send (encodeWire op) :: srcs.map (exchangeItem keep))) := by
  intro s h gap
  obtain ⟨chip, -, lines⟩ := h.perform_frame op keep srcs
  exact h.of_lines (State.perform_far _ _) (ce := s.lines.ceLvl) lines (by rw [chip, Chip.frame_sel]) gap

theorem keepsIdle_wrPl (bytes : List Byte) : KeepsIdle (wrPlItems bytes) := by
  have sends : (bytes.map Src.lit).map (exchangeItem false) = bytes.map send := List.map_map
  rw [wrPlItems, ← sends]
  exact keepsIdle_frame _ false _

theorem keepsIdle_flushTx : KeepsIdle flushTxItems := keepsIdle_frame .flushTx false []

theorem keepsIdle_poll (m : RegMap) : KeepsIdle (pollItems m) :=
  ((keepsIdle_frame (.readReg m.aStatus) true [.dummy]).cons_set _).append ((keepsIdle_nil.cons_set _).cons_set _)

theorem keepsIdle_modeTx (m : RegMap) : KeepsIdle (modeTxItems m) :=
  (((keepsIdle_frame (.writeReg m.aConfig) false [.cache]).append (keepsIdle_lvl_ce true)).append
    (keepsIdle_waitUs _)).cons_set _

theorem keepsIdle_radioWrite (m : RegMap) (bytes : List Byte) : KeepsIdle (radioWriteItems m bytes) :=
  (((keepsIdle_wrPl bytes).append (keepsIdle_modeTx m)).append
    ((keepsIdle_lvl_ce false).append (keepsIdle_nil.cons_set _))).append (keepsIdle_poll m)

/-- R202: an exit of the poll loop is a return to standby, after at most a flush. -/
theorem pollExit_keepsIdle {s : State} {is : List Item} (h : s.pollExit = some is) :
    ∃ before, is = before ++ standbyItems s.cfg.regMap ∧ KeepsIdle before := by
  simp only [State.pollExit] at h
  split at h
  · cases h
    exact ⟨_, rfl, keepsIdle_flushTx.cons_set .setFailed⟩
  · split at h
    · cases h
      exact ⟨[], rfl, keepsIdle_nil⟩
    · split at h
      · cases h
        exact ⟨_, rfl, keepsIdle_nil.cons_set .setTimedOut⟩
      · cases h

/-! ### How a link write ends -/

/-- R98, R202, R255: the kinds a link write can end with. -/
theorem Response.linkResult_kinds (c : Control) (r : Response) :
    let r' := r.linkResult c
    (r'.err = 0 ∨ r'.err = 1 ∨ r'.err = 3) ∧ (r'.ok = true ↔ r'.err = 0) := by
  cases timedOut : c.timedOut <;> cases failed : c.failed <;>
    simp [Response.linkResult, Response.raise, Kind.code, timedOut, failed]

/-- R202, R172: what is so of the chip and the block whenever a link write has ended. -/
structure State.LinkEnded (t : State) : Prop where
  cleared : t.chip.Cleared
  ceLvl : t.lines.ceLvl = false
  kinds : t.rsp.err = 0 ∨ t.rsp.err = 1 ∨ t.rsp.err = 3
  ok : t.rsp.ok = true ↔ t.rsp.err = 0

/-- R202: a branch of the poll loop that ends the operation ends in standby. -/
theorem State.BusIdle.runTail_ended {u : State} (h : u.BusIdle) (hb : u.budget = none) (std : u.cfg.regMap = RegMap.standard)
    (busy : u.ctl.busy = true) (tail : u.ctl.tail = .pollBranch) (ended : u.runTail.ctl.busy = false)
    (gap : u.runTail.chip.gap = none) : u.runTail.LinkEnded := by
  cases exit : u.pollExit with
  | none =>
    rw [State.runTail_pollAgain tail exit, State.pollAgain_busy, busy] at ended
    cases ended
  | some is =>
    obtain ⟨before, rfl, keeps⟩ := pollExit_keepsIdle exit
    rw [State.runTail_pollExit tail exit, State.runToEnd_all hb, State.perform_append] at gap ⊢
    have idle : (State.perform before { u with ctl.tail := .finish .link }).BusIdle :=
      keeps _ ⟨⟨h.far, h.ceDir, h.csnDir⟩, h.csnLvl, h.sel, h.gap⟩ (State.gap_of_perform gap)
    have standby := idle.perform_standbyItems (by rw [State.perform_cfg, std])
    rw [State.perform_cfg] at standby
    obtain ⟨-, lines, cleared, -⟩ := standby
    obtain ⟨kinds, ok⟩ := Response.linkResult_kinds (State.perform (standbyItems u.cfg.regMap)
      (State.perform before { u with ctl.tail := .finish .link })).ctl _
    exact ⟨cleared, congrArg Lines.ceLvl lines, kinds, ok⟩

/-- R202: a step of the sequencer that ends a link write, from its start or from inside its poll loop. -/
theorem State.BusIdle.advance_ended {s t : State} (h : s.BusIdle) (hb : s.budget = none)
    (std : s.cfg.regMap = RegMap.standard) (busy : s.ctl.busy = true) (tail : s.ctl.tail = .pollBranch)
    (keeps : KeepsIdle s.ctl.todo) (run : s.advance.outcome = .next t) (ended : t.ctl.busy = false) : t.LinkEnded := by
  have gap := State.outcome_next_gap (s.advance_far.trans h.far) run
  obtain rfl := State.outcome_next run
  rw [State.advance_all hb] at gap ended ⊢
  have before : (s.perform s.ctl.todo).chip.gap = none := by
    by_contra marked
    exact kept_gap.runTail (kept_gap.todo _ [] marked) gap
  have idle := keeps s h before
  refine State.BusIdle.runTail_ended ⟨⟨idle.far, idle.ceDir, idle.csnDir⟩, idle.csnLvl, idle.sel, idle.gap⟩ ?_ ?_ ?_ ?_ ended gap
  · simpa using hb
  · simpa using std
  · simpa [State.perform_ctl_busy] using busy
  · simpa using tail

/-- R15: what the outside does before a step leaves an idle bus idle. -/
theorem State.BusIdle.takeTurn {s : State} (h : s.BusIdle) : s.takeTurn.BusIdle := by
  have decoder (es : List AirEvent) (c : Chip) :
      let d := es.foldl (fun c e => c.air s.cfg.regMap s.chipCe e) c
      d.sel = c.sel ∧ d.gap = c.gap := by
    induction es generalizing c with
    | nil => exact ⟨rfl, rfl⟩
    | cons e es ih =>
      obtain ⟨sel, gap⟩ := Chip.air_decoder (m := s.cfg.regMap) s.chipCe e c
      exact ⟨(ih _).1.trans sel, (ih _).2.trans gap⟩
  exact ⟨⟨h.far, h.ceDir, h.csnDir⟩, h.csnLvl, (decoder _ s.chip).1.trans h.sel, (decoder _ s.chip).2.trans h.gap⟩

/-- Settles O60: whichever step ends the operation, its last sequence is the return to standby on an idle bus. -/
theorem linkWriteLeavesTheChipInStandby : Obligations.LinkWriteLeavesTheChipInStandby := by
  intro s t far std init ceDir csnDir csnLvl sel gap how ended
  have idle : s.BusIdle := ⟨⟨far, ceDir, csnDir⟩, csnLvl, sel, gap⟩
  have atEnd : t.LinkEnded := by
    obtain ⟨n, payload, short, hb, run⟩ | ⟨k, ⟨busy, tail, todo, -⟩, noReset, hb, run⟩ := how
    · rw [exec, execRadioWrite, nrfCheck_pass init (lenOk_true short) rfl, State.operate_taken] at run
      exact (idle.load _ _).advance_ended hb std rfl rfl (keepsIdle_radioWrite _ _) run ended
    · rw [step, clockEdge_busy (s := s.takeTurn) noReset busy] at run
      refine idle.takeTurn.advance_ended hb std busy tail ?_ run ended
      rw [show s.takeTurn.ctl.todo = s.ctl.todo from rfl, todo]
      exact (keepsIdle_poll _).cons_set _
  obtain ⟨⟨txFifo, rxFifo, rxDr, txDs, maxRt, armed⟩, low, kinds, ok⟩ := atEnd
  exact ⟨txFifo, rxFifo, maxRt, txDs, rxDr, armed, low, kinds, ok⟩

end Sys2Proof.Machine
end

