-- ==== Sys2Proof/Proofs/BenchFrames.lean ====
section
/-! PROOF. Frames that a bench clocks into the reference chip and that write no register (R219, R220, R225 to R228, R237). -/

namespace Sys2Proof.Machine

open Sys2Proof

/-! ### What a bench sees of any frame -/

/-- R219: the state t after a frame that a bench has clocked into the chip of s. -/
structure State.Clocked (s : State) (op : WireOp) (data : List Byte) (t : State) : Prop where
  run : s.wireFrame op data = .next t
  rest : t = { s with chip := t.chip, wireOut := t.wireOut, draws := s.draws + (data.length + 1) }
  chip : t.chip = (s.chip.frame s.cfg.regMap s.chipCe op data s.draws).2
  out : t.wireOut = (s.chip.frame s.cfg.regMap s.chipCe op data s.draws).1

/-- A frame that stays within what the spec says of the chip completes. -/
theorem State.clocked {s : State} {op : WireOp} {data : List Byte}
    (within : (s.chip.frame s.cfg.regMap s.chipCe op data s.draws).2.gap = none) : ∃ t, s.Clocked op data t :=
  ⟨_, State.wireFrame_next within, rfl, rfl, rfl⟩

section clocked

variable {s t : State} {op : WireOp} {data : List Byte} (h : s.Clocked op data t)
include h

theorem State.Clocked.out_length : t.wireOut.length = data.length + 1 := h.out ▸ Chip.frame_out_length _ _ _ _ _ _

theorem State.Clocked.out_status : t.wireOut[0]? = some (s.chip.statusByte s.cfg.regMap) := by
  rw [h.out, Chip.frame_eq]
  rfl

theorem State.Clocked.sel : t.chip.sel = false := h.chip ▸ Chip.frame_sel _ _ _ _ _ _

end clocked

/-! ### Frames that write no register -/

section frames

variable (m : RegMap) (ce : Bool) (c : Chip)

/-- R219, R225, R226: the end action of a command concerns the FIFOs and ends the command. -/
theorem Chip.deselect_eq :
    c.deselect =
      { c with
        txFifo := c.deselect.txFifo
        rxFifo := c.deselect.rxFifo
        gap := c.deselect.gap
        sel := false
        cmd := none } := by
  unfold Chip.deselect
  split
  · unfold Chip.commitPayload
    split
    · rfl
    · split <;> rfl
  all_goals rfl

/-- R220, R225 to R228: a frame that writes no register leaves registers and flags as they are. -/
theorem Chip.frame_keepsRegs {op : WireOp} (h : ∀ a, op ≠ .writeReg a) (data : List Byte) (n : Nat) :
    let d := (c.frame m ce op data n).2
    d.regs = c.regs ∧ d.rxDr = c.rxDr ∧ d.txDs = c.txDs ∧ d.maxRt = c.maxRt := by
  rw [Chip.frame_keeps m ce c h, Chip.deselect_eq]
  simp [Chip.started_eq]

/-- R220: what the master sends during a register read makes no difference. -/
theorem Chip.frame_readReg_sent (a : RegAddr) {data data' : List Byte} (same : data'.length = data.length) (n : Nat) :
    c.frame m ce (.readReg a) data' n = c.frame m ce (.readReg a) data n := by
  have out : (Chip.dataBytes m ce (.readReg a) data' n (c.started m ce (.readReg a))).1 =
      (Chip.dataBytes m ce (.readReg a) data n (c.started m ce (.readReg a))).1 := by
    refine List.ext_getElem? fun i => ?_
    by_cases hi : i < data.length
    · have stable := Chip.started_stable m ce c (.readReg a)
      rw [Chip.dataBytes_out m ce (by simp) stable data n i hi,
        Chip.dataBytes_out m ce (by simp) stable data' n i (same ▸ hi)]
    · rw [List.getElem?_eq_none (by rw [Chip.dataBytes_length]; omega),
        List.getElem?_eq_none (by rw [Chip.dataBytes_length]; omega)]
  refine Prod.ext ?_ ?_
  · rw [Chip.frame_eq, Chip.frame_eq, out]
  · rw [Chip.frame_readReg, Chip.frame_readReg, same]

/-- R226: a payload-read frame shifts out the oldest payload after the status byte. -/
theorem Chip.frame_readPayload_out {p : Fin 6} {payload : List Byte} (oldest : c.rxFifo.head? = some (p, payload))
    {data : List Byte} {i : Nat} (hi : i < data.length) (inside : i < payload.length) (n : Nat) :
    (c.frame m ce .readPayload data n).1[i + 1]? = payload[i]? := by
  obtain ⟨rest, fifo⟩ := List.head?_eq_some_iff.mp oldest
  rw [Chip.frame_eq, List.getElem?_cons_succ,
    Chip.dataBytes_out m ce (by simp) (Chip.started_stable m ce c _) data n i hi]
  simp [Chip.dataOut, Chip.started_eq, fifo, List.getD_eq_getElem?_getD, inside]

end frames

/-- R220, R225 to R228: a bench sees registers and flags as they were, unless it writes a register. -/
theorem State.Clocked.keepsRegs {s t : State} {op : WireOp} {data : List Byte} (h : s.Clocked op data t)
    (noWrite : ∀ a, op ≠ .writeReg a) :
    t.chip.regs = s.chip.regs ∧ t.chip.rxDr = s.chip.rxDr ∧ t.chip.txDs = s.chip.txDs ∧ t.chip.maxRt = s.chip.maxRt := by
  rw [h.chip]
  exact Chip.frame_keepsRegs _ _ _ noWrite _ _

/-! ### The obligations -/

/-- Settles O46: the frame leaves the chip as arming left it, and what it shifts out does not depend on what is sent. -/
theorem readRegisterFrameShiftsOutTheRegister : Obligations.ReadRegisterFrameShiftsOutTheRegister := by
  intro a data s
  obtain ⟨t, h⟩ := State.clocked (s := s) (op := .readReg a) (data := data) (by rw [Chip.frame_readReg]; rfl)
  have chip := h.chip.trans (Chip.frame_readReg _ _ _ _ _ _)
  obtain ⟨regs, rxDr, txDs, maxRt⟩ := h.keepsRegs (by simp)
  refine ⟨t, h.run, h.rest, regs, by simp [chip, Chip.idle], by simp [chip, Chip.idle], rxDr, txDs, maxRt,
    by simp [chip, Chip.idle], h.sel, h.out_length, h.out_status, fun r i b named hi read => ?_, fun data' same => ?_⟩
  · rw [h.out]
    exact Chip.frame_readReg_out _ _ named read hi _
  · have again : s.wireFrame (.readReg a) data' = s.wireFrame (.readReg a) data := by
      simp only [State.wireFrame, Chip.frame_readReg_sent _ _ _ a same, same]
    exact again.trans h.run

section payload

variable (data : List Byte) (s : State)

/-- R225: a payload of 1 to 32 bytes with room is appended. -/
theorem State.clocked_writePayload (room : s.chip.txFifo.length < Config.fifoDepth) (nonempty : 1 ≤ data.length)
    (short : data.length ≤ Config.maxPayload) :
    ∃ t, s.Clocked .writePayload data t ∧
      t.chip = ({ s.chip.idle s.cfg.regMap data.length data with txFifo := s.chip.txFifo ++ [data] } : Chip).rearm
        s.cfg.regMap s.chipCe := by
  have after := s.chip.frame_writePayload s.cfg.regMap s.chipCe data s.draws
  rw [if_neg (Nat.not_le.mpr room), if_neg (by omega)] at after
  obtain ⟨t, h⟩ := State.clocked (by rw [after, Chip.rearm_gap]; rfl)
  exact ⟨t, h, h.chip.trans after⟩

/-- U8: a full FIFO. -/
theorem State.wireFrame_writePayload_full (full : Config.fifoDepth ≤ s.chip.txFifo.length) :
    s.wireFrame .writePayload data = .refused (.chipUnspecified .txFifoFull) :=
  State.wireFrame_refused (by rw [Chip.frame_writePayload]; exact congrArg Chip.gap (if_pos full))

/-- U9: a payload of no bytes or too many. -/
theorem State.wireFrame_writePayload_badLength (room : s.chip.txFifo.length < Config.fifoDepth)
    (bad : data.length = 0 ∨ Config.maxPayload < data.length) :
    s.wireFrame .writePayload data = .refused (.chipUnspecified (.badPayloadLength data.length)) :=
  State.wireFrame_refused (by
    rw [Chip.frame_writePayload, if_neg (Nat.not_le.mpr room)]
    exact congrArg Chip.gap (if_pos bad))

end payload

/-- Settles O48: by the three cases of the payload write, and by the payload read. -/
theorem payloadFramesUseTheFifos : Obligations.PayloadFramesUseTheFifos := by
  refine ⟨fun data s room nonempty short => ?_, State.wireFrame_writePayload_full, State.wireFrame_writePayload_badLength,
    fun data s => ?_⟩
  · obtain ⟨t, h, chip⟩ := State.clocked_writePayload data s room nonempty short
    obtain ⟨regs, rxDr, txDs, maxRt⟩ := h.keepsRegs (by simp)
    refine ⟨t, h.run, h.rest, by simp [chip], by simp [chip, Chip.idle], regs, rxDr, txDs, maxRt, h.sel, ?_, h.out_length,
      h.out_status⟩
    rw [chip, Chip.rearm_eq]
    rfl
  · obtain ⟨t, h⟩ := State.clocked (s := s) (op := .readPayload) (data := data) (by rw [Chip.frame_readPayload]; rfl)
    have chip := h.chip.trans (Chip.frame_readPayload _ _ _ _ _)
    obtain ⟨regs, rxDr, txDs, maxRt⟩ := h.keepsRegs (by simp)
    refine ⟨t, h.run, h.rest, by simp [chip], by simp [chip, Chip.idle], regs, by simp [chip, Chip.idle], rxDr, txDs, maxRt,
      h.sel, h.out_length, h.out_status, fun p payload i oldest hi inside => ?_⟩
    rw [h.out]
    exact Chip.frame_readPayload_out _ _ _ oldest hi inside _

/-- Settles O49: a flush acts at its command byte, and the data bytes that follow change nothing. -/
theorem flushFramesEmptyTheirFifo : Obligations.FlushFramesEmptyTheirFifo := by
  intro data s
  constructor
  · obtain ⟨t, h⟩ := State.clocked (s := s) (op := .flushTx) (data := data) (by rw [Chip.frame_flushTx]; rfl)
    have chip := h.chip.trans (Chip.frame_flushTx _ _ _ _ _)
    obtain ⟨regs, rxDr, txDs, maxRt⟩ := h.keepsRegs (by simp)
    exact ⟨t, h.run, h.rest, by simp [chip], by simp [chip], by simp [chip, Chip.idle], regs, rxDr, txDs, maxRt, h.sel,
      h.out_length, h.out_status⟩
  · obtain ⟨t, h⟩ := State.clocked (s := s) (op := .flushRx) (data := data) (by rw [Chip.frame_flushRx]; rfl)
    have chip := h.chip.trans (Chip.frame_flushRx _ _ _ _ _)
    obtain ⟨regs, rxDr, txDs, maxRt⟩ := h.keepsRegs (by simp)
    exact ⟨t, h.run, h.rest, by simp [chip], by simp [chip, Chip.idle], regs, by simp [chip, Chip.idle], rxDr, txDs, maxRt,
      h.sel, h.out_length, h.out_status⟩

end Sys2Proof.Machine
end

