-- ==== Sys2Proof/Proofs/RegisterWrite.lean ====
section
/-! PROOF. Register-write frames of a bench (R221, R222, R232): what they store, which flags they clear, and when the chip arms. -/

namespace Sys2Proof.Machine

open Sys2Proof

/-! ### Arming as a condition -/

section arming

variable (m : RegMap) (ce : Bool)

/-- R232: the condition under which the chip arms. -/
def Chip.arms (c : Chip) : Bool :=
  ce && testBit (c.reg .config) m.bPwrUp && !(testBit (c.reg .config) m.bPrimRx) && !c.txFifo.isEmpty && !c.maxRt

theorem Chip.rearm_armed_arms (c : Chip) : (c.rearm m ce).armed = (c.armed || c.arms m ce) := Chip.rearm_armed m ce c

@[simp] theorem Chip.rearm_arms (c : Chip) : (c.rearm m ce).arms m ce = c.arms m ce := by simp [Chip.arms]

variable {c d : Chip}

/-- It depends on CONFIG, the TX FIFO and `max_rt` only. -/
theorem Chip.arms_congr (config : d.reg .config = c.reg .config) (txFifo : d.txFifo = c.txFifo) (maxRt : d.maxRt = c.maxRt) :
    d.arms m ce = c.arms m ce := by
  rw [Chip.arms, config, txFifo, maxRt, Chip.arms]

/-- A chip that has armed already, or has no cause to, is left as it is. -/
theorem Chip.rearm_eq_self_iff : c.rearm m ce = c ↔ (c.arms m ce = true → c.armed = true) := by
  rw [← Bool.or_eq_left_iff_imp, ← Chip.rearm_armed_arms]
  exact ⟨congrArg Chip.armed, fun same => by rw [Chip.rearm_eq, same]⟩

end arming

/-! ### One data byte of a register write -/

section byte

variable {m : RegMap} {a : RegAddr} {c : Chip}

/-- R222: only the first data byte written to STATUS changes flags. -/
theorem Chip.dataIn_flags (h : chipReg m a ≠ some .status ∨ c.idx ≠ 0) (t : Byte) :
    let d := c.dataIn m (.writeReg a) t
    d.rxDr = c.rxDr ∧ d.txDs = c.txDs ∧ d.maxRt = c.maxRt := by
  simp only [Chip.dataIn]
  split
  · next r named =>
    cases stores : r.stores with
    | some mask =>
      rw [Chip.writeReg_stores m c stores]
      split <;> exact ⟨rfl, rfl, rfl⟩
    | none =>
      by_cases status : r = .status
      · subst status
        rw [Chip.writeReg_status, if_neg (h.resolve_left (not_not_intro named))]
        exact ⟨rfl, rfl, rfl⟩
      · rw [Chip.writeReg_ignored m c stores status]
        exact ⟨rfl, rfl, rfl⟩
  · exact ⟨rfl, rfl, rfl⟩

/-- R221: a data byte for a register that stores none, or for an address that names none, changes no register. -/
theorem Chip.dataIn_regs (h : ∀ r, chipReg m a = some r → r.stores = none) (t : Byte) :
    (c.dataIn m (.writeReg a) t).regs = c.regs := by
  simp only [Chip.dataIn]
  split
  · next r named =>
    simp only [Chip.writeReg, h r named]
    split <;> rfl
  · rfl

/-- R221: CONFIG has one byte, so data bytes after the first do not change it. -/
theorem Chip.dataIn_config (wf : c.regs.wf = true) (later : c.idx ≠ 0) (t : Byte) :
    (c.dataIn m (.writeReg a) t).reg .config = c.reg .config := by
  simp only [Chip.dataIn]
  split
  · next r named =>
    cases stores : r.stores with
    | some mask =>
      rw [Chip.writeReg_stores m c stores]
      split
      · have other : Memory.key ChipReg.config.home 0 ≠ Memory.key r.home c.idx := by
          simp only [Memory.key, ChipReg.home]
          omega
        simp only [Chip.reg, Memory.read_write_other wf other]
      · rfl
    | none =>
      simp only [Chip.reg, Chip.writeReg, stores]
      split <;> rfl
  · rfl

end byte

/-! ### The data bytes of a register write -/

section bytes

variable {m : RegMap} {ce : Bool} {a : RegAddr} {c : Chip} (ts : List Byte) (n : Nat)

theorem Chip.dataBytes_flags (h : chipReg m a ≠ some .status ∨ c.idx ≠ 0) :
    let d := (Chip.dataBytes m ce (.writeReg a) ts n c).2
    d.rxDr = c.rxDr ∧ d.txDs = c.txDs ∧ d.maxRt = c.maxRt := by
  induction ts generalizing n c with
  | nil => exact ⟨rfl, rfl, rfl⟩
  | cons t ts ih =>
    obtain ⟨rxDr, txDs, maxRt⟩ := Chip.dataIn_flags h t
    obtain ⟨rxDr', txDs', maxRt'⟩ := ih (c := (c.dataIn m (.writeReg a) t).rearm m ce) (n + 1)
      (.inr (by rw [Chip.rearm_idx, Chip.dataIn_eq]; exact Nat.succ_ne_zero _))
    exact ⟨by simpa [Chip.dataBytes, rxDr] using rxDr', by simpa [Chip.dataBytes, txDs] using txDs',
      by simpa [Chip.dataBytes, maxRt] using maxRt'⟩

theorem Chip.dataBytes_regs (h : ∀ r, chipReg m a = some r → r.stores = none) :
    (Chip.dataBytes m ce (.writeReg a) ts n c).2.regs = c.regs := by
  induction ts generalizing n c with
  | nil => rfl
  | cons t ts ih => rw [Chip.dataBytes, ih, Chip.rearm_regs, Chip.dataIn_regs h]

/-- R221, R232: data bytes after the first arm nothing and leave what arms. -/
theorem Chip.dataBytes_later (stable : c.rearm m ce = c) (wf : c.regs.wf = true) (later : c.idx ≠ 0) :
    let d := (Chip.dataBytes m ce (.writeReg a) ts n c).2
    d.armed = c.armed ∧ d.arms m ce = c.arms m ce := by
  induction ts generalizing n c with
  | nil => exact ⟨rfl, rfl⟩
  | cons t ts ih =>
    obtain ⟨-, -, maxRt⟩ := Chip.dataIn_flags (m := m) (a := a) (.inr later) t
    have arms : (c.dataIn m (.writeReg a) t).arms m ce = c.arms m ce :=
      Chip.arms_congr m ce (Chip.dataIn_config wf later t) (by rw [Chip.dataIn_eq]) maxRt
    have armed : (c.dataIn m (.writeReg a) t).armed = c.armed := by rw [Chip.dataIn_eq]
    have after : (c.dataIn m (.writeReg a) t).rearm m ce = c.dataIn m (.writeReg a) t := by
      rw [Chip.rearm_eq_self_iff, arms, armed]
      exact (Chip.rearm_eq_self_iff m ce).mp stable
    obtain ⟨armed', arms'⟩ := ih (n + 1) after (Chip.dataIn_wf m wf _ t)
      (by rw [Chip.dataIn_eq]; exact Nat.succ_ne_zero _)
    rw [Chip.dataBytes, after]
    exact ⟨armed'.trans armed, arms'.trans arms⟩

/-- R221, R232: over all its data bytes a register write arms as the chip stands at its end. -/
theorem Chip.dataBytes_armed (stable : c.rearm m ce = c) (wf : c.regs.wf = true) :
    let d := (Chip.dataBytes m ce (.writeReg a) ts n c).2
    d.armed = (c.armed || d.arms m ce) := by
  cases ts with
  | nil => exact (congrArg Chip.armed stable).symm.trans (Chip.rearm_armed_arms m ce c)
  | cons t ts =>
    have wf' : ((c.dataIn m (.writeReg a) t).rearm m ce).regs.wf = true := by
      rw [Chip.rearm_regs]
      exact Chip.dataIn_wf m wf _ t
    obtain ⟨armed, arms⟩ := Chip.dataBytes_later (a := a) ts (n + 1) (Chip.rearm_rearm m ce (c.dataIn m (.writeReg a) t)) wf'
      (by rw [Chip.rearm_idx, Chip.dataIn_eq]; exact Nat.succ_ne_zero _)
    have before : (c.dataIn m (.writeReg a) t).armed = c.armed := by rw [Chip.dataIn_eq]
    rw [Chip.rearm_armed_arms, before] at armed
    rw [Chip.rearm_arms] at arms
    exact armed.trans (congrArg _ arms.symm)

end bytes

/-! ### The frame -/

section frame

variable (m : RegMap) (ce : Bool) {a : RegAddr} (data : List Byte) (n : Nat) {c : Chip}

/-- The chip when the command byte of a register write has been taken. -/
theorem Chip.started_writeReg :
    let d := c.started m ce (.writeReg a)
    d.regs = c.regs ∧ d.rxDr = c.rxDr ∧ d.txDs = c.txDs ∧ d.maxRt = c.maxRt ∧ d.idx = 0 ∧ d.armed = (c.rearm m ce).armed := by
  simp only [Chip.started_eq, Chip.rearm_armed_arms]
  simp [Chip.arms, Chip.reg]

/-- R221, R225, R226: a register write leaves the FIFOs. -/
theorem Chip.frame_writeReg_fifos :
    (c.frame m ce (.writeReg a) data n).2.txFifo = c.txFifo ∧ (c.frame m ce (.writeReg a) data n).2.rxFifo = c.rxFifo := by
  rw [Chip.frame_writeReg, Chip.dataBytes_eq]
  simp [Chip.started_eq]

/-- R219, R232: the end of a frame arms as the chip stands then. -/
theorem Chip.ended_armed {d : Chip} {before : Bool} (armed : d.armed = (before || d.arms m ce)) :
    let e := ({ d with sel := false, cmd := none } : Chip).rearm m ce
    e.armed = (({ e with armed := before } : Chip).rearm m ce).armed := by
  intro e
  have cause : e.arms m ce = d.arms m ce := Chip.rearm_arms m ce _
  calc
    e.armed = (d.armed || d.arms m ce) := Chip.rearm_armed_arms m ce _
    _ = (before || d.arms m ce) := by rw [armed, Bool.or_assoc, Bool.or_self]
    _ = (before || e.arms m ce) := by rw [cause]
    _ = (({ e with armed := before } : Chip).rearm m ce).armed :=
      (Chip.rearm_armed_arms m ce { e with armed := before }).symm

/-- R232: a register write arms as the chip stands before it and at its end. -/
theorem Chip.frame_writeReg_armed (wf : c.regs.wf = true) :
    let d := (c.frame m ce (.writeReg a) data n).2
    d.armed = (({ d with armed := (c.rearm m ce).armed } : Chip).rearm m ce).armed := by
  obtain ⟨regs, -, -, -, -, armed⟩ := Chip.started_writeReg m ce (a := a) (c := c)
  have bytes := Chip.dataBytes_armed (m := m) (a := a) data n (Chip.started_stable m ce c (.writeReg a)) (regs ▸ wf)
  rw [armed] at bytes
  rw [Chip.frame_writeReg]
  exact Chip.ended_armed m ce bytes

/-- R222: a register write leaves the flags, unless data are written to STATUS. -/
theorem Chip.frame_writeReg_flags (h : chipReg m a ≠ some .status ∨ data = []) :
    let d := (c.frame m ce (.writeReg a) data n).2
    d.rxDr = c.rxDr ∧ d.txDs = c.txDs ∧ d.maxRt = c.maxRt := by
  have bytes : let d := (Chip.dataBytes m ce (.writeReg a) data n (c.started m ce (.writeReg a))).2
      d.rxDr = c.rxDr ∧ d.txDs = c.txDs ∧ d.maxRt = c.maxRt := by
    obtain ⟨-, rxDr, txDs, maxRt, -, -⟩ := Chip.started_writeReg m ce (a := a) (c := c)
    rcases h with other | rfl
    · have keeps := Chip.dataBytes_flags (ce := ce) (c := c.started m ce (.writeReg a)) data n (.inl other)
      rwa [rxDr, txDs, maxRt] at keeps
    · exact ⟨rxDr, txDs, maxRt⟩
  simpa [Chip.frame_writeReg] using bytes

/-- R221, R222: a register write to a register that stores none, or to none, leaves the register space. -/
theorem Chip.frame_writeReg_regs (h : ∀ r, chipReg m a = some r → r.stores = none) :
    (c.frame m ce (.writeReg a) data n).2.regs = c.regs := by
  rw [Chip.frame_writeReg, Chip.rearm_regs]
  obtain ⟨started, -⟩ := Chip.started_writeReg m ce (a := a) (c := c)
  exact (Chip.dataBytes_regs data n h).trans started

/-- R222: of the data written to STATUS the first byte clears flags. -/
theorem Chip.frame_writeReg_status (named : chipReg m a = some .status) (v : Byte) (vs : List Byte) :
    let d := (c.frame m ce (.writeReg a) (v :: vs) n).2
    d.rxDr = (c.rxDr && !testBit v m.bRxDr) ∧ d.txDs = (c.txDs && !testBit v m.bTxDs) ∧
      d.maxRt = (c.maxRt && !testBit v m.bMaxRt) := by
  have first : (c.started m ce (.writeReg a)).dataIn m (.writeReg a) v =
      { (c.started m ce (.writeReg a)).clearFlags m v with idx := 1 } := by
    simp [Chip.dataIn, named, Chip.writeReg_status, Chip.started_eq]
  have later := Chip.dataBytes_flags (m := m) (ce := ce) (a := a)
    (c := ((c.started m ce (.writeReg a)).dataIn m (.writeReg a) v).rearm m ce) vs (n + 1)
    (.inr (by rw [Chip.rearm_idx, first]; exact one_ne_zero))
  obtain ⟨-, rxDr, txDs, maxRt, -, -⟩ := Chip.started_writeReg m ce (a := a) (c := c)
  simpa [Chip.frame_writeReg, Chip.dataBytes, first, Chip.clearFlags, rxDr, txDs, maxRt] using later

end frame

/-- Settles O47: clause by clause, by what each data byte does to the register space and to the flags. -/
theorem writeRegisterFrameStoresDefinedBits : Obligations.WriteRegisterFrameStoresDefinedBits := by
  refine ⟨rfl, fun _ => rfl, rfl, rfl, rfl, fun a data s wf => ?_⟩
  obtain ⟨sel, gap⟩ := Chip.frame_writeReg_idle s.cfg.regMap s.chipCe a data s.draws s.chip
  obtain ⟨t, h⟩ := State.clocked gap
  obtain ⟨txFifo, rxFifo⟩ := Chip.frame_writeReg_fifos s.cfg.regMap s.chipCe (a := a) data s.draws (c := s.chip)
  have flags := Chip.frame_writeReg_flags s.cfg.regMap s.chipCe (a := a) data s.draws (c := s.chip)
  have regs := Chip.frame_writeReg_regs s.cfg.regMap s.chipCe (a := a) data s.draws (c := s.chip)
  have armed := Chip.frame_writeReg_armed s.cfg.regMap s.chipCe (a := a) data s.draws wf
  have wf' := Chip.frame_writeReg_wf s.cfg.regMap s.chipCe wf a data s.draws
  rw [← h.chip] at txFifo rxFifo flags regs armed wf'
  have quiet (ignored : ∀ r, chipReg s.cfg.regMap a = some r → r.stores = none)
      (unread : chipReg s.cfg.regMap a ≠ some .status ∨ data = []) :
      t.chip.regs = s.chip.regs ∧ t.chip.rxDr = s.chip.rxDr ∧ t.chip.txDs = s.chip.txDs ∧ t.chip.maxRt = s.chip.maxRt :=
    ⟨regs ignored, flags unread⟩
  refine ⟨t, h.run, h.rest, txFifo, rxFifo, h.sel, wf', armed, h.out_length, h.out_status, fun r mask named stores => ?_,
    fun v vs named sent => ?_, fun named empty => ?_, fun readOnly => ?_⟩
  · obtain ⟨rxDr, txDs, maxRt⟩ := flags (.inl (by rw [named]; rintro ⟨⟩; cases stores))
    refine ⟨rxDr, txDs, maxRt, fun k => ?_⟩
    rw [h.chip]
    exact Chip.frame_writeReg_read _ _ named stores wf _ _ _
  · subst sent
    refine ⟨regs (fun r other => ?_), ?_⟩
    · cases named.symm.trans other
      rfl
    · rw [h.chip]
      exact Chip.frame_writeReg_status _ _ _ named v vs
  · refine quiet (fun r other => ?_) (.inr empty)
    cases named.symm.trans other
    rfl
  · refine quiet (fun r named => ?_) (.inl fun named => ?_)
    · rcases readOnly with h | h | h | h <;> cases named.symm.trans h <;> rfl
    · rcases readOnly with h | h | h | h <;> cases named.symm.trans h

end Sys2Proof.Machine
end

