-- ==== Sys2Proof/Proofs/ChipEnvironment.lean ====
section
/-! PROOF. The reference chip's computed registers (R223, R224) and what the air does to it (R232 to R234). -/

namespace Sys2Proof.Machine

open Sys2Proof

/-! ### The computed registers (R223, R224) -/

theorem bitIf_getLsbD (f : Bool) {b : Nat} (hb : b < 8) (k : Nat) : (bitIf f b).getLsbD k = (f && decide (k = b)) := by
  cases f with
  | false => simp [bitIf]
  | true =>
    have power : bit b = BitVec.twoPow 8 b := rfl
    rw [bitIf, if_pos rfl, power, BitVec.getLsbD_twoPow]
    simp [hb, eq_comm]

/-- R224: the pipe of the oldest payload, or 7. -/
theorem Chip.pipeField_toNat (c : Chip) : c.pipeField.toNat = c.rxFifo.head?.elim 7 fun e => e.1.val := by
  unfold Chip.pipeField
  cases c.rxFifo with
  | nil => rfl
  | cons e rest => exact Nat.mod_eq_of_lt (by omega)

/-- R224: the field has three bits. -/
theorem Chip.pipeField_lt (c : Chip) : c.pipeField.toNat < 2 ^ 3 := by
  rw [Chip.pipeField_toNat]
  cases c.rxFifo.head? with
  | none => decide
  | some e => exact e.1.isLt.trans (by decide)

theorem Chip.pipeField_getLsbD (c : Chip) {k : Nat} (hk : 3 ≤ k) : c.pipeField.getLsbD k = false :=
  Nat.testBit_lt_two_pow (c.pipeField_lt.trans_le (Nat.pow_le_pow_right (by decide) hk))

/-- R224: STATUS bit by bit, with the positions of R6. -/
theorem Chip.statusByte_getLsbD (c : Chip) (k : Nat) :
    (c.statusByte RegMap.standard).getLsbD k =
      (c.rxDr && decide (k = 6) || c.txDs && decide (k = 5) || c.maxRt && decide (k = 4) ||
        (decide (1 ≤ k ∧ k < 4) && c.pipeField.getLsbD (k - 1)) ||
        decide (Config.fifoDepth ≤ c.txFifo.length) && decide (k = 0)) := by
  have field : (c.pipeField <<< 1).getLsbD k = (decide (1 ≤ k ∧ k < 4) && c.pipeField.getLsbD (k - 1)) := by
    rw [BitVec.getLsbD_shiftLeft]
    by_cases low : k < 4
    · simp [low, show k < 8 by omega, Nat.one_le_iff_ne_zero]
    · simp [low, c.pipeField_getLsbD (k := k - 1) (by omega)]
  simp [Chip.statusByte, RegMap.standard, bitIf_getLsbD, field]

/-- R223: FIFO_STATUS bit by bit, with the positions of R6. -/
theorem Chip.fifoByte_getLsbD (c : Chip) (k : Nat) :
    (c.fifoByte RegMap.standard).getLsbD k =
      (c.rxFifo.isEmpty && decide (k = 0) || decide (Config.fifoDepth ≤ c.rxFifo.length) && decide (k = 1) ||
        c.txFifo.isEmpty && decide (k = 4) || decide (Config.fifoDepth ≤ c.txFifo.length) && decide (k = 5)) := by
  simp [Chip.fifoByte, RegMap.standard, bitIf_getLsbD]

/-- R224: bits 3 to 1 of STATUS are the pipe field. -/
theorem Chip.statusByte_field (c : Chip) : c.statusByte RegMap.standard >>> 1 &&& 7 = c.pipeField := by
  refine BitVec.eq_of_getLsbD_eq fun k hk => ?_
  have seven : (7 : Byte).getLsbD k = decide (k < 3) := by interval_cases k <;> rfl
  rw [BitVec.getLsbD_and, BitVec.getLsbD_ushiftRight, Chip.statusByte_getLsbD, seven]
  by_cases low : k < 3
  · simp [low, Nat.add_comm 1, show k + 1 < 4 ∧ k + 1 ≠ 6 ∧ k + 1 ≠ 5 ∧ k + 1 ≠ 4 by omega]
  · simp [low, c.pipeField_getLsbD (Nat.le_of_not_lt low)]

/-- Settles O50: the bits of each byte are those of its parts, and only the pipe field is wider than one bit. -/
theorem statusBytesShowFlagsAndFifos : Obligations.StatusBytesShowFlagsAndFifos := by
  intro c tx rx st fs
  have full {n : Nat} (h : n ≤ 3) : decide (Config.fifoDepth ≤ n) = decide (n = 3) :=
    decide_eq_decide.mpr ⟨fun h' => Nat.le_antisymm h h', fun h' => h'.ge⟩
  have empty {α : Type} (l : List α) : l.isEmpty = decide (l = []) := by cases l <;> rfl
  have status := c.statusByte_getLsbD
  have fifos := c.fifoByte_getLsbD
  refine ⟨⟨(status 7).trans (by simp), (status 6).trans (by simp), (status 5).trans (by simp), (status 4).trans (by simp), ?_,
    (status 0).trans (by simp [full tx])⟩, (fifos 0).trans (by simp [empty]), (fifos 1).trans (by simp [full rx]),
    (fifos 4).trans (by simp [empty]), (fifos 5).trans (by simp [full tx]), (fifos 2).trans (by simp),
    (fifos 3).trans (by simp), (fifos 6).trans (by simp), (fifos 7).trans (by simp)⟩
  simp only [st, c.statusByte_field, c.pipeField_toNat]
  cases c.rxFifo.head? <;> rfl

/-! ### The air (R232 to R234) -/

section air

variable (m : RegMap) (ce : Bool) (c : Chip)

/-- The conditions of R234 and R62 on an arrival. -/
def Chip.Takes (p : Fin 6) (payload : List Byte) : Prop :=
  (c.reg .config).getLsbD m.bPwrUp = true ∧ (c.reg .config).getLsbD m.bPrimRx = true ∧ ce = true ∧
    c.rxFifo.length < Config.fifoDepth ∧ (c.reg .enRxaddr).getLsbD p.val = true ∧ c.reg (.rxPw p) ≠ 0 ∧
    payload.length = (c.reg (.rxPw p)).toNat ∧ payload.length ≤ Config.maxPayload

variable {m ce c} {p : Fin 6} {payload : List Byte}

theorem Chip.arrive_taken (h : c.Takes m ce p payload) :
    c.arrive m ce p payload = { c with rxFifo := c.rxFifo ++ [(p, payload)], rxDr := true } := by
  refine if_pos ?_
  simpa [Chip.Takes, testBit, and_assoc] using h

theorem Chip.arrive_refused (h : ¬ c.Takes m ce p payload) : c.arrive m ce p payload = c := by
  refine if_neg ?_
  simpa [Chip.Takes, testBit, and_assoc] using h

/-- R232: a powered-up receiver does not arm. -/
theorem Chip.rearm_receiver (receiver : testBit (c.reg .config) m.bPrimRx = true) : c.rearm m ce = c := by
  simp [Chip.rearm, receiver]

/-- R232: nor does a chip that has given up. -/
theorem Chip.rearm_maxRt_set (gaveUp : c.maxRt = true) : c.rearm m ce = c := by
  simp [Chip.rearm, gaveUp]

end air

/-- Settles O51: event by event; what an event leaves may arm, except where `MAX_RT` or the receiver's mode stands against it. -/
theorem airActsOnlyWhenEnabled : Obligations.AirActsOnlyWhenEnabled := by
  intro m ce c
  refine ⟨fun idle e he => ?_, fun armed => ⟨?_, ?_⟩, fun p payload => ⟨fun h => ?_, fun h => ?_⟩, ?_, Chip.rearm_eq m ce c⟩
  · rcases he with rfl | rfl <;> simp [Chip.air, idle]
  · simp [Chip.air, armed]
  · rw [Chip.air, if_pos armed]
    exact Chip.rearm_maxRt_set rfl
  · rw [Chip.air, Chip.arrive_taken h]
    obtain ⟨-, receiver, -⟩ := h
    exact Chip.rearm_receiver receiver
  · rw [Chip.air, Chip.arrive_refused h]
  · rw [Chip.rearm_armed]
    simp [testBit, and_assoc]

end Sys2Proof.Machine
end

