-- ==== Sys2Proof/Proofs/ChipLimits.lean ====
section
/-! PROOF. The limits of the reference chip (R216, R62): every operation of the chip keeps them, and so does every step. -/

namespace Sys2Proof.Machine

open Sys2Proof

/-! ### The chip's operations -/

section chip

variable (m : RegMap) (ce : Bool) {c : Chip}

/-- The limits concern the register space and the two FIFOs. -/
theorem Chip.Sound.congr {d : Chip} (h : c.Sound) (regs : d.regs = c.regs) (txFifo : d.txFifo = c.txFifo)
    (rxFifo : d.rxFifo = c.rxFifo) : d.Sound := by
  rwa [Chip.Sound, regs, txFifo, rxFifo]

theorem Chip.Sound.wf (h : c.Sound) : c.regs.wf = true := h.1

theorem Chip.Sound.rearm (h : c.Sound) : (c.rearm m ce).Sound := h.congr (by simp) (by simp) (by simp)

theorem Chip.Sound.select (h : c.Sound) : (c.select m).Sound := h.congr rfl rfl rfl

/-- R227: an empty TX FIFO is within its limits. -/
theorem Chip.Sound.noTx (h : c.Sound) : ({ c with txFifo := [] } : Chip).Sound := by
  obtain ⟨wf, -, rx, -, rxBytes⟩ := h
  exact ⟨wf, Nat.zero_le _, rx, List.forall_mem_nil _, rxBytes⟩

/-- R228: so is an empty RX FIFO. -/
theorem Chip.Sound.noRx (h : c.Sound) : ({ c with rxFifo := [] } : Chip).Sound := by
  obtain ⟨wf, tx, -, txBytes, -⟩ := h
  exact ⟨wf, tx, Nat.zero_le _, txBytes, List.forall_mem_nil _⟩

/-- R233: a TX FIFO without its oldest payload. -/
theorem Chip.Sound.tailTx (h : c.Sound) : ({ c with txFifo := c.txFifo.tail } : Chip).Sound := by
  obtain ⟨wf, tx, rx, txBytes, rxBytes⟩ := h
  refine ⟨wf, ?_, rx, fun p hp => txBytes p (List.mem_of_mem_tail hp), rxBytes⟩
  exact (List.tail_sublist _).length_le.trans tx

/-- R226: an RX FIFO without its oldest payload. -/
theorem Chip.Sound.tailRx (h : c.Sound) : ({ c with rxFifo := c.rxFifo.tail } : Chip).Sound := by
  obtain ⟨wf, tx, rx, txBytes, rxBytes⟩ := h
  refine ⟨wf, tx, ?_, txBytes, fun e he => rxBytes e (List.mem_of_mem_tail he)⟩
  exact (List.tail_sublist _).length_le.trans rx

theorem Chip.Sound.command (h : c.Sound) (op : WireOp) : (c.command op).Sound := by
  cases op with
  | flushTx => exact h.noTx.congr rfl rfl rfl
  | flushRx => exact h.noRx.congr rfl rfl rfl
  | readReg | writeReg | readPayload | writePayload => exact h.congr rfl rfl rfl

theorem Chip.Sound.dataIn (h : c.Sound) (op : WireOp) (t : Byte) : (c.dataIn m op t).Sound := by
  have wf := Chip.dataIn_wf m h.wf op t
  obtain ⟨-, fifos⟩ := h
  rw [Chip.dataIn_eq]
  exact ⟨wf, fifos⟩

theorem Chip.Sound.dataBytes (h : c.Sound) (op : WireOp) (ts : List Byte) (n : Nat) :
    (Chip.dataBytes m ce op ts n c).2.Sound := by
  have wf := Chip.dataBytes_wf m ce h.wf op ts n
  obtain ⟨-, fifos⟩ := h
  rw [Chip.dataBytes_eq]
  exact ⟨wf, fifos⟩

/-- R225: a payload is appended only with room and at a length of 1 to 32 bytes. -/
theorem Chip.Sound.commitPayload (h : c.Sound) : c.commitPayload.Sound := by
  unfold Chip.commitPayload
  split
  · exact h.congr rfl rfl rfl
  · next room =>
    split
    · exact h.congr rfl rfl rfl
    · next length =>
      obtain ⟨wf, -, rx, txBytes, rxBytes⟩ := h
      refine ⟨wf, ?_, rx, List.forall_mem_append.mpr ⟨txBytes, List.forall_mem_singleton.mpr ?_⟩, rxBytes⟩
      · simpa using room
      · omega

theorem Chip.Sound.deselect (h : c.Sound) : c.deselect.Sound := by
  unfold Chip.deselect
  split
  · exact h.commitPayload.congr rfl rfl rfl
  · exact h.tailRx.congr rfl rfl rfl
  all_goals exact h.congr rfl rfl rfl

theorem Chip.Sound.frame (h : c.Sound) (op : WireOp) (data : List Byte) (n : Nat) : (c.frame m ce op data n).2.Sound := by
  have opened : ({ c with gap := none } : Chip).Sound := h.congr rfl rfl rfl
  exact ((((opened.select m).command op).rearm m ce).dataBytes m ce op data n).deselect.rearm m ce

theorem Chip.Sound.exchange (h : c.Sound) (t free : Byte) : (c.exchange m t free).2.Sound := by
  unfold Chip.exchange
  split
  · exact h
  · split
    · split
      · exact h.command _
      · exact h.congr rfl rfl rfl
    · exact h.dataIn m _ t

theorem Chip.Sound.followPins (h : c.Sound) (csn : Bool) : (c.followPins m csn ce).Sound := by
  refine Chip.Sound.rearm m ce ?_
  split <;> split
  · exact h.deselect
  · exact h
  · exact h
  · exact h.select m

/-- R234: a packet is taken only with room and at a length of 1 to 32 bytes. -/
theorem Chip.Sound.arrive (h : c.Sound) (p : Fin 6) (payload : List Byte) : (c.arrive m ce p payload).Sound := by
  by_cases taken : c.Takes m ce p payload
  · rw [Chip.arrive_taken taken]
    obtain ⟨-, -, -, room, -, size, length, short⟩ := taken
    obtain ⟨wf, tx, -, txBytes, rxBytes⟩ := h
    have nonempty : 1 ≤ payload.length := by
      rw [length]
      exact Nat.pos_of_ne_zero fun zero => size (BitVec.eq_of_toNat_eq zero)
    refine ⟨wf, tx, ?_, txBytes, List.forall_mem_append.mpr ⟨rxBytes, List.forall_mem_singleton.mpr ⟨nonempty, short⟩⟩⟩
    simpa using room
  · rwa [Chip.arrive_refused taken]

theorem Chip.Sound.air (h : c.Sound) (e : AirEvent) : (c.air m ce e).Sound := by
  refine Chip.Sound.rearm m ce ?_
  cases e with
  | sent =>
    dsimp only
    split
    · exact h.tailTx.congr rfl rfl rfl
    · exact h
  | gaveUp =>
    dsimp only
    split
    · exact h.congr rfl rfl rfl
    · exact h
  | arrived p payload => exact h.arrive m ce p payload

/-- U10: a chip cut to the limits of R216 is within them. -/
theorem Chip.withinLimits_sound (c : Chip) : c.withinLimits.Sound := by
  refine ⟨Memory.wf_ofCells _, List.length_take_le _ _, List.length_take_le _ _, fun p hp => ?_, fun e he => ?_⟩
  · obtain ⟨cut, nonempty⟩ := List.mem_filter.mp (List.mem_of_mem_take hp)
    obtain ⟨old, -, rfl⟩ := List.mem_map.mp cut
    exact ⟨List.length_pos_iff.mpr (by simpa using nonempty), List.length_take_le _ _⟩
  · obtain ⟨cut, nonempty⟩ := List.mem_filter.mp (List.mem_of_mem_take he)
    obtain ⟨old, -, rfl⟩ := List.mem_map.mp cut
    exact ⟨List.length_pos_iff.mpr (by simpa using nonempty), List.length_take_le _ _⟩

end chip

/-! ### The machine -/

theorem State.chipNow_sound {s : State} (h : s.chip.Sound) : s.chipNow.Sound := by
  unfold State.chipNow
  split
  · exact h
  · exact h.followPins _ _ _

theorem State.chipAfter_sound {s : State} (h : s.chip.Sound) (t : Byte) : (s.chipAfter t).Sound := by
  unfold State.chipAfter
  split
  · exact h
  · exact ((State.chipNow_sound h).exchange _ t _).rearm _ _

theorem State.followPins_sound {s : State} (h : s.chip.Sound) : s.followPins.chip.Sound := by
  unfold State.followPins
  split
  · exact h
  · exact h.followPins _ _ _

/-- Every part of the sequencer keeps the chip within its limits. -/
theorem kept_chipSound : Kept fun s => s.chip.Sound where
  micro s m h := by
    cases m with
    | dir l => exact State.followPins_sound h
    | lvl l v => exact State.followPins_sound h
    | xfer src keep => exact State.chipAfter_sound h _
    | spiInit | delayUs | delayMs => exact h
  transfer s t h := by rwa [State.transfer_chip]
  complete s f h := h
  todo s is h := h
  tail s t h := h
  budget s b h := h

/-- R233, R234: so does the air, whatever it does before a step. -/
theorem State.takeTurn_chipSound {s : State} (h : s.chip.Sound) : s.takeTurn.chip.Sound := by
  have airs (es : List AirEvent) (c : Chip) (hc : c.Sound) :
      (es.foldl (fun c e => c.air s.cfg.regMap s.chipCe e) c).Sound := by
    induction es generalizing c with
    | nil => exact hc
    | cons e es ih => exact ih _ (hc.air _ _ e)
  exact airs _ _ h

theorem State.begin_chip (c : HostCmd) (s : State) : (s.begin c).chip = s.chip := by
  unfold State.begin State.take State.taken
  split <;> split <;> rfl

/-- R53, R282, U10: `rst` keeps the chip, or puts an arbitrary one within the limits in its place. -/
theorem State.resetBlock_chip_cases (s : State) :
    s.resetBlock.chip = s.chip ∨ s.resetBlock.chip = (Config.freeChip s.draws).withinLimits := by
  by_cases kept : s.far = .free ∨ s.chip.sel = false
  · exact .inl (State.resetBlock_chip kept)
  · obtain ⟨far, sel⟩ := not_or.mp kept
    cases hf : s.far with
    | free => exact absurd hf far
    | refChip => exact .inr (by simp [State.resetBlock, hf, sel])

/-- R53, U10: `rst` leaves the chip, or nothing is known of it but the limits. -/
theorem State.resetBlock_chipSound {s : State} (h : s.chip.Sound) : s.resetBlock.chip.Sound := by
  rcases State.resetBlock_chip_cases s with kept | cut
  · rwa [kept]
  · rw [cut]
    exact Chip.withinLimits_sound _

theorem State.wireFrame_chipSound {s t : State} (h : s.chip.Sound) {op : WireOp} {data : List Byte}
    (run : s.wireFrame op data = .next t) : t.chip.Sound := by
  cases gap : (s.chip.frame s.cfg.regMap s.chipCe op data s.draws).2.gap with
  | none =>
    rw [State.wireFrame_next gap] at run
    cases run
    exact h.frame _ _ op data _
  | some g =>
    rw [State.wireFrame_refused gap] at run
    cases run

/-- Settles O55: a step resets the block, goes on, begins a command, takes a bench's frame, or waits; each keeps the limits. -/
theorem everyStepKeepsTheChipWithinItsLimits : Obligations.EveryStepKeepsTheChipWithinItsLimits := by
  intro s t h run
  have moved := State.takeTurn_chipSound h
  by_cases rst : s.takeTurn.inp.rst = true
  · rw [step_reset rst] at run
    cases run
    exact State.resetBlock_chipSound moved
  · rcases clockEdge_cases (Bool.eq_false_iff.mpr rst) run with ⟨-, rfl⟩ | ⟨-, c, -, rfl⟩ | ⟨-, op, data, frame⟩ | ⟨-, rfl⟩
    · exact kept_chipSound.advance moved
    · exact kept_chipSound.advance (by rwa [State.begin_chip])
    · exact State.wireFrame_chipSound moved frame
    · exact moved

end Sys2Proof.Machine
end

section
/-! PROOF. What every step keeps of the block (R250, R303 I1, I7): the reserved kinds never appear, and the drivers and the master
stay on once set, since an initialisation sets them before `init_done`. -/

namespace Sys2Proof.Machine

open Sys2Proof

/-! ### The response registers (R250) -/

/-- R250, U13: code 7 is reserved. -/
theorem Kind.code_ne_seven (k : Kind) : k.code ≠ 7 := by cases k <;> decide

/-- R250: a kind has one of the sticky bits 2 to 6, or none. -/
theorem Kind.sticky_reserved (k : Kind) : k.sticky &&& 0x83 = 0 := by cases k <;> decide

theorem Response.Sound.raise {r : Response} (h : r.Sound) (k : Kind) : (r.raise k).Sound := by
  have bits : (r.sticky ||| k.sticky) &&& 0x83 = (r.sticky &&& 0x83) ||| (k.sticky &&& 0x83) := BitVec.and_or_distrib_right
  refine ⟨k.code_ne_seven, bits.trans ?_⟩
  rw [h.2, k.sticky_reserved]
  rfl

/-- R202, R255, R256: a link write ends with `HardwareTimeout`, `MaxRetransmit` or no kind at all. -/
theorem Response.Sound.linkResult {r : Response} (h : r.Sound) (c : Control) : (r.linkResult c).Sound := by
  unfold Response.linkResult
  split
  · exact h.raise .hardwareTimeout
  · refine ⟨?_, h.2⟩
    cases c.failed with
    | true => exact Kind.maxRetransmit.code_ne_seven
    | false => exact Kind.none.code_ne_seven

theorem Response.Sound.finish {r : Response} (h : r.Sound) (f : Finish) (c : Control) : (r.finish f c).Sound := by
  cases f with
  | fault k => exact h.raise k
  | link => exact h.linkResult c
  | plain | byteRead | bufRead | regRead | bitSet | bitClear | noData => exact ⟨by simp [Response.finish, Response.succeed], h.2⟩

/-- Only a completion writes the response registers (R33). -/
theorem kept_rspSound : Kept fun s => s.rsp.Sound where
  micro s m h := by rwa [State.micro_rsp]
  transfer s t h := by rwa [State.transfer_rsp]
  complete s f h := h.finish f s.ctl
  todo s is h := h
  tail s t h := h
  budget s b h := h

/-! ### What is set once (R303 I1, I7) -/

/-- `init_done`, `spi_en` and the two directions. -/
def State.drivers (s : State) : Bool × Bool × Bool × Bool :=
  (s.handle.initDone, s.spi.en, s.lines.ceDir, s.lines.csnDir)

theorem State.micro_drivers (s : State) (m : MicroOp) :
    (s.micro m).drivers = (s.handle.initDone, s.spi.en || decide (m = .spiInit), s.lines.ceDir || decide (m = .dir .ce),
      s.lines.csnDir || decide (m = .dir .csn)) := by
  cases m with
  | dir l => cases l <;> simp [State.drivers, State.micro, Lines.setOut]
  | lvl l v => cases l <;> simp [State.drivers, State.micro, Lines.setLvl]
  | spiInit => simp [State.drivers, State.micro, State.spiInit]
  | xfer src keep => simp [State.drivers, State.micro, State.xfer, Spi.exchange_eq]
  | delayUs | delayMs => simp [State.drivers, State.micro]

theorem State.transfer_drivers (s : State) (t : Transfer) :
    (s.transfer t).drivers =
      (s.handle.initDone || decide (t = .initDone), s.spi.en, s.lines.ceDir, s.lines.csnDir) := by
  cases t <;> simp [State.drivers, State.transfer]

/-- No part of the sequencer takes one of these bits back. -/
theorem kept_drivers (d : Bool × Bool × Bool × Bool) : Kept fun s => d ≤ s.drivers where
  micro s m h := by
    refine h.trans ?_
    rw [State.micro_drivers]
    exact ⟨le_rfl, Bool.left_le_or _ _, Bool.left_le_or _ _, Bool.left_le_or _ _⟩
  transfer s t h := by
    refine h.trans ?_
    rw [State.transfer_drivers]
    exact ⟨Bool.left_le_or _ _, le_rfl, le_rfl, le_rfl⟩
  complete s f h := h
  todo s is h := h
  tail s t h := h
  budget s b h := h

/-! ### Sequences that drive before they initialise -/

section initReady

variable (ce csn en : Bool)

theorem initReady_set (t : Transfer) (is : List Item) :
    initReady ce csn en (.set t :: is) = ((decide (t ≠ .initDone) || (ce && csn && en)) && initReady ce csn en is) := by
  cases t <;> simp [initReady]

theorem initReady_op (m : MicroOp) (is : List Item) :
    initReady ce csn en (.op m :: is) =
      initReady (ce || decide (m = .dir .ce)) (csn || decide (m = .dir .csn)) (en || decide (m = .spiInit)) is := by
  cases m with
  | dir l => cases l <;> simp [initReady]
  | lvl | spiInit | xfer | delayUs | delayMs => simp [initReady]

variable {ce csn en}

/-- Items that write nothing of what an initialisation sets may be performed whatever the drivers are. -/
theorem initReady_of_writes {is : List Item} (h : .identity ∉ writes is) : initReady ce csn en is = true := by
  induction is generalizing ce csn en with
  | nil => rfl
  | cons i is ih =>
    obtain ⟨first, rest⟩ : i.writes ≠ some .identity ∧ .identity ∉ writes is := by simpa using h
    cases i with
    | op m => exact (initReady_op ..).trans (ih rest)
    | set t =>
      have other : t ≠ .initDone := by
        rintro rfl
        exact first rfl
      rw [initReady_set, decide_eq_true other, Bool.true_or, Bool.true_and]
      exact ih rest

/-- So they may follow any sequence. -/
theorem initReady_append {a b : List Item} (ha : initReady ce csn en a = true) (hb : .identity ∉ writes b) :
    initReady ce csn en (a ++ b) = true := by
  induction a generalizing ce csn en with
  | nil => exact initReady_of_writes hb
  | cons i a ih =>
    cases i with
    | op m =>
      rw [initReady_op] at ha
      exact (initReady_op ..).trans (ih ha)
    | set t =>
      rw [initReady_set, Bool.and_eq_true] at ha
      rw [List.cons_append, initReady_set, ha.1, Bool.true_and]
      exact ih ha.2

/-- R167: the directions and the master come first, `init_done` last. -/
theorem initReady_init (m : RegMap) (a b : Byte) : initReady ce csn en (initItems m a b) = true := rfl

theorem initReady_radioInit (m : RegMap) (a b : Byte) : initReady ce csn en (radioInitItems m a b) = true := by
  simp only [radioInitItems, List.append_assoc]
  exact initReady_append (initReady_init m a b) (by simp [setRfItems, setChItems, clrStatusItems, setPwItems, setRetrItems])

/-- Every operation may begin whatever the drivers are. -/
theorem jobOf_initReady (en' : Bool) (hd : Handle) (m : RegMap) (i : Instr) :
    initReady ce csn en (jobOf en' hd m i).items = true := by
  by_cases init : .identity ∈ owns i
  · cases i with
    | nrfInit a b => exact initReady_init m a b
    | radioInit a b => exact initReady_radioInit m a b
    | _ => exact absurd init (identity_notMem_owns fun a b => ⟨nofun, nofun⟩)
  · exact initReady_of_writes fun h => init (jobOf_writes _ _ _ i h)

end initReady

/-! ### The sequencer -/

/-- `Driven`, now and after these items. -/
def DrivenThrough (is : List Item) (s : State) : Prop :=
  s.Driven ∧ initReady s.lines.ceDir s.lines.csnDir s.spi.en is = true

theorem DrivenThrough.micro {m : MicroOp} {is : List Item} {s : State} (h : DrivenThrough (.op m :: is) s) :
    DrivenThrough is (s.micro m) := by
  obtain ⟨driven, ready⟩ := h
  have after := s.micro_drivers m
  simp only [State.drivers, Prod.mk.injEq] at after
  obtain ⟨init, en, ce, csn⟩ := after
  rw [DrivenThrough, State.Driven, init, en, ce, csn]
  rw [initReady_op] at ready
  exact ⟨fun done => by simp [driven done], ready⟩

theorem DrivenThrough.transfer {t : Transfer} {is : List Item} {s : State} (h : DrivenThrough (.set t :: is) s) :
    DrivenThrough is (s.transfer t) := by
  obtain ⟨driven, ready⟩ := h
  have after := s.transfer_drivers t
  simp only [State.drivers, Prod.mk.injEq] at after
  obtain ⟨init, en, ce, csn⟩ := after
  rw [initReady_set, Bool.and_eq_true] at ready
  rw [DrivenThrough, State.Driven, init, en, ce, csn]
  refine ⟨fun done => ?_, ready.2⟩
  by_cases sets : t = .initDone
  · simpa [sets, and_assoc] using ready.1
  · exact driven (by simpa [sets] using done)

theorem DrivenThrough.runItems {is : List Item} {s : State} (h : DrivenThrough is s) :
    DrivenThrough (s.runItems is).ctl.todo (s.runItems is) := by
  induction is generalizing s with
  | nil => exact h
  | cons i is ih =>
    cases i with
    | set t => exact ih h.transfer
    | op m =>
      rcases budget : s.budget with - | - | k
      · rw [State.runItems_op_none budget]
        exact ih h.micro
      · rw [State.runItems_op_zero budget]
        exact h
      · rw [State.runItems_op_succ budget]
        exact ih (DrivenThrough.micro (s := s.withBudget (some k)) h)

/-- The items still to be performed keep the block driven. -/
def State.DrivenOn (s : State) : Prop := DrivenThrough s.ctl.todo s

theorem State.DrivenOn.tryComplete {s : State} (h : s.DrivenOn) (f : Finish) : (s.tryComplete f).DrivenOn := by
  rcases budget : s.budget with - | - | k
  · rw [State.tryComplete_all budget]
    exact ⟨h.1, rfl⟩
  · rwa [State.tryComplete_zero budget]
  · rw [State.tryComplete_succ budget]
    exact ⟨h.1, rfl⟩

theorem State.Driven.runToEnd {s : State} (h : s.Driven) {is : List Item} (hi : .identity ∉ writes is) (f : Finish) :
    (s.runToEnd is f).DrivenOn := by
  have run : ((s.withTail (.finish f)).runItems is).DrivenOn := DrivenThrough.runItems ⟨h, initReady_of_writes hi⟩
  rw [State.runToEnd_eq]
  split
  · exact run.tryComplete f
  · exact run

theorem State.Driven.pollAgain {s : State} (h : s.Driven) : s.pollAgain.DrivenOn := by
  have delay : s.pollDelay.DrivenOn := DrivenThrough.runItems (s := s.withTail .pollBranch) ⟨h, rfl⟩
  rw [State.pollAgain_eq]
  exact ⟨delay.1, initReady_append delay.2 (by simp)⟩

/-- R202, R203: the operation completes, a branch performs its items and completes, or the next poll is waited for. -/
theorem State.runTail_cases (s : State) :
    (∃ f, s.runTail = s.tryComplete f) ∨
    (∃ is f, s.runTail = s.runToEnd is f ∧ (is = [] ∨ (∃ n, is = rdPlItems n) ∨ s.pollExit = some is)) ∨
    (s.ctl.tail = .pollBranch ∧ s.runTail = s.pollAgain) := by
  cases tail : s.ctl.tail with
  | finish f => exact .inl ⟨f, State.runTail_finish tail⟩
  | readBranch n =>
    cases empty : fifoRxEmpty s.cfg.regMap s.ctl.t with
    | true => exact .inr (.inl ⟨_, _, State.runTail_noData tail empty, .inl rfl⟩)
    | false => exact .inr (.inl ⟨_, _, State.runTail_data tail empty, .inr (.inl ⟨n, rfl⟩)⟩)
  | pollBranch =>
    cases exit : s.pollExit with
    | some is => exact .inr (.inl ⟨is, _, State.runTail_pollExit tail exit, .inr (.inr rfl)⟩)
    | none => exact .inr (.inr ⟨rfl, State.runTail_pollAgain tail exit⟩)

/-- No branch initialises. -/
theorem State.DrivenOn.runTail {s : State} (h : s.DrivenOn) : s.runTail.DrivenOn := by
  rcases s.runTail_cases with ⟨f, run⟩ | ⟨is, f, run, rfl | ⟨n, rfl⟩ | exit⟩ | ⟨-, run⟩ <;> rw [run]
  · exact h.tryComplete f
  · exact h.1.runToEnd List.not_mem_nil f
  · exact h.1.runToEnd (by simp) f
  · exact h.1.runToEnd (by simp [writes_pollExit exit]) f
  · exact h.1.pollAgain

theorem State.DrivenOn.advance {s : State} (h : s.DrivenOn) : s.advance.DrivenOn := by
  have run := DrivenThrough.runItems h
  rw [State.advance_eq]
  split
  · exact State.DrivenOn.runTail run
  · exact run

/-! ### The step -/

/-- R97: a command begun either ends with a fault, or its operation's sequence is taken up. -/
theorem State.begin_cases (c : HostCmd) (s : State) :
    (∃ k, s.begin c = (s.accept (.host c)).load [] (.finish (.fault k))) ∨
    ∃ i, (jobOf s.spi.en s.handle s.cfg.regMap i).check = none ∧
      s.begin c = (s.accept (.host c)).load (jobOf s.spi.en s.handle s.cfg.regMap i).items
        (jobOf s.spi.en s.handle s.cfg.regMap i).tail := by
  rcases decodeHost_cases c with hc | ⟨i, -, hc⟩
  · exact .inl ⟨_, State.begin_illegalOp hc s⟩
  · rw [State.begin_instr hc]
    cases check : (jobOf s.spi.en s.handle s.cfg.regMap i).check with
    | some k => exact .inl ⟨k, State.take_fault check _⟩
    | none => exact .inr ⟨i, check, State.take_items check _⟩

/-- R97: what a command begun has to do keeps the block driven. -/
theorem State.Driven.begin {s : State} (h : s.Driven) (c : HostCmd) : (s.begin c).DrivenOn := by
  rcases State.begin_cases c s with ⟨k, fault⟩ | ⟨i, -, loaded⟩
  · rw [fault]
    exact ⟨h, rfl⟩
  · rw [loaded]
    exact ⟨h, jobOf_initReady _ _ _ i⟩

theorem clockEdge_staysDriven {s t : State} (rst : s.inp.rst = false) (h : s.StaysDriven) (run : clockEdge s = .next t) :
    t.StaysDriven := by
  have settled {u : State} (on : u.DrivenOn) : u.StaysDriven := ⟨on.1, fun _ => on.2⟩
  rcases clockEdge_cases rst run with ⟨busy, rfl⟩ | ⟨-, c, -, rfl⟩ | ⟨-, op, data, frame⟩ | ⟨-, rfl⟩
  · exact settled (State.DrivenOn.advance ⟨h.1, h.2 busy⟩)
  · exact settled (h.1.begin c).advance
  · obtain ⟨chip, wireOut, draws, rfl⟩ := State.wireFrame_changes frame
    exact h
  · exact h

/-- A property of the handle, the lines, the master and the response registers that the sequencer keeps, the step keeps. -/
theorem Kept.clockEdge {Q : Handle → Lines → Spi → Response → Prop} (h : Kept fun s => Q s.handle s.lines s.spi s.rsp)
    {s t : State} (rst : s.inp.rst = false) (hs : Q s.handle s.lines s.spi s.rsp) (run : clockEdge s = .next t) :
    Q t.handle t.lines t.spi t.rsp := by
  rcases clockEdge_cases rst run with ⟨-, rfl⟩ | ⟨-, c, -, rfl⟩ | ⟨-, op, data, frame⟩ | ⟨-, rfl⟩
  · exact h.advance hs
  · refine h.advance ?_
    rcases State.begin_cases c s with ⟨k, fault⟩ | ⟨i, -, loaded⟩
    · rwa [fault]
    · rwa [loaded]
  · obtain ⟨chip, wireOut, draws, rfl⟩ := State.wireFrame_changes frame
    exact hs
  · exact hs

theorem step_rspSound {s t : State} (h : s.rsp.Sound) (run : step s = .next t) : t.rsp.Sound := by
  by_cases rst : s.takeTurn.inp.rst = true
  · rw [step_reset rst] at run
    cases run
    exact (show State.resetResponse.Sound from ⟨by decide, by decide⟩)
  · exact Kept.clockEdge (Q := fun _ _ _ rsp => rsp.Sound) kept_rspSound (Bool.eq_false_iff.mpr rst) h run

/-- Settles O56: a completion writes only kinds of R250, and no item of an operation takes a driver back. -/
theorem everyStepKeepsResponsesAndDrivers : Obligations.EveryStepKeepsResponsesAndDrivers := by
  intro s t run
  refine ⟨fun sound => step_rspSound sound run, fun rst => ?_⟩
  have kept : s.drivers ≤ t.drivers :=
    Kept.clockEdge (Q := fun hd l x _ => s.drivers ≤ (hd.initDone, x.en, l.ceDir, l.csnDir)) (kept_drivers s.drivers) rst
      (le_refl s.drivers) run
  obtain ⟨init, en, ce, csn⟩ := kept
  exact ⟨fun driven => clockEdge_staysDriven (s := s.takeTurn) rst driven run, Bool.le_iff_imp.mp init, Bool.le_iff_imp.mp en,
    Bool.le_iff_imp.mp ce, Bool.le_iff_imp.mp csn⟩

end Sys2Proof.Machine
end

section
/-! PROOF. The cached configuration register (R22, R177, R303 I4): what a frame's events say of `A_CONFIG`, and that every sequence
of the block ends with the cache at what its events say. -/

namespace Sys2Proof.Machine

open Sys2Proof

/-! ### What a frame says of the configuration register -/

theorem lastConfig_append (m : RegMap) (trace es : List Event) :
    lastConfig m (trace ++ es) = es.foldl (configEvent m) (lastConfig m trace) := List.foldl_append

theorem encodeWire_injective : Function.Injective encodeWire := by
  intro a b h
  simpa [decodeWire_encodeWire] using congrArg decodeWire h

/-- A command that accesses no register at `A_CONFIG`. -/
def Elsewhere (m : RegMap) (op : WireOp) : Prop := op ≠ .readReg m.aConfig ∧ op ≠ .writeReg m.aConfig

section scan

variable (m : RegMap) (s : State) (k : Nat) (v : Byte)

theorem scan_xEvents_rest (ts : List Byte) : (s.xEvents k ts).foldl (configEvent m) (.rest, v) = (.rest, v) := by
  induction ts generalizing k with
  | nil => rfl
  | cons t ts ih => exact ih (k + 1)

/-- A frame's events are the opening, the command byte, the data bytes and the closing. -/
theorem scan_frame (c : Byte) (ts : List Byte) :
    (s.frameEvents k (c :: ts)).foldl (configEvent m) (.outside, v) =
      (.outside, ((s.xEvents (k + 1) ts).foldl (configEvent m) (configEvent m (.opened, v) (.xfer c (s.rx k)))).2) := by
  simp [State.frameEvents, configEvent]

theorem scan_frame_elsewhere {op : WireOp} (h : Elsewhere m op) (ts : List Byte) :
    (s.frameEvents k (encodeWire op :: ts)).foldl (configEvent m) (.outside, v) = (.outside, v) := by
  have command : configEvent m (.opened, v) (.xfer (encodeWire op) (s.rx k)) = (.rest, v) := by
    simp [configEvent, encodeWire_injective.eq_iff, h.1, h.2]
  rw [scan_frame, command, scan_xEvents_rest]

theorem scan_frame_noData (c : Byte) : (s.frameEvents k [c]).foldl (configEvent m) (.outside, v) = (.outside, v) := by
  simp only [scan_frame, configEvent, State.xEvents_nil, List.foldl_nil]
  split
  · rfl
  · split <;> rfl

theorem scan_frame_write (t : Byte) (ts : List Byte) :
    (s.frameEvents k (encodeWire (.writeReg m.aConfig) :: t :: ts)).foldl (configEvent m) (.outside, v) = (.outside, t) := by
  have data : configEvent m (configEvent m (.opened, v) (.xfer (encodeWire (.writeReg m.aConfig)) (s.rx k)))
      (.xfer t (s.rx (k + 1))) = (.rest, t) := by
    simp [configEvent, encodeWire_injective.eq_iff]
  rw [scan_frame, State.xEvents_cons, List.foldl_cons, data, scan_xEvents_rest]

theorem scan_frame_read (t : Byte) (ts : List Byte) :
    (s.frameEvents k (encodeWire (.readReg m.aConfig) :: t :: ts)).foldl (configEvent m) (.outside, v) =
      (.outside, s.rx (k + 1)) := by
  have data : configEvent m (configEvent m (.opened, v) (.xfer (encodeWire (.readReg m.aConfig)) (s.rx k)))
      (.xfer t (s.rx (k + 1))) = (.rest, s.rx (k + 1)) := by
    simp [configEvent]
  rw [scan_frame, State.xEvents_cons, List.foldl_cons, data, scan_xEvents_rest]

end scan

/-- A run whose events, begun outside every frame, end there with the byte that the cache then holds. -/
theorem State.CacheAgrees.of_events {s u : State} {es : List Event} (agrees : s.CacheAgrees) (cfg : u.cfg = s.cfg)
    (trace : u.trace = s.trace ++ es)
    (scan : es.foldl (configEvent s.cfg.regMap) (.outside, s.handle.configCache) = (.outside, u.handle.configCache)) :
    u.CacheAgrees := by
  rw [State.CacheAgrees, cfg, trace, lastConfig_append, show lastConfig s.cfg.regMap s.trace = _ from agrees, scan]

/-! ### Sequences that keep the cache in agreement -/

/-- Begun where the cache agrees with the trace, the sequence ends where it does (with the register map of R6). -/
def KeepsCache (is : List Item) : Prop :=
  ∀ s : State, s.far = .free → s.cfg.regMap = RegMap.standard → s.CacheAgrees → (s.perform is).CacheAgrees

theorem KeepsCache.append {a b : List Item} (ha : KeepsCache a) (hb : KeepsCache b) : KeepsCache (a ++ b) := by
  intro s far std agrees
  rw [State.perform_append]
  exact hb _ (by simpa using far) (by simpa using std) (ha s far std agrees)

theorem keepsCache_nil : KeepsCache [] := fun _ _ _ agrees => agrees

/-- An assignment to anything but the cache and CE. -/
theorem KeepsCache.cons_set {is : List Item} {t : Transfer} (h : t.writes ≠ some .mode) (rest : KeepsCache is) :
    KeepsCache (.set t :: is) := by
  intro s far std agrees
  refine rest (s.transfer t) (by simpa using far) (by simpa using std) ?_
  rwa [State.CacheAgrees, State.transfer_cfg, State.transfer_trace, (State.owned_mode (State.transfer_owned h s)).1]

/-- Outside every frame only `CSN=0` moves the position, and no event changes the last byte. -/
theorem configEvent_outside (m : RegMap) (v : Byte) {e : Event} (h : e ≠ .lvl .csn false) :
    configEvent m (.outside, v) e = (.outside, v) := by
  cases e with
  | lvl l level =>
    cases l with
    | ce => rfl
    | csn =>
      cases level with
      | true => rfl
      | false => exact absurd rfl h
  | dir | spiInit | xfer | delayUs | delayMs => rfl

/-- A micro-operation records one event, and `CSN=0` only where it is told to. -/
theorem State.micro_records (s : State) {m : MicroOp} (h : m ≠ .lvl .csn false) :
    ∃ e, (s.micro m).trace = s.trace ++ [e] ∧ e ≠ .lvl .csn false := by
  cases m with
  | lvl l v => exact ⟨.lvl l v, by simp [State.micro], by simpa using h⟩
  | dir l => exact ⟨.dir l, by simp [State.micro], Event.noConfusion⟩
  | xfer src keep => exact ⟨_, rfl, Event.noConfusion⟩
  | spiInit | delayUs | delayMs => exact ⟨_, rfl, Event.noConfusion⟩

/-- A micro-operation that opens no frame. -/
theorem KeepsCache.cons_op {is : List Item} {m : MicroOp} (h : m ≠ .lvl .csn false) (rest : KeepsCache is) :
    KeepsCache (.op m :: is) := by
  intro s far std agrees
  obtain ⟨e, trace, he⟩ := s.micro_records h
  refine rest (s.micro m) (by simpa using far) (by simpa using std) (agrees.of_events (s.micro_cfg m) trace ?_)
  rw [State.micro_handle, List.foldl_cons, configEvent_outside _ _ he, List.foldl_nil]

theorem keepsCache_sends (bytes : List Byte) : KeepsCache (bytes.map send) := by
  induction bytes with
  | nil => exact keepsCache_nil
  | cons b bytes ih => exact ih.cons_op MicroOp.noConfusion

theorem keepsCache_receives (n : Nat) : KeepsCache (List.replicate n receive) := by
  induction n with
  | zero => exact keepsCache_nil
  | succ n ih => exact ih.cons_op MicroOp.noConfusion

theorem keepsCache_waitUs (n : Nat) : KeepsCache (waitUs n) :=
  (keepsCache_nil.cons_set (by decide)).cons_op MicroOp.noConfusion

theorem keepsCache_lvl_ce (v : Bool) : KeepsCache [.op (.lvl .ce v)] := keepsCache_nil.cons_op (by simp)

/-! ### Frames -/

section elsewhere

variable {op : WireOp} (h : Elsewhere RegMap.standard op)
include h

theorem keepsCache_sendFrame (ts : List Byte) : KeepsCache (frame (send (encodeWire op) :: ts.map send)) := by
  intro s far std agrees
  rw [State.perform_sendFrame far]
  exact agrees.of_events rfl rfl (scan_frame_elsewhere _ _ _ _ (std ▸ h) _)

theorem keepsCache_readFrame (n : Nat) : KeepsCache (frame (send (encodeWire op) :: List.replicate n receive)) := by
  intro s far std agrees
  rw [State.perform_readFrame far]
  exact agrees.of_events rfl rfl (scan_frame_elsewhere _ _ _ _ (std ▸ h) _)

theorem keepsCache_srcFrame (src : Src) : KeepsCache (frame [send (encodeWire op), .op (.xfer src false)]) := by
  intro s far std agrees
  rw [State.perform_srcFrame far]
  exact agrees.of_events rfl rfl (scan_frame_elsewhere _ _ _ _ (std ▸ h) _)

end elsewhere

section otherRegister

variable {a : RegAddr} (h : a ≠ RegMap.standard.aConfig)
include h

theorem elsewhere_readReg : Elsewhere RegMap.standard (.readReg a) := ⟨by simpa using h, WireOp.noConfusion⟩

theorem elsewhere_writeReg : Elsewhere RegMap.standard (.writeReg a) := ⟨WireOp.noConfusion, by simpa using h⟩

theorem keepsCache_memRead (n : Nat) : KeepsCache (memRead a n) :=
  (keepsCache_readFrame (elsewhere_readReg h) n).cons_set (by decide)

theorem keepsCache_memWrite (bytes : List Byte) : KeepsCache (memWrite a bytes) :=
  keepsCache_sendFrame (elsewhere_writeReg h) bytes

end otherRegister

theorem keepsCache_flushTx : KeepsCache flushTxItems := keepsCache_sendFrame (op := .flushTx) ⟨nofun, nofun⟩ []

theorem keepsCache_flushRx : KeepsCache flushRxItems := keepsCache_sendFrame (op := .flushRx) ⟨nofun, nofun⟩ []

theorem keepsCache_rdPl (n : Nat) : KeepsCache (rdPlItems n) :=
  (keepsCache_readFrame (op := .readPayload) ⟨nofun, nofun⟩ n).cons_set (by decide)

theorem keepsCache_wrPl (bytes : List Byte) : KeepsCache (wrPlItems bytes) :=
  keepsCache_sendFrame (op := .writePayload) ⟨nofun, nofun⟩ bytes

/-! ### The accesses to the configuration register (R22) -/

/-- R12: a frame that ends after its command byte has no data byte. -/
theorem keepsCache_command (c : Byte) : KeepsCache (frame [send c]) := by
  intro s far std agrees
  rw [State.perform_commandFrame far]
  exact agrees.of_events rfl rfl (scan_frame_noData _ _ _ _ _)

/-- R141, R167: `A_CONFIG` written, then the first byte written into the cache. -/
theorem keepsCache_writeConfig (b : Byte) (bytes : List Byte) :
    KeepsCache (memWrite RegMap.standard.aConfig (b :: bytes) ++ [.set (.cacheSet b)]) := by
  intro s far std agrees
  rw [State.perform_append, State.perform_memWrite far]
  exact agrees.of_events rfl rfl (std ▸ scan_frame_write ..)

/-- R140, R167: `A_CONFIG` read, then the first byte read into the cache. -/
theorem keepsCache_readConfig (n : Nat) :
    KeepsCache (memRead RegMap.standard.aConfig (n + 1) ++ [.set .cacheRead]) := by
  intro s far std agrees
  rw [State.perform_append, State.perform_memRead far, State.perform_set, State.perform_nil, State.transfer_cacheRead,
    State.setRd_ctl_rd, State.rxBytes_succ]
  refine agrees.of_events rfl rfl ?_
  rw [std]
  exact scan_frame_read ..

/-- R168 to R171: whatever an assignment makes of the cache, writing the cache to `A_CONFIG` makes the two agree. -/
theorem keepsCache_writeCache (t : Transfer) : KeepsCache (.set t :: memWriteCache RegMap.standard) := by
  intro s far std agrees
  rw [State.perform_set, State.perform_memWriteCache (by simpa using far)]
  refine agrees.of_events (s.transfer_cfg t) (congrArg (· ++ _) (s.transfer_trace t)) ?_
  rw [std]
  exact scan_frame_write ..

/-! ### The sequences of the operations -/

theorem keepsCache_standby : KeepsCache (standbyItems RegMap.standard) :=
  (((keepsCache_memWrite (by decide) _).append (keepsCache_lvl_ce false)).append keepsCache_flushTx).append keepsCache_flushRx

theorem keepsCache_poll : KeepsCache (pollItems RegMap.standard) :=
  (keepsCache_memRead (by decide) 1).append ((keepsCache_nil.cons_set (by decide)).cons_set (by decide))

theorem keepsCache_pwrUp : KeepsCache (pwrUpItems RegMap.standard) :=
  (keepsCache_writeCache _).append (keepsCache_waitUs _)

theorem keepsCache_pwrDn : KeepsCache (pwrDnItems RegMap.standard) :=
  (keepsCache_writeCache _).append (keepsCache_lvl_ce false)

theorem keepsCache_modeRx : KeepsCache (modeRxItems RegMap.standard) :=
  ((keepsCache_writeCache _).append (keepsCache_lvl_ce true)).append (keepsCache_waitUs _)

theorem keepsCache_modeTx : KeepsCache (modeTxItems RegMap.standard) :=
  ((keepsCache_writeCache _).append (keepsCache_lvl_ce true)).append (keepsCache_waitUs _)

/-- R140: only a read of `A_CONFIG` with a byte needs the cache to follow. -/
theorem keepsCache_rdReg (reg : Byte) (n : Nat) : KeepsCache (rdRegItems RegMap.standard reg n) := by
  unfold rdRegItems
  by_cases h : regAddr reg = RegMap.standard.aConfig
  · rw [h]
    cases n with
    | zero => exact ((keepsCache_command _).cons_set (by decide)).append keepsCache_nil
    | succ n => exact keepsCache_readConfig n
  · rw [if_neg (h ·.2)]
    exact (keepsCache_memRead h n).append keepsCache_nil

/-- R141: only a write of `A_CONFIG` with a byte needs the cache to follow. -/
theorem keepsCache_wrReg (reg : Byte) (bytes : List Byte) : KeepsCache (wrRegItems RegMap.standard reg bytes) := by
  unfold wrRegItems
  cases bytes with
  | nil => exact (keepsCache_command _).append keepsCache_nil
  | cons b bytes =>
    by_cases h : regAddr reg = RegMap.standard.aConfig
    · rw [h]
      exact keepsCache_writeConfig b bytes
    · rw [cacheWritten, if_neg h]
      exact (keepsCache_memWrite h _).append keepsCache_nil

/-- R42: the registers of pipes 0 to 5 are others. -/
theorem pipeAddr_ne_aConfig {pipe : Byte} (h : pipeOk pipe = true) :
    pwAddr RegMap.standard pipe ≠ RegMap.standard.aConfig ∧ rxAddrAddr RegMap.standard pipe ≠ RegMap.standard.aConfig := by
  revert pipe
  decide

theorem keepsCache_setPw {pipe : Byte} (h : pipeOk pipe = true) (size : Byte) :
    KeepsCache (setPwItems RegMap.standard pipe size) :=
  keepsCache_memWrite (pipeAddr_ne_aConfig h).1 [size]

theorem keepsCache_setRxAddr {pipe : Byte} (h : pipeOk pipe = true) (bytes : List Byte) :
    KeepsCache (setRxAddrItems RegMap.standard pipe bytes) :=
  (((keepsCache_memWrite (pipeAddr_ne_aConfig h).2 _).append (keepsCache_memRead (by decide) 1)).append
    (keepsCache_nil.cons_set (by decide))).append (keepsCache_srcFrame (elsewhere_writeReg (by decide)) _)

theorem keepsCache_setTxAddr (bytes : List Byte) : KeepsCache (setTxAddrItems RegMap.standard bytes) :=
  ((keepsCache_memWrite (by decide) _).append (keepsCache_memWrite (by decide) _)).append (keepsCache_nil.cons_set (by simp))

/-- R167: CSN is driven high, then `A_CONFIG` is written and read. -/
theorem keepsCache_init (ce csn : Byte) : KeepsCache (initItems RegMap.standard ce csn) := by
  have lines : KeepsCache [.set (.lineIds ce csn), .op (.dir .ce), .op (.dir .csn), .op (.lvl .ce false), .op (.lvl .csn true),
      .op .spiInit] := by
    refine .cons_set (by simp) (.cons_op ?_ (.cons_op ?_ (.cons_op ?_ (.cons_op ?_ (.cons_op ?_ keepsCache_nil))))) <;> simp
  have width : KeepsCache (memRead RegMap.standard.aSetupAw 1 ++ [.set .widthRead, .set .initDone]) :=
    (keepsCache_memRead (by decide) 1).append ((keepsCache_nil.cons_set (by simp)).cons_set (by simp))
  simpa [initItems] using (lines.append (keepsCache_waitUs _)).append
    ((keepsCache_writeConfig RegMap.standard.configInit []).append ((keepsCache_readConfig 0).append width))

theorem keepsCache_radioInit (ce csn : Byte) : KeepsCache (radioInitItems RegMap.standard ce csn) := by
  have write {a : RegAddr} (h : a ≠ RegMap.standard.aConfig) (b : Byte) := keepsCache_memWrite h [b]
  exact (((((((((keepsCache_init ce csn).append (write (by decide) _)).append (write (by decide) _)).append
    (write (by decide) _)).append keepsCache_flushTx).append keepsCache_flushRx).append (write (by decide) _)).append
    (write (by decide) _)).append (write (by decide) _)).append keepsCache_pwrUp

theorem keepsCache_radioWrite (bytes : List Byte) : KeepsCache (radioWriteItems RegMap.standard bytes) :=
  (((keepsCache_wrPl bytes).append keepsCache_modeTx).append ((keepsCache_nil.cons_set (by simp)).cons_op (by simp))).append
    keepsCache_poll

theorem keepsCache_radioRead : KeepsCache (radioReadItems RegMap.standard) :=
  (keepsCache_modeRx.append (keepsCache_memRead (by decide) 1)).append (keepsCache_nil.cons_set (by simp))

/-- An operation that passes its checks (R100: a pipe is one of 0 to 5). -/
theorem jobOf_keepsCache {en : Bool} {hd : Handle} {i : Instr} (h : (jobOf en hd RegMap.standard i).check = none) :
    KeepsCache (jobOf en hd RegMap.standard i).items := by
  cases i with
  | spiInitm => exact keepsCache_nil.cons_op (by simp)
  | spiTx byte => exact keepsCache_sends [byte]
  | spiRx => exact keepsCache_receives 1
  | spiWrbuf n buf => exact keepsCache_sends _
  | spiRdbuf n => exact keepsCache_receives _
  | nrfRdreg reg n => exact keepsCache_rdReg _ _
  | nrfWrreg reg n buf => exact keepsCache_wrReg _ _
  | nrfStatus | nrfRxempty | nrfRxfull | nrfTxempty | nrfTxfull | radioHaspl => exact keepsCache_memRead (by decide) 1
  | nrfClrstatus | nrfSetrf | nrfSetch | nrfSetretr => exact keepsCache_memWrite (by decide) _
  | nrfSetpw pipe size =>
    obtain ⟨-, args, -⟩ := acceptanceFault_eq_none h
    obtain ⟨pipe, -⟩ := Bool.and_eq_true_iff.mp args
    exact keepsCache_setPw pipe _
  | nrfDispipe pipe =>
    obtain ⟨-, pipe, -⟩ := acceptanceFault_eq_none h
    exact keepsCache_setPw pipe 0
  | nrfSetrxaddr pipe address =>
    obtain ⟨-, pipe, -⟩ := acceptanceFault_eq_none h
    exact keepsCache_setRxAddr pipe _
  | nrfSettxaddr address => exact keepsCache_setTxAddr _
  | nrfInit ce csn => exact keepsCache_init ce csn
  | nrfPwrup => exact keepsCache_pwrUp
  | nrfPwrdn => exact keepsCache_pwrDn
  | nrfModerx => exact keepsCache_modeRx
  | nrfModetx => exact keepsCache_modeTx
  | nrfStandby => exact keepsCache_standby
  | nrfFlushtx => exact keepsCache_flushTx
  | nrfFlushrx => exact keepsCache_flushRx
  | nrfRdpl n => exact keepsCache_rdPl _
  | nrfWrpl n buf => exact keepsCache_wrPl _
  | radioInit ce csn => exact keepsCache_radioInit ce csn
  | radioWrite n payload => exact keepsCache_radioWrite _
  | radioRead n => exact keepsCache_radioRead
  | rRegister | wRegister | rRxPayload | wTxPayload | flushTx | flushRx => exact keepsCache_nil

/-! ### The sequencer, uninterrupted -/

/-- R202: an exit of the poll loop flushes and returns to standby; neither touches `A_CONFIG`. -/
theorem pollExit_keepsCache {s : State} (std : s.cfg.regMap = RegMap.standard) {is : List Item} (h : s.pollExit = some is) :
    KeepsCache is := by
  simp only [State.pollExit, std] at h
  split at h
  · cases h
    exact (keepsCache_flushTx.append keepsCache_standby).cons_set (by decide)
  · split at h
    · cases h
      exact keepsCache_standby
    · split at h
      · cases h
        exact keepsCache_standby.cons_set (by decide)
      · cases h

section uninterrupted

variable {s : State} (free : s.Uninterrupted)
include free

theorem State.runToEnd_idle (is : List Item) (f : Finish) : (s.runToEnd is f).ctl.busy = false := by
  rw [State.runToEnd_all free.1]
  rfl

/-- R202: the delay of the poll loop, and the next poll still to do. -/
theorem State.pollAgain_all : s.pollAgain =
    ((s.withTail .pollBranch).micro (.delayMs Config.tPollMs)).withTodo (.set .delayDone :: pollItems s.cfg.regMap) := by
  rw [State.pollAgain_eq, State.pollDelay, State.runItems_op_none (s := s.withTail .pollBranch) free.1]
  rfl

/-- Only the poll loop, begun with its scratch registers clear, leaves a block busy after an uninterrupted step. -/
theorem State.runTail_polling (scratch : s.ctl.tail = .pollBranch → s.ctl.failed = false ∧ s.ctl.timedOut = false)
    (busy : s.runTail.ctl.busy = true) : ∃ k, s.runTail.Polling k := by
  rcases s.runTail_cases with ⟨f, run⟩ | ⟨is, f, run, -⟩ | ⟨tail, run⟩ <;> rw [run] at busy ⊢
  · rw [State.tryComplete_all free.1] at busy
    cases busy
  · rw [s.runToEnd_idle free] at busy
    cases busy
  · obtain ⟨failed, timedOut⟩ := scratch tail
    rw [s.pollAgain_all free] at busy ⊢
    exact ⟨_, busy, rfl, rfl, failed, timedOut, rfl⟩

variable (std : s.cfg.regMap = RegMap.standard) (agrees : s.CacheAgrees)
include std agrees

theorem State.runToEnd_agrees {is : List Item} (h : KeepsCache is) (f : Finish) : (s.runToEnd is f).CacheAgrees := by
  rw [State.runToEnd_all free.1]
  exact h { s with ctl.tail := .finish f } free.2 std agrees

theorem State.pollAgain_agrees : s.pollAgain.CacheAgrees := by
  have delay : KeepsCache [.op (.delayMs Config.tPollMs)] := keepsCache_nil.cons_op MicroOp.noConfusion
  rw [s.pollAgain_all free]
  exact delay (s.withTail .pollBranch) free.2 std agrees

/-- R202, R203: the branches read payloads, go back to standby or wait: none touches `A_CONFIG`. -/
theorem State.runTail_agrees : s.runTail.CacheAgrees := by
  rcases s.runTail_cases with ⟨f, run⟩ | ⟨is, f, run, rfl | ⟨n, rfl⟩ | exit⟩ | ⟨-, run⟩ <;> rw [run]
  · rw [State.tryComplete_all free.1]
    exact agrees
  · exact s.runToEnd_agrees free std agrees keepsCache_nil f
  · exact s.runToEnd_agrees free std agrees (keepsCache_rdPl n) f
  · exact s.runToEnd_agrees free std agrees (pollExit_keepsCache std exit) f
  · exact s.pollAgain_agrees free std agrees

end uninterrupted

/-! ### A running operation -/

/-- R202: of all operations only the link write polls. -/
theorem jobOf_pollBranch {en : Bool} {hd : Handle} {m : RegMap} {i : Instr} (h : (jobOf en hd m i).tail = .pollBranch) :
    ∃ bytes, (jobOf en hd m i).items = radioWriteItems m bytes := by
  cases i with
  | radioWrite n payload => exact ⟨_, rfl⟩
  | _ => cases h

/-- R202: the link write clears the scratch registers before its first poll. -/
theorem State.perform_radioWrite_scratch {s : State} (far : s.far = .free) {m : RegMap} (map : s.cfg.regMap = m)
    (bytes : List Byte) :
    (s.perform (radioWriteItems m bytes)).ctl.failed = false ∧ (s.perform (radioWriteItems m bytes)).ctl.timedOut = false := by
  rw [State.perform_radioWriteItems far map.symm bytes rfl]
  exact ⟨rfl, rfl⟩

/-- A block whose running operation keeps the cache in agreement, and clears the scratch registers if it polls. -/
structure State.Agreeing (s : State) : Prop where
  free : s.Uninterrupted
  std : s.cfg.regMap = RegMap.standard
  agrees : s.CacheAgrees
  keeps : KeepsCache s.ctl.todo
  scratch : s.ctl.tail = .pollBranch →
    (s.perform s.ctl.todo).ctl.failed = false ∧ (s.perform s.ctl.todo).ctl.timedOut = false

/-- R303 I4 along an uninterrupted step of the sequencer. -/
theorem State.Agreeing.advance {s : State} (h : s.Agreeing) :
    s.advance.CacheAgrees ∧ (s.advance.ctl.busy = true → ∃ k, s.advance.Polling k) := by
  have free : State.Uninterrupted { s.perform s.ctl.todo with ctl.todo := [] } :=
    ⟨(State.perform_budget _ s).trans h.free.1, (State.perform_far _ s).trans h.free.2⟩
  rw [State.advance_all h.free.1]
  exact ⟨State.runTail_agrees free ((congrArg Config.regMap (State.perform_cfg _ s)).trans h.std)
      (h.keeps s h.free.2 h.std h.agrees),
    State.runTail_polling free fun tail => h.scratch ((State.perform_ctl_tail _ s).symm.trans tail)⟩

/-! ### The step -/

/-- R202: a block inside the delay of its poll loop. -/
theorem State.Agreeing.of_polling {s : State} {k : Nat} (free : s.Uninterrupted) (std : s.cfg.regMap = RegMap.standard)
    (agrees : s.CacheAgrees) (polling : s.Polling k) : s.Agreeing := by
  obtain ⟨-, -, todo, failed, timedOut, -⟩ := polling
  refine ⟨free, std, agrees, ?_, fun _ => ?_⟩
  · rw [todo, std]
    exact keepsCache_poll.cons_set (by decide)
  · rw [todo, State.perform_set, State.perform_pollItems (by simpa using free.2) (by simp)]
    exact ⟨failed, timedOut⟩

/-- R96, R97: an idle block that begins a host command. -/
theorem State.Agreeing.begin {s : State} (c : HostCmd) (free : s.Uninterrupted) (std : s.cfg.regMap = RegMap.standard)
    (agrees : s.CacheAgrees) : (s.begin c).Agreeing := by
  rcases State.begin_cases c s with ⟨k, fault⟩ | ⟨i, check, loaded⟩
  · rw [fault]
    exact ⟨free, std, agrees, keepsCache_nil, nofun⟩
  · rw [std] at check loaded
    rw [loaded]
    refine ⟨free, std, agrees, jobOf_keepsCache check, fun polls => ?_⟩
    obtain ⟨bytes, items⟩ := jobOf_pollBranch polls
    rw [State.load_ctl_todo, items]
    exact State.perform_radioWrite_scratch (s := (s.accept (.host c)).load _ _) free.2 std bytes

/-- Settles O57: only the sequencer adds to the trace, and every sequence it takes up keeps the cache in agreement. -/
theorem cacheIsTheLastConfigurationByte : Obligations.CacheIsTheLastConfigurationByte := by
  intro s t far std rst budget polling agrees run
  have free : s.takeTurn.Uninterrupted := ⟨budget, far⟩
  rcases clockEdge_cases (s := s.takeTurn) rst run with ⟨busy, rfl⟩ | ⟨-, c, -, rfl⟩ | ⟨idle, op, data, frame⟩ | ⟨idle, rfl⟩
  · obtain ⟨k, inLoop⟩ := polling busy
    exact (State.Agreeing.of_polling (s := s.takeTurn) free std agrees inLoop).advance
  · exact (State.Agreeing.begin (s := s.takeTurn) c free std agrees).advance
  · obtain ⟨chip, wireOut, draws, rfl⟩ := State.wireFrame_changes frame
    exact ⟨agrees, fun busy => Bool.noConfusion (idle.symm.trans busy)⟩
  · exact ⟨agrees, fun busy => Bool.noConfusion (idle.symm.trans busy)⟩

end Sys2Proof.Machine
end
